-- ==== Sys2Proof/Word.lean ====
section
/-! DEFINITION. The word types of the NL-18: one character of a line or one store byte, and the 16-bit CRC register. -/

namespace Sys2Proof

/-- One byte: a store byte (R57), a character's data bits (R143), a byte of a frame field (R161). -/
abbrev Byte := BitVec 8

/-- The 16-bit register of the CRC-16 (R105, R147). -/
abbrev Word16 := BitVec 16

/-- A number as one byte, modulo 256. -/
abbrev byte (n : Nat) : Byte := BitVec.ofNat 8 n

end Sys2Proof
end

