-- ==== Sys2Proof/Syntax.lean ====
section
/-! DEFINITION. The commands of the NL-18: one constructor for each row of spec/opcode_table.json. A command says which
event of the part is taken now (assumption log 1). A request's own fields stand in the frame that the port's held slot
holds (log 2). `late := true` says that the block which is handed something in this step has not taken it yet; a
further command of the same row then lets that block take it (log 3). -/

namespace Sys2Proof

/-- The four ports P0 to P3 (00_scope.md, "Ports"). -/
inductive Port where
  | p0 | p1 | p2 | p3
deriving DecidableEq, Repr

/-- The five requesters of the store arbiter and of admission (R43, R59). -/
inductive Requester where
  | port (p : Port)
  | engine
deriving DecidableEq, Repr

/-- Which block takes a 1 ms boundary in this step (R177: each takes it as an event of its own). -/
inductive BoundaryTaker where
  | both | leaseUnit | jobEngine
deriving DecidableEq, Repr

/-- The levels of RXD0 to RXD3 at the release of reset, mark being true (R145). -/
structure RxLevels where
  rx0 : Bool
  rx1 : Bool
  rx2 : Bool
  rx3 : Bool
deriving DecidableEq, Repr

/-- The commands. The comment on each names its row of the table and its rule. -/
inductive Instr where
  /-- OPEN (R133): the port unit takes the OPEN frame in its held slot. -/
  | openSession (p : Port)
  /-- CLOSE (R137). -/
  | close (p : Port)
  /-- PORT_STATUS (R135); `late`: one more reading is gathered and the reply is not built yet. -/
  | portStatus (p : Port) (late : Bool)
  /-- WIN_OPEN (R80, R81). -/
  | winOpen (p : Port)
  /-- WIN_CLOSE (R83). -/
  | winClose (p : Port)
  /-- WIN_LIST (R86). -/
  | winList (p : Port)
  /-- READ (R63). -/
  | read (p : Port)
  /-- WRITE (R65). -/
  | write (p : Port)
  /-- EXCHANGE_IF (R68). -/
  | exchangeIf (p : Port)
  /-- LEASE (R5 to R13); `late`: handed to the lease unit and not yet decided (R140). -/
  | lease (p : Port) (late : Bool)
  /-- RENEW (R15). -/
  | renew (p : Port) (late : Bool)
  /-- RELEASE (R16). -/
  | release (p : Port) (late : Bool)
  /-- WITHDRAW (R35). -/
  | withdraw (p : Port) (late : Bool)
  /-- LEASE_LIST (R20). -/
  | leaseList (p : Port) (late : Bool)
  /-- JOB_COPY (R93); `late`: handed to the job engine and not yet decided (R140). -/
  | jobCopy (p : Port) (late : Bool)
  /-- JOB_FILL (R94). -/
  | jobFill (p : Port) (late : Bool)
  /-- JOB_SUM (R95). -/
  | jobSum (p : Port) (late : Bool)
  /-- JOB_PAUSE (R112). -/
  | jobPause (p : Port) (late : Bool)
  /-- JOB_RESUME (R113). -/
  | jobResume (p : Port) (late : Bool)
  /-- JOB_CANCEL (R114). -/
  | jobCancel (p : Port) (late : Bool)
  /-- JOB_QUERY (R123). -/
  | jobQuery (p : Port) (late : Bool)
  /-- DEV_STATUS (R170); `late` as for PORT_STATUS. -/
  | devStatus (p : Port) (late : Bool)
  /-- FORCE_RELEASE (R171). -/
  | forceRelease (p : Port) (late : Bool)
  /-- FORCE_CANCEL (R173). -/
  | forceCancel (p : Port) (late : Bool)
  /-- PORT_DROP (R174); `late`: the target's transmitter has not taken the SESSION-ENDED offer yet. -/
  | portDrop (p : Port) (late : Bool)
  /-- UNKNOWN_KIND (R130): a held frame whose KIND is no request kind. -/
  | unknownKind (p : Port)
  /-- FRAME_COMPLETE (R147): a good unmarked character, `idle` bit times of mark before it. -/
  | frameComplete (p : Port) (idle : Nat) (char : Byte)
  /-- LENGTH_DISCARD (R146): a good unmarked character that completes a LEN above 1040. -/
  | lengthDiscard (p : Port) (idle : Nat) (char : Byte)
  /-- CUT_DISCARD (R149): a good marked character while ASSEMBLING. -/
  | cutDiscard (p : Port) (idle : Nat) (char : Byte)
  /-- FRAMING_DISCARD (R149): a character with a stop-bit error, its mark bit and its byte. -/
  | framingDiscard (p : Port) (idle : Nat) (char : Bool × Byte)
  /-- BREAK (R151): the line has been at space for `bits` further bit times. -/
  | lineBreak (p : Port) (bits : Nat)
  /-- BREAK_END (R151): the line has been at mark for `bits` further bit times. -/
  | breakEnd (p : Port) (bits : Nat)
  /-- BREAK_REPORT (R152): the port unit takes a break report. -/
  | breakReport (p : Port)
  /-- DROP_ORDER (R174): the target port unit takes a drop order. -/
  | dropOrder (p : Port)
  /-- TEARDOWN_WAITER_STEP (R21, R38); `late`: outcomes of retries are still on their way. -/
  | teardownWaiterStep (p : Port) (late : Bool)
  /-- TEARDOWN_LEASE_STEP (R21). -/
  | teardownLeaseStep (p : Port)
  /-- TEARDOWN_JOB_STEP (R124). -/
  | teardownJobStep (p : Port)
  /-- TEARDOWN_HISTORY_STEP (R124). -/
  | teardownHistoryStep (p : Port)
  /-- SESSION_DOWN (R141). -/
  | sessionDown (p : Port)
  /-- DOWN_REPORT (R175): PU0 takes the DOWN report of port `p`. -/
  | downReport (p : Port)
  /-- MS_BOUNDARY (R177). -/
  | msBoundary (by' : BoundaryTaker)
  /-- LEASE_LAPSE (R17): the lapse of the lease with this id. -/
  | leaseLapse (id : Nat)
  /-- WAIT_EXPIRY (R27): the expiry of the port's waiter with this tag. -/
  | waitExpiry (p : Port) (tag : Byte)
  /-- BLOCK_LIMIT_EXPIRY (R118): the expiry of the job with this id. -/
  | blockLimitExpiry (id : Nat)
  /-- ADMISSION_REQUEST (R46); `late`: the outcome is still on its way to the requester (R51). -/
  | admissionRequest (r : Requester) (late : Bool)
  /-- ADMISSION_WITHDRAWAL (R51). -/
  | admissionWithdrawal (r : Requester) (late : Bool)
  /-- CLAIM_END (R34). -/
  | claimEnd (r : Requester) (late : Bool)
  /-- TURN_REQUEST (R60). -/
  | turnRequest (r : Requester)
  /-- TURN_END (R61). -/
  | turnEnd
  /-- LEASE_REMOVAL_REPORT (R108). -/
  | leaseRemovalReport
  /-- FRAME_SENT (R154). -/
  | frameSent (p : Port)
  /-- POWER_ON (R179). -/
  | powerOn
  /-- RESET_ASSERT (R179): RESET_N has been low for `lowCycles` consecutive core clock cycles. -/
  | resetAssert (lowCycles : Nat)
  /-- RESET_RELEASE (R180): the release, with the levels of the rate straps LR1 and LR0, of SUPV, and of the receive lines
  (R145). -/
  | resetRelease (rate : Bool × Bool) (supv : Bool) (rx : RxLevels)
  /-- ASSEMBLY_BEGINS (R145): a good marked character. -/
  | assemblyBegins (p : Port) (idle : Nat) (char : Byte)
  /-- CHARACTER_APPENDED (R146): a good unmarked character. -/
  | characterAppended (p : Port) (idle : Nat) (char : Byte)
deriving DecidableEq, Repr

end Sys2Proof
end

