-- ==== Sys2Proof/Decode.lean ====
section
/-! DEFINITION. Commands spelt by words: spec/opcode_table.json gives no row any bits ("fields" is empty in all 56), so
no word spells a command. -/

namespace Sys2Proof

/-- The command that a word of the table's bits spells: none, since the table gives its rows no bits. -/
def decodeTableWord (_nbits _w : Nat) : Option Instr := none

end Sys2Proof
end

