-- ==== Sys2Proof/Config.lean ====
section
/-! DEFINITION. The free values: what spec/ leaves undefined and the part nevertheless goes on with. They have no
body that a proof could use, so a statement about them holds whatever they are. -/

namespace Sys2Proof

/-- What a read turn returns for the store byte at `address` that no write turn has written since power-on number
`epoch` (R58, "Power-on"): some value, the same at every such read. Assumption log 6. -/
opaque Config.powerOnByte (epoch address : Nat) : Byte

/-- Whether the byte at `address` of the write turn that device reset number `reset` interrupts holds the value the turn
was writing (true) or its old value (false) (R58, "RESET_N asserted", "byte by byte and in any mix"). Log 7. -/
opaque Config.resetByteWritten (reset address : Nat) : Bool

end Sys2Proof
end

