-- ==== Sys2Proof/Machine/State.lean ====
section
/-! DEFINITION. The state of the NL-18, as plain data: every register, table, queue, counter and mode that spec/ names,
what one block has handed another and the other has not yet taken, and the queue of commands. INVENTORY.md lists each
piece with its rule and reset value. -/

namespace Sys2Proof.Machine

/-! ## One thing per port, one thing per requester -/

/-- One value for each of the ports P0 to P3. -/
structure PerPort (α : Type) where
  p0 : α
  p1 : α
  p2 : α
  p3 : α
deriving DecidableEq, Repr

/-- The value of one port. -/
def PerPort.get {α : Type} (v : PerPort α) : Port → α
  | .p0 => v.p0
  | .p1 => v.p1
  | .p2 => v.p2
  | .p3 => v.p3

/-- The values with that of one port replaced. -/
def PerPort.set {α : Type} (v : PerPort α) (p : Port) (a : α) : PerPort α :=
  match p with
  | .p0 => { v with p0 := a }
  | .p1 => { v with p1 := a }
  | .p2 => { v with p2 := a }
  | .p3 => { v with p3 := a }

/-- The same value for every port. -/
def PerPort.const {α : Type} (a : α) : PerPort α := { p0 := a, p1 := a, p2 := a, p3 := a }

/-- One value for each of the five requesters. -/
structure PerRequester (α : Type) where
  ports : PerPort α
  engine : α
deriving DecidableEq, Repr

/-- The value of one requester. -/
def PerRequester.get {α : Type} (v : PerRequester α) : Requester → α
  | .port p => v.ports.get p
  | .engine => v.engine

/-- The values with that of one requester replaced. -/
def PerRequester.set {α : Type} (v : PerRequester α) (r : Requester) (a : α) : PerRequester α :=
  match r with
  | .port p => { v with ports := v.ports.set p a }
  | .engine => { v with engine := a }

/-! ## Frames and ranges -/

/-- A frame without its CHECK (R146, R161): LEN is the payload's length. -/
structure Frame where
  kind : Byte
  tag : Byte
  payload : List Byte
deriving DecidableEq, Repr

/-- A range of addresses: start and length (00_scope.md, "Addresses"). -/
structure Range where
  start : Nat
  length : Nat
deriving DecidableEq, Repr

/-- The 25 request kinds (10 TABLE 3). -/
inductive Kind where
  | openSession | close | portStatus
  | winOpen | winClose | winList
  | read | write | exchangeIf
  | lease | renew | release | withdraw | leaseList
  | jobCopy | jobFill | jobSum | jobPause | jobResume | jobCancel | jobQuery
  | devStatus | forceRelease | forceCancel | portDrop
deriving DecidableEq, Repr

/-- The result codes (10 TABLE 8). -/
inductive Result where
  | ok | unknownKind | badLength | badField | noSession | wrongState | tagInUse | notMapped | noRight | wraps
  | misaligned | overlap | leased | conflict | noRoom | timedOut | notFound | withdrawn | notPermitted | mismatch
deriving DecidableEq, Repr

/-- The notices (10 TABLE 9). -/
inductive NoticeKind where
  | leaseLapsed | leaseRevoked | jobEnd | jobBlocked | frameDiscarded | overrun | sessionEnded
deriving DecidableEq, Repr

/-- The reasons of a discard (R149). -/
inductive DiscardReason where
  | check | length | cut | framing
deriving DecidableEq, Repr

/-! ## The link receiver (09 TABLE 2) -/

/-- The receiver's states. -/
inductive RxState where
  | hunting | assembling | brk
deriving DecidableEq, Repr

/-- Break timing: the run of space, and after a break the run of idle mark, in bit times (09 TABLE 2). -/
inductive LineRun where
  | none
  | space (bits : Nat)
  | mark (bits : Nat)
deriving DecidableEq, Repr

/-- A link receiver LRXn. -/
structure Receiver where
  state : RxState
  /-- The assembly buffer, KIND first. -/
  buffer : List Byte
  held : Option Frame
  run : LineRun
  /-- The levels so far of the character in progress, its start bit first, mark being true: the model's own (R145; log
  25). -/
  character : List Bool
  checkDiscards : Nat
  lengthDiscards : Nat
  cutDiscards : Nat
  framingDiscards : Nat
  overruns : Nat
deriving DecidableEq, Repr

/-- After device reset (09 TABLE 2). -/
def Receiver.reset : Receiver :=
  { state := .hunting, buffer := [], held := none, run := .none, character := [], checkDiscards := 0,
    lengthDiscards := 0, cutDiscards := 0, framingDiscards := 0, overruns := 0 }

/-! ## The link transmitter (09 TABLE 6) -/

/-- The serializer. `cycles` counts core clock cycles spent in the character in progress (assumption log 4). -/
inductive Serializer where
  | idle
  /-- SENDING the oldest frame of the queue; `position` is the character in progress. -/
  | sending (position cycles : Nat)
  /-- After a flush: finishing the character in progress of the oldest frame, which then leaves the queue (R158). -/
  | cutting (position cycles : Nat)
  /-- As `cutting`, the frame having left the queue because discard mode went off first (R159, log 12). -/
  | finishing (character : Bool × Byte) (cycles : Nat)
deriving DecidableEq, Repr

/-- A link transmitter LTXn. -/
structure Transmitter where
  /-- The transmit queue, oldest first. -/
  queue : List Frame
  reserved : Nat
  serializer : Serializer
  discard : Bool
  dropped : Nat
deriving DecidableEq, Repr

/-- After device reset (09 TABLE 6). -/
def Transmitter.reset : Transmitter :=
  { queue := [], reserved := 0, serializer := .idle, discard := false, dropped := 0 }

/-! ## The port unit -/

/-- The session states (R126). -/
inductive Session where
  | down | up | closing
deriving DecidableEq, Repr

/-- The causes of a teardown (R138). -/
inductive Cause where
  | close | brk | portDrop
deriving DecidableEq, Repr

/-- The notice mask (R134). -/
structure NoticeMask where
  lease : Bool
  job : Bool
  line : Bool
deriving DecidableEq, Repr

/-- The rights of a window (05 TABLE 1). -/
inductive Rights where
  | readOnly | writeOnly | readWrite
deriving DecidableEq, Repr

/-- An OPEN window entry (05 TABLE 1). -/
structure Window where
  base : Nat
  sizeCode : Nat
  repeatCode : Nat
  physical : Nat
  rights : Rights
deriving DecidableEq, Repr

/-- The kinds of lease (R3). -/
inductive LeaseKind where
  | exclusive | shared
deriving DecidableEq, Repr

/-- A LEASE request that has passed the port unit's checks (R5): the range is physical. -/
structure LeaseRequest where
  kind : LeaseKind
  range : Range
  logical : Nat
  window : Nat
  life : Nat
  wait : Nat
deriving DecidableEq, Repr

/-- The work a job submission names, its ranges physical (R93 to R95). -/
inductive Submission where
  | copy (source destination : Nat)
  | fill (destination : Nat) (pattern : List Byte)
  | sum (source : Nat)
deriving DecidableEq, Repr

/-- A request that the port unit has handed to the lease unit or the job engine and that is not yet decided (R140). -/
inductive Handed where
  | lease (request : LeaseRequest)
  | renew (id life : Nat)
  | release (id : Nat)
  | withdraw (tag : Byte)
  | leaseList
  | submit (work : Submission) (length limit : Nat)
  | jobPause (id : Nat)
  | jobResume (id : Nat)
  | jobCancel (id : Nat)
  | jobQuery (id : Nat)
  | forceRelease (id : Nat)
  | forceCancel (id : Nat)
deriving DecidableEq, Repr

/-- The phases of the executing request (08 TABLE 2). -/
inductive Phase where
  | deciding
  | handed (request : Handed)
  /-- Awaiting admission, or in turns: the port unit's `operation` says which. -/
  | access
  | settling
  | atChunkEnd
  /-- A PORT-DROP with its drop wait on port `target` (R174, R175). -/
  | untilDown (target : Port)
  | closing
deriving DecidableEq, Repr

/-- The EXECUTING entry of the in-flight table (R128). -/
structure Executing where
  tag : Byte
  kind : Kind
  /-- It holds a reply reservation; a flush clears it (R158). -/
  reserved : Bool
  phase : Phase
deriving DecidableEq, Repr

/-- A WAITING entry of the in-flight table (R128): a waiter of the port. -/
structure Waiting where
  tag : Byte
  reserved : Bool
deriving DecidableEq, Repr

/-- Where the bytes of a READ, WRITE or EXCHANGE-IF lie (R75): byte `k` of the request is at
`physical + (offset + k) mod size`. -/
structure Mapping where
  physical : Nat
  size : Nat
  offset : Nat
deriving DecidableEq, Repr

/-- The three store operations of a port with the data they carry. -/
inductive Operation where
  | read
  | write (data : List Byte)
  | exchangeIf (expected new : List Byte)
deriving DecidableEq, Repr

/-- A store operation in progress at a port unit (R64, R66, R69). It outlives its in-flight entry when a teardown
abandons it (R71, R140). -/
structure PortOperation where
  operation : Operation
  mapping : Mapping
  count : Nat
  /-- The piece whose turn is requested or in progress. -/
  piece : Nat
  /-- The bytes read so far, in logical order (R64). -/
  gathered : List Byte
  /-- false: awaiting admission; true: in turns. -/
  admitted : Bool
  abandoned : Bool
deriving DecidableEq, Repr

/-- The readings gathered so far for a PORT-STATUS or DEV-STATUS reply (R135, R170). -/
structure Gather where
  kind : Kind
  tag : Byte
  taken : Nat
  fields : List Byte
deriving DecidableEq, Repr

/-- The teardown steps handed to the lease unit and the job engine and not yet taken (R138). -/
structure StepsDue where
  waiter : Bool
  lease : Bool
  job : Bool
  history : Bool
deriving DecidableEq, Repr

/-- A port unit PUn. -/
structure PortUnit where
  session : Session
  cause : Option Cause
  mask : NoticeMask
  label : List Byte
  /-- The window table, index 0 to 7; `none` is CLOSED. -/
  windows : Vector (Option Window) 8
  executing : Option Executing
  waiting : List Waiting
  operation : Option PortOperation
  gather : Option Gather
  stepsDue : StepsDue
  /-- Break reports of LRXn not yet taken by PUn (R151, R152). -/
  breakReports : Nat
  /-- Drop orders not yet taken by PUn, oldest first; true: LTXn has not taken its SESSION-ENDED offer (R174). -/
  dropOrders : List Bool
  /-- DOWN reports of PUn not yet taken by PU0 (R141, R175). -/
  downReports : Nat
deriving DecidableEq, Repr

/-- No class enabled. -/
def NoticeMask.empty : NoticeMask := { lease := false, job := false, line := false }

/-- No step handed out. -/
def StepsDue.none : StepsDue := { waiter := false, lease := false, job := false, history := false }

/-- After device reset (R127, R88). -/
def PortUnit.reset : PortUnit :=
  { session := .down, cause := none, mask := .empty, label := [], windows := Vector.replicate 8 none,
    executing := none, waiting := [], operation := none, gather := none, stepsDue := .none, breakReports := 0,
    dropOrders := [], downReports := 0 }

/-! ## The lease unit -/

/-- A lease record (01 TABLE 1). -/
structure Lease where
  id : Nat
  port : Port
  kind : LeaseKind
  range : Range
  logical : Nat
  window : Nat
  life : Nat
deriving DecidableEq, Repr

/-- A waiter record (02 TABLE 1). -/
structure Waiter where
  port : Port
  tag : Byte
  request : LeaseRequest
  /-- The remaining wait. -/
  wait : Nat
  /-- The settling mark: set with the recorded claim set, each claim named by its requester (R33, log 18). -/
  settling : Option (List Requester)
deriving DecidableEq, Repr

/-- An executing SETTLING request with its recorded claim set (R11, R53). -/
structure Settling where
  request : LeaseRequest
  recorded : List Requester
deriving DecidableEq, Repr

/-- What made a claim or asks for admission (03 TABLE 1). -/
inductive Origin where
  | read | write | exchangeIf
  | chunk (job : Nat)
deriving DecidableEq, Repr

/-- An access: what an admission request carries (R45), a held admission records (R49) and a claim holds (R41). -/
structure Access where
  owner : Port
  origin : Origin
  reads : List Range
  writes : List Range
deriving DecidableEq, Repr

/-- The outcome of an admission request that its requester takes (03 TABLE 3). -/
inductive Decision where
  | refused (lease : Nat) (holder : Port)
  | admitted
deriving DecidableEq, Repr

/-- The lease unit. -/
structure LeaseUnit where
  leases : List Lease
  lastId : Nat
  /-- The wait queue, oldest first. -/
  queue : List Waiter
  /-- The executing members of the settling set; its waiting members are marked in the queue. -/
  settling : PerPort (Option Settling)
  claims : List Access
  /-- The held set. -/
  held : List Access
deriving DecidableEq, Repr

/-- After device reset (R22, R39, R43, R49). -/
def LeaseUnit.reset : LeaseUnit :=
  { leases := [], lastId := 0, queue := [], settling := .const none, claims := [], held := [] }

/-! ## The store arbiter -/

/-- A store turn: its direction and the physical bytes concerned, in the order of the data (R60). -/
inductive Turn where
  | read (bytes : List Nat)
  | write (bytes : List Nat) (data : List Byte)
  | compareAndWrite (bytes : List Nat) (expected new : List Byte)
  | copy (source destination : List Nat)
deriving DecidableEq, Repr

/-- The store arbiter (04 TABLE 1): BUSY exactly when it has a current turn. -/
structure Arbiter where
  current : Option (Requester × Turn)
  /-- The pending set, each requester with the turn it asked for. -/
  pending : List (Requester × Turn)
  lastGranted : Requester
deriving DecidableEq, Repr

/-- After device reset (R59). -/
def Arbiter.reset : Arbiter := { current := none, pending := [], lastGranted := .engine }

/-! ## The job engine -/

/-- The order in which chunks are taken (R93, R100). -/
inductive Direction where
  | ascending | descending
deriving DecidableEq, Repr

/-- A job's kind with the fields that belong to it (06 TABLE 1). -/
inductive Work where
  | copy (source destination : Nat) (direction : Direction)
  | fill (destination : Nat) (pattern : List Byte)
  | sum (source : Nat) (accumulator : Word16)
deriving DecidableEq, Repr

/-- A live job's state (06 TABLE 2); BLOCKED carries the blocking lease id and the remaining block time. -/
inductive JobState where
  | queued | running
  | blocked (lease : Nat) (timer : Option Nat)
  | paused
deriving DecidableEq, Repr

/-- The reason of a cancel (R115). -/
inductive CancelReason where
  | owner | supervisor | teardown
deriving DecidableEq, Repr

/-- The kind of a stop request (R115). -/
inductive StopKind where
  | none | pause
  | cancel (reason : CancelReason)
deriving DecidableEq, Repr

/-- A deferred control request on a waiting list (R115). -/
structure StopWaiter where
  port : Port
  tag : Byte
  kind : Kind
deriving DecidableEq, Repr

/-- A job record (06 TABLE 1). Its place in the job table is its submission position. -/
structure Job where
  id : Nat
  port : Port
  work : Work
  length : Nat
  done : Nat
  limit : Nat
  state : JobState
  stop : StopKind
  stopWaiters : List StopWaiter
deriving DecidableEq, Repr

/-- The current chunk (06 TABLE 3). -/
structure Chunk where
  offset : Nat
  size : Nat
  source : Option Range
  destination : Option Range
deriving DecidableEq, Repr

/-- The engine while BUSY (06 TABLE 3). -/
structure RunningJob where
  job : Nat
  chunk : Chunk
  /-- The phase: false awaiting admission, true in a chunk (R91). -/
  inChunk : Bool
deriving DecidableEq, Repr

/-- A job's kind in a report. -/
inductive JobKind where
  | copy | fill | sum
deriving DecidableEq, Repr

/-- How a job ended (R119). -/
inductive EndOutcome where
  | done | cancelled | failed
deriving DecidableEq, Repr

/-- Why a job ended, where it leaves a record (07 TABLE 6). -/
inductive EndReason where
  | complete | owner | supervisor | blockLimit
deriving DecidableEq, Repr

/-- An end record (07 TABLE 6). -/
structure EndRecord where
  id : Nat
  kind : JobKind
  outcome : EndOutcome
  reason : EndReason
  done : Nat
  sum : Word16
deriving DecidableEq, Repr

/-- What the lease unit hands the job engine, in order (R109). -/
inductive EngineMessage where
  | removed (lease : Nat)
  | decided (decision : Decision)
deriving DecidableEq, Repr

/-- The job engine (06 TABLE 3): BUSY exactly when it has a running job. -/
structure JobEngine where
  /-- The job table in submission order, oldest first. -/
  jobs : List Job
  running : Option RunningJob
  lastId : Nat
  /-- The end histories, newest first. -/
  histories : PerPort (List EndRecord)
  inbox : List EngineMessage
deriving DecidableEq, Repr

/-- After device reset (R98, R125). -/
def JobEngine.reset : JobEngine :=
  { jobs := [], running := none, lastId := 0, histories := .const [], inbox := [] }

/-! ## What a requester has on its way -/

/-- What one requester has sent to the lease unit or the arbiter, or a port is to receive from the lease unit, and
that is not yet taken (R44, R45, R51, R60). -/
structure Mail where
  claimEnd : Bool
  withdrawal : Bool
  request : Option Access
  decision : Option Decision
  turn : Option Turn
deriving DecidableEq, Repr

/-- Nothing on its way. -/
def Mail.empty : Mail :=
  { claimEnd := false, withdrawal := false, request := none, decision := none, turn := none }

/-! ## Time base, straps, reset -/

/-- The time base (R177), and which of its two takers has the last boundary still to take (log 5). -/
structure TimeBase where
  divider : Nat
  leaseDue : Bool
  engineDue : Bool
deriving DecidableEq, Repr

/-- The divider is held at 0 by reset (R177). -/
def TimeBase.reset : TimeBase := { divider := 0, leaseDue := false, engineDue := false }

/-- The strap levels sampled at the last release of reset (R180). -/
structure Straps where
  lr1 : Bool
  lr0 : Bool
  supv : Bool
deriving DecidableEq, Repr

/-- Whether reset is held, and since which cause (R179). -/
inductive ResetLine where
  | released | powerOnHold | resetLow
deriving DecidableEq, Repr

/-! ## Stops -/

/-- The reasons a step can stop. -/
inductive Fault where
  /-- TURN_END of a turn that names an address above 0x3FFFF, which no store byte has (R57). No request
  can make one (R75): only a state that no run reaches raises it. Safe. -/
  | noStoreByte
deriving DecidableEq, Repr

/-- The reasons a command is refused. -/
inductive Refusal where
  /-- A command that has no meaning in the model. No command is refused so. Safe. -/
  | notModelled (mnemonic : String)
deriving DecidableEq, Repr

/-! ## The whole -/

/-- The state of the NL-18. -/
structure State where
  lrx : PerPort Receiver
  ltx : PerPort Transmitter
  pu : PerPort PortUnit
  leaseUnit : LeaseUnit
  arbiter : Arbiter
  /-- The store bytes written since power-on, addresses strictly rising (R57, R58; log 6). -/
  store : List Host.Cell
  engine : JobEngine
  mail : PerRequester Mail
  time : TimeBase
  straps : Straps
  resetLine : ResetLine
  /-- Power-ons before this one: the model's own, the argument of `Config.powerOnByte` (log 6). -/
  epoch : Nat
  /-- Device resets asserted so far: the model's own, the argument of `Config.resetByteWritten` (log 7). -/
  resets : Nat
  /-- The commands that wait, first in, first out (log 1). -/
  pending : List Instr
deriving DecidableEq, Repr

/-- The part right after the release of reset (R22, R39, R59, R88, R98, R125, R127, R160, R177): nothing connected to
the strap pins, which then sample low, nor to the receive pins, which rest at mark (R180, log 8), no store byte written, no
command waiting. -/
def State.reset : State :=
  { lrx := .const .reset, ltx := .const .reset, pu := .const .reset, leaseUnit := .reset, arbiter := .reset,
    store := [], engine := .reset, mail := { ports := .const .empty, engine := .empty }, time := .reset,
    straps := { lr1 := false, lr0 := false, supv := false }, resetLine := .released, epoch := 0, resets := 0,
    pending := [] }

end Sys2Proof.Machine
end

