-- ==== Sys2Proof/Machine/Flags.lean ====
section
/-! DEFINITION. The conditions the rules test: ranges that intersect, leases that conflict or forbid, tables that are
full, room in a transmit queue, whether a port unit can take a frame. Each is a Bool computed from the state. -/

namespace Sys2Proof.Machine

/-! ## Ranges (00_scope.md, "Addresses") -/

/-- The range covers the address. -/
def Range.covers (r : Range) (a : Nat) : Bool := decide (r.start ≤ a ∧ a < r.start + r.length)

/-- The two ranges cover a common address. -/
def Range.intersects (r t : Range) : Bool :=
  decide (max r.start t.start < min (r.start + r.length) (t.start + t.length))

/-- Some range of the list intersects the range. -/
def anyIntersects (rs : List Range) (t : Range) : Bool := rs.any (fun r => r.intersects t)

/-- The port's number. -/
def portNumber : Port → Nat
  | .p0 => 0
  | .p1 => 1
  | .p2 => 2
  | .p3 => 3

/-- The port with this number. -/
def portOfNumber : Nat → Option Port
  | 0 => some .p0
  | 1 => some .p1
  | 2 => some .p2
  | 3 => some .p3
  | _ => none

/-- The ports in ascending order. -/
def allPorts : List Port := [.p0, .p1, .p2, .p3]

/-! ## Capacities (00_scope.md TABLE 5) -/

/-- Bytes of the store. -/
def storeSize : Nat := 0x40000
/-- Entries of the lease table (R2). -/
def leaseTableSize : Nat := 12
/-- Held leases plus waiters of one port (R7). -/
def holdingsLimit : Nat := 4
/-- Waiters in the wait queue (R24). -/
def waitQueueSize : Nat := 8
/-- Waiters of one port (R24). -/
def portWaiterLimit : Nat := 3
/-- Jobs in the job table (R90). -/
def jobTableSize : Nat := 8
/-- Live jobs of one port (R90). -/
def portJobLimit : Nat := 3
/-- Records of one end history (R121). -/
def historySize : Nat := 4
/-- Frames of one transmit queue (R153). -/
def transmitQueueSize : Nat := 8
/-- Bytes of one store turn and one chunk (R62, R100). -/
def turnSize : Nat := 64
/-- The longest payload (R146). -/
def maxPayload : Nat := 1040
/-- The longest lifetime, wait limit and block limit (R5, R92). -/
def maxMilliseconds : Nat := 60000
/-- The longest lease and job (R5, R92). -/
def maxLength : Nat := 65536
/-- The last value of a counter (R136). -/
def maxCount : Nat := 65535

/-- A counter's next value: it stays at 65,535 (R136). -/
def countUp (n : Nat) : Nat := min (n + 1) maxCount

/-! ## Leases -/

/-- Both kinds are SHARED. -/
def bothShared (k l : LeaseKind) : Bool := k == .shared && l == .shared

/-- R4: two requests or leases conflict. -/
def conflicting (p : Port) (k : LeaseKind) (r : Range) (q : Port) (l : LeaseKind) (t : Range) : Bool :=
  p != q && r.intersects t && !bothShared k l

/-- The request of a port conflicts with a held lease (R4). -/
def LeaseRequest.conflictsLease (x : LeaseRequest) (p : Port) (l : Lease) : Bool :=
  conflicting p x.kind x.range l.port l.kind l.range

/-- The request of a port conflicts with a waiter (R4, R8). -/
def LeaseRequest.conflictsWaiter (x : LeaseRequest) (p : Port) (w : Waiter) : Bool :=
  conflicting p x.kind x.range w.port w.request.kind w.request.range

/-- The request of a port conflicts with the executing SETTLING request of port `q` (R8). -/
def LeaseRequest.conflictsSettling (x : LeaseRequest) (p q : Port) (t : Settling) : Bool :=
  conflicting p x.kind x.range q t.request.kind t.request.range

/-- 01 TABLE 2: the lease forbids a read of a byte it covers to port `p`. -/
def Lease.forbidsRead (l : Lease) (p : Port) : Bool := l.kind == .exclusive && l.port != p

/-- 01 TABLE 2: the lease forbids a write of a byte it covers to port `p`. -/
def Lease.forbidsWrite (l : Lease) (p : Port) : Bool := l.kind == .shared || l.port != p

/-- R46, test 1: the lease forbids a byte of the access. -/
def Lease.forbids (l : Lease) (a : Access) : Bool :=
  (l.forbidsRead a.owner && anyIntersects a.reads l.range) || (l.forbidsWrite a.owner && anyIntersects a.writes l.range)

/-- Some byte of the access lies in the range (R46, test 2; R50). -/
def Access.meets (a : Access) (r : Range) : Bool := anyIntersects a.reads r || anyIntersects a.writes r

/-- R52: a lease request of this kind and range conflicts with the claim. -/
def Access.conflictsRequest (c : Access) (k : LeaseKind) (r : Range) : Bool :=
  anyIntersects c.writes r || (k == .exclusive && anyIntersects c.reads r)

/-- The requester of an access (R43): the job engine for a chunk, otherwise the owner's port unit. -/
def Access.requester (a : Access) : Requester :=
  match a.origin with
  | .chunk _ => .engine
  | .read => .port a.owner
  | .write => .port a.owner
  | .exchangeIf => .port a.owner

/-- The lease with the lowest id of a list. -/
def lowestLease : List Lease → Option Lease
  | [] => none
  | l :: ls =>
    match lowestLease ls with
    | none => some l
    | some m => if l.id ≤ m.id then some l else some m

/-- The leases of a port. -/
def LeaseUnit.leasesOf (u : LeaseUnit) (p : Port) : List Lease := u.leases.filter (fun l => l.port == p)

/-- The waiters of a port. -/
def LeaseUnit.waitersOf (u : LeaseUnit) (p : Port) : List Waiter := u.queue.filter (fun w => w.port == p)

/-- A port's held leases and waiters together (R2, R7). -/
def LeaseUnit.holdings (u : LeaseUnit) (p : Port) : Nat := (u.leasesOf p).length + (u.waitersOf p).length

/-- The settling waiters (R53). -/
def LeaseUnit.settlingWaiters (u : LeaseUnit) : List Waiter := u.queue.filter (fun w => w.settling.isSome)

/-- The executing members of the settling set with their ports, in ascending port order (R53). -/
def LeaseUnit.settlingExecuting (u : LeaseUnit) : List (Port × Settling) :=
  allPorts.filterMap (fun p => (u.settling.get p).map (fun t => (p, t)))

/-- The reserved entries of the lease table: one for each member of the settling set (R2, R53). -/
def LeaseUnit.reservedEntries (u : LeaseUnit) : Nat := u.settlingExecuting.length + u.settlingWaiters.length

/-- R2: the lease table is full. -/
def LeaseUnit.full (u : LeaseUnit) : Bool := decide (leaseTableSize ≤ u.leases.length + u.reservedEntries)

/-- The ranges of the settling set's members (R46, test 2). -/
def LeaseUnit.settlingRanges (u : LeaseUnit) : List Range :=
  u.settlingExecuting.map (fun t => t.2.request.range) ++ u.settlingWaiters.map (fun w => w.request.range)

/-- R6: the range intersects a lease or a waiter of the same port. -/
def LeaseUnit.overlapsOwn (u : LeaseUnit) (p : Port) (r : Range) : Bool :=
  (u.leasesOf p).any (fun l => l.range.intersects r) || (u.waitersOf p).any (fun w => w.request.range.intersects r)

/-- R8: what a request conflicts with, named as its CONFLICT reply names it: the lowest conflicting held lease id and
its port, else 0 and the port of the oldest conflicting waiter, else 0 and the lowest port of a conflicting executing
SETTLING request. -/
def LeaseUnit.conflictOf (u : LeaseUnit) (p : Port) (x : LeaseRequest) : Option (Nat × Port) :=
  match lowestLease (u.leases.filter (x.conflictsLease p)) with
  | some l => some (l.id, l.port)
  | none =>
    match u.queue.find? (x.conflictsWaiter p) with
    | some w => some (0, w.port)
    | none => (u.settlingExecuting.find? (fun t => x.conflictsSettling p t.1 t.2)).map (fun t => (0, t.1))

/-- The claims a lease request conflicts with, each named by its requester (R11, R30 test 5, R52). -/
def LeaseUnit.conflictingClaims (u : LeaseUnit) (k : LeaseKind) (r : Range) : List Requester :=
  (u.claims.filter (fun c => c.conflictsRequest k r)).map Access.requester

/-! ## Ids (R13, R97) -/

/-- The id after this one, wrapping from 255 to 1. -/
def idAfter (n : Nat) : Nat := if 255 ≤ n then 1 else n + 1

/-- The first id from `c` on that is not in use, looked for at most `fuel` places further. -/
def firstUnused : Nat → Nat → List Nat → Nat
  | 0, c, _ => c
  | fuel + 1, c, used => if used.contains c then firstUnused fuel (idAfter c) used else c

/-- The id a grant or an acceptance assigns: the first after the last-assigned one that no record holds. -/
def nextId (last : Nat) (used : List Nat) : Nat := firstUnused 255 (idAfter last) used

/-- The next lease id (R13). -/
def LeaseUnit.nextLeaseId (u : LeaseUnit) : Nat := nextId u.lastId (u.leases.map Lease.id)

/-- The next job id (R97). -/
def JobEngine.nextJobId (e : JobEngine) : Nat := nextId e.lastId (e.jobs.map Job.id)

/-! ## Expiries due (R17, R27, R118) -/

/-- The lease has lapsed: its remaining lifetime is 0 (R17). -/
def Lease.lapsed (l : Lease) : Bool := l.life == 0

/-- The waiter has timed out: its remaining wait is 0 and its timer has not stopped (R26, R27). -/
def Waiter.timedOut (w : Waiter) : Bool := w.wait == 0 && w.settling == none

/-- The job is BLOCKED and its remaining block time is 0 (R118). -/
def Job.limitReached (j : Job) : Bool :=
  match j.state with
  | .blocked _ (some 0) => true
  | _ => false

/-- The lease unit has an expiry to take (R177). -/
def LeaseUnit.due (u : LeaseUnit) : Bool := u.leases.any Lease.lapsed || u.queue.any Waiter.timedOut

/-- The job engine has an expiry to take (R177). -/
def JobEngine.due (e : JobEngine) : Bool := e.jobs.any Job.limitReached

/-! ## The transmit queue (R153) -/

/-- The free entries: 8 minus the frames held. -/
def Transmitter.free (t : Transmitter) : Nat := transmitQueueSize - t.queue.length

/-- An unreserved free entry exists: the free entries exceed the reservations. -/
def Transmitter.hasRoom (t : Transmitter) : Bool := decide (t.reserved < t.free)

/-! ## The port unit -/

/-- R169: the port is the supervisor port. -/
def State.isSupervisor (s : State) (p : Port) : Bool := s.straps.supv && p == .p0

/-- R129: the frame that the port unit can take now. -/
def State.takeable (s : State) (p : Port) : Option Frame :=
  if (s.pu.get p).session ≠ .closing ∧ (s.pu.get p).executing = none ∧ (s.pu.get p).gather = none ∧
      (s.ltx.get p).hasRoom = true then (s.lrx.get p).held else none

/-- The live jobs of a port. -/
def JobEngine.jobsOf (e : JobEngine) (p : Port) : List Job := e.jobs.filter (fun j => j.port == p)

/-- The live job with this id (R111, R173). -/
def JobEngine.find (e : JobEngine) (id : Nat) : Option Job := e.jobs.find? (fun j => j.id == id)

/-- The live job with this id of this port (R111). -/
def JobEngine.findOf (e : JobEngine) (p : Port) (id : Nat) : Option Job :=
  e.jobs.find? (fun j => j.id == id && j.port == p)

/-- The job is RUNNING and in a chunk (R91). -/
def JobEngine.inChunk (e : JobEngine) (id : Nat) : Bool :=
  match e.running with
  | some r => r.job == id && r.inChunk
  | none => false

/-- The job is the engine's running job. -/
def JobEngine.isRunning (e : JobEngine) (id : Nat) : Bool :=
  match e.running with
  | some r => r.job == id
  | none => false

/-- R141: no work of the port remains, so that its session can become DOWN. The last condition is R56's: once the
teardown is complete the port has no held admission (assumption log 13). -/
def State.workDone (s : State) (p : Port) : Bool :=
  (s.pu.get p).stepsDue == .none && (s.engine.jobsOf p).isEmpty && (s.engine.histories.get p).isEmpty &&
  (match (s.pu.get p).executing with
    | none => true
    | some x => x.phase == .closing) &&
  (s.leaseUnit.claims.filter (fun c => c.owner == p)).isEmpty &&
  (s.leaseUnit.held.filter (fun a => a.owner == p)).isEmpty

end Sys2Proof.Machine
end

