-- ==== Sys2Proof/Machine/Operands.lean ====
section
/-! DEFINITION. The operand forms: the codes of kinds, results, notices and coded fields, the fields of request
payloads, the layouts of replies, and translation through a port's windows. -/

namespace Sys2Proof.Machine

/-! ## Codes (10 TABLES 3, 4, 8, 9) -/

/-- The request kinds in the order of their codes. -/
def allKinds : List Kind :=
  [.openSession, .close, .portStatus, .winOpen, .winClose, .winList, .read, .write, .exchangeIf, .lease, .renew,
   .release, .withdraw, .leaseList, .jobCopy, .jobFill, .jobSum, .jobPause, .jobResume, .jobCancel, .jobQuery,
   .devStatus, .forceRelease, .forceCancel, .portDrop]

/-- 10 TABLE 3. -/
def Kind.code : Kind → Byte
  | .openSession => 0x01
  | .close => 0x02
  | .portStatus => 0x03
  | .winOpen => 0x08
  | .winClose => 0x09
  | .winList => 0x0A
  | .read => 0x10
  | .write => 0x11
  | .exchangeIf => 0x12
  | .lease => 0x18
  | .renew => 0x19
  | .release => 0x1A
  | .withdraw => 0x1B
  | .leaseList => 0x1C
  | .jobCopy => 0x20
  | .jobFill => 0x21
  | .jobSum => 0x22
  | .jobPause => 0x23
  | .jobResume => 0x24
  | .jobCancel => 0x25
  | .jobQuery => 0x26
  | .devStatus => 0x30
  | .forceRelease => 0x31
  | .forceCancel => 0x32
  | .portDrop => 0x33

/-- R130: the KIND is one of the 25 request kinds. -/
def isRequestKind (b : Byte) : Bool := allKinds.any (fun k => k.code == b)

/-- R161: a reply's KIND is the request's plus 0x80, or the request's unchanged where its top bit is set. -/
def replyKind (b : Byte) : Byte := if b.msb then b else b + 0x80

/-- 10 TABLE 8. -/
def Result.code : Result → Byte
  | .ok => 0x00
  | .unknownKind => 0x01
  | .badLength => 0x02
  | .badField => 0x03
  | .noSession => 0x04
  | .wrongState => 0x05
  | .tagInUse => 0x06
  | .notMapped => 0x07
  | .noRight => 0x08
  | .wraps => 0x09
  | .misaligned => 0x0A
  | .overlap => 0x0B
  | .leased => 0x0C
  | .conflict => 0x0D
  | .noRoom => 0x0E
  | .timedOut => 0x0F
  | .notFound => 0x10
  | .withdrawn => 0x11
  | .notPermitted => 0x12
  | .mismatch => 0x13

/-- 10 TABLE 9. -/
def NoticeKind.code : NoticeKind → Byte
  | .leaseLapsed => 0x40
  | .leaseRevoked => 0x41
  | .jobEnd => 0x42
  | .jobBlocked => 0x43
  | .frameDiscarded => 0x44
  | .overrun => 0x45
  | .sessionEnded => 0x46

/-- Whether a notice's class is in the mask (R134, R156, 10 TABLE 9); SESSION-ENDED is always enabled. -/
def NoticeKind.enabled (n : NoticeKind) (m : NoticeMask) : Bool :=
  match n with
  | .leaseLapsed => m.lease
  | .leaseRevoked => m.lease
  | .jobEnd => m.job
  | .jobBlocked => m.job
  | .frameDiscarded => m.line
  | .overrun => m.line
  | .sessionEnded => true

/-- 10 TABLE 4, discard reason. -/
def DiscardReason.code : DiscardReason → Byte
  | .check => 0
  | .length => 1
  | .cut => 2
  | .framing => 3

/-- 10 TABLE 4, lease kind. -/
def LeaseKind.code : LeaseKind → Byte
  | .exclusive => 0
  | .shared => 1

/-- The lease kind with this code (R5, R163). -/
def LeaseKind.ofCode : Nat → Option LeaseKind
  | 0 => some .exclusive
  | 1 => some .shared
  | _ => none

/-- 10 TABLE 4, rights. -/
def Rights.code : Rights → Byte
  | .readOnly => 1
  | .writeOnly => 2
  | .readWrite => 3

/-- The rights with this code; 0 is NONE and no other value is listed (R81, R163). -/
def Rights.ofCode : Nat → Option Rights
  | 1 => some .readOnly
  | 2 => some .writeOnly
  | 3 => some .readWrite
  | _ => none

/-- The rights include READ. -/
def Rights.reads : Rights → Bool
  | .readOnly => true
  | .writeOnly => false
  | .readWrite => true

/-- The rights include WRITE. -/
def Rights.writes : Rights → Bool
  | .readOnly => false
  | .writeOnly => true
  | .readWrite => true

/-- 10 TABLE 4, session state. -/
def Session.code : Session → Byte
  | .down => 0
  | .up => 1
  | .closing => 2

/-- The kind of a job's work. -/
def Work.kind : Work → JobKind
  | .copy _ _ _ => .copy
  | .fill _ _ => .fill
  | .sum _ _ => .sum

/-- 10 TABLE 4, job kind. -/
def JobKind.code : JobKind → Byte
  | .copy => 0
  | .fill => 1
  | .sum => 2

/-- 10 TABLE 4, job state. -/
def JobState.code : JobState → Byte
  | .queued => 0
  | .running => 1
  | .blocked _ _ => 2
  | .paused => 3

/-- 10 TABLE 4, job outcome. -/
def EndOutcome.code : EndOutcome → Byte
  | .done => 0
  | .cancelled => 1
  | .failed => 2

/-- 10 TABLE 4, end reason. -/
def EndReason.code : EndReason → Byte
  | .complete => 0
  | .owner => 1
  | .supervisor => 2
  | .blockLimit => 3

/-! ## Fields: most significant byte first (R162) -/

/-- The unsigned number that the bytes are. -/
def numberOf (bs : List Byte) : Nat := bs.foldl (fun n b => n * 256 + b.toNat) 0

/-- A number as a field of `width` bytes. -/
def fieldOf : Nat → Nat → List Byte
  | 0, _ => []
  | width + 1, n => byte (n / 256 ^ width) :: fieldOf width n

/-- The bytes of the field of `width` bytes at `offset` of a payload. -/
def slice (payload : List Byte) (offset width : Nat) : List Byte := (payload.drop offset).take width

/-- The number in the field of `width` bytes at `offset` of a payload. -/
def fieldAt (payload : List Byte) (offset width : Nat) : Nat := numberOf (slice payload offset width)

/-! ## Request payloads (10 TABLE 5) -/

/-- R130, R164: the payload length matches the layout of the kind. -/
def lengthMatches (k : Kind) (payload : List Byte) : Bool :=
  match k with
  | .openSession => decide (3 ≤ payload.length ∧ payload.length = 3 + fieldAt payload 2 1)
  | .write => decide (5 ≤ payload.length ∧ payload.length = 5 + fieldAt payload 3 2)
  | .close | .portStatus | .winList | .leaseList | .devStatus => payload.length == 0
  | .winOpen => payload.length == 10
  | .winClose | .release | .withdraw | .jobPause | .jobResume | .jobCancel | .jobQuery | .forceRelease
  | .forceCancel | .portDrop => payload.length == 1
  | .read => payload.length == 5
  | .exchangeIf | .lease | .jobFill => payload.length == 12
  | .renew => payload.length == 3
  | .jobCopy => payload.length == 11
  | .jobSum => payload.length == 8

/-- R131: the supervisor kinds. -/
def Kind.isSupervisor : Kind → Bool
  | .devStatus | .forceRelease | .forceCancel | .portDrop => true
  | .openSession | .close | .portStatus | .winOpen | .winClose | .winList | .read | .write | .exchangeIf | .lease
  | .renew | .release | .withdraw | .leaseList | .jobCopy | .jobFill | .jobSum | .jobPause | .jobResume
  | .jobCancel | .jobQuery => false

/-- The notice mask of an OPEN, where every bit outside LEASE, JOB and LINE is 0 (R133, R163). -/
def NoticeMask.ofCode (n : Nat) : Option NoticeMask :=
  if 8 ≤ n then none
  else some { lease := n.testBit 0, job := n.testBit 1, line := n.testBit 2 }

/-! ## Windows (05) -/

/-- 05 TABLE 2: the block size of a size code. -/
def blockSize : Nat → Nat
  | 0 => 0x100
  | 1 => 0x1000
  | 2 => 0x4000
  | _ => 0x10000

/-- 05 TABLE 2: the repeat factor of a repeat code. -/
def repeatFactor : Nat → Nat
  | 0 => 1
  | 1 => 2
  | 2 => 4
  | _ => 8

/-- The block size of a window. -/
def Window.size (w : Window) : Nat := blockSize w.sizeCode

/-- The span of a window: size times repeat bytes from the logical base (R74). -/
def Window.span (w : Window) : Range := { start := w.base, length := w.size * repeatFactor w.repeatCode }

/-- The block of a window (R74). -/
def Window.block (w : Window) : Range := { start := w.physical, length := w.size }

/-- R75: the physical address of a logical address in the span. -/
def Window.translate (w : Window) (logical : Nat) : Nat := w.physical + (logical - w.base) % w.size

/-- The offset of a logical address (R75). -/
def Window.offset (w : Window) (logical : Nat) : Nat := (logical - w.base) % w.size

/-- R76: the logical range lies wholly inside the span. -/
def Window.maps (w : Window) (logical count : Nat) : Bool :=
  decide (w.base ≤ logical ∧ logical + count ≤ w.base + w.span.length)

/-- R76, "Located": the OPEN window whose span contains the address. -/
def PortUnit.windowAt (u : PortUnit) (logical : Nat) : Option Window :=
  (u.windows.toList.filterMap id).find? (fun w => w.span.covers logical)

/-- R76, "Located": the window through which the range is mapped. -/
def PortUnit.located (u : PortUnit) (logical count : Nat) : Option Window :=
  match u.windowAt logical with
  | some w => if w.maps logical count then some w else none
  | none => none

/-- The window entry at an index; none where it is CLOSED or the index is above 7. -/
def PortUnit.windowNamed (u : PortUnit) (i : Nat) : Option Window := (u.windows[i]?).join

/-- R76, "Named": the window through which a LEASE request's range is mapped. -/
def PortUnit.named (u : PortUnit) (i logical count : Nat) : Option Window :=
  match u.windowNamed i with
  | some w => if w.maps logical count then some w else none
  | none => none

/-- R77: the mapped range is contiguous in physical address. -/
def Window.contiguous (w : Window) (logical count : Nat) : Bool := decide (w.offset logical + count ≤ w.size)

/-- R77, R42: the byte set of a mapped range. -/
def Window.byteSet (w : Window) (logical count : Nat) : List Range :=
  let o := w.offset logical
  if o + count ≤ w.size then [{ start := w.physical + o, length := count }]
  else if count < w.size then
    [{ start := w.physical + o, length := w.size - o }, { start := w.physical, length := o + count - w.size }]
  else [w.block]

/-- Where the bytes of a mapped range lie (R75). -/
def Window.mapping (w : Window) (logical : Nat) : Mapping :=
  { physical := w.physical, size := w.size, offset := w.offset logical }

/-- R75: the physical address of byte `k` of the request. -/
def Mapping.address (m : Mapping) (k : Nat) : Nat := m.physical + (m.offset + k) % m.size

/-- The number of open windows (R82, R135). -/
def PortUnit.openWindows (u : PortUnit) : Nat := (u.windows.toList.filterMap id).length

/-! ## Reply layouts (10 TABLES 6 and 7) -/

/-- A window entry of WIN-LIST: zeros where it is CLOSED (R86, R166). -/
def windowEntry : Option Window → List Byte
  | none => fieldOf 10 0
  | some w => fieldOf 1 1 ++ fieldOf 3 w.base ++ fieldOf 1 w.sizeCode ++ fieldOf 1 w.repeatCode ++
      fieldOf 3 w.physical ++ [w.rights.code]

/-- A LEASE-LIST entry of a held lease (R20). -/
def Lease.entry (l : Lease) : List Byte :=
  fieldOf 1 0 ++ fieldOf 1 l.id ++ [l.kind.code] ++ fieldOf 1 l.window ++ fieldOf 3 l.logical ++
    fieldOf 3 l.range.length ++ fieldOf 2 l.life

/-- A LEASE-LIST entry of a waiter (R20). -/
def Waiter.entry (w : Waiter) : List Byte :=
  fieldOf 1 1 ++ [w.tag] ++ [w.request.kind.code] ++ fieldOf 1 w.request.window ++ fieldOf 3 w.request.logical ++
    fieldOf 3 w.request.range.length ++ fieldOf 2 w.wait

/-- A lease placed in ascending id order (R20). -/
def insertById (l : Lease) : List Lease → List Lease
  | [] => [l]
  | m :: ms => if l.id ≤ m.id then l :: m :: ms else m :: insertById l ms

/-- The leases in ascending id order (R20, R21). -/
def sortById (ls : List Lease) : List Lease := ls.foldr insertById []

/-- The fields of a LEASE-LIST reply (R20): the count, the leases by id, the waiters oldest first. -/
def LeaseUnit.listing (u : LeaseUnit) (p : Port) : List Byte :=
  fieldOf 1 (u.holdings p) ++ (sortById (u.leasesOf p)).flatMap Lease.entry ++ (u.waitersOf p).flatMap Waiter.entry

/-- The blocking lease id of a BLOCKED job, 0 otherwise (R123). -/
def JobState.blockingId : JobState → Nat
  | .blocked id _ => id
  | .queued => 0
  | .running => 0
  | .paused => 0

/-- The live form of a JOB-QUERY record (10 TABLE 7). -/
def Job.queryRecord (j : Job) : List Byte :=
  fieldOf 1 0 ++ fieldOf 1 j.id ++ [j.work.kind.code] ++ [j.state.code] ++ fieldOf 3 j.length ++ fieldOf 3 j.done ++
    fieldOf 1 j.state.blockingId

/-- The fields of an end record as JOB-END carries them (10 TABLE 9). -/
def EndRecord.fields (e : EndRecord) : List Byte :=
  fieldOf 1 e.id ++ [e.kind.code] ++ [e.outcome.code] ++ [e.reason.code] ++ fieldOf 3 e.done ++ fieldOf 2 e.sum.toNat

/-- The ended form of a JOB-QUERY record (10 TABLE 7). -/
def EndRecord.queryRecord (e : EndRecord) : List Byte := fieldOf 1 1 ++ e.fields

/-- A flag as a byte. -/
def flagByte (b : Bool) : Byte := if b then 1 else 0

/-- The block that gives a reading of a status request (R135, R170). -/
inductive Owner where
  | port | leaseUnit | engine
deriving DecidableEq, Repr

/-- A reading of a status request: the block that gives it, and its value (R135, R170). -/
structure Reading where
  owner : Owner
  value : State → List Byte

/-- The readings of PORT-STATUS in the order of its reply (10 TABLE 6; log 20). -/
def portStatusReadings (p : Port) : List Reading :=
  [⟨.port, fun s => [(s.pu.get p).session.code]⟩,
   ⟨.port, fun s => fieldOf 2 (s.lrx.get p).checkDiscards⟩,
   ⟨.port, fun s => fieldOf 2 (s.lrx.get p).lengthDiscards⟩,
   ⟨.port, fun s => fieldOf 2 (s.lrx.get p).cutDiscards⟩,
   ⟨.port, fun s => fieldOf 2 (s.lrx.get p).framingDiscards⟩,
   ⟨.port, fun s => fieldOf 2 (s.lrx.get p).overruns⟩,
   ⟨.port, fun s => fieldOf 2 (s.ltx.get p).dropped⟩,
   ⟨.port, fun s => fieldOf 1 (s.pu.get p).openWindows⟩,
   ⟨.leaseUnit, fun s => fieldOf 1 (s.leaseUnit.leasesOf p).length⟩,
   ⟨.leaseUnit, fun s => fieldOf 1 (s.leaseUnit.waitersOf p).length⟩,
   ⟨.engine, fun s => fieldOf 1 (s.engine.jobsOf p).length⟩]

/-- The label in its 16-byte field, zeros after its bytes (R166). -/
def labelField (label : List Byte) : List Byte := (label ++ List.replicate 16 0).take 16

/-- The readings of a DEV-STATUS port block (10 TABLE 7). -/
def portBlockReadings (p : Port) : List Reading :=
  [⟨.port, fun s => [(s.pu.get p).session.code]⟩,
   ⟨.port, fun s => fieldOf 1 (s.pu.get p).label.length ++ labelField (s.pu.get p).label⟩,
   ⟨.leaseUnit, fun s => fieldOf 1 (s.leaseUnit.leasesOf p).length⟩,
   ⟨.leaseUnit, fun s => fieldOf 1 (s.leaseUnit.waitersOf p).length⟩,
   ⟨.engine, fun s => fieldOf 1 (s.engine.jobsOf p).length⟩]

/-- The RUNNING job's id, 0 when the engine is IDLE (R170). -/
def JobEngine.runningId (e : JobEngine) : Nat :=
  match e.running with
  | some r => r.job
  | none => 0

/-- The readings of DEV-STATUS in the order of its reply (10 TABLE 6; log 20). -/
def devStatusReadings : List Reading :=
  allPorts.flatMap portBlockReadings ++
  [⟨.leaseUnit, fun s => fieldOf 1 s.leaseUnit.leases.length⟩,
   ⟨.leaseUnit, fun s => fieldOf 1 s.leaseUnit.queue.length⟩,
   ⟨.engine, fun s => fieldOf 1 s.engine.jobs.length⟩,
   ⟨.engine, fun s => fieldOf 1 s.engine.runningId⟩,
   ⟨.leaseUnit, fun s => fieldOf 1 s.leaseUnit.nextLeaseId⟩,
   ⟨.engine, fun s => fieldOf 1 s.engine.nextJobId⟩]

end Sys2Proof.Machine
end

