-- ==== Sys2Proof/Machine/Ops.lean ====
section
/-! DEFINITION. The named operations over the state: one part of it replaced, the store and its turns, the CRC-16, the
transmit queue, replies and notices, the in-flight table, and what a requester sends to the lease unit and the arbiter.
Every meaning reads and writes the state through these. -/

namespace Sys2Proof.Machine

/-! ## One part of the state replaced -/

/-- The receiver of a port changed by `f`. -/
def State.modLrx (s : State) (p : Port) (f : Receiver → Receiver) : State :=
  { s with lrx := s.lrx.set p (f (s.lrx.get p)) }

/-- The transmitter of a port changed by `f`. -/
def State.modLtx (s : State) (p : Port) (f : Transmitter → Transmitter) : State :=
  { s with ltx := s.ltx.set p (f (s.ltx.get p)) }

/-- The port unit of a port changed by `f`. -/
def State.modPu (s : State) (p : Port) (f : PortUnit → PortUnit) : State :=
  { s with pu := s.pu.set p (f (s.pu.get p)) }

/-- The lease unit changed by `f`. -/
def State.modLease (s : State) (f : LeaseUnit → LeaseUnit) : State := { s with leaseUnit := f s.leaseUnit }

/-- The store arbiter replaced. -/
def State.setArbiter (s : State) (a : Arbiter) : State := { s with arbiter := a }

/-- The store's contents replaced. -/
def State.setStore (s : State) (m : List Host.Cell) : State := { s with store := m }

/-- The job engine changed by `f`. -/
def State.modEngine (s : State) (f : JobEngine → JobEngine) : State := { s with engine := f s.engine }

/-- What a requester has on its way changed by `f`. -/
def State.modMail (s : State) (r : Requester) (f : Mail → Mail) : State :=
  { s with mail := s.mail.set r (f (s.mail.get r)) }

/-- The time base replaced. -/
def State.setTime (s : State) (t : TimeBase) : State := { s with time := t }

/-- `f` applied for each element of the list in turn. -/
def State.each {α : Type} (s : State) (xs : List α) (f : State → α → State) : State := xs.foldl f s

/-! ## The CRC-16 (R105, R147) -/

/-- One shift: the bit shifted out folds the polynomial 0x1021 in. -/
def crcShift (r : Word16) : Word16 := if r.msb then (r <<< 1) ^^^ 0x1021#16 else r <<< 1

/-- One byte folded into the register, most significant bit first. -/
def crcByte (r : Word16) (b : Byte) : Word16 :=
  (List.range 8).foldl (fun x _ => crcShift x) (r ^^^ (b.setWidth 16 <<< 8))

/-- The bytes folded into the register in order. -/
def crcFold (r : Word16) (bs : List Byte) : Word16 := bs.foldl crcByte r

/-- The register's initial value. -/
def crcStart : Word16 := 0xFFFF#16

/-- The CRC-16 of a byte sequence. -/
def crc16 (bs : List Byte) : Word16 := crcFold crcStart bs

/-! ## The store (R57, R58, R62) -/

/-- The byte written at an address since power-on, if any. -/
def Memory.lookup : List Host.Cell → Nat → Option Byte
  | [], _ => none
  | (c, x) :: m, a => if a = c then some x else Memory.lookup m a

/-- A byte written at an address; the list stays sorted by address. -/
def Memory.write : List Host.Cell → Nat → Byte → List Host.Cell
  | [], a, b => [(a, b)]
  | (c, x) :: m, a, b => if a < c then (a, b) :: (c, x) :: m else if a = c then (a, b) :: m else (c, x) :: Memory.write m a b

/-- Bytes written at addresses, one after the other. -/
def Memory.writeAll (m : List Host.Cell) (cells : List Host.Cell) : List Host.Cell :=
  cells.foldl (fun m c => Memory.write m c.1 c.2) m

/-- The addresses rise strictly, from `low` on. -/
def Memory.sortedFrom : Nat → List Host.Cell → Bool
  | _, [] => true
  | low, (a, _) :: m => decide (low ≤ a) && Memory.sortedFrom (a + 1) m

/-- The canonical form of the store: addresses strictly rising, each of them a store address. An unlisted byte has no
value of its own (it reads as a free value, R58), so no entry can repeat what it would read as (log 6). -/
def Memory.wf (m : List Host.Cell) : Bool := Memory.sortedFrom 0 m && m.all (fun c => decide (c.1 < storeSize))

/-- What a read of one store byte returns (R57); a byte not written since power-on returns a free value (R58). -/
def State.storeByte (s : State) (a : Nat) : Byte :=
  match Memory.lookup s.store a with
  | some b => b
  | none => Config.powerOnByte s.epoch a

/-- The addresses a turn reads or writes. -/
def Turn.addresses : Turn → List Nat
  | .read bs => bs
  | .write bs _ => bs
  | .compareAndWrite bs _ _ => bs
  | .copy src dst => src ++ dst

/-- Every address of the turn is a store address. -/
def Turn.inStore (t : Turn) : Bool := t.addresses.all (fun a => decide (a < storeSize))

/-- The bytes a turn returns to its requester (R61, R62, R69, R102). -/
def Turn.returned (s : State) : Turn → List Byte
  | .read bs => bs.map s.storeByte
  | .write _ _ => []
  | .compareAndWrite bs _ _ => bs.map s.storeByte
  | .copy _ _ => []

/-- The cells a turn writes: a compare-and-write writes only when the old value equals the expected one (R69); a COPY
chunk reads all its source bytes before it writes (R102). -/
def Turn.written (s : State) : Turn → List Host.Cell
  | .read _ => []
  | .write bs data => bs.zip data
  | .compareAndWrite bs expected new => if bs.map s.storeByte = expected then bs.zip new else []
  | .copy src dst => dst.zip (src.map s.storeByte)

/-- The turn's writes made in the store (R62). -/
def State.writeTurn (s : State) (t : Turn) : State := s.setStore (Memory.writeAll s.store (t.written s))

/-! ## Frames on the line (R146, R161) -/

/-- The bytes the CHECK field covers: KIND, TAG, LEN and payload. -/
def Frame.covered (f : Frame) : List Byte := f.kind :: f.tag :: (fieldOf 2 f.payload.length ++ f.payload)

/-- The characters of a frame on the line with their mark bits, CHECK computed (R143, R147, R154). -/
def Frame.characters (f : Frame) : List (Bool × Byte) :=
  (f.covered ++ fieldOf 2 (crc16 f.covered).toNat).zipIdx.map (fun c => (c.2 == 0, c.1))

/-- The frame of a reply (R132, R161, R165). -/
def replyFrame (kind tag : Byte) (result : Result) (fields : List Byte) : Frame :=
  { kind := replyKind kind, tag := tag, payload := result.code :: fields }

/-- The frame of a notice (R168). -/
def noticeFrame (n : NoticeKind) (fields : List Byte) : Frame := { kind := n.code, tag := 0, payload := fields }

/-! ## The transmitter (R153 to R159) -/

/-- R154: an IDLE serializer begins the oldest frame. -/
def Transmitter.start (t : Transmitter) : Transmitter :=
  match t.serializer, t.queue with
  | .idle, _ :: _ => { t with serializer := .sending 0 0 }
  | _, _ => t

/-- A frame joins the tail. -/
def Transmitter.append (t : Transmitter) (f : Frame) : Transmitter := { t with queue := t.queue ++ [f] }.start

/-- R155, "Reserve". -/
def Transmitter.reserve (t : Transmitter) : Transmitter := { t with reserved := t.reserved + 1 }

/-- R155, "Queue a reply into its reservation". In discard mode it is discarded. A reply without a reservation, which no
run makes, changes nothing (assumption log 17). -/
def Transmitter.queueReply (t : Transmitter) (f : Frame) : Transmitter :=
  if t.discard = true ∨ t.reserved = 0 then t else { t with reserved := t.reserved - 1 }.append f

/-- R155, "Queue a reply directly", into the unreserved free entry found at the taking. -/
def Transmitter.queueDirect (t : Transmitter) (f : Frame) : Transmitter :=
  if t.discard = true ∨ t.hasRoom = false then t else t.append f

/-- R155, "Release a reservation": in discard mode it changes nothing. -/
def Transmitter.release (t : Transmitter) : Transmitter :=
  if t.discard then t else { t with reserved := t.reserved - 1 }

/-- R156: a notice offered while the session and its mask are as given. -/
def Transmitter.offer (t : Transmitter) (session : Session) (mask : NoticeMask) (n : NoticeKind) (fields : List Byte) :
    Transmitter :=
  if t.discard = true ∨ session ≠ .up then t
  else if n.enabled mask = false then t
  else if t.hasRoom = false then { t with dropped := countUp t.dropped }
  else t.append (noticeFrame n fields)

/-- The frame being sent stays alone in the queue at a flush (R158, step 1). -/
def Serializer.keeps : Serializer → Nat
  | .idle => 0
  | .sending _ _ => 1
  | .cutting _ _ => 1
  | .finishing _ _ => 0

/-- A serializer that is SENDING finishes its character and sends no more (R158, step 4). -/
def Serializer.cut : Serializer → Serializer
  | .idle => .idle
  | .sending position cycles => .cutting position cycles
  | .cutting position cycles => .cutting position cycles
  | .finishing character cycles => .finishing character cycles

/-- R158: the flush; `ask` orders discard mode. -/
def Transmitter.flush (t : Transmitter) (ask : Bool) : Transmitter :=
  { t with queue := t.queue.take t.serializer.keeps, reserved := 0, discard := ask || t.discard,
           serializer := t.serializer.cut }

/-- The character in progress of the oldest frame. -/
def Transmitter.characterAt (t : Transmitter) (position : Nat) : Bool × Byte :=
  match t.queue with
  | f :: _ => f.characters.getD position (false, 0)
  | [] => (false, 0)

/-- R159: discard mode goes off and the queue is then empty; a cut frame whose character is still in progress leaves the
queue, the character goes on to its end (assumption log 12). -/
def Transmitter.discardOff (t : Transmitter) : Transmitter :=
  if t.discard then
    { t with queue := [], reserved := 0, discard := false,
             serializer := match t.serializer with
               | .cutting position cycles => .finishing (t.characterAt position) cycles
               | .sending position cycles => .finishing (t.characterAt position) cycles
               | .idle => .idle
               | .finishing character cycles => .finishing character cycles }
  else t

/-- R154, R158: the last character of what is being sent ends. The frame leaves the queue, and the serializer begins the
oldest frame left or is IDLE. -/
def Transmitter.frameSent (t : Transmitter) : Transmitter :=
  match t.serializer with
  | .idle => t
  | .sending _ _ => { t with queue := t.queue.tail, serializer := .idle }.start
  | .cutting _ _ => { t with queue := t.queue.tail, serializer := .idle }.start
  | .finishing _ _ => { t with serializer := .idle }.start

/-! ## Notices and replies -/

/-- R156: a notice is offered to the port's transmitter, which takes the offer at once. -/
def State.offer (s : State) (p : Port) (n : NoticeKind) (fields : List Byte) : State :=
  s.modLtx p (fun t => t.offer (s.pu.get p).session (s.pu.get p).mask n fields)

/-- R132: the EXECUTING request of the port is answered: the reply goes into its reservation and its entry is removed. -/
def State.answer (s : State) (p : Port) (result : Result) (fields : List Byte) : State :=
  match (s.pu.get p).executing with
  | none => s
  | some x =>
    (s.modLtx p (fun t => t.queueReply (replyFrame x.kind.code x.tag result fields))).modPu p
      (fun u => { u with executing := none })

/-- A waiter's LEASE request is answered: the reply goes into the waiter's reservation and the WAITING entry is removed
(R27, R32, R35). -/
def State.answerWaiter (s : State) (p : Port) (tag : Byte) (result : Result) (fields : List Byte) : State :=
  (s.modLtx p (fun t => t.queueReply (replyFrame Kind.lease.code tag result fields))).modPu p
    (fun u => { u with waiting := u.waiting.filter (fun w => w.tag != tag) })

/-- R129, DOWN: the reply is queued directly into the free entry. -/
def State.answerDirect (s : State) (p : Port) (kind tag : Byte) (result : Result) (fields : List Byte) : State :=
  s.modLtx p (fun t => t.queueDirect (replyFrame kind tag result fields))

/-- The EXECUTING request is removed without a reply: its entry goes and its reservation is released (R140). -/
def State.dropExecuting (s : State) (p : Port) : State :=
  (s.modLtx p Transmitter.release).modPu p (fun u => { u with executing := none })

/-- A waiter is removed without a reply (R38). -/
def State.dropWaiting (s : State) (p : Port) (tag : Byte) : State :=
  (s.modLtx p Transmitter.release).modPu p (fun u => { u with waiting := u.waiting.filter (fun w => w.tag != tag) })

/-- The phase of the EXECUTING request changes (08 TABLE 2). -/
def State.setPhase (s : State) (p : Port) (f : Phase) : State :=
  s.modPu p (fun u => { u with executing := u.executing.map (fun x => { x with phase := f }) })

/-- The phase of the port's EXECUTING request. -/
def State.phase (s : State) (p : Port) : Option Phase := ((s.pu.get p).executing).map Executing.phase

/-- The EXECUTING request is answered where it stands in the phase in which this answer reaches it. In every run it does;
the test keeps an answer from reaching any other request (assumption log 17). -/
def State.answerIn (s : State) (p : Port) (f : Phase) (result : Result) (fields : List Byte) : State :=
  if s.phase p = some f then s.answer p result fields else s

/-- The request the port unit has handed over and that is not yet decided (R140). -/
def State.handed (s : State) (p : Port) : Option Handed :=
  match s.phase p with
  | some (.handed h) => some h
  | _ => none

/-! ## Taking a frame (R129 to R131) -/

/-- Taking empties the held slot. -/
def State.emptySlot (s : State) (p : Port) : State := s.modLrx p (fun x => { x with held := none })

/-- R129, UP: one entry is reserved and the request becomes the EXECUTING one. -/
def State.beginRequest (s : State) (p : Port) (k : Kind) (tag : Byte) : State :=
  ((s.emptySlot p).modLtx p Transmitter.reserve).modPu p
    (fun u => { u with executing := some { tag := tag, kind := k, reserved := true, phase := .deciding } })

/-- The tag is that of a WAITING entry (R131). -/
def State.tagInUse (s : State) (p : Port) (tag : Byte) : Bool := (s.pu.get p).waiting.any (fun w => w.tag == tag)

/-- A frame of kind `k` taken in UP, checked by 08 TABLE 3 and, where it passes, executed by `body`. -/
def State.takeUp (s : State) (p : Port) (k : Kind) (f : Frame) (body : State → State) : State :=
  let t := s.beginRequest p k f.tag
  if k = .openSession then t.answer p .wrongState []
  else if lengthMatches k f.payload = false then t.answer p .badLength []
  else if s.tagInUse p f.tag then t.answer p .tagInUse []
  else if k.isSupervisor = true ∧ s.isSupervisor p = false then t.answer p .notPermitted []
  else body t

/-- A frame of kind `k` taken in DOWN, checked by 08 TABLE 3 and, where it passes, executed by `body`. -/
def State.takeDown (s : State) (p : Port) (k : Kind) (f : Frame) (body : State → State) : State :=
  let t := s.emptySlot p
  if k ≠ .openSession ∧ k ≠ .portStatus then t.answerDirect p f.kind f.tag .noSession []
  else if lengthMatches k f.payload = false then t.answerDirect p f.kind f.tag .badLength []
  else body t

/-- A request of kind `k` is taken where the port unit can take the held frame and the frame is of that kind (R129);
otherwise nothing happens and a held frame stays in its slot (assumption log 1, log 2). -/
def State.takeRequest (s : State) (p : Port) (k : Kind) (body : Frame → State → State) : State :=
  match s.takeable p with
  | none => s
  | some f =>
    if f.kind = k.code then
      match (s.pu.get p).session with
      | .up => s.takeUp p k f (body f)
      | .down => s.takeDown p k f (body f)
      | .closing => s
    else s

/-! ## What a requester sends (R44, R45, R51, R60) -/

/-- The requester asks the lease unit for admission (R45). -/
def State.askAdmission (s : State) (a : Access) : State :=
  s.modMail a.requester (fun m => { m with request := some a })

/-- The requester asks the store arbiter for a turn (R60). -/
def State.askTurn (s : State) (r : Requester) (t : Turn) : State := s.modMail r (fun m => { m with turn := some t })

/-- The owner of a claim reports its end (R44). -/
def State.reportClaimEnd (s : State) (r : Requester) : State := s.modMail r (fun m => { m with claimEnd := true })

/-- R51: a requester that awaits admission withdraws. A request the lease unit has not taken is not seen by it at all; an
outcome still on its way will be ignored. -/
def State.withdrawAdmission (s : State) (r : Requester) : State :=
  match (s.mail.get r).request with
  | some _ => s.modMail r (fun m => { m with request := none })
  | none =>
    let t := s.modMail r (fun m => { m with withdrawal := true, decision := none })
    match r with
    | .port _ => t
    | .engine => t.modEngine (fun e => { e with inbox := e.inbox.filter (fun x =>
        match x with
        | .removed _ => true
        | .decided _ => false) })

/-! ## The port's store operations (R64, R66, R69, R71) -/

/-- The turn of the current piece. -/
def PortOperation.turn (o : PortOperation) : Turn :=
  let first := turnSize * o.piece
  let bytes := (List.range' first (min turnSize (o.count - first))).map o.mapping.address
  match o.operation with
  | .read => .read bytes
  | .write data => .write bytes (slice data first turnSize)
  | .exchangeIf expected new => .compareAndWrite bytes expected new

/-- The current piece is the last. -/
def PortOperation.atLastPiece (o : PortOperation) : Bool := decide (o.count ≤ turnSize * (o.piece + 1))

/-- The result code and the fields of the reply when the last turn has ended and returned `bytes` (R64, R66, R69). -/
def PortOperation.reply (o : PortOperation) (bytes : List Byte) : Result × List Byte :=
  match o.operation with
  | .read => (.ok, o.gathered ++ bytes)
  | .write _ => (.ok, [])
  | .exchangeIf expected _ =>
    (if bytes = expected then .ok else .mismatch, List.replicate (4 - bytes.length) 0 ++ bytes)

/-- The port's operation is over. -/
def State.clearOperation (s : State) (p : Port) : State := s.modPu p (fun u => { u with operation := none })

/-- The port unit takes the outcome of its admission request (R47, R48). -/
def State.portDecision (s : State) (p : Port) (d : Decision) : State :=
  match (s.pu.get p).operation with
  | none => s
  | some o =>
    match d with
    | .refused id holder => (s.answerIn p .access .leased [byte id, byte (portNumber holder)]).clearOperation p
    | .admitted =>
      (s.modPu p (fun u => { u with operation := some { o with admitted := true } })).askTurn (.port p) o.turn

/-- The port unit learns of its turn's end (R64, R66, R69, R71): an abandoned operation reports its claim end, the last
turn queues the reply and reports it, any other asks for the next piece's turn. -/
def State.portTurnEnd (s : State) (p : Port) (bytes : List Byte) : State :=
  match (s.pu.get p).operation with
  | none => s
  | some o =>
    if o.abandoned then (s.clearOperation p).reportClaimEnd (.port p)
    else if o.atLastPiece then
      ((s.answerIn p .access (o.reply bytes).1 (o.reply bytes).2).clearOperation p).reportClaimEnd (.port p)
    else
      let next := { o with piece := o.piece + 1, gathered := o.gathered ++ bytes }
      (s.modPu p (fun u => { u with operation := some next })).askTurn (.port p) next.turn

end Sys2Proof.Machine
end

