-- ==== Sys2Proof/Machine/JobOps.lean ====
section
/-! DEFINITION. The job engine's shared operations (06, 07): chunks, selection, blocking, the end of a job, the chunk
end. -/

namespace Sys2Proof.Machine

/-- One job of the table changed by `f`. -/
def JobEngine.modJob (e : JobEngine) (id : Nat) (f : Job → Job) : JobEngine :=
  { e with jobs := e.jobs.map (fun j => if j.id = id then f j else j) }

/-- The direction of a work: only a COPY may run DESCENDING (R93 to R95). -/
def Work.direction : Work → Direction
  | .copy _ _ d => d
  | .fill _ _ => .ascending
  | .sum _ _ => .ascending

/-- The source start of a COPY or SUM. -/
def Work.source : Work → Option Nat
  | .copy s _ _ => some s
  | .fill _ _ => none
  | .sum s _ => some s

/-- The destination start of a COPY or FILL. -/
def Work.destination : Work → Option Nat
  | .copy _ d _ => some d
  | .fill d _ => some d
  | .sum _ _ => none

/-- R100: the next chunk of a job, computed from its fixed fields and its bytes done. -/
def Job.nextChunk (j : Job) : Chunk :=
  let r := j.length - j.done
  let n := min turnSize r
  let offset := match j.work.direction with
    | .ascending => j.done
    | .descending => r - n
  { offset := offset, size := n,
    source := j.work.source.map (fun a => { start := a + offset, length := n }),
    destination := j.work.destination.map (fun a => { start := a + offset, length := n }) }

/-- R101, 03 TABLE 2: the admission request of a chunk. -/
def Job.access (j : Job) (c : Chunk) : Access :=
  { owner := j.port, origin := .chunk j.id, reads := c.source.toList, writes := c.destination.toList }

/-- The addresses of a range in ascending order. -/
def Range.addresses (r : Range) : List Nat := List.range' r.start r.length

/-- R104: the pattern bytes of `n` destination bytes from offset `first` of the job's own destination start. -/
def fillBytes (pattern : List Byte) (first n : Nat) : List Byte :=
  (List.range' first n).map (fun i => pattern.getD (i % 4) 0)

/-- R102: the store turn of a chunk. -/
def Job.turn (j : Job) (c : Chunk) : Turn :=
  match j.work with
  | .copy s d _ =>
    .copy (Range.addresses { start := s + c.offset, length := c.size })
      (Range.addresses { start := d + c.offset, length := c.size })
  | .fill d pattern =>
    .write (Range.addresses { start := d + c.offset, length := c.size }) (fillBytes pattern c.offset c.size)
  | .sum s _ => .read (Range.addresses { start := s + c.offset, length := c.size })

/-- The engine computes the running job's next chunk and asks for its admission (R100, R101). -/
def State.askChunk (s : State) (j : Job) : State :=
  (s.modEngine (fun e => { e with running := some { job := j.id, chunk := j.nextChunk, inChunk := false } })).askAdmission
    (j.access j.nextChunk)

/-- R99: where the engine is IDLE, the oldest QUEUED job becomes RUNNING. -/
def State.selectJob (s : State) : State :=
  match s.engine.running with
  | some _ => s
  | none =>
    match s.engine.jobs.find? (fun j => j.state == .queued) with
    | none => s
    | some j => (s.modEngine (fun e => e.modJob j.id (fun k => { k with state := .running }))).askChunk j

/-- The engine becomes IDLE. -/
def JobEngine.leave (e : JobEngine) : JobEngine := { e with running := none }

/-- R106: the admission of the running job's chunk is refused by lease `id` of port `holder`. -/
def State.blockJob (s : State) (j : Job) (id : Nat) (holder : Port) : State :=
  let timer := if 0 < j.limit then some j.limit else none
  let t := s.modEngine (fun e => (e.modJob j.id (fun k => { k with state := .blocked id timer })).leave)
  (t.offer j.port .jobBlocked ([byte j.id, byte id, byte (portNumber holder)] ++ fieldOf 3 j.done)).selectJob

/-- The job engine takes the outcome of its admission request (R101). -/
def State.engineDecision (s : State) (d : Decision) : State :=
  match s.engine.running with
  | none => s
  | some r =>
    match s.engine.find r.job with
    | none => s
    | some j =>
      match d with
      | .refused id holder => s.blockJob j id holder
      | .admitted =>
        (s.modEngine (fun e => { e with running := some { r with inChunk := true } })).askTurn .engine (j.turn r.chunk)

/-- The job engine takes the outcome that is next in its order (R109); a removal report ahead of it comes first. -/
def State.takeEngineDecision (s : State) : State :=
  match s.engine.inbox with
  | .decided d :: rest => (s.modEngine (fun e => { e with inbox := rest })).engineDecision d
  | _ => s

/-! ## The end of a job (R119) -/

/-- R120: the record's sum is the accumulator of a SUM that ended DONE, 0 in every other case. -/
def Job.reportedSum (j : Job) (outcome : EndOutcome) : Word16 :=
  match j.work, outcome with
  | .sum _ acc, .done => acc
  | _, _ => 0

/-- R120: the end record of a job. -/
def Job.endRecord (j : Job) (outcome : EndOutcome) (reason : EndReason) : EndRecord :=
  { id := j.id, kind := j.work.kind, outcome := outcome, reason := reason, done := j.done,
    sum := j.reportedSum outcome }

/-- R121: a record placed at the head of a history of at most 4. -/
def JobEngine.record (e : JobEngine) (p : Port) (x : EndRecord) : JobEngine :=
  { e with histories := e.histories.set p ((x :: e.histories.get p).take historySize) }

/-- The fields of a reply to a stop request: the job id and its bytes done (R116). -/
def Job.stopFields (j : Job) : List Byte := fieldOf 1 j.id ++ fieldOf 3 j.done

/-- R116: the waiting list of a job that ends is answered in order: JOB-PAUSE with WRONG-STATE, the cancels with OK. -/
def State.answerEnded (s : State) (j : Job) : State :=
  s.each j.stopWaiters (fun t w =>
    if w.kind = .jobPause then t.answerIn w.port .atChunkEnd .wrongState []
    else t.answerIn w.port .atChunkEnd .ok j.stopFields)

/-- R116: the waiting list of a job that becomes PAUSED is answered OK. -/
def State.answerPaused (s : State) (j : Job) : State :=
  s.each j.stopWaiters (fun t w => t.answerIn w.port .atChunkEnd .ok j.stopFields)

/-- The job leaves the job table (R119, step 1); the engine is IDLE if it was its running job. -/
def JobEngine.remove (e : JobEngine) (id : Nat) : JobEngine :=
  { e with jobs := e.jobs.filter (fun j => j.id != id), running := if e.isRunning id then none else e.running }

/-- R119, steps 1 to 4, for an ending that leaves a record: removal, record, the replies due (`replies`), JOB-END. -/
def State.endJob (s : State) (j : Job) (outcome : EndOutcome) (reason : EndReason) (replies : State → State) : State :=
  let r := j.endRecord outcome reason
  (replies (s.modEngine (fun e => (e.remove j.id).record j.port r))).offer j.port .jobEnd r.fields

/-- R119 for the reason TEARDOWN: removal and the replies due, no record and no notice. -/
def State.endJobTorn (s : State) (j : Job) (replies : State → State) : State :=
  replies (s.modEngine (fun e => e.remove j.id))

/-- The end of a job by a cancel with its reason (07 TABLE 5). -/
def State.endCancelled (s : State) (j : Job) (reason : CancelReason) (replies : State → State) : State :=
  match reason with
  | .owner => s.endJob j .cancelled .owner replies
  | .supervisor => s.endJob j .cancelled .supervisor replies
  | .teardown => s.endJobTorn j replies

/-! ## The chunk end (R103) -/

/-- R105: a SUM folds the bytes its turn read. -/
def Work.fold (w : Work) (bytes : List Byte) : Work :=
  match w with
  | .copy s d x => .copy s d x
  | .fill d p => .fill d p
  | .sum s acc => .sum s (crcFold acc bytes)

/-- R116: the stop request resolved with bytes done already increased; then R103, steps 4 and 5. -/
def State.resolveChunk (s : State) (j : Job) : State :=
  match j.stop with
  | .cancel reason => (s.endCancelled j reason (fun t => t.answerEnded j)).selectJob
  | .pause =>
    if j.done = j.length then (s.endJob j .done .complete (fun t => t.answerEnded j)).selectJob
    else
      ((s.modEngine (fun e =>
          (e.modJob j.id (fun k => { k with state := .paused, stop := .none, stopWaiters := [] })).leave)).answerPaused
        j).selectJob
  | .none =>
    if j.done = j.length then (s.endJob j .done .complete (fun t => t.answerEnded j)).selectJob else s.askChunk j

/-- R103: the chunk end, with the bytes its turn read: the claim end is reported, progress is made, and the stop request
is resolved. -/
def State.chunkEnd (s : State) (bytes : List Byte) : State :=
  match s.engine.running with
  | none => s
  | some r =>
    match s.engine.find r.job with
    | none => s
    | some j =>
      let advanced := { j with done := j.done + r.chunk.size, work := j.work.fold bytes }
      ((s.reportClaimEnd .engine).modEngine (fun e => e.modJob j.id (fun _ => advanced))).resolveChunk advanced

/-! ## Stop requests (R112, R114, R115) -/

/-- 07 TABLE 1: the stop request's kind after a cancel with this reason is recorded. -/
def StopKind.afterCancel (k : StopKind) (reason : CancelReason) : StopKind :=
  match k, reason with
  | _, .teardown => .cancel .teardown
  | .none, r => .cancel r
  | .pause, r => .cancel r
  | .cancel r, _ => .cancel r

/-- 07 TABLE 1: the stop request's kind after a pause is recorded. -/
def StopKind.afterPause : StopKind → StopKind
  | .none => .pause
  | .pause => .pause
  | .cancel r => .cancel r

/-- R115: the port's EXECUTING control request joins the waiting list of a job in a chunk, and waits for its end. -/
def State.deferStop (s : State) (p : Port) (j : Job) (stop : StopKind) : State :=
  match (s.pu.get p).executing with
  | none => s
  | some x =>
    (s.modEngine (fun e => e.modJob j.id (fun k =>
      { k with stop := stop, stopWaiters := k.stopWaiters ++ [{ port := p, tag := x.tag, kind := x.kind }] }))).setPhase
      p .atChunkEnd

/-- R114, R173: a cancel of a live job for port `p`'s EXECUTING request, by the job's state. -/
def State.cancelJob (s : State) (p : Port) (j : Job) (reason : CancelReason) : State :=
  let reply : State → State := fun t => t.answer p .ok j.stopFields
  if j.state = .running then
    if s.engine.inChunk j.id then s.deferStop p j (j.stop.afterCancel reason)
    else ((s.withdrawAdmission .engine).endCancelled j reason reply).selectJob
  else s.endCancelled j reason reply

/-! ## Submission (R93 to R97) -/

/-- R93 to R95: the work of an accepted job, its direction fixed and its accumulator set. -/
def Submission.work (w : Submission) (length : Nat) : Work :=
  match w with
  | .copy s d => .copy s d (if s < d ∧ d < s + length then .descending else .ascending)
  | .fill d pattern => .fill d pattern
  | .sum s => .sum s crcStart

/-- R96: the job engine decides a submission of port `p`. -/
def State.submit (s : State) (p : Port) (w : Submission) (length limit : Nat) : State :=
  if jobTableSize ≤ s.engine.jobs.length ∨ portJobLimit ≤ (s.engine.jobsOf p).length then s.answer p .noRoom []
  else
    let id := s.engine.nextJobId
    let j : Job := { id := id, port := p, work := w.work length, length := length, done := 0, limit := limit,
                     state := .queued, stop := .none, stopWaiters := [] }
    ((s.modEngine (fun e => { e with jobs := e.jobs ++ [j], lastId := id })).answer p .ok (fieldOf 1 id)).selectJob

end Sys2Proof.Machine
end

