-- ==== Sys2Proof/Machine/LeaseOps.lean ====
section
/-! DEFINITION. The lease unit's shared operations (01, 02, 03): admission, retry, grant, the scan, the end of a claim,
the removal of leases. -/

namespace Sys2Proof.Machine

/-! ## Admission (R46 to R50) -/

/-- R46: the outcome of an admission request; none is held. -/
def LeaseUnit.decide (u : LeaseUnit) (a : Access) : Option Decision :=
  match lowestLease (u.leases.filter (fun l => l.forbids a)) with
  | some l => some (.refused l.id l.port)
  | none => if u.settlingRanges.any a.meets then none else some .admitted

/-- The outcome is handed to its requester, which takes it in this step unless `late`. A requester that has withdrawn
ignores it (R51). The job engine takes it after the removal reports ahead of it (R109). -/
def State.deliver (s : State) (late : Bool) (r : Requester) (d : Decision) : State :=
  if (s.mail.get r).withdrawal then s
  else
    match r with
    | .port p => if late then s.modMail r (fun m => { m with decision := some d }) else s.portDecision p d
    | .engine =>
      let t := s.modEngine (fun e => { e with inbox := e.inbox ++ [.decided d] })
      if late then t else t.takeEngineDecision

/-- R47, R48: a decided admission: the claim is added where it is admitted, and the outcome is handed over. -/
def State.concludeAdmission (s : State) (late : Bool) (a : Access) (d : Decision) : State :=
  match d with
  | .refused _ _ => s.deliver late a.requester d
  | .admitted => (s.modLease (fun u => { u with claims := u.claims ++ [a] })).deliver late a.requester d

/-- R46: a new admission request is decided: refused, admitted, or held. -/
def State.decideAdmission (s : State) (late : Bool) (a : Access) : State :=
  match s.leaseUnit.decide a with
  | none => s.modLease (fun u => { u with held := u.held ++ [a] })
  | some d => s.concludeAdmission late a d

/-- R50: one held admission decided afresh; it stays where it is held again. -/
def State.retryOne (late : Bool) (s : State) (a : Access) : State :=
  match s.leaseUnit.decide a with
  | none => s
  | some d =>
    (s.modLease (fun u => { u with held := u.held.filter (fun b => b.requester != a.requester) })).concludeAdmission
      late a d

/-- R50: every held admission that meets the range of a departed settling request is decided afresh. -/
def State.retry (s : State) (late : Bool) (r : Range) : State :=
  s.each (s.leaseUnit.held.filter (fun a => a.meets r)) (State.retryOne late)

/-! ## Grant (R13) -/

/-- The fields of a LEASE OK reply (R13, 10 TABLE 6). -/
def LeaseRequest.grantFields (x : LeaseRequest) (id : Nat) : List Byte :=
  fieldOf 1 id ++ [x.kind.code] ++ fieldOf 2 x.life

/-- R13: the lease record of a request, with a new id. -/
def LeaseUnit.grant (u : LeaseUnit) (p : Port) (x : LeaseRequest) : LeaseUnit :=
  { u with
    leases := u.leases ++ [{ id := u.nextLeaseId, port := p, kind := x.kind, range := x.range, logical := x.logical,
                             window := x.window, life := x.life }],
    lastId := u.nextLeaseId }

/-- R13: the EXECUTING request of the port is granted and answered OK. -/
def State.grantExecuting (s : State) (p : Port) (x : LeaseRequest) : State :=
  (s.modLease (fun u => u.grant p x)).answer p .ok (x.grantFields s.leaseUnit.nextLeaseId)

/-- R12: the executing SETTLING request of the port is granted in its reserved entry and answered OK, and the held
admissions on its range are retried. -/
def State.grantSettling (late : Bool) (s : State) (p : Port) : State :=
  match s.leaseUnit.settling.get p with
  | none => s
  | some t =>
    ((s.modLease (fun u => { u with settling := u.settling.set p none }.grant p t.request)).answerIn p .settling .ok
      (t.request.grantFields s.leaseUnit.nextLeaseId)).retry late t.request.range

/-! ## The scan (R29 to R33) -/

/-- What the scan does with one waiter. -/
inductive Verdict where
  | pass
  | settle (claims : List Requester)
  | grant
deriving DecidableEq, Repr

/-- R30 tests 1 to 6 and R31: the verdict on waiter `w`, with the older waiters still in the queue. -/
def LeaseUnit.verdict (u : LeaseUnit) (older : List Waiter) (w : Waiter) : Verdict :=
  match w.settling with
  | some recorded => if recorded.isEmpty then .grant else .pass
  | none =>
    if u.leases.any (w.request.conflictsLease w.port) then .pass
    else if older.any (w.request.conflictsWaiter w.port) then .pass
    else if u.settlingExecuting.any (fun t => w.request.conflictsSettling w.port t.1 t.2) then .pass
    else if u.settlingWaiters.any (w.request.conflictsWaiter w.port) then .pass
    else if u.full then .pass
    else
      match u.conflictingClaims w.request.kind w.request.range with
      | [] => .grant
      | c :: cs => .settle (c :: cs)

/-- The wait queue replaced. -/
def State.setQueue (s : State) (q : List Waiter) : State := s.modLease (fun u => { u with queue := q })

/-- R32: a waiter that has left the queue is granted: the record, the reply into its reservation, and, where it was
settling, the retry of the admissions held on its range. -/
def State.grantWaiter (s : State) (late : Bool) (w : Waiter) : State :=
  let t := (s.modLease (fun u => u.grant w.port w.request)).answerWaiter w.port w.tag .ok
    (w.request.grantFields s.leaseUnit.nextLeaseId)
  match w.settling with
  | none => t
  | some _ => t.retry late w.request.range

/-- The pass over the rest of the queue, oldest first; `older` are the waiters the pass has left in it. -/
def State.scanFrom (late : Bool) : List Waiter → List Waiter → State → State
  | [], _, s => s
  | w :: rest, older, s =>
    match s.leaseUnit.verdict older w with
    | .pass => State.scanFrom late rest (older ++ [w]) s
    | .settle claims =>
      let marked := { w with settling := some claims }
      State.scanFrom late rest (older ++ [marked]) (s.setQueue (older ++ marked :: rest))
    | .grant => State.scanFrom late rest older ((s.setQueue (older ++ rest)).grantWaiter late w)

/-- R29: one scan of the wait queue. -/
def State.scan (s : State) (late : Bool) : State := State.scanFrom late s.leaseUnit.queue [] s

/-! ## The end of a claim (R34, R55) -/

/-- A recorded claim set without the claim of requester `r`. -/
def dropClaim (r : Requester) (recorded : List Requester) : List Requester := recorded.filter (fun c => c != r)

/-- R34: the claim leaves the claim list and every recorded set. -/
def LeaseUnit.removeClaim (u : LeaseUnit) (r : Requester) : LeaseUnit :=
  { u with
    claims := u.claims.filter (fun c => c.requester != r),
    queue := u.queue.map (fun w => { w with settling := w.settling.map (dropClaim r) }),
    settling := { p0 := u.settling.p0.map (fun t => { t with recorded := dropClaim r t.recorded }),
                  p1 := u.settling.p1.map (fun t => { t with recorded := dropClaim r t.recorded }),
                  p2 := u.settling.p2.map (fun t => { t with recorded := dropClaim r t.recorded }),
                  p3 := u.settling.p3.map (fun t => { t with recorded := dropClaim r t.recorded }) } }

/-- The ports whose executing SETTLING request has an empty recorded set, in ascending order (R55). -/
def LeaseUnit.emptied (u : LeaseUnit) : List Port :=
  (u.settlingExecuting.filter (fun t => t.2.recorded.isEmpty)).map (fun t => t.1)

/-- R34: the end of requester `r`'s claim: removed everywhere, emptied executing requests granted in port order, then
one scan. -/
def State.endClaim (s : State) (late : Bool) (r : Requester) : State :=
  let t := s.modLease (fun u => u.removeClaim r)
  (t.each t.leaseUnit.emptied (State.grantSettling late)).scan late

/-! ## The removal of a lease (R19) -/

/-- The lease record removed and its entry freed. -/
def LeaseUnit.removeLease (u : LeaseUnit) (id : Nat) : LeaseUnit :=
  { u with leases := u.leases.filter (fun l => l.id != id) }

/-- R19, step 2: the removed id is reported to the job engine. -/
def State.reportRemoval (s : State) (id : Nat) : State :=
  s.modEngine (fun e => { e with inbox := e.inbox ++ [.removed id] })

/-- R19: the removal sequence, one scan and then the report. -/
def State.afterRemoval (s : State) (id : Nat) : State := (s.scan false).reportRemoval id

/-! ## The decision on a LEASE request (R6 to R11) -/

/-- R9: the request becomes a waiter at the tail, or is refused NO-ROOM. -/
def State.joinQueue (s : State) (p : Port) (x : LeaseRequest) : State :=
  if waitQueueSize ≤ s.leaseUnit.queue.length ∨ portWaiterLimit ≤ (s.leaseUnit.waitersOf p).length then
    s.answer p .noRoom []
  else
    match (s.pu.get p).executing with
    | none => s
    | some e =>
      (s.modLease (fun u => { u with queue := u.queue ++
          [{ port := p, tag := e.tag, request := x, wait := x.wait, settling := none }] })).modPu p
        (fun u => { u with executing := none, waiting := u.waiting ++ [{ tag := e.tag, reserved := e.reserved }] })

/-- R11: the request enters SETTLING with the claims it conflicts with. -/
def State.enterSettling (s : State) (p : Port) (x : LeaseRequest) (claims : List Requester) : State :=
  (s.modLease (fun u => { u with settling := u.settling.set p (some { request := x, recorded := claims }) })).setPhase
    p .settling

/-- 01 TABLE 4, steps 2 to 7: the lease unit decides a LEASE request. -/
def State.decideLease (s : State) (p : Port) (x : LeaseRequest) : State :=
  if s.leaseUnit.overlapsOwn p x.range then s.answer p .overlap []
  else if holdingsLimit ≤ s.leaseUnit.holdings p then s.answer p .noRoom []
  else
    match s.leaseUnit.conflictOf p x with
    | some (id, q) =>
      if x.wait = 0 then s.answer p .conflict [byte id, byte (portNumber q)] else s.joinQueue p x
    | none =>
      if s.leaseUnit.full then (if x.wait = 0 then s.answer p .noRoom [] else s.joinQueue p x)
      else
        match s.leaseUnit.conflictingClaims x.kind x.range with
        | [] => s.grantExecuting p x
        | c :: cs => s.enterSettling p x (c :: cs)

end Sys2Proof.Machine
end

