-- ==== Sys2Proof/Machine/Expiries.lean ====
section
/-! DEFINITION. Expiries (R17, R27, R118): what each does, and that a block takes those that are due before it takes any
other event that reaches the records they are of (R177; assumption log 5). -/

namespace Sys2Proof.Machine

/-! ## Lapses and wait expiries (R17, R27) -/

/-- The waiter of the port with this tag. -/
def LeaseUnit.waiterOf (u : LeaseUnit) (p : Port) (tag : Byte) : Option Waiter :=
  u.queue.find? (fun w => w.port == p && w.tag == tag)

/-- The waiter of the port with this tag leaves the queue. -/
def LeaseUnit.removeWaiter (u : LeaseUnit) (p : Port) (tag : Byte) : LeaseUnit :=
  { u with queue := u.queue.filter (fun w => !(w.port == p && w.tag == tag)) }

/-- R17: the lapse of a lease. -/
def State.lapse (s : State) (l : Lease) : State :=
  ((s.modLease (fun u => u.removeLease l.id)).offer l.port .leaseLapsed (fieldOf 1 l.id)).afterRemoval l.id

/-- The lease with this id lapses where its remaining lifetime is 0 (R17). -/
def State.takeLapse (s : State) (id : Nat) : State :=
  match s.leaseUnit.leases.find? (fun l => l.id == id && l.lapsed) with
  | none => s
  | some l => s.lapse l

/-- R27: the wait limit of a waiter expires. -/
def State.expire (s : State) (p : Port) (tag : Byte) : State :=
  ((s.modLease (fun u => u.removeWaiter p tag)).answerWaiter p tag .timedOut []).scan false

/-- The port's waiter with this tag expires where its remaining wait is 0 and its timer has not stopped (R26, R27). -/
def State.takeWaitExpiry (s : State) (p : Port) (tag : Byte) : State :=
  match s.leaseUnit.waiterOf p tag with
  | none => s
  | some w => if w.timedOut then s.expire p tag else s

/-- The lapses that are due, in table order. -/
def State.takeLapses (s : State) : State :=
  s.each ((s.leaseUnit.leases.filter Lease.lapsed).map Lease.id) State.takeLapse

/-- The wait expiries that are due, oldest waiter first. -/
def State.takeWaitExpiries (s : State) : State :=
  s.each (s.leaseUnit.queue.filter Waiter.timedOut) (fun t w => t.takeWaitExpiry w.port w.tag)

/-- Every expiry due at the lease unit, taken one after the other (R177): the lapses and then the wait expiries. A waiter
that an earlier scan has granted or marked settling does not expire (R27, R28). -/
def State.expireLeases (s : State) : State := s.takeLapses.takeWaitExpiries

/-- The lease unit takes an event: the expiries that are due come first. -/
def State.atLeaseUnit (s : State) (event : State → State) : State := event s.expireLeases

/-! ## Block-limit expiries (R118) -/

/-- The job with this id ends FAILED where its remaining block time is 0 (R118). -/
def State.takeBlockLimit (s : State) (id : Nat) : State :=
  match s.engine.find id with
  | none => s
  | some j => if j.limitReached then s.endJob j .failed .blockLimit (fun t => t) else s

/-- Every expiry due at the job engine, taken one after the other in submission order (R177). -/
def State.expireJobs (s : State) : State :=
  s.each ((s.engine.jobs.filter Job.limitReached).map Job.id) State.takeBlockLimit

/-- The job engine takes an event that reaches its job records: the expiries that are due come first. -/
def State.atEngine (s : State) (event : State → State) : State := event s.expireJobs

end Sys2Proof.Machine
end

