-- ==== Sys2Proof/Machine/Admission.lean ====
section
/-! DEFINITION. Admission requests, withdrawals and claim ends (03). A requester's claim end, withdrawal and request reach
the lease unit in that order (assumption log 18). -/

namespace Sys2Proof.Machine

/-- R46: the lease unit takes the requester's admission request, if one is on its way and nothing sent before it is. -/
def State.takeAdmission (s : State) (r : Requester) (late : Bool) : State :=
  let m := s.mail.get r
  if m.claimEnd = true ∨ m.withdrawal = true then s
  else
    match m.request with
    | none => s
    | some a => s.atLeaseUnit (fun t => (t.modMail r (fun x => { x with request := none })).decideAdmission late a)

/-- The requester takes the outcome on its way to it, if any (R51, R109); otherwise its admission request is taken. -/
def State.admission (s : State) (r : Requester) (late : Bool) : State :=
  match r with
  | .port p =>
    match (s.mail.get r).decision with
    | some d => (s.modMail r (fun x => { x with decision := none })).portDecision p d
    | none => s.takeAdmission r late
  | .engine =>
    match s.engine.inbox with
    | .decided _ :: _ => s.takeEngineDecision
    | _ => s.takeAdmission r late

/-- ADMISSION_REQUEST. -/
def execAdmissionRequest (r : Requester) (late : Bool) (s : State) : Host.Outcome State Fault Refusal :=
  .next (s.admission r late)

/-- R51: the lease unit takes a withdrawal: it removes the held admission, or ends the claim just made, or changes
nothing. -/
def State.takeWithdrawal (s : State) (r : Requester) (late : Bool) : State :=
  let t := s.modMail r (fun x => { x with withdrawal := false })
  if t.leaseUnit.held.any (fun a => a.requester == r) then
    t.modLease (fun u => { u with held := u.held.filter (fun a => a.requester != r) })
  else if t.leaseUnit.claims.any (fun c => c.requester == r) then t.endClaim late r
  else t

/-- ADMISSION_WITHDRAWAL. -/
def execAdmissionWithdrawal (r : Requester) (late : Bool) (s : State) : Host.Outcome State Fault Refusal :=
  .next (if (s.mail.get r).withdrawal = true ∧ (s.mail.get r).claimEnd = false then
      s.atLeaseUnit (fun t => t.takeWithdrawal r late)
    else s)

/-- CLAIM_END (R34). -/
def execClaimEnd (r : Requester) (late : Bool) (s : State) : Host.Outcome State Fault Refusal :=
  .next (if (s.mail.get r).claimEnd then
      s.atLeaseUnit (fun t => (t.modMail r (fun x => { x with claimEnd := false })).endClaim late r)
    else s)

end Sys2Proof.Machine
end

