-- ==== Sys2Proof/Machine/Arbiter.lean ====
section
/-! DEFINITION. The store arbiter (04): turn requests and turn ends. -/

namespace Sys2Proof.Machine

/-- 04 TABLE 2: the order of search after the last granted requester. -/
def orderAfter : Requester → List Requester
  | .port .p0 => [.port .p1, .port .p2, .port .p3, .engine, .port .p0]
  | .port .p1 => [.port .p2, .port .p3, .engine, .port .p0, .port .p1]
  | .port .p2 => [.port .p3, .engine, .port .p0, .port .p1, .port .p2]
  | .port .p3 => [.engine, .port .p0, .port .p1, .port .p2, .port .p3]
  | .engine => [.port .p0, .port .p1, .port .p2, .port .p3, .engine]

/-- The first pending requester of an order of search, with its turn. -/
def Arbiter.firstPending (a : Arbiter) (order : List Requester) : Option (Requester × Turn) :=
  order.findSome? (fun r => a.pending.find? (fun x => x.1 == r))

/-- The turn of a requester granted. -/
def Arbiter.grant (a : Arbiter) (r : Requester) (t : Turn) : Arbiter :=
  { current := some (r, t), pending := a.pending.filter (fun x => x.1 != r), lastGranted := r }

/-- R60: the arbiter takes a turn request. -/
def Arbiter.take (a : Arbiter) (r : Requester) (t : Turn) : Arbiter :=
  match a.current with
  | none => a.grant r t
  | some _ => { a with pending := a.pending ++ [(r, t)] }

/-- R61: the next turn is selected at a turn end. -/
def Arbiter.selectNext (a : Arbiter) : Arbiter :=
  match a.firstPending (orderAfter a.lastGranted) with
  | none => { a with current := none }
  | some (r, t) => a.grant r t

/-- TURN_REQUEST. -/
def execTurnRequest (r : Requester) (s : State) : Host.Outcome State Fault Refusal :=
  .next (match (s.mail.get r).turn with
    | none => s
    | some t => (s.modMail r (fun m => { m with turn := none })).setArbiter (s.arbiter.take r t))

/-- The requester learns of its turn's end, with the bytes read. -/
def State.reportTurnEnd (s : State) (r : Requester) (bytes : List Byte) : State :=
  match r with
  | .port p => s.portTurnEnd p bytes
  | .engine => s.chunkEnd bytes

/-- R61, R62: the turn has moved its bytes as one whole, the next turn is selected, and the requester learns of the end.
Either order of these two gives the same state (R61). -/
def State.endTurn (s : State) (r : Requester) (t : Turn) : State :=
  ((s.writeTurn t).setArbiter s.arbiter.selectNext).reportTurnEnd r (t.returned s)

/-- TURN_END. -/
def execTurnEnd (s : State) : Host.Outcome State Fault Refusal :=
  match s.arbiter.current with
  | none => .next s
  | some (r, t) => if t.inStore then .next (s.endTurn r t) else .fault .noStoreByte

end Sys2Proof.Machine
end

