-- ==== Sys2Proof/Machine/Leases.lean ====
section
/-! DEFINITION. The lease requests (01, 02): LEASE, RENEW, RELEASE, WITHDRAW, LEASE-LIST, and the lease unit's two
expiries. A request is decided where it is taken, or where `late`, by a further command of its row (R140). -/

namespace Sys2Proof.Machine

/-- The port unit hands a request over: where `late` it stands undecided, otherwise its block decides it now (R140). -/
def State.handOver (s : State) (p : Port) (late : Bool) (h : Handed) (decide : State → State) : State :=
  if late then s.setPhase p (.handed h) else decide (s.setPhase p (.handed h))

/-! ## LEASE (R5 to R13) -/

/-- R5, fields other than the kind code. -/
def badLeaseFields (index length life wait : Nat) : Bool :=
  decide (7 < index ∨ length = 0 ∨ maxLength < length ∨ life = 0 ∨ maxMilliseconds < life ∨ maxMilliseconds < wait)

/-- R5, R78: the right a lease of this kind needs. -/
def Rights.admitLease (r : Rights) (k : LeaseKind) : Bool :=
  match k with
  | .exclusive => r.writes
  | .shared => r.reads

/-- R5: the port unit's checks of a LEASE request, then its handing over. -/
def State.checkLease (s : State) (p : Port) (late : Bool) (f : Frame) : State :=
  let index := fieldAt f.payload 0 1
  let start := fieldAt f.payload 1 3
  let length := fieldAt f.payload 4 3
  let life := fieldAt f.payload 8 2
  let wait := fieldAt f.payload 10 2
  match LeaseKind.ofCode (fieldAt f.payload 7 1) with
  | none => s.answer p .badField []
  | some k =>
    if badLeaseFields index length life wait then s.answer p .badField []
    else
      match (s.pu.get p).named index start length with
      | none => s.answer p .notMapped []
      | some w =>
        if w.contiguous start length = false then s.answer p .wraps []
        else if w.rights.admitLease k = false then s.answer p .noRight []
        else
          let x : LeaseRequest := { kind := k, range := { start := w.translate start, length := length },
                                    logical := start, window := index, life := life, wait := wait }
          s.handOver p late (.lease x) (fun t => t.atLeaseUnit (fun u => u.decideLease p x))

/-- LEASE. -/
def execLease (p : Port) (late : Bool) (s : State) : Host.Outcome State Fault Refusal :=
  .next (match s.handed p with
    | some (.lease x) => s.atLeaseUnit (fun t => t.decideLease p x)
    | _ => s.takeRequest p .lease (fun f t => t.checkLease p late f))

/-! ## RENEW (R15) -/

/-- The held lease of the port with this id. -/
def LeaseUnit.leaseOf (u : LeaseUnit) (p : Port) (id : Nat) : Option Lease :=
  u.leases.find? (fun l => l.id == id && l.port == p)

/-- The lease with this id gets a new remaining lifetime. -/
def LeaseUnit.renewLease (u : LeaseUnit) (id life : Nat) : LeaseUnit :=
  { u with leases := u.leases.map (fun l => if l.id = id then { l with life := life } else l) }

/-- R15: the lease unit decides a RENEW. -/
def State.decideRenew (s : State) (p : Port) (id life : Nat) : State :=
  match s.leaseUnit.leaseOf p id with
  | none => s.answer p .notFound []
  | some _ => (s.modLease (fun u => u.renewLease id life)).answer p .ok (fieldOf 1 id ++ fieldOf 2 life)

/-- RENEW. -/
def execRenew (p : Port) (late : Bool) (s : State) : Host.Outcome State Fault Refusal :=
  .next (match s.handed p with
    | some (.renew id life) => s.atLeaseUnit (fun t => t.decideRenew p id life)
    | _ => s.takeRequest p .renew (fun f t =>
        let id := fieldAt f.payload 0 1
        let life := fieldAt f.payload 1 2
        if id = 0 ∨ life = 0 ∨ maxMilliseconds < life then t.answer p .badField []
        else t.handOver p late (.renew id life) (fun u =>
          u.atLeaseUnit (fun v => v.decideRenew p id life))))

/-! ## RELEASE (R16) -/

/-- R16: the lease unit decides a RELEASE. -/
def State.decideRelease (s : State) (p : Port) (id : Nat) : State :=
  match s.leaseUnit.leaseOf p id with
  | none => s.answer p .notFound []
  | some _ => ((s.modLease (fun u => u.removeLease id)).answer p .ok (fieldOf 1 id)).afterRemoval id

/-- RELEASE. -/
def execRelease (p : Port) (late : Bool) (s : State) : Host.Outcome State Fault Refusal :=
  .next (match s.handed p with
    | some (.release id) => s.atLeaseUnit (fun t => t.decideRelease p id)
    | _ => s.takeRequest p .release (fun f t =>
        let id := fieldAt f.payload 0 1
        if id = 0 then t.answer p .badField []
        else t.handOver p late (.release id) (fun u => u.atLeaseUnit (fun v => v.decideRelease p id))))

/-! ## WITHDRAW (R35) -/

/-- R35: the lease unit decides a WITHDRAW. -/
def State.decideWithdraw (s : State) (p : Port) (tag : Byte) : State :=
  match s.leaseUnit.waiterOf p tag with
  | none => s.answer p .notFound []
  | some w =>
    match w.settling with
    | some _ => s.answer p .wrongState []
    | none =>
      (((s.modLease (fun u => u.removeWaiter p tag)).answerWaiter p tag .withdrawn []).answer p .ok []).scan false

/-- WITHDRAW. -/
def execWithdraw (p : Port) (late : Bool) (s : State) : Host.Outcome State Fault Refusal :=
  .next (match s.handed p with
    | some (.withdraw tag) => s.atLeaseUnit (fun t => t.decideWithdraw p tag)
    | _ => s.takeRequest p .withdraw (fun f t =>
        let tag := f.payload.headD 0
        t.handOver p late (.withdraw tag) (fun u => u.atLeaseUnit (fun v => v.decideWithdraw p tag))))

/-! ## LEASE-LIST (R20) -/

/-- R20: the lease unit answers a LEASE-LIST. -/
def State.decideLeaseList (s : State) (p : Port) : State := s.answer p .ok (s.leaseUnit.listing p)

/-- LEASE-LIST. -/
def execLeaseList (p : Port) (late : Bool) (s : State) : Host.Outcome State Fault Refusal :=
  .next (match s.handed p with
    | some .leaseList => s.atLeaseUnit (fun t => t.decideLeaseList p)
    | _ => s.takeRequest p .leaseList (fun _ t =>
        t.handOver p late .leaseList (fun u => u.atLeaseUnit (fun v => v.decideLeaseList p))))

/-! ## Expiries (R17, R27) -/

/-- LEASE_LAPSE: the lease with this id lapses where its remaining lifetime is 0. -/
def execLeaseLapse (id : Nat) (s : State) : Host.Outcome State Fault Refusal := .next (s.takeLapse id)

/-- WAIT_EXPIRY: the port's waiter with this tag expires where its remaining wait is 0 and it is not settling (R26). -/
def execWaitExpiry (p : Port) (tag : Byte) (s : State) : Host.Outcome State Fault Refusal :=
  .next (s.takeWaitExpiry p tag)

end Sys2Proof.Machine
end

