-- ==== Sys2Proof/Machine/Jobs.lean ====
section
/-! DEFINITION. The job requests (06, 07): JOB-COPY, JOB-FILL, JOB-SUM, JOB-PAUSE, JOB-RESUME, JOB-CANCEL, JOB-QUERY, the
removal report and the block-limit expiry. -/

namespace Sys2Proof.Machine

/-! ## Submissions (R92 to R96) -/

/-- R92, step 1. -/
def badJobFields (length limit : Nat) : Bool :=
  decide (length = 0 ∨ maxLength < length ∨ maxMilliseconds < limit)

/-- 05 TABLE 4: one range of a job located and contiguous, or the result that refuses it. -/
def PortUnit.jobRange (u : PortUnit) (start length : Nat) : Except Result Window :=
  match u.located start length with
  | none => .error .notMapped
  | some w => if w.contiguous start length then .ok w else .error .wraps

/-- A submission that has passed the port unit's checks is handed to the job engine (R92, step 3). -/
def State.handSubmission (s : State) (p : Port) (late : Bool) (w : Submission) (length limit : Nat) : State :=
  s.handOver p late (.submit w length limit) (fun t => t.atEngine (fun u => u.submit p w length limit))

/-- R92, R93: the port unit's checks of a JOB-COPY. -/
def State.checkCopy (s : State) (p : Port) (late : Bool) (f : Frame) : State :=
  let source := fieldAt f.payload 0 3
  let destination := fieldAt f.payload 3 3
  let length := fieldAt f.payload 6 3
  let limit := fieldAt f.payload 9 2
  if badJobFields length limit then s.answer p .badField []
  else
    match (s.pu.get p).jobRange source length with
    | .error r => s.answer p r []
    | .ok v =>
      match (s.pu.get p).jobRange destination length with
      | .error r => s.answer p r []
      | .ok w =>
        if v.rights.reads = false then s.answer p .noRight []
        else if w.rights.writes = false then s.answer p .noRight []
        else s.handSubmission p late (.copy (v.translate source) (w.translate destination)) length limit

/-- JOB-COPY. -/
def execJobCopy (p : Port) (late : Bool) (s : State) : Host.Outcome State Fault Refusal :=
  .next (match s.handed p with
    | some (.submit (.copy a b) length limit) => s.atEngine (fun t => t.submit p (.copy a b) length limit)
    | _ => s.takeRequest p .jobCopy (fun f t => t.checkCopy p late f))

/-- R92, R94: the port unit's checks of a JOB-FILL. -/
def State.checkFill (s : State) (p : Port) (late : Bool) (f : Frame) : State :=
  let destination := fieldAt f.payload 0 3
  let length := fieldAt f.payload 3 3
  let limit := fieldAt f.payload 10 2
  if badJobFields length limit then s.answer p .badField []
  else
    match (s.pu.get p).jobRange destination length with
    | .error r => s.answer p r []
    | .ok w =>
      if w.rights.writes = false then s.answer p .noRight []
      else s.handSubmission p late (.fill (w.translate destination) (slice f.payload 6 4)) length limit

/-- JOB-FILL. -/
def execJobFill (p : Port) (late : Bool) (s : State) : Host.Outcome State Fault Refusal :=
  .next (match s.handed p with
    | some (.submit (.fill a pattern) length limit) => s.atEngine (fun t => t.submit p (.fill a pattern) length limit)
    | _ => s.takeRequest p .jobFill (fun f t => t.checkFill p late f))

/-- R92, R95: the port unit's checks of a JOB-SUM. -/
def State.checkSum (s : State) (p : Port) (late : Bool) (f : Frame) : State :=
  let source := fieldAt f.payload 0 3
  let length := fieldAt f.payload 3 3
  let limit := fieldAt f.payload 6 2
  if badJobFields length limit then s.answer p .badField []
  else
    match (s.pu.get p).jobRange source length with
    | .error r => s.answer p r []
    | .ok w =>
      if w.rights.reads = false then s.answer p .noRight []
      else s.handSubmission p late (.sum (w.translate source)) length limit

/-- JOB-SUM. -/
def execJobSum (p : Port) (late : Bool) (s : State) : Host.Outcome State Fault Refusal :=
  .next (match s.handed p with
    | some (.submit (.sum a) length limit) => s.atEngine (fun t => t.submit p (.sum a) length limit)
    | _ => s.takeRequest p .jobSum (fun f t => t.checkSum p late f))

/-! ## Control requests (R111 to R117) -/

/-- The id that a control request names. -/
def namedId (f : Frame) : Nat := fieldAt f.payload 0 1

/-- A control request's field check (R111, R123, R164), then its handing over. -/
def State.control (s : State) (p : Port) (late : Bool) (f : Frame) (h : Nat → Handed) (decide : Nat → State → State) :
    State :=
  if namedId f = 0 then s.answer p .badField [] else s.handOver p late (h (namedId f)) (decide (namedId f))

/-- The job becomes PAUSED (R112). -/
def JobEngine.pauseJob (e : JobEngine) (id : Nat) : JobEngine := e.modJob id (fun k => { k with state := .paused })

/-- R112: the job engine decides a JOB-PAUSE. -/
def State.decidePause (s : State) (p : Port) (id : Nat) : State :=
  match s.engine.findOf p id with
  | none => s.answer p .notFound []
  | some j =>
    match j.state with
    | .queued | .blocked _ _ => (s.modEngine (fun e => e.pauseJob id)).answer p .ok j.stopFields
    | .running =>
      if s.engine.inChunk id then s.deferStop p j j.stop.afterPause
      else
        (((s.withdrawAdmission .engine).modEngine (fun e => (e.pauseJob id).leave)).answer p .ok j.stopFields).selectJob
    | .paused => s.answer p .wrongState []

/-- JOB-PAUSE. -/
def execJobPause (p : Port) (late : Bool) (s : State) : Host.Outcome State Fault Refusal :=
  .next (match s.handed p with
    | some (.jobPause id) => s.atEngine (fun t => t.decidePause p id)
    | _ => s.takeRequest p .jobPause (fun f t =>
        t.control p late f .jobPause (fun id u => u.atEngine (fun v => v.decidePause p id))))

/-- R113: the job engine decides a JOB-RESUME. -/
def State.decideResume (s : State) (p : Port) (id : Nat) : State :=
  match s.engine.findOf p id with
  | none => s.answer p .notFound []
  | some j =>
    match j.state with
    | .paused =>
      ((s.modEngine (fun e => e.modJob id (fun k => { k with state := .queued }))).answer p .ok
        (fieldOf 1 id)).selectJob
    | .queued | .blocked _ _ | .running => s.answer p .wrongState []

/-- JOB-RESUME. -/
def execJobResume (p : Port) (late : Bool) (s : State) : Host.Outcome State Fault Refusal :=
  .next (match s.handed p with
    | some (.jobResume id) => s.atEngine (fun t => t.decideResume p id)
    | _ => s.takeRequest p .jobResume (fun f t =>
        t.control p late f .jobResume (fun id u => u.atEngine (fun v => v.decideResume p id))))

/-- R111, R114: the job engine decides a JOB-CANCEL. -/
def State.decideCancel (s : State) (p : Port) (id : Nat) : State :=
  match s.engine.findOf p id with
  | none => s.answer p .notFound []
  | some j => s.cancelJob p j .owner

/-- JOB-CANCEL. -/
def execJobCancel (p : Port) (late : Bool) (s : State) : Host.Outcome State Fault Refusal :=
  .next (match s.handed p with
    | some (.jobCancel id) => s.atEngine (fun t => t.decideCancel p id)
    | _ => s.takeRequest p .jobCancel (fun f t =>
        t.control p late f .jobCancel (fun id u => u.atEngine (fun v => v.decideCancel p id))))

/-- R123: the job engine answers a JOB-QUERY. -/
def State.decideQuery (s : State) (p : Port) (id : Nat) : State :=
  match s.engine.findOf p id with
  | some j => s.answer p .ok j.queryRecord
  | none =>
    match (s.engine.histories.get p).find? (fun x => x.id == id) with
    | some x => s.answer p .ok x.queryRecord
    | none => s.answer p .notFound []

/-- JOB-QUERY. -/
def execJobQuery (p : Port) (late : Bool) (s : State) : Host.Outcome State Fault Refusal :=
  .next (match s.handed p with
    | some (.jobQuery id) => s.atEngine (fun t => t.decideQuery p id)
    | _ => s.takeRequest p .jobQuery (fun f t =>
        t.control p late f .jobQuery (fun id u => u.atEngine (fun v => v.decideQuery p id))))

/-! ## Removal reports and the block limit -/

/-- R108: a job BLOCKED on lease `x` becomes QUEUED. -/
def Job.unblock (x : Nat) (j : Job) : Job :=
  match j.state with
  | .blocked y _ => if y = x then { j with state := .queued } else j
  | .queued | .running | .paused => j

/-- LEASE_REMOVAL_REPORT: the job engine takes the report that is next in its order (R108, R109). -/
def execLeaseRemovalReport (s : State) : Host.Outcome State Fault Refusal :=
  .next (match s.engine.inbox with
    | .removed x :: rest =>
      s.atEngine (fun t => (t.modEngine (fun e => { e with inbox := rest, jobs := e.jobs.map (Job.unblock x) })).selectJob)
    | _ => s)

/-- BLOCK_LIMIT_EXPIRY: the job with this id ends FAILED where its remaining block time is 0 (R118). -/
def execBlockLimitExpiry (id : Nat) (s : State) : Host.Outcome State Fault Refusal := .next (s.takeBlockLimit id)

end Sys2Proof.Machine
end

