-- ==== Sys2Proof/Machine/Link.lean ====
section
/-! DEFINITION. The port link (09): discards, placing a frame, the classes of a character, the receive line bit by bit with
its breaks, the end of a frame sent, the level of a transmit line. -/

namespace Sys2Proof.Machine

/-! ## Discards and complete frames -/

/-- The counter of a discard reason goes up (R136, R149). -/
def Receiver.countDiscard (x : Receiver) (r : DiscardReason) : Receiver :=
  match r with
  | .check => { x with checkDiscards := countUp x.checkDiscards }
  | .length => { x with lengthDiscards := countUp x.lengthDiscards }
  | .cut => { x with cutDiscards := countUp x.cutDiscards }
  | .framing => { x with framingDiscards := countUp x.framingDiscards }

/-- The assembly buffer is emptied and the receiver hunts. -/
def Receiver.hunt (x : Receiver) : Receiver := { x with state := .hunting, buffer := [] }

/-- R149: a discard. -/
def State.discardFrame (s : State) (p : Port) (r : DiscardReason) : State :=
  (s.modLrx p (fun x => x.hunt.countDiscard r)).offer p .frameDiscarded [r.code]

/-- LEN of the frame in assembly, known from its fourth character on (R146). -/
def lengthField (buffer : List Byte) : Nat := fieldAt buffer 2 2

/-- The frame that a complete assembly holds (R148). -/
def assembled (buffer : List Byte) : Frame :=
  { kind := buffer.headD 0, tag := buffer.getD 1 0, payload := slice buffer 4 (lengthField buffer) }

/-- R147: the check of a complete assembly is good. -/
def checkGood (buffer : List Byte) : Bool :=
  decide (fieldAt buffer (4 + lengthField buffer) 2 = (crc16 (buffer.take (4 + lengthField buffer))).toNat)

/-- R148, R150: a good frame is placed, lost as an overrun, or discarded in CLOSING. -/
def State.placeFrame (s : State) (p : Port) (f : Frame) : State :=
  if (s.pu.get p).session = .closing then s
  else
    match (s.lrx.get p).held with
    | none => s.modLrx p (fun x => { x with held := some f })
    | some _ => (s.modLrx p (fun x => { x with overruns := countUp x.overruns })).offer p .overrun [f.kind, f.tag]

/-- R147: a frame is complete. -/
def State.completeFrame (s : State) (p : Port) (buffer : List Byte) : State :=
  if checkGood buffer then (s.modLrx p Receiver.hunt).placeFrame p (assembled buffer) else s.discardFrame p .check

/-! ## The classes of a character (R145, 09 TABLE 3) -/

/-- R149: a frame in assembly is discarded for FRAMING; in HUNTING nothing is. -/
def State.discardAssembly (s : State) (p : Port) : State :=
  if (s.lrx.get p).state = .assembling then s.discardFrame p .framing else s

/-- The frame in assembly begins with this character as KIND (R145, R146). -/
def Receiver.begin (c : Byte) (x : Receiver) : Receiver := { x with state := .assembling, buffer := [c] }

/-- A good marked character: an assembly begins, a frame in assembly being discarded for CUT. -/
def State.takeMarked (s : State) (p : Port) (c : Byte) : State :=
  match (s.lrx.get p).state with
  | .assembling => (s.discardFrame p .cut).modLrx p (Receiver.begin c)
  | .hunting | .brk => s.modLrx p (Receiver.begin c)

/-- What an assembly of these characters comes to (R146, R147). -/
def State.assemble (s : State) (p : Port) (buffer : List Byte) : State :=
  if buffer.length = 4 ∧ maxPayload < lengthField buffer then s.discardFrame p .length
  else if 4 ≤ buffer.length ∧ buffer.length = 4 + lengthField buffer + 2 then s.completeFrame p buffer
  else s.modLrx p (fun x => { x with buffer := buffer })

/-- A good unmarked character: ignored in HUNTING, appended in ASSEMBLING. -/
def State.takeUnmarked (s : State) (p : Port) (c : Byte) : State :=
  match (s.lrx.get p).state with
  | .assembling => s.assemble p ((s.lrx.get p).buffer ++ [c])
  | .hunting | .brk => s

/-- The byte whose bits are these, the least significant first (R143). -/
def byteOfBits (bits : List Bool) : Byte := BitVec.ofNat 8 (bits.foldr (fun b n => b.toNat + 2 * n) 0)

/-- R145: the character whose levels before the stop bit are `levels` ends with a stop bit at the level `stop`. -/
def State.takeCharacter (s : State) (p : Port) (levels : List Bool) (stop : Bool) : State :=
  if stop then
    if levels.getD 9 false then s.takeMarked p (byteOfBits ((levels.drop 1).take 8))
    else s.takeUnmarked p (byteOfBits ((levels.drop 1).take 8))
  else s.discardAssembly p

/-! ## The receive line, bit by bit (R145, R151) -/

/-- The shortest break, in bit times of space. -/
def breakBits : Nat := 22

/-- Bit times of one character (R143). -/
def characterBits : Nat := 11

/-- The idle mark that ends BREAK, in bit times. -/
def breakEndBits : Nat := 11

/-- The line was at space in the bit time before. -/
def LineRun.atSpace : LineRun → Bool
  | .space _ => true
  | .none | .mark _ => false

/-- The bit times of space counted so far. -/
def LineRun.spaces : LineRun → Nat
  | .space n => n
  | .none | .mark _ => 0

/-- The bit times of idle mark counted so far. -/
def LineRun.marks : LineRun → Nat
  | .mark n => n
  | .none | .space _ => 0

/-- R145: this level belongs to a character: one is in progress, or this is the first space level after mark. -/
def Receiver.inCharacter (x : Receiver) (level : Bool) : Bool :=
  !x.character.isEmpty || (!level && !x.run.atSpace)

/-- R145: one bit time of a receiver that takes characters. The character in progress goes on, or a start bit begins one,
and the 11th level, its stop bit, ends it. -/
def State.characterBit (s : State) (p : Port) (level : Bool) : State :=
  let x := s.lrx.get p
  if !x.inCharacter level then s
  else if x.character.length + 1 < characterBits then
    s.modLrx p (fun y => { y with character := x.character ++ [level] })
  else (s.modLrx p (fun y => { y with character := [] })).takeCharacter p x.character level

/-- R151: the run of space is counted, also inside a character, and mark ends it. -/
def Receiver.countRun (level : Bool) (x : Receiver) : Receiver :=
  { x with run := if level then .none else .space (x.run.spaces + 1) }

/-- R151: a break is detected. -/
def State.detectBreak (s : State) (p : Port) : State :=
  (s.modLrx p (fun x => { x with buffer := [], held := none, state := .brk, character := [] })).modPu p
    (fun u => { u with breakReports := u.breakReports + 1 })

/-- R151: one bit time in BREAK, where no character is taken. -/
def Receiver.breakBit (level : Bool) (x : Receiver) : Receiver :=
  if level then
    if breakEndBits ≤ x.run.marks + 1 then { x with state := .hunting, run := .none, character := [] }
    else { x with run := .mark (x.run.marks + 1) }
  else { x with run := .space (x.run.spaces + 1) }

/-- One bit time of the receive line at this level, mark being true. A run of 22 bit times of space is a break, a frame
in assembly being discarded for FRAMING before it (R151). -/
def State.lineBit (s : State) (p : Port) (level : Bool) : State :=
  if (s.lrx.get p).state = .brk then s.modLrx p (Receiver.breakBit level)
  else
    let t := (s.characterBit p level).modLrx p (Receiver.countRun level)
    if (t.lrx.get p).run.spaces < breakBits then t else (t.discardAssembly p).detectBreak p

/-- The receive line at these levels, one bit time each. While reset is held it is ignored (R179). -/
def State.line (s : State) (p : Port) (levels : List Bool) : State :=
  if s.resetLine ≠ .released then s else s.each levels (fun t level => t.lineBit p level)

/-- The levels of one character in order, mark being true, with its stop bit at the level `stop` (R143). -/
def characterLevels (c : Bool × Byte) (stop : Bool) : List Bool :=
  false :: ((List.range 8).map (fun i => c.2.getLsbD i) ++ [c.1, stop])

/-- A character on the line after `idle` bit times of mark. -/
def State.character (s : State) (p : Port) (idle : Nat) (c : Bool × Byte) (stop : Bool) : State :=
  s.line p (List.replicate idle true ++ characterLevels c stop)

/-- ASSEMBLY_BEGINS. -/
def execAssemblyBegins (p : Port) (idle : Nat) (char : Byte) (s : State) : Host.Outcome State Fault Refusal :=
  .next (s.character p idle (true, char) true)

/-- CUT_DISCARD. -/
def execCutDiscard (p : Port) (idle : Nat) (char : Byte) (s : State) : Host.Outcome State Fault Refusal :=
  .next (s.character p idle (true, char) true)

/-- CHARACTER_APPENDED. -/
def execCharacterAppended (p : Port) (idle : Nat) (char : Byte) (s : State) : Host.Outcome State Fault Refusal :=
  .next (s.character p idle (false, char) true)

/-- LENGTH_DISCARD. -/
def execLengthDiscard (p : Port) (idle : Nat) (char : Byte) (s : State) : Host.Outcome State Fault Refusal :=
  .next (s.character p idle (false, char) true)

/-- FRAME_COMPLETE. -/
def execFrameComplete (p : Port) (idle : Nat) (char : Byte) (s : State) : Host.Outcome State Fault Refusal :=
  .next (s.character p idle (false, char) true)

/-- FRAMING_DISCARD. -/
def execFramingDiscard (p : Port) (idle : Nat) (char : Bool × Byte) (s : State) : Host.Outcome State Fault Refusal :=
  .next (s.character p idle char false)

/-- BREAK. -/
def execLineBreak (p : Port) (bits : Nat) (s : State) : Host.Outcome State Fault Refusal :=
  .next (s.line p (List.replicate bits false))

/-- BREAK_END. -/
def execBreakEnd (p : Port) (bits : Nat) (s : State) : Host.Outcome State Fault Refusal :=
  .next (s.line p (List.replicate bits true))

/-! ## The transmit line (R143, R144, R154) -/

/-- FRAME_SENT. -/
def execFrameSent (p : Port) (s : State) : Host.Outcome State Fault Refusal :=
  .next (s.modLtx p Transmitter.frameSent)

/-- R144: core clock cycles of one bit time, by the sampled straps. -/
def Straps.bitCycles (x : Straps) : Nat :=
  match x.lr1, x.lr0 with
  | false, false => 208
  | false, true => 52
  | true, false => 24
  | true, true => 8

/-- The level of TXD after `cycles` of the character in progress. -/
def levelAt (bit : Nat) (c : Bool × Byte) (cycles : Nat) : Bool :=
  (characterLevels c true).getD (cycles / bit) true

/-- The level of TXDn: mark while idle and while reset is held (R143, R160, R179). -/
def State.txd (s : State) (p : Port) : Bool :=
  let t := s.ltx.get p
  if s.resetLine ≠ .released then true
  else
    match t.serializer with
    | .idle => true
    | .sending position cycles => levelAt s.straps.bitCycles (t.characterAt position) cycles
    | .cutting position cycles => levelAt s.straps.bitCycles (t.characterAt position) cycles
    | .finishing character cycles => levelAt s.straps.bitCycles character cycles

/-- Characters of the frame being sent. -/
def Transmitter.frameLength (t : Transmitter) : Nat :=
  match t.queue with
  | f :: _ => 4 + f.payload.length + 2
  | [] => 0

/-- One core clock cycle of a serializer, `character` cycles making one character (R154, R158). -/
def Transmitter.tick (t : Transmitter) (character : Nat) : Transmitter :=
  match t.serializer with
  | .idle => t
  | .sending position cycles =>
    if cycles + 1 < character then { t with serializer := .sending position (cycles + 1) }
    else if position + 1 < t.frameLength then { t with serializer := .sending (position + 1) 0 }
    else t.frameSent
  | .cutting position cycles =>
    if cycles + 1 < character then { t with serializer := .cutting position (cycles + 1) } else t.frameSent
  | .finishing c cycles =>
    if cycles + 1 < character then { t with serializer := .finishing c (cycles + 1) } else t.frameSent

end Sys2Proof.Machine
end

