-- ==== Sys2Proof/Machine/Reset.lean ====
section
/-! DEFINITION. Device reset (12 R179, R180; 04 R58). -/

namespace Sys2Proof.Machine

/-- Every block in its reset state (R179): R22, R39, R43, R49, R59, R88, R98, R125, R127, R160, R177. The store, the
straps and the queue of commands stay. -/
def State.resetBlocks (s : State) : State :=
  { s with lrx := .const .reset, ltx := .const .reset, pu := .const .reset, leaseUnit := .reset, arbiter := .reset,
           engine := .reset, mail := { ports := .const .empty, engine := .empty }, time := .reset }

/-- POWER_ON: reset is held and the content of every store byte is undefined (R58, R179; log 6). -/
def execPowerOn (s : State) : Host.Outcome State Fault Refusal :=
  .next { s.resetBlocks with store := [], epoch := s.epoch + 1, resetLine := .powerOnHold }

/-- Core clock cycles for which RESET_N must be low (R179). -/
def resetFilter : Nat := 24

/-- R58: the cells that the write turn in progress has written when reset interrupts it, byte by byte in any mix. -/
def State.interruptedCells (s : State) : List Host.Cell :=
  match s.arbiter.current with
  | none => []
  | some (_, t) => (t.written s).filter (fun c => decide (c.1 < storeSize) && Config.resetByteWritten s.resets c.1)

/-- RESET_ASSERT: RESET_N low for at least 24 cycles puts the part into reset; a reset while reset is held changes nothing
more (R179). -/
def execResetAssert (lowCycles : Nat) (s : State) : Host.Outcome State Fault Refusal :=
  .next (if lowCycles < resetFilter ∨ s.resetLine ≠ .released then s
    else { s.resetBlocks with store := Memory.writeAll s.store s.interruptedCells, resets := s.resets + 1,
                              resetLine := .resetLow })

/-- A receiver at the release, its line at this level: from a line at space it takes no start bit before mark, and counts
the run of space from the release (R145). -/
def Receiver.released (level : Bool) : Receiver :=
  { Receiver.reset with run := if level then .none else .space 0 }

/-- RESET_RELEASE: every block starts in its reset state and the straps are sampled (R179, R180). -/
def execResetRelease (rate : Bool × Bool) (supv : Bool) (rx : RxLevels) (s : State) : Host.Outcome State Fault Refusal :=
  .next (if s.resetLine = .released then s
    else { s.resetBlocks with
      lrx := { p0 := .released rx.rx0, p1 := .released rx.rx1, p2 := .released rx.rx2, p3 := .released rx.rx3 },
      straps := { lr1 := rate.1, lr0 := rate.2, supv := supv }, resetLine := .released })

end Sys2Proof.Machine
end

