-- ==== Sys2Proof/Machine/Sessions.lean ====
section
/-! DEFINITION. Sessions (08): the beginning of a teardown, OPEN, CLOSE, PORT-STATUS, a frame of no request kind, a break
report, and the end of a teardown. -/

namespace Sys2Proof.Machine

/-- Every teardown step handed out (R138). -/
def StepsDue.all : StepsDue := { waiter := true, lease := true, job := true, history := true }

/-- The run of the line in a receiver that returns to HUNTING: a run of space goes on (assumption log 27). -/
def LineRun.hunting : LineRun → LineRun
  | .space n => .space n
  | .none | .mark _ => .none

/-- R138: the held slot and the assembly are emptied. The receiver returns to HUNTING, or stays in BREAK where a break is
the cause. -/
def Receiver.emptied (x : Receiver) (c : Cause) : Receiver :=
  if c = .brk ∧ x.state = .brk then { x with held := none, buffer := [] }
  else { x with held := none, buffer := [], state := .hunting, run := x.run.hunting }

/-- R140: the EXECUTING request at the beginning of its port's teardown, by its phase. A request handed over, SETTLING or
deferred at a chunk end stands until the step of the block concerned; a CLOSE stands until DOWN. -/
def State.reachExecuting (s : State) (p : Port) : State :=
  match s.phase p with
  | some .access =>
    match (s.pu.get p).operation with
    | none => s.dropExecuting p
    | some o =>
      if o.admitted then
        (s.modPu p (fun u => { u with operation := some { o with abandoned := true } })).dropExecuting p
      else ((s.withdrawAdmission (.port p)).clearOperation p).dropExecuting p
  | some (.untilDown _) => s.dropExecuting p
  | some .deciding | some (.handed _) | some .settling | some .atChunkEnd | some .closing | none => s

/-- The port unit's own part of the beginning of a teardown (R138, R87): the cause, CLOSING, the four steps handed out,
every window CLOSED. An offer of SESSION-ENDED that LTXn has not taken yet will find the session not UP (log 26). -/
def PortUnit.close (u : PortUnit) (c : Cause) : PortUnit :=
  { u with session := .closing, cause := some c, stepsDue := .all, windows := Vector.replicate 8 none,
           dropOrders := u.dropOrders.map (fun _ => false) }

/-- R138: a teardown of the port begins. -/
def State.beginTeardown (s : State) (p : Port) (c : Cause) : State :=
  ((s.modLrx p (fun x => x.emptied c)).modPu p (fun u => u.close c)).reachExecuting p

/-! ## OPEN (R133) -/

/-- The six counters cleared (R133, R136): those of the receiver. -/
def Receiver.clearCounters (x : Receiver) : Receiver :=
  { x with checkDiscards := 0, lengthDiscards := 0, cutDiscards := 0, framingDiscards := 0, overruns := 0 }

/-- The session opened with a mask and a label (R133, R134). -/
def PortUnit.open (u : PortUnit) (m : NoticeMask) (label : List Byte) : PortUnit :=
  { u with mask := m, label := label, session := .up }

/-- R133: the session opens, and OK is queued. -/
def State.openPort (s : State) (p : Port) (f : Frame) (m : NoticeMask) : State :=
  (((s.modLrx p Receiver.clearCounters).modLtx p (fun t => { t with dropped := 0 })).modPu p
    (fun u => u.open m (f.payload.drop 3))).answerDirect p f.kind f.tag .ok
    [byte (portNumber p), flagByte (s.isSupervisor p), 1]

/-- R133: the decision on an OPEN taken in DOWN. -/
def State.decideOpen (s : State) (p : Port) (f : Frame) : State :=
  match NoticeMask.ofCode (fieldAt f.payload 1 1) with
  | none => s.answerDirect p f.kind f.tag .badField []
  | some m =>
    if fieldAt f.payload 0 1 ≠ 1 ∨ 16 < fieldAt f.payload 2 1 then s.answerDirect p f.kind f.tag .badField []
    else s.openPort p f m

/-- OPEN. -/
def execOpenSession (p : Port) (s : State) : Host.Outcome State Fault Refusal :=
  .next (s.takeRequest p .openSession (fun f t => t.decideOpen p f))

/-! ## CLOSE (R137) -/

/-- CLOSE: the request stays EXECUTING and its port's teardown begins. -/
def execClose (p : Port) (s : State) : Host.Outcome State Fault Refusal :=
  .next (s.takeRequest p .close (fun _ t => (t.setPhase p .closing).beginTeardown p .close))

/-! ## PORT-STATUS (R135) -/

/-- The block that gives a reading takes it as an event of its own, its due expiries before it (log 5). -/
def State.settle (s : State) (b : Owner) : State :=
  match b with
  | .port => s
  | .leaseUnit => s.expireLeases
  | .engine => s.expireJobs

/-- Readings taken one after the other, each value as it stands at its reading; the bytes join those of `fields`. -/
def State.takeReadings : List Reading → State → List Byte → State × List Byte
  | [], s, fields => (s, fields)
  | r :: rest, s, fields => State.takeReadings rest (s.settle r.owner) (fields ++ r.value (s.settle r.owner))

/-- The readings of a status request go on (R135, R170): one more where `late`, otherwise all that are left and then the
reply. -/
def State.readOn (s : State) (p : Port) (late : Bool) (g : Gather) (readings : List Reading) : State :=
  if late then
    let t := State.takeReadings ((readings.drop g.taken).take 1) s g.fields
    t.1.modPu p (fun u => { u with gather := some { g with taken := g.taken + 1, fields := t.2 } })
  else
    let t := State.takeReadings (readings.drop g.taken) s g.fields
    let u := t.1.modPu p (fun u => { u with gather := none })
    match (s.pu.get p).session with
    | .up => u.answerIn p .deciding .ok t.2
    | .down | .closing => u.answerDirect p g.kind.code g.tag .ok t.2

/-- A status request of kind `k`: its readings go on, or it is taken and they begin. -/
def State.status (s : State) (p : Port) (k : Kind) (late : Bool) (readings : List Reading) : State :=
  match (s.pu.get p).gather with
  | some g => if g.kind = k then s.readOn p late g readings else s
  | none =>
    s.takeRequest p k (fun f t => t.readOn p late { kind := k, tag := f.tag, taken := 0, fields := [] } readings)

/-- PORT-STATUS. -/
def execPortStatus (p : Port) (late : Bool) (s : State) : Host.Outcome State Fault Refusal :=
  .next (s.status p .portStatus late (portStatusReadings p))

/-! ## A KIND that is no request kind (R130) -/

/-- UNKNOWN_KIND: the held frame is taken and answered; reservation and entry begin and end in this one act (R128). -/
def execUnknownKind (p : Port) (s : State) : Host.Outcome State Fault Refusal :=
  .next (match s.takeable p with
    | none => s
    | some f => if isRequestKind f.kind then s else (s.emptySlot p).answerDirect p f.kind f.tag .unknownKind [])

/-! ## A break report (R152) -/

/-- R158, step 2, at the in-flight table: no entry has its reservation any more. -/
def PortUnit.clearReservations (u : PortUnit) : PortUnit :=
  { u with executing := u.executing.map (fun x => { x with reserved := false }),
           waiting := u.waiting.map (fun w => { w with reserved := false }) }

/-- R152, R158: the flush the port unit orders, with discard mode unless the session is DOWN. -/
def State.orderFlush (s : State) (p : Port) : State :=
  (s.modLtx p (fun t => t.flush ((s.pu.get p).session != .down))).modPu p PortUnit.clearReservations

/-- R152: the report acts by the session. -/
def State.takeBreak (s : State) (p : Port) : State :=
  match (s.pu.get p).session with
  | .up => (s.orderFlush p).beginTeardown p .brk
  | .closing => (s.orderFlush p).modPu p (fun u => { u with cause := some .brk })
  | .down => s.orderFlush p

/-- BREAK_REPORT: the port unit takes a report of its receiver. It takes no event while it gathers readings (R135). -/
def execBreakReport (p : Port) (s : State) : Host.Outcome State Fault Refusal :=
  .next (if (s.pu.get p).breakReports = 0 ∨ (s.pu.get p).gather ≠ none then s
    else (s.modPu p (fun u => { u with breakReports := u.breakReports - 1 })).takeBreak p)

/-! ## The end of a teardown (R141) -/

/-- The port unit at DOWN: mask, label and cause cleared, and DOWN reported to PU0. -/
def PortUnit.toDown (u : PortUnit) : PortUnit :=
  { u with session := .down, cause := none, mask := .empty, label := [], downReports := u.downReports + 1 }

/-- R141: the session becomes DOWN. The CLOSE, if any, is answered before discard mode goes off, so that a break
discards that reply (R142). -/
def State.finishTeardown (s : State) (p : Port) : State :=
  ((s.answer p .ok []).modPu p PortUnit.toDown).modLtx p Transmitter.discardOff

/-- SESSION_DOWN. -/
def execSessionDown (p : Port) (s : State) : Host.Outcome State Fault Refusal :=
  .next (if (s.pu.get p).session = .closing ∧ s.workDone p = true then s.finishTeardown p else s)

end Sys2Proof.Machine
end

