-- ==== Sys2Proof/Machine/StoreAccess.lean ====
section
/-! DEFINITION. READ, WRITE and EXCHANGE-IF (04) up to their admission request. Their turns are TURN_REQUEST and TURN_END. -/

namespace Sys2Proof.Machine

/-- A store operation at its start: no byte moved, awaiting admission. -/
def Operation.begin (o : Operation) (w : Window) (start count : Nat) : PortOperation :=
  { operation := o, mapping := w.mapping start, count := count, piece := 0, gathered := [], admitted := false,
    abandoned := false }

/-- A request that has passed its checks asks for admission (R45): its operation awaits admission. -/
def State.beginAccess (s : State) (p : Port) (o : PortOperation) (a : Access) : State :=
  ((s.modPu p (fun u => { u with operation := some o })).setPhase p .access).askAdmission a

/-- The longest READ or WRITE (R63). -/
def maxCountBytes : Nat := 1024

/-- R63: the decision on a READ. -/
def State.decideRead (s : State) (p : Port) (f : Frame) : State :=
  let start := fieldAt f.payload 0 3
  let count := fieldAt f.payload 3 2
  if count = 0 ∨ maxCountBytes < count then s.answer p .badField []
  else
    match (s.pu.get p).located start count with
    | none => s.answer p .notMapped []
    | some w =>
      if w.rights.reads = false then s.answer p .noRight []
      else s.beginAccess p (Operation.read.begin w start count)
        { owner := p, origin := .read, reads := w.byteSet start count, writes := [] }

/-- READ. -/
def execRead (p : Port) (s : State) : Host.Outcome State Fault Refusal :=
  .next (s.takeRequest p .read (fun f t => t.decideRead p f))

/-- R65: the decision on a WRITE. -/
def State.decideWrite (s : State) (p : Port) (f : Frame) : State :=
  let start := fieldAt f.payload 0 3
  let count := fieldAt f.payload 3 2
  if count = 0 ∨ maxCountBytes < count then s.answer p .badField []
  else
    match (s.pu.get p).located start count with
    | none => s.answer p .notMapped []
    | some w =>
      if w.rights.writes = false then s.answer p .noRight []
      else s.beginAccess p ((Operation.write (f.payload.drop 5)).begin w start count)
        { owner := p, origin := .write, reads := [], writes := w.byteSet start count }

/-- WRITE. -/
def execWrite (p : Port) (s : State) : Host.Outcome State Fault Refusal :=
  .next (s.takeRequest p .write (fun f t => t.decideWrite p f))

/-- R68, fields: the width is not 1, 2 or 4, or a byte of a value field above the width is not 0. -/
def badExchange (payload : List Byte) (width : Nat) : Bool :=
  decide (¬ (width = 1 ∨ width = 2 ∨ width = 4)) ||
    (slice payload 4 (4 - width) ++ slice payload 8 (4 - width)).any (fun b => b != 0)

/-- R68: the decision on an EXCHANGE-IF. -/
def State.decideExchangeIf (s : State) (p : Port) (f : Frame) : State :=
  let start := fieldAt f.payload 0 3
  let width := fieldAt f.payload 3 1
  if badExchange f.payload width then s.answer p .badField []
  else
    match (s.pu.get p).located start width with
    | none => s.answer p .notMapped []
    | some w =>
      if w.translate start % width ≠ 0 then s.answer p .misaligned []
      else if w.rights ≠ .readWrite then s.answer p .noRight []
      else s.beginAccess p
        ((Operation.exchangeIf (slice f.payload (8 - width) width) (slice f.payload (12 - width) width)).begin w start
          width)
        { owner := p, origin := .exchangeIf, reads := w.byteSet start width, writes := w.byteSet start width }

/-- EXCHANGE-IF. -/
def execExchangeIf (p : Port) (s : State) : Host.Outcome State Fault Refusal :=
  .next (s.takeRequest p .exchangeIf (fun f t => t.decideExchangeIf p f))

end Sys2Proof.Machine
end

