-- ==== Sys2Proof/Machine/Supervisor.lean ====
section
/-! DEFINITION. The supervisor requests (11): DEV-STATUS, FORCE-RELEASE, FORCE-CANCEL, PORT-DROP, and the drop order and
DOWN report that belong to PORT-DROP. -/

namespace Sys2Proof.Machine

/-- DEV-STATUS (R170). -/
def execDevStatus (p : Port) (late : Bool) (s : State) : Host.Outcome State Fault Refusal :=
  .next (s.status p .devStatus late devStatusReadings)

/-- R171: the lease unit decides a FORCE-RELEASE. -/
def State.decideForceRelease (s : State) (p : Port) (id : Nat) : State :=
  match s.leaseUnit.leases.find? (fun l => l.id == id) with
  | none => s.answer p .notFound []
  | some l =>
    (((s.modLease (fun u => u.removeLease id)).answer p .ok (fieldOf 1 id ++ fieldOf 1 (portNumber l.port))).offer l.port
      .leaseRevoked (fieldOf 1 id)).afterRemoval id

/-- FORCE-RELEASE. -/
def execForceRelease (p : Port) (late : Bool) (s : State) : Host.Outcome State Fault Refusal :=
  .next (match s.handed p with
    | some (.forceRelease id) => s.atLeaseUnit (fun t => t.decideForceRelease p id)
    | _ => s.takeRequest p .forceRelease (fun f t =>
        t.control p late f .forceRelease (fun id u => u.atLeaseUnit (fun v => v.decideForceRelease p id))))

/-- R173: the job engine decides a FORCE-CANCEL. -/
def State.decideForceCancel (s : State) (p : Port) (id : Nat) : State :=
  match s.engine.find id with
  | none => s.answer p .notFound []
  | some j => s.cancelJob p j .supervisor

/-- FORCE-CANCEL. -/
def execForceCancel (p : Port) (late : Bool) (s : State) : Host.Outcome State Fault Refusal :=
  .next (match s.handed p with
    | some (.forceCancel id) => s.atEngine (fun t => t.decideForceCancel p id)
    | _ => s.takeRequest p .forceCancel (fun f t =>
        t.control p late f .forceCancel (fun id u => u.atEngine (fun v => v.decideForceCancel p id))))

/-! ## PORT-DROP (R174, R175) -/

/-- R174: an outstanding DOWN report of the target is taken before PU0 asks for its state (assumption log 14). -/
def State.clearDownReports (s : State) (q : Port) : State := s.modPu q (fun u => { u with downReports := 0 })

/-- R174: PU0 decides a PORT-DROP of target `q`. -/
def State.dropTarget (s : State) (p : Port) (late : Bool) (q : Port) : State :=
  let t := s.clearDownReports q
  match (t.pu.get q).session with
  | .down => t.answer p .wrongState []
  | .closing => t.setPhase p (.untilDown q)
  | .up =>
    let u := if late then t else t.offer q .sessionEnded []
    (u.modPu q (fun x => { x with dropOrders := x.dropOrders ++ [late] })).setPhase p (.untilDown q)

/-- R174: the target of a PORT-DROP; none where the field is refused. -/
def dropTargetOf (n : Nat) : Option Port := if n = 0 then none else portOfNumber n

/-- PORT-DROP. -/
def execPortDrop (p : Port) (late : Bool) (s : State) : Host.Outcome State Fault Refusal :=
  .next (s.takeRequest p .portDrop (fun f t =>
    match dropTargetOf (namedId f) with
    | none => t.answer p .badField []
    | some q => t.dropTarget p late q))

/-- R174: the port unit acts on a drop order by its session; `waiting` says that its transmitter has not taken the offer
of SESSION-ENDED, which it takes first. -/
def State.takeDropOrder (s : State) (p : Port) (waiting : Bool) : State :=
  match (s.pu.get p).session with
  | .up => (if waiting then s.offer p .sessionEnded [] else s).beginTeardown p .portDrop
  | .closing => s
  | .down => s.modPu p (fun u => { u with downReports := u.downReports + 1 })

/-- DROP_ORDER: the port unit takes the oldest drop order. It takes no event while it gathers readings (R135). -/
def execDropOrder (p : Port) (s : State) : Host.Outcome State Fault Refusal :=
  .next (if (s.pu.get p).gather ≠ none then s
    else
      match (s.pu.get p).dropOrders with
      | [] => s
      | waiting :: rest => (s.modPu p (fun u => { u with dropOrders := rest })).takeDropOrder p waiting)

/-- R175: PU0 acts on the DOWN report of a port. -/
def State.takeDownReport (s : State) (q : Port) : State :=
  s.answerIn .p0 (.untilDown q) .ok (fieldOf 1 (portNumber q))

/-- DOWN_REPORT: PU0 takes a DOWN report of port `p`. It takes no event while it gathers readings (R135, R170). -/
def execDownReport (p : Port) (s : State) : Host.Outcome State Fault Refusal :=
  .next (if (s.pu.get p).downReports = 0 ∨ (s.pu.get .p0).gather ≠ none then s
    else (s.modPu p (fun u => { u with downReports := u.downReports - 1 })).takeDownReport p)

end Sys2Proof.Machine
end

