-- ==== Sys2Proof/Machine/Teardown.lean ====
section
/-! DEFINITION. The teardown steps of the lease unit and the job engine (R21, R38, R124, R139, R140). -/

namespace Sys2Proof.Machine

/-- Which teardown step discards an undecided request that has been handed over (R140, R176; assumption log 15). -/
inductive TakenBy where
  | waiterStep | leaseStep | jobStep
deriving DecidableEq, Repr

/-- The step that discards a handed request. -/
def Handed.discardedBy : Handed → TakenBy
  | .lease _ | .renew _ _ | .release _ | .withdraw _ | .leaseList => .waiterStep
  | .forceRelease _ => .leaseStep
  | .submit _ _ _ | .jobPause _ | .jobResume _ | .jobCancel _ | .jobQuery _ | .forceCancel _ => .jobStep

/-- R140: the request of the port that stands handed over is discarded undecided by this step. -/
def State.discardHanded (s : State) (p : Port) (b : TakenBy) : State :=
  match s.handed p with
  | none => s
  | some h => if h.discardedBy = b then s.dropExecuting p else s

/-- The port's EXECUTING request is dropped where it stands in the phase. -/
def State.dropInPhase (s : State) (p : Port) (f : Phase) : State := if s.phase p = some f then s.dropExecuting p else s

/-- A step handed out to a block changed. -/
def State.modSteps (s : State) (p : Port) (f : StepsDue → StepsDue) : State :=
  s.modPu p (fun u => { u with stepsDue := f u.stepsDue })

/-! ## The waiter step (R21 step 1, R38, R12) -/

/-- The ranges of the port's members of the settling set: they leave it, and what is held on them is retried. -/
def LeaseUnit.settlingRangesOf (u : LeaseUnit) (p : Port) : List Range :=
  ((u.settling.get p).map (fun t => t.request.range)).toList ++
    ((u.waitersOf p).filter (fun w => w.settling.isSome)).map (fun w => w.request.range)

/-- The port's waiters and its SETTLING request leave the lease unit together. -/
def LeaseUnit.removeWaiting (u : LeaseUnit) (p : Port) : LeaseUnit :=
  { u with queue := u.queue.filter (fun w => w.port != p), settling := u.settling.set p none }

/-- R38: the waiters leave without a reply, the SETTLING request is withdrawn, held admissions are retried, one scan. -/
def State.waiterStep (s : State) (p : Port) (late : Bool) : State :=
  let t := s.discardHanded p .waiterStep
  let u := (t.modLease (fun l => l.removeWaiting p)).each (t.leaseUnit.waitersOf p) (fun a w => a.dropWaiting p w.tag)
  ((u.dropInPhase p .settling).each (t.leaseUnit.settlingRangesOf p) (fun a r => a.retry late r)).scan late

/-- TEARDOWN_WAITER_STEP. -/
def execTeardownWaiterStep (p : Port) (late : Bool) (s : State) : Host.Outcome State Fault Refusal :=
  .next (if (s.pu.get p).stepsDue.waiter then
      s.atLeaseUnit (fun t => (t.modSteps p (fun d => { d with waiter := false })).waiterStep p late)
    else s)

/-! ## The lease step (R21 step 2) -/

/-- R21: the port's held leases leave together, one scan, and the removed ids are reported in ascending order. -/
def State.leaseStep (s : State) (p : Port) : State :=
  let t := s.discardHanded p .leaseStep
  ((t.modLease (fun u => { u with leases := u.leases.filter (fun l => l.port != p) })).scan false).each
    (sortById (t.leaseUnit.leasesOf p)) (fun a l => a.reportRemoval l.id)

/-- TEARDOWN_LEASE_STEP: after the waiter step (R138). -/
def execTeardownLeaseStep (p : Port) (s : State) : Host.Outcome State Fault Refusal :=
  .next (if (s.pu.get p).stepsDue.lease = true ∧ (s.pu.get p).stepsDue.waiter = false then
      s.atLeaseUnit (fun t => (t.modSteps p (fun d => { d with lease := false })).leaseStep p)
    else s)

/-! ## The job step (R124, R115) -/

/-- R115: the port's requests leave every waiting list. -/
def JobEngine.dropStopWaiters (e : JobEngine) (p : Port) : JobEngine :=
  { e with jobs := e.jobs.map (fun j => { j with stopWaiters := j.stopWaiters.filter (fun w => w.port != p) }) }

/-- R124: one live job of the port. -/
def State.tearJob (s : State) (j : Job) : State :=
  if j.state = .running then
    if s.engine.inChunk j.id then
      s.modEngine (fun e => e.modJob j.id (fun k => { k with stop := k.stop.afterCancel .teardown }))
    else (s.withdrawAdmission .engine).endJobTorn j (fun t => t)
  else s.endJobTorn j (fun t => t)

/-- R124, step 5: the whole step, and then one selection. -/
def State.jobStep (s : State) (p : Port) : State :=
  let t := ((s.discardHanded p .jobStep).modEngine (fun e => e.dropStopWaiters p)).dropInPhase p .atChunkEnd
  (t.each (t.engine.jobsOf p) State.tearJob).selectJob

/-- TEARDOWN_JOB_STEP. -/
def execTeardownJobStep (p : Port) (s : State) : Host.Outcome State Fault Refusal :=
  .next (if (s.pu.get p).stepsDue.job then
      s.atEngine (fun t => (t.modSteps p (fun d => { d with job := false })).jobStep p)
    else s)

/-- TEARDOWN_HISTORY_STEP: the port's end history is emptied, after the job step (R124, step 7; R138). -/
def execTeardownHistoryStep (p : Port) (s : State) : Host.Outcome State Fault Refusal :=
  .next (if (s.pu.get p).stepsDue.history = true ∧ (s.pu.get p).stepsDue.job = false then
      (s.modSteps p (fun d => { d with history := false })).modEngine
        (fun e => { e with histories := e.histories.set p [] })
    else s)

end Sys2Proof.Machine
end

