-- ==== Sys2Proof/Machine/Time.lean ====
section
/-! DEFINITION. The time base (12): the 1 ms boundary, and one core clock cycle. -/

namespace Sys2Proof.Machine

/-- R14, R26: the lease unit lowers its running timers by 1. One that reaches 0 has expired, and its expiry is due
(R177). -/
def LeaseUnit.lowerTimers (u : LeaseUnit) : LeaseUnit :=
  { u with
    leases := u.leases.map (fun l => { l with life := l.life - 1 }),
    queue := u.queue.map (fun w => if w.settling = none then { w with wait := w.wait - 1 } else w) }

/-- R106: one job's block timer. -/
def Job.lowerTimer (j : Job) : Job :=
  match j.state with
  | .blocked x (some n) => { j with state := .blocked x (some (n - 1)) }
  | _ => j

/-- R106: the job engine lowers its running timers by 1. -/
def JobEngine.lowerTimers (e : JobEngine) : JobEngine := { e with jobs := e.jobs.map Job.lowerTimer }

/-- The lease unit takes a boundary, what is due from an earlier one before it. -/
def State.leaseBoundary (s : State) : State := s.expireLeases.modLease LeaseUnit.lowerTimers

/-- The job engine takes a boundary, what is due from an earlier one before it. -/
def State.engineBoundary (s : State) : State := s.expireJobs.modEngine JobEngine.lowerTimers

/-- The lease unit takes the boundary that it has still to take, if any. -/
def State.leaseCatchUp (s : State) : State :=
  if s.time.leaseDue then s.leaseBoundary.setTime { s.time with leaseDue := false } else s

/-- The job engine takes the boundary that it has still to take, if any. -/
def State.engineCatchUp (s : State) : State :=
  if s.time.engineDue then s.engineBoundary.setTime { s.time with engineDue := false } else s

/-- Both blocks take the boundary they have still to take and every expiry that is due, so that no later clock cycle and no
later boundary finds any (R178; assumption log 5). -/
def State.catchUp (s : State) : State := s.leaseCatchUp.engineCatchUp.expireLeases.expireJobs

/-- The divider passes to 0 and marks a boundary (R177), all that the one before has left being taken. -/
def State.markBoundary (s : State) : State := s.catchUp.setTime { s.catchUp.time with divider := 0 }

/-- R177: a boundary, taken by both blocks or by one of them. Where one block takes it alone, it takes the boundary that it
has still to take; where it has none, a boundary is marked now and the other block has still to take it (log 5). -/
def State.boundary (s : State) (b : BoundaryTaker) : State :=
  match b with
  | .both => s.markBoundary.leaseBoundary.engineBoundary
  | .leaseUnit =>
    if s.time.leaseDue then s.leaseCatchUp
    else (s.markBoundary.setTime { s.markBoundary.time with engineDue := true }).leaseBoundary
  | .jobEngine =>
    if s.time.engineDue then s.engineCatchUp
    else (s.markBoundary.setTime { s.markBoundary.time with leaseDue := true }).engineBoundary

/-- MS_BOUNDARY. No timer runs while reset is held (R179). -/
def execMsBoundary (by' : BoundaryTaker) (s : State) : Host.Outcome State Fault Refusal :=
  .next (if s.resetLine = .released then s.boundary by' else s)

/-- Core clock cycles between two boundaries (R177). -/
def boundaryCycles : Nat := 24000

/-- The four serializers go on by one core clock cycle. -/
def State.tickLines (s : State) : State :=
  s.each allPorts (fun t p => t.modLtx p (fun x => x.tick (characterBits * t.straps.bitCycles)))

/-- The divider goes on by one core clock cycle; where it passes 23,999 both blocks take the boundary (R177). -/
def State.tickDivider (s : State) : State :=
  if boundaryCycles ≤ s.time.divider + 1 then s.boundary .both
  else s.setTime { s.time with divider := s.time.divider + 1 }

/-- One core clock cycle: what a step on an empty queue does (log 4), after what is due at the two blocks (log 5). Reset
holds everything (R179). -/
def State.idleTick (s : State) : State := if s.resetLine = .released then s.catchUp.tickLines.tickDivider else s

end Sys2Proof.Machine
end

