-- ==== Sys2Proof/Machine/Windows.lean ====
section
/-! DEFINITION. The window requests (05): WIN-OPEN, WIN-CLOSE, WIN-LIST. -/

namespace Sys2Proof.Machine

/-- One entry of the port's window table replaced. -/
def PortUnit.setWindow (u : PortUnit) (i : Nat) (w : Option Window) : PortUnit :=
  { u with windows := u.windows.setIfInBounds i w }

/-- R81, step 2, but for the rights: a code above 3, a span past 0xFFFFFF or a block past the end of the store. -/
def Window.outOfRange (w : Window) : Bool :=
  decide (3 < w.sizeCode ∨ 3 < w.repeatCode ∨ 0x1000000 < w.base + w.span.length ∨ storeSize < w.physical + w.size)

/-- R81, step 3: a base is not a multiple of the size. -/
def Window.misaligned (w : Window) : Bool := decide (w.base % w.size ≠ 0 ∨ w.physical % w.size ≠ 0)

/-- R81, step 4: the span intersects that of an OPEN window. -/
def PortUnit.spanMeets (u : PortUnit) (w : Window) : Bool :=
  (u.windows.toList.filterMap id).any (fun v => v.span.intersects w.span)

/-- The window a WIN-OPEN asks for, with its rights. -/
def askedWindow (payload : List Byte) (r : Rights) : Window :=
  { base := fieldAt payload 1 3, sizeCode := fieldAt payload 4 1, repeatCode := fieldAt payload 5 1,
    physical := fieldAt payload 6 3, rights := r }

/-- R80 to R82: the decision on a WIN-OPEN. -/
def State.decideWinOpen (s : State) (p : Port) (f : Frame) : State :=
  let i := fieldAt f.payload 0 1
  if 7 < i then s.answer p .badField []
  else
    match (s.pu.get p).windowNamed i with
    | some _ => s.answer p .wrongState []
    | none =>
      match Rights.ofCode (fieldAt f.payload 9 1) with
      | none => s.answer p .badField []
      | some r =>
        let w := askedWindow f.payload r
        if w.outOfRange then s.answer p .badField []
        else if w.misaligned then s.answer p .misaligned []
        else if (s.pu.get p).spanMeets w then s.answer p .overlap []
        else (s.modPu p (fun u => u.setWindow i (some w))).answer p .ok (fieldOf 1 i)

/-- WIN-OPEN. -/
def execWinOpen (p : Port) (s : State) : Host.Outcome State Fault Refusal :=
  .next (s.takeRequest p .winOpen (fun f t => t.decideWinOpen p f))

/-- R83: the decision on a WIN-CLOSE. -/
def State.decideWinClose (s : State) (p : Port) (f : Frame) : State :=
  let i := fieldAt f.payload 0 1
  if 7 < i then s.answer p .badField []
  else
    match (s.pu.get p).windowNamed i with
    | none => s.answer p .wrongState []
    | some _ => (s.modPu p (fun u => u.setWindow i none)).answer p .ok (fieldOf 1 i)

/-- WIN-CLOSE. -/
def execWinClose (p : Port) (s : State) : Host.Outcome State Fault Refusal :=
  .next (s.takeRequest p .winClose (fun f t => t.decideWinClose p f))

/-- The 8 entries of a WIN-LIST reply (R86). -/
def PortUnit.windowListing (u : PortUnit) : List Byte := u.windows.toList.flatMap windowEntry

/-- WIN-LIST. -/
def execWinList (p : Port) (s : State) : Host.Outcome State Fault Refusal :=
  .next (s.takeRequest p .winList (fun _ t => t.answer p .ok (t.pu.get p).windowListing))

end Sys2Proof.Machine
end

