-- ==== Sys2Proof/Machine/Dispatch.lean ====
section
/-! DEFINITION. One arm per command, each one direct call of the command's meaning. -/

namespace Sys2Proof.Machine

/-- The effect of a command on everything but the queue. -/
def exec (i : Instr) (s : State) : Host.Outcome State Fault Refusal :=
  match i with
  | .openSession p => Sys2Proof.Machine.execOpenSession p s
  | .close p => Sys2Proof.Machine.execClose p s
  | .portStatus p late => Sys2Proof.Machine.execPortStatus p late s
  | .winOpen p => Sys2Proof.Machine.execWinOpen p s
  | .winClose p => Sys2Proof.Machine.execWinClose p s
  | .winList p => Sys2Proof.Machine.execWinList p s
  | .read p => Sys2Proof.Machine.execRead p s
  | .write p => Sys2Proof.Machine.execWrite p s
  | .exchangeIf p => Sys2Proof.Machine.execExchangeIf p s
  | .lease p late => Sys2Proof.Machine.execLease p late s
  | .renew p late => Sys2Proof.Machine.execRenew p late s
  | .release p late => Sys2Proof.Machine.execRelease p late s
  | .withdraw p late => Sys2Proof.Machine.execWithdraw p late s
  | .leaseList p late => Sys2Proof.Machine.execLeaseList p late s
  | .jobCopy p late => Sys2Proof.Machine.execJobCopy p late s
  | .jobFill p late => Sys2Proof.Machine.execJobFill p late s
  | .jobSum p late => Sys2Proof.Machine.execJobSum p late s
  | .jobPause p late => Sys2Proof.Machine.execJobPause p late s
  | .jobResume p late => Sys2Proof.Machine.execJobResume p late s
  | .jobCancel p late => Sys2Proof.Machine.execJobCancel p late s
  | .jobQuery p late => Sys2Proof.Machine.execJobQuery p late s
  | .devStatus p late => Sys2Proof.Machine.execDevStatus p late s
  | .forceRelease p late => Sys2Proof.Machine.execForceRelease p late s
  | .forceCancel p late => Sys2Proof.Machine.execForceCancel p late s
  | .portDrop p late => Sys2Proof.Machine.execPortDrop p late s
  | .unknownKind p => Sys2Proof.Machine.execUnknownKind p s
  | .frameComplete p idle char => Sys2Proof.Machine.execFrameComplete p idle char s
  | .lengthDiscard p idle char => Sys2Proof.Machine.execLengthDiscard p idle char s
  | .cutDiscard p idle char => Sys2Proof.Machine.execCutDiscard p idle char s
  | .framingDiscard p idle char => Sys2Proof.Machine.execFramingDiscard p idle char s
  | .lineBreak p bits => Sys2Proof.Machine.execLineBreak p bits s
  | .breakEnd p bits => Sys2Proof.Machine.execBreakEnd p bits s
  | .breakReport p => Sys2Proof.Machine.execBreakReport p s
  | .dropOrder p => Sys2Proof.Machine.execDropOrder p s
  | .teardownWaiterStep p late => Sys2Proof.Machine.execTeardownWaiterStep p late s
  | .teardownLeaseStep p => Sys2Proof.Machine.execTeardownLeaseStep p s
  | .teardownJobStep p => Sys2Proof.Machine.execTeardownJobStep p s
  | .teardownHistoryStep p => Sys2Proof.Machine.execTeardownHistoryStep p s
  | .sessionDown p => Sys2Proof.Machine.execSessionDown p s
  | .downReport p => Sys2Proof.Machine.execDownReport p s
  | .msBoundary by' => Sys2Proof.Machine.execMsBoundary by' s
  | .leaseLapse id => Sys2Proof.Machine.execLeaseLapse id s
  | .waitExpiry p tag => Sys2Proof.Machine.execWaitExpiry p tag s
  | .blockLimitExpiry id => Sys2Proof.Machine.execBlockLimitExpiry id s
  | .admissionRequest r late => Sys2Proof.Machine.execAdmissionRequest r late s
  | .admissionWithdrawal r late => Sys2Proof.Machine.execAdmissionWithdrawal r late s
  | .claimEnd r late => Sys2Proof.Machine.execClaimEnd r late s
  | .turnRequest r => Sys2Proof.Machine.execTurnRequest r s
  | .turnEnd => Sys2Proof.Machine.execTurnEnd s
  | .leaseRemovalReport => Sys2Proof.Machine.execLeaseRemovalReport s
  | .frameSent p => Sys2Proof.Machine.execFrameSent p s
  | .powerOn => Sys2Proof.Machine.execPowerOn s
  | .resetAssert lowCycles => Sys2Proof.Machine.execResetAssert lowCycles s
  | .resetRelease rate supv rx => Sys2Proof.Machine.execResetRelease rate supv rx s
  | .assemblyBegins p idle char => Sys2Proof.Machine.execAssemblyBegins p idle char s
  | .characterAppended p idle char => Sys2Proof.Machine.execCharacterAppended p idle char s

end Sys2Proof.Machine
end

