-- ==== Sys2Proof/Safety.lean ====
section
/-! DEFINITION. What the claims speak of: a request that its port unit takes, what its reply leaves behind, and the
invariants of the part. -/

namespace Sys2Proof.Machine

/-! ## Steps -/

/-- Every step that answers a next state keeps the property. -/
def StepKeeps (P : State → Prop) : Prop := ∀ s t, P s → step s = .next t → P t

/-- The commands taken one after the other, each where it answers a next state. -/
def State.after (s : State) (cs : List Instr) : State :=
  cs.foldl (fun t c => match exec c t with
    | .next u => u
    | .fault _ => t
    | .refused _ => t) s

/-! ## Expiries -/

/-- No expiry is due at either block (R177). -/
def State.Quiet (s : State) : Prop := s.leaseUnit.due = false ∧ s.engine.due = false

/-- A request of the port that the lease unit decides stands handed over, and the command lets it decide (R140). -/
def State.LeaseUnitDecides (s : State) (p : Port) (c : Instr) : Prop :=
  (∃ x late, s.handed p = some (.lease x) ∧ c = .lease p late) ∨
  (∃ id life late, s.handed p = some (.renew id life) ∧ c = .renew p late) ∨
  (∃ id late, s.handed p = some (.release id) ∧ c = .release p late) ∨
  (∃ tag late, s.handed p = some (.withdraw tag) ∧ c = .withdraw p late) ∨
  (∃ late, s.handed p = some .leaseList ∧ c = .leaseList p late) ∨
  (∃ id late, s.handed p = some (.forceRelease id) ∧ c = .forceRelease p late)

/-- A request of the port that the job engine decides stands handed over, and the command lets it decide (R140). -/
def State.EngineDecides (s : State) (p : Port) (c : Instr) : Prop :=
  (∃ a b length limit late, s.handed p = some (.submit (.copy a b) length limit) ∧ c = .jobCopy p late) ∨
  (∃ a pattern length limit late, s.handed p = some (.submit (.fill a pattern) length limit) ∧ c = .jobFill p late) ∨
  (∃ a length limit late, s.handed p = some (.submit (.sum a) length limit) ∧ c = .jobSum p late) ∨
  (∃ id late, s.handed p = some (.jobPause id) ∧ c = .jobPause p late) ∨
  (∃ id late, s.handed p = some (.jobResume id) ∧ c = .jobResume p late) ∨
  (∃ id late, s.handed p = some (.jobCancel id) ∧ c = .jobCancel p late) ∨
  (∃ id late, s.handed p = some (.jobQuery id) ∧ c = .jobQuery p late) ∨
  (∃ id late, s.handed p = some (.forceCancel id) ∧ c = .forceCancel p late)

/-! ## Taking requests -/

/-- The port unit takes frame `f` as a request of kind `k` in UP (R129), and the checks of 08 TABLE 3 pass it on to the
checks of its kind. -/
structure State.Takes (s : State) (p : Port) (k : Kind) (f : Frame) : Prop where
  held : (s.lrx.get p).held = some f
  up : (s.pu.get p).session = .up
  free : (s.pu.get p).executing = none
  quiet : (s.pu.get p).gather = none
  room : (s.ltx.get p).hasRoom = true
  sends : (s.ltx.get p).discard = false
  kind : f.kind = k.code
  notOpen : k ≠ .openSession
  length : lengthMatches k f.payload = true
  tag : s.tagInUse p f.tag = false
  permitted : k.isSupervisor = true → s.isSupervisor p = true

/-- The port unit can take the held frame `f` in the session given (R129). -/
structure State.CanTake (s : State) (p : Port) (session : Session) (f : Frame) : Prop where
  held : (s.lrx.get p).held = some f
  session : (s.pu.get p).session = session
  free : (s.pu.get p).executing = none
  quiet : (s.pu.get p).gather = none
  room : (s.ltx.get p).hasRoom = true
  sends : (s.ltx.get p).discard = false

/-- The held frame is gone and the reply stands at the tail of the transmit queue; nothing else has changed. -/
def State.served (s : State) (p : Port) (reply : Frame) : State := (s.emptySlot p).modLtx p (fun t => t.append reply)

/-- The reply that frame `f`, a request of kind `k`, receives. -/
def Frame.reply (f : Frame) (k : Kind) (r : Result) (fields : List Byte) : Frame := replyFrame k.code f.tag r fields

/-- The frame has been taken and executes in the phase given (R129); nothing else has changed. -/
def State.executingIn (s : State) (p : Port) (k : Kind) (f : Frame) (phase : Phase) : State :=
  ((s.emptySlot p).modLtx p Transmitter.reserve).modPu p
    (fun u => { u with executing := some { tag := f.tag, kind := k, reserved := true, phase := phase } })

/-- The frame has been taken, its store operation `o` awaits admission, and the request for `a` is on its way to the lease
unit (R45); nothing else has changed. -/
def State.awaiting (s : State) (p : Port) (k : Kind) (f : Frame) (o : PortOperation) (a : Access) : State :=
  ((s.executingIn p k f .access).modPu p (fun u => { u with operation := some o })).modMail (.port p)
    (fun m => { m with request := some a })

/-- The lease that a LEASE request through window `w` asks for (R5): its range is physical. -/
def leaseAsked (f : Frame) (w : Window) : LeaseRequest :=
  { kind := if fieldAt f.payload 7 1 = 0 then .exclusive else .shared,
    range := { start := w.physical + (fieldAt f.payload 1 3 - w.base) % w.size, length := fieldAt f.payload 4 3 },
    logical := fieldAt f.payload 1 3, window := fieldAt f.payload 0 1, life := fieldAt f.payload 8 2,
    wait := fieldAt f.payload 10 2 }

/-- The command of a submission's row. -/
def submissionCommand (w : Submission) (p : Port) (late : Bool) : Instr :=
  match w with
  | .copy _ _ => .jobCopy p late
  | .fill _ _ => .jobFill p late
  | .sum _ => .jobSum p late

/-- The receiver takes a character whose start bit comes after `idle` bit times of mark: no break and no other character
is in progress, and the line has been at mark (R145, R151, R179). -/
def State.Listens (s : State) (p : Port) (idle : Nat) : Prop :=
  s.resetLine = .released ∧ (s.lrx.get p).state ≠ .brk ∧ (s.lrx.get p).character = [] ∧
  ∀ n, (s.lrx.get p).run = .space n → 1 ≤ idle

/-- The `idle` bit times of mark before a character complete the 11 that end BREAK (R151). -/
def State.BreakOver (s : State) (p : Port) (idle : Nat) : Prop :=
  s.resetLine = .released ∧ (s.lrx.get p).state = .brk ∧ 1 ≤ idle ∧
  (11 ≤ idle ∨ ∃ n, (s.lrx.get p).run = .mark n ∧ 11 ≤ n + idle)

/-- The commands that say of the line what these levels are, one bit time each. -/
def levelCommands (p : Port) (levels : List Bool) : List Instr :=
  levels.map (fun level => if level then .breakEnd p 1 else .lineBreak p 1)

/-- What a character says of the line: its idle mark, if any, and its levels. -/
def lineCommands (p : Port) (idle : Nat) (levels : List Bool) : List Instr :=
  (if idle = 0 then [] else [.breakEnd p idle]) ++ levelCommands p levels

/-- The bits of a good character on the line, mark being true: the start bit, the byte with its least significant bit
first, the mark bit and the stop bit (R143). -/
def goodLevels (mark : Bool) (c : Byte) : List Bool :=
  [false, c.getLsbD 0, c.getLsbD 1, c.getLsbD 2, c.getLsbD 3, c.getLsbD 4, c.getLsbD 5, c.getLsbD 6, c.getLsbD 7, mark,
   true]

/-- The bits of a character with a stop-bit error (R145). -/
def errorLevels (mark : Bool) (c : Byte) : List Bool := (goodLevels mark c).take 10 ++ [false]

/-- The bit times of space that these levels end in. -/
def endingSpace (levels : List Bool) : Nat := (levels.reverse.takeWhile (fun level => !level)).length

/-- R140: what the beginning of a teardown of the port makes of its EXECUTING request, between the state before and the
state after. -/
structure State.ReachesExecuting (s t : State) (p : Port) : Prop where
  idle : (s.pu.get p).executing = none → (t.pu.get p).executing = none ∧
    (t.pu.get p).operation = (s.pu.get p).operation ∧ t.mail = s.mail
  /-- Handed over, SETTLING, or deferred at a chunk end: it stands until the step of the block concerned. -/
  stands : ∀ x, (s.pu.get p).executing = some x →
    (x.phase = .settling ∨ x.phase = .atChunkEnd ∨ ∃ h, x.phase = .handed h) →
    (∃ b, (t.pu.get p).executing = some { x with reserved := b }) ∧
    (t.pu.get p).operation = (s.pu.get p).operation ∧ t.mail = s.mail
  /-- A PORT-DROP that waits for DOWN is abandoned (R176). -/
  dropped : ∀ x q, (s.pu.get p).executing = some x → x.phase = .untilDown q →
    (t.pu.get p).executing = none ∧ (t.pu.get p).operation = (s.pu.get p).operation ∧ t.mail = s.mail
  /-- In turns: the turn requested or in progress is completed, and the operation is abandoned (R71). -/
  inTurns : ∀ x o, (s.pu.get p).executing = some x → x.phase = .access → (s.pu.get p).operation = some o →
    o.admitted = true → (t.pu.get p).executing = none ∧
    (t.pu.get p).operation = some { o with abandoned := true } ∧ t.mail = s.mail
  /-- Awaiting admission, the request not taken by the lease unit yet: it is withdrawn (R51, R71). -/
  notTaken : ∀ x o a, (s.pu.get p).executing = some x → x.phase = .access → (s.pu.get p).operation = some o →
    o.admitted = false → (s.mail.get (.port p)).request = some a →
    (t.pu.get p).executing = none ∧ (t.pu.get p).operation = none ∧
    t.mail = s.mail.set (.port p) { s.mail.get (.port p) with request := none }
  /-- Awaiting admission, the request taken by the lease unit: the withdrawal is on its way (R51, R71). -/
  withdrawn : ∀ x o, (s.pu.get p).executing = some x → x.phase = .access → (s.pu.get p).operation = some o →
    o.admitted = false → (s.mail.get (.port p)).request = none →
    (t.pu.get p).executing = none ∧ (t.pu.get p).operation = none ∧
    t.mail = s.mail.set (.port p) { s.mail.get (.port p) with withdrawal := true, decision := none }

/-- The receiver at the beginning of a teardown whose cause is not a break (R138): empty and HUNTING, a run of space and
a character in progress going on (log 27). -/
def Receiver.Emptied (x y : Receiver) : Prop :=
  y = { x with held := none, buffer := [], state := .hunting,
               run := match x.run with
                 | .space n => .space n
                 | .none | .mark _ => .none }

/-- The five requesters in the cyclic order of 04 TABLE 2. -/
def requesterCycle : List Requester := [.port .p0, .port .p1, .port .p2, .port .p3, .engine]

/-- 04 TABLE 2: the cycle from the requester after `r` round to `r`. -/
def cyclicAfter (r : Requester) : List Requester :=
  requesterCycle.rotateLeft (requesterCycle.idxOf r + 1)

/-- The requests whose kind is decided by the block they are handed to, with their ports and whether that block has not
taken them yet. -/
def handedCommand : Instr → Option (Port × Bool)
  | .lease p late => some (p, late)
  | .renew p late => some (p, late)
  | .release p late => some (p, late)
  | .withdraw p late => some (p, late)
  | .leaseList p late => some (p, late)
  | .jobCopy p late => some (p, late)
  | .jobFill p late => some (p, late)
  | .jobSum p late => some (p, late)
  | .jobPause p late => some (p, late)
  | .jobResume p late => some (p, late)
  | .jobCancel p late => some (p, late)
  | .jobQuery p late => some (p, late)
  | .forceRelease p late => some (p, late)
  | .forceCancel p late => some (p, late)
  | _ => none

/-- The same command, its block taking it at once. -/
def atOnce : Instr → Instr
  | .lease p _ => .lease p false
  | .renew p _ => .renew p false
  | .release p _ => .release p false
  | .withdraw p _ => .withdraw p false
  | .leaseList p _ => .leaseList p false
  | .jobCopy p _ => .jobCopy p false
  | .jobFill p _ => .jobFill p false
  | .jobSum p _ => .jobSum p false
  | .jobPause p _ => .jobPause p false
  | .jobResume p _ => .jobResume p false
  | .jobCancel p _ => .jobCancel p false
  | .jobQuery p _ => .jobQuery p false
  | .forceRelease p _ => .forceRelease p false
  | .forceCancel p _ => .forceCancel p false
  | c => c

/-- The request that a command takes from the held slot of a port. -/
def requestOf : Instr → Option (Port × Kind)
  | .openSession p => some (p, .openSession)
  | .close p => some (p, .close)
  | .portStatus p _ => some (p, .portStatus)
  | .winOpen p => some (p, .winOpen)
  | .winClose p => some (p, .winClose)
  | .winList p => some (p, .winList)
  | .read p => some (p, .read)
  | .write p => some (p, .write)
  | .exchangeIf p => some (p, .exchangeIf)
  | .lease p _ => some (p, .lease)
  | .renew p _ => some (p, .renew)
  | .release p _ => some (p, .release)
  | .withdraw p _ => some (p, .withdraw)
  | .leaseList p _ => some (p, .leaseList)
  | .jobCopy p _ => some (p, .jobCopy)
  | .jobFill p _ => some (p, .jobFill)
  | .jobSum p _ => some (p, .jobSum)
  | .jobPause p _ => some (p, .jobPause)
  | .jobResume p _ => some (p, .jobResume)
  | .jobCancel p _ => some (p, .jobCancel)
  | .jobQuery p _ => some (p, .jobQuery)
  | .devStatus p _ => some (p, .devStatus)
  | .forceRelease p _ => some (p, .forceRelease)
  | .forceCancel p _ => some (p, .forceCancel)
  | .portDrop p _ => some (p, .portDrop)
  | _ => none

/-! ## Which part a command concerns -/

/-- A command of device reset. -/
def ofReset : Instr → Bool
  | .powerOn | .resetAssert _ | .resetRelease _ _ _ => true
  | _ => false

/-- The port whose receiver or held slot a command reaches. -/
def linePort (c : Instr) : Option Port :=
  match requestOf c with
  | some (p, _) => some p
  | none =>
    match c with
    | .unknownKind p | .frameComplete p _ _ | .lengthDiscard p _ _ | .cutDiscard p _ _ | .framingDiscard p _ _
    | .lineBreak p _ | .breakEnd p _ | .breakReport p | .dropOrder p | .assemblyBegins p _ _
    | .characterAppended p _ _ => some p
    | _ => none

/-- The port of a command that concerns that port alone. -/
def onePort : Instr → Option Port
  | .openSession p | .close p | .portStatus p _ | .devStatus p _ | .winOpen p | .winClose p | .winList p | .read p
  | .write p | .exchangeIf p | .leaseList p _ | .jobQuery p _ | .unknownKind p | .frameComplete p _ _
  | .lengthDiscard p _ _ | .cutDiscard p _ _ | .framingDiscard p _ _ | .lineBreak p _ | .breakEnd p _
  | .breakReport p | .dropOrder p | .sessionDown p | .frameSent p | .assemblyBegins p _ _
  | .characterAppended p _ _ => some p
  | _ => none

/-- A command that reaches the lease unit's tables; a grant that follows may reach the job engine too. -/
def reachesLeaseUnit : Instr → Bool
  | .lease _ _ | .renew _ _ | .release _ _ | .withdraw _ _ | .forceRelease _ _ | .leaseLapse _ | .waitExpiry _ _
  | .msBoundary _ | .admissionRequest _ _ | .admissionWithdrawal _ _ | .claimEnd _ _ | .teardownWaiterStep _ _
  | .teardownLeaseStep _ => true
  | _ => false

/-- A command that reaches the job engine's tables. -/
def reachesEngine : Instr → Bool
  | .jobCopy _ _ | .jobFill _ _ | .jobSum _ _ | .jobPause _ _ | .jobResume _ _ | .jobCancel _ _ | .forceCancel _ _
  | .turnEnd | .leaseRemovalReport | .blockLimitExpiry _ | .teardownJobStep _ | .teardownHistoryStep _ => true
  | _ => false

/-- A command that asks blocks for values and changes nothing of theirs but what is due there. -/
def asksBlocks : Instr → Bool
  | .portStatus _ _ | .devStatus _ _ | .leaseList _ _ | .jobQuery _ _ => true
  | _ => false

/-! ## What a scan leaves -/

/-- The lease that a grant makes of a waiter (R32). -/
def Waiter.lease (w : Waiter) (id : Nat) : Lease :=
  { id := id, port := w.port, kind := w.request.kind, range := w.request.range, logical := w.request.logical,
    window := w.request.window, life := w.request.life }

/-- The waiter but for its settling mark. -/
def Waiter.unmarked (w : Waiter) : Waiter := { w with settling := none }

/-- The waiter is in the queue, with nothing changed but that a scan may have marked it settling (R33). -/
def Waiter.StaysIn (w : Waiter) (queue : List Waiter) : Prop :=
  ∃ m, { w with settling := m } ∈ queue ∧ (w.settling ≠ none → m = w.settling)

/-- R29 to R33: retries and a scan change leases, settling requests and waiters by the scan's grants and marks alone. The
leases stand, those granted are of waiters; the waiters left keep their order and their remaining waits; every waiter
stays or has its lease. -/
structure LeaseUnit.OnlyGrants (u v : LeaseUnit) : Prop where
  leases : ∃ granted, v.leases = u.leases ++ granted ∧ ∀ l ∈ granted, ∃ w ∈ u.queue, l = w.lease l.id
  settling : v.settling = u.settling
  queue : (v.queue.map Waiter.unmarked).Sublist (u.queue.map Waiter.unmarked)
  waiters : ∀ w ∈ u.queue, w.StaysIn v.queue ∨ ∃ l ∈ v.leases, l = w.lease l.id

/-! ## Invariants -/

/-- R153: no transmit queue holds more than 8 frames, reservations counted. -/
def State.QueuesFit (s : State) : Prop :=
  ∀ p, (s.ltx.get p).queue.length + (s.ltx.get p).reserved ≤ transmitQueueSize

/-- R159: discard mode is on only while the session is CLOSING. -/
def State.DiscardWhileClosing (s : State) : Prop :=
  ∀ p, (s.ltx.get p).discard = true → (s.pu.get p).session = .closing

/-- R2: held leases and reserved entries number at most 12. -/
def State.LeaseTableFits (s : State) : Prop :=
  s.leaseUnit.leases.length + s.leaseUnit.reservedEntries ≤ leaseTableSize

/-- R1: no two lease records carry the same id, and every id is 1 to 255. -/
def State.LeaseIdsDistinct (s : State) : Prop :=
  (s.leaseUnit.leases.map Lease.id).Nodup ∧ ∀ l ∈ s.leaseUnit.leases, 1 ≤ l.id ∧ l.id ≤ 255

/-- R24: at most 8 waiters, at most 3 of one port. -/
def State.WaitQueueFits (s : State) : Prop :=
  s.leaseUnit.queue.length ≤ waitQueueSize ∧ ∀ p, (s.leaseUnit.waitersOf p).length ≤ portWaiterLimit

/-- R2, R11: held leases and waiters of one port number at most 4, and at most 3 while the port's EXECUTING request is
SETTLING. -/
def State.HoldingsFit (s : State) : Prop :=
  ∀ p, s.leaseUnit.holdings p ≤ holdingsLimit ∧
    (s.leaseUnit.settling.get p ≠ none → s.leaseUnit.holdings p < holdingsLimit ∧ s.phase p = some .settling)

/-- R24, R128, R131: the WAITING entries of a port are its waiters, their tags distinct and none of them that of the
EXECUTING entry; with the bound of 3 waiters the in-flight table has at most 4 entries. -/
structure State.InFlightOrderly (s : State) : Prop where
  waiting : ∀ p, (s.pu.get p).waiting.map Waiting.tag = (s.leaseUnit.waitersOf p).map Waiter.tag
  distinct : ∀ p, ((s.leaseUnit.waitersOf p).map Waiter.tag).Nodup
  executing : ∀ p x, (s.pu.get p).executing = some x → x.tag ∉ (s.pu.get p).waiting.map Waiting.tag
  entries : ∀ p, (s.pu.get p).waiting.length + (s.pu.get p).executing.toList.length ≤ 4

/-- R21, R38, R87, R124, R138, R141: what is gone of a port whose session is not UP. Its windows are CLOSED; once the waiter
step has been taken it has no waiter, no SETTLING request and no LEASE handed over, once the lease step has been taken no
held lease; in DOWN every step has been taken, and it has no EXECUTING request, no live job and no end record. -/
structure State.TeardownOrderly (s : State) : Prop where
  windows : ∀ p, (s.pu.get p).session ≠ .up → ∀ i, (s.pu.get p).windowNamed i = none
  steps : ∀ p, (s.pu.get p).session ≠ .up → (s.pu.get p).stepsDue.lease = false → (s.pu.get p).stepsDue.waiter = false
  waiters : ∀ p, (s.pu.get p).session ≠ .up → (s.pu.get p).stepsDue.waiter = false →
    s.leaseUnit.waitersOf p = [] ∧ s.leaseUnit.settling.get p = none ∧ ∀ x, s.handed p ≠ some (.lease x)
  leases : ∀ p, (s.pu.get p).session ≠ .up → (s.pu.get p).stepsDue.lease = false → s.leaseUnit.leasesOf p = []
  down : ∀ p, (s.pu.get p).session = .down → (s.pu.get p).stepsDue = .none ∧ (s.pu.get p).executing = none ∧
    s.engine.jobsOf p = [] ∧ s.engine.histories.get p = []

/-- R178 TABLE 1, 10 TABLE 2: no timer stands above 60,000, and a lifetime is granted or renewed with 1 at least. -/
structure State.TimersInRange (s : State) : Prop where
  leases : ∀ l ∈ s.leaseUnit.leases, l.life ≤ maxMilliseconds
  waiters : ∀ w ∈ s.leaseUnit.queue, w.wait ≤ maxMilliseconds ∧ 1 ≤ w.request.life ∧ w.request.life ≤ maxMilliseconds
  settling : ∀ p t, s.leaseUnit.settling.get p = some t → 1 ≤ t.request.life ∧ t.request.life ≤ maxMilliseconds
  jobs : ∀ j ∈ s.engine.jobs, j.limit ≤ maxMilliseconds ∧
    ∀ x n, j.state = .blocked x (some n) → n ≤ maxMilliseconds
  lease : ∀ p x, s.handed p = some (.lease x) → 1 ≤ x.life ∧ x.life ≤ maxMilliseconds ∧ x.wait ≤ maxMilliseconds
  renew : ∀ p id life, s.handed p = some (.renew id life) → 1 ≤ life ∧ life ≤ maxMilliseconds
  submit : ∀ p w length limit, s.handed p = some (.submit w length limit) → limit ≤ maxMilliseconds

/-- R121: an end history holds at most 4 records. -/
def State.HistoriesFit (s : State) : Prop := ∀ p, (s.engine.histories.get p).length ≤ historySize

/-- R90, R98: the job table holds at most 8 jobs, at most 3 of one port, with distinct ids of 1 to 255, each with bytes
left to do; an IDLE engine has no RUNNING and no QUEUED job; a BUSY engine has one RUNNING job, whose next chunk is the
current one. A submission handed over has a length of at least 1 (R92). -/
structure State.EngineOrderly (s : State) : Prop where
  fits : s.engine.jobs.length ≤ jobTableSize
  portFits : ∀ p, (s.engine.jobsOf p).length ≤ portJobLimit
  ids : (s.engine.jobs.map Job.id).Nodup
  idRange : ∀ j ∈ s.engine.jobs, 1 ≤ j.id ∧ j.id ≤ 255
  progress : ∀ j ∈ s.engine.jobs, j.done < j.length
  idle : s.engine.running = none → ∀ j ∈ s.engine.jobs, j.state ≠ .running ∧ j.state ≠ .queued
  busy : ∀ r, s.engine.running = some r →
    ∃ j ∈ s.engine.jobs, j.id = r.job ∧ j.state = .running ∧ r.chunk = j.nextChunk
  one : ∀ r, s.engine.running = some r → ∀ j ∈ s.engine.jobs, j.state = .running → j.id = r.job
  handed : ∀ p w length limit, s.handed p = some (.submit w length limit) → 1 ≤ length

/-- Two ranges cover no common byte. -/
def Range.Disjoint (r t : Range) : Prop := r.intersects t = false

/-- R4: two leases of different ports never cover a common byte unless both are SHARED, and no two leases of one port
cover a common byte. The other clauses say the same of what the lease unit is bound to grant: the members of the settling
set, and for its own port each waiter; a SETTLING executing request keeps its port from any other (R11). -/
structure State.LeasesOrderly (s : State) : Prop where
  leases : s.leaseUnit.leases.Pairwise (fun l m =>
    conflicting l.port l.kind l.range m.port m.kind m.range = false ∧ (l.port = m.port → l.range.Disjoint m.range))
  waiterLease : ∀ w ∈ s.leaseUnit.queue, ∀ l ∈ s.leaseUnit.leases, w.port = l.port → w.request.range.Disjoint l.range
  waiters : s.leaseUnit.queue.Pairwise (fun v w => v.port = w.port → v.request.range.Disjoint w.request.range)
  settlingLease : ∀ w ∈ s.leaseUnit.queue, w.settling ≠ none →
    ∀ l ∈ s.leaseUnit.leases, w.request.conflictsLease w.port l = false
  settlingWaiters : s.leaseUnit.queue.Pairwise (fun v w => v.settling ≠ none → w.settling ≠ none →
    v.request.conflictsWaiter v.port w = false)
  executingLease : ∀ p t, s.leaseUnit.settling.get p = some t → ∀ l ∈ s.leaseUnit.leases,
    t.request.conflictsLease p l = false ∧ (l.port = p → t.request.range.Disjoint l.range)
  executingWaiter : ∀ p t, s.leaseUnit.settling.get p = some t → ∀ w ∈ s.leaseUnit.queue,
    (w.port = p → t.request.range.Disjoint w.request.range) ∧
    (w.settling ≠ none → t.request.conflictsWaiter p w = false)
  executing : ∀ p q t u, p ≠ q → s.leaseUnit.settling.get p = some t → s.leaseUnit.settling.get q = some u →
    t.request.conflictsSettling p q u = false
  phase : ∀ p, s.leaseUnit.settling.get p ≠ none → s.phase p = some .settling

/-- R48, R53: no held lease forbids a byte of a standing claim, and every claim that a member of the settling set
conflicts with is in its recorded set. -/
structure State.ClaimsUnforbidden (s : State) : Prop where
  claims : ∀ c ∈ s.leaseUnit.claims, ∀ l ∈ s.leaseUnit.leases, l.forbids c = false
  waiters : ∀ w ∈ s.leaseUnit.queue, ∀ recorded, w.settling = some recorded → ∀ c ∈ s.leaseUnit.claims,
    c.conflictsRequest w.request.kind w.request.range = true → c.requester ∈ recorded
  executing : ∀ p t, s.leaseUnit.settling.get p = some t → ∀ c ∈ s.leaseUnit.claims,
    c.conflictsRequest t.request.kind t.request.range = true → c.requester ∈ t.recorded

/-- R74: the codes are listed, the bases aligned, the block inside the store, the span inside the logical space. -/
def Window.Legal (w : Window) : Prop :=
  w.sizeCode ≤ 3 ∧ w.repeatCode ≤ 3 ∧ w.base % w.size = 0 ∧ w.physical % w.size = 0 ∧
  w.physical + w.size ≤ storeSize ∧ w.base + w.span.length ≤ 0x1000000

/-- R74: every OPEN window is legal, and no two of one port share a logical address. -/
def State.WindowsLegal (s : State) : Prop :=
  ∀ p, (∀ i w, (s.pu.get p).windowNamed i = some w → w.Legal) ∧
    ∀ i j v w, i ≠ j → (s.pu.get p).windowNamed i = some v → (s.pu.get p).windowNamed j = some w →
      v.span.intersects w.span = false

/-- 09 TABLE 2, R146: characters are in the assembly buffer exactly while ASSEMBLING, a known LEN is at most 1040 and the
frame is not complete; a held frame has a payload of at most 1040 bytes. R145, R151: a character in progress begins with
its start bit and has at most 10 levels, there is none in BREAK, and idle mark is counted in BREAK alone, up to 10. -/
def Receiver.Legal (x : Receiver) : Prop :=
  (x.state = .assembling ↔ x.buffer ≠ []) ∧
  (4 ≤ x.buffer.length → lengthField x.buffer ≤ maxPayload ∧ x.buffer.length < 4 + lengthField x.buffer + 2) ∧
  (∀ f, x.held = some f → f.payload.length ≤ maxPayload) ∧
  x.character.length ≤ 10 ∧ (∀ b, x.character.head? = some b → b = false) ∧
  (x.state = .brk → x.character = []) ∧ (∀ n, x.run = .mark n → x.state = .brk ∧ n ≤ 10)

/-- Every receiver is legal. -/
def State.ReceiversLegal (s : State) : Prop := ∀ p, (s.lrx.get p).Legal

/-- R136: the six counters of a port stay within 65,535. -/
def State.CountersFit (s : State) : Prop :=
  ∀ p, (s.lrx.get p).checkDiscards ≤ maxCount ∧ (s.lrx.get p).lengthDiscards ≤ maxCount ∧
    (s.lrx.get p).cutDiscards ≤ maxCount ∧ (s.lrx.get p).framingDiscards ≤ maxCount ∧
    (s.lrx.get p).overruns ≤ maxCount ∧ (s.ltx.get p).dropped ≤ maxCount

/-- R177: the divider is 0 to 23,999; at most one of the two blocks has the last boundary still to take (log 5). -/
def State.DividerInRange (s : State) : Prop :=
  s.time.divider < boundaryCycles ∧ (s.time.leaseDue = false ∨ s.time.engineDue = false)

/-- The store keeps its canonical form (R57). -/
def State.StoreCanonical (s : State) : Prop := Memory.wf s.store = true

end Sys2Proof.Machine
end

