-- ==== Sys2Proof/Certificates/Slice0/Obligations.lean ====
section
/-! DEFINITION. The statements for the provers. Where a command is named with `late` false, the block it hands something to
takes it in the same step; `WhatIsLateEndsTheSame` and the `late` clauses of the other statements cover the rest. -/

open Sys2Proof Sys2Proof.Machine

/-! ## The machine -/

/-- The queue of commands is the model's own (log 1): a step takes the command at its front and runs it with the rest
standing. -/
def Obligations.StepRunsFrontCommand : Prop :=
  ∀ (c : Instr) (rest : List Instr) (s : State),
    step { s with pending := c :: rest } = exec c { s with pending := rest }

/-- The model's choice of log 4: a step on an empty queue is one core clock cycle. The divider goes on; from 23,999 it
returns to 0 and both blocks take the boundary (R177). Each serializer goes on by one cycle of the character in progress,
a character lasting 11 bit times at the rate of the straps (R143, R144, R180); with its last character a frame leaves, and
the next begins (R154); a cut frame leaves with the character in progress (R158, log 12). TXD is at the level of the bit
in progress: start bit, data bits from the least significant, mark bit, stop bit; it is at mark while the serializer is
IDLE and while reset is held (R143, R160, R179). What the two blocks have still to take comes before the cycle (log 5).
While reset is held nothing changes. -/
def Obligations.EmptyQueueIsOneClockCycle : Prop :=
  (∀ s : State, s.pending = [] → s.resetLine ≠ .released → step s = .next s) ∧
  (∀ s : State, s.pending = [] → s.resetLine = .released → s.Quiet → s.time.leaseDue = false →
    s.time.engineDue = false → ∃ t : State, step s = .next t ∧
    t.store = s.store ∧ t.lrx = s.lrx ∧ t.pu = s.pu ∧ t.mail = s.mail ∧ t.arbiter = s.arbiter ∧ t.straps = s.straps ∧
    t.resetLine = s.resetLine ∧
    (s.time.divider + 1 < boundaryCycles →
      t.time = { s.time with divider := s.time.divider + 1 } ∧ t.leaseUnit = s.leaseUnit ∧ t.engine = s.engine) ∧
    (s.time.divider + 1 = boundaryCycles →
      t.time = { s.time with divider := 0 } ∧ t.leaseUnit = s.leaseUnit.lowerTimers ∧
      t.engine = s.engine.lowerTimers) ∧
    ∀ (p : Port) (n : Nat), n = 11 * (if s.straps.lr1 then (if s.straps.lr0 then 8 else 24)
        else if s.straps.lr0 then 52 else 208) →
      ((s.ltx.get p).serializer = .idle → t.ltx.get p = s.ltx.get p) ∧
      (∀ f rest i k, (s.ltx.get p).queue = f :: rest → (s.ltx.get p).serializer = .sending i k →
        (k + 1 < n → t.ltx.get p = { s.ltx.get p with serializer := .sending i (k + 1) }) ∧
        (n ≤ k + 1 → i + 1 < f.payload.length + 6 →
          t.ltx.get p = { s.ltx.get p with serializer := .sending (i + 1) 0 }) ∧
        (n ≤ k + 1 → f.payload.length + 6 ≤ i + 1 → t.ltx.get p = { s.ltx.get p with
          queue := rest, serializer := if rest = [] then .idle else .sending 0 0 })) ∧
      (∀ f rest i k, (s.ltx.get p).queue = f :: rest → (s.ltx.get p).serializer = .cutting i k →
        (k + 1 < n → t.ltx.get p = { s.ltx.get p with serializer := .cutting i (k + 1) }) ∧
        (n ≤ k + 1 → t.ltx.get p = { s.ltx.get p with
          queue := rest, serializer := if rest = [] then .idle else .sending 0 0 })) ∧
      (∀ c k, (s.ltx.get p).serializer = .finishing c k →
        (k + 1 < n → t.ltx.get p = { s.ltx.get p with serializer := .finishing c (k + 1) }) ∧
        (n ≤ k + 1 → t.ltx.get p = { s.ltx.get p with
          serializer := if (s.ltx.get p).queue = [] then .idle else .sending 0 0 }))) ∧
  (∀ s : State, s.pending = [] → s.resetLine = .released → s.catchUp.Quiet → s.catchUp.time.leaseDue = false →
    s.catchUp.time.engineDue = false → step s = step s.catchUp) ∧
  (∀ (s : State) (p : Port), (s.resetLine ≠ .released ∨ (s.ltx.get p).serializer = .idle) → s.txd p = true) ∧
  (∀ (s : State) (p : Port) (f : Frame) (rest : List Frame) (i k bit : Nat) (covered : List Byte) (c : Byte),
    s.resetLine = .released → (s.ltx.get p).queue = f :: rest →
    ((s.ltx.get p).serializer = .sending i k ∨ (s.ltx.get p).serializer = .cutting i k) →
    bit = (if s.straps.lr1 then (if s.straps.lr0 then 8 else 24) else if s.straps.lr0 then 52 else 208) →
    covered = f.kind :: f.tag :: (fieldOf 2 f.payload.length ++ f.payload) →
    (covered ++ fieldOf 2 (crc16 covered).toNat)[i]? = some c →
    s.txd p = (goodLevels (i == 0) c).getD (k / bit) true) ∧
  (∀ (s : State) (p : Port) (mark : Bool) (c : Byte) (k bit : Nat), s.resetLine = .released →
    (s.ltx.get p).serializer = .finishing (mark, c) k →
    bit = (if s.straps.lr1 then (if s.straps.lr0 then 8 else 24) else if s.straps.lr0 then 52 else 208) →
    s.txd p = (goodLevels mark c).getD (k / bit) true)

/-- No command changes the queue of commands (log 1): what is left of it stands for the next steps. -/
def Obligations.ExecLeavesTheCommandQueue : Prop :=
  ∀ (c : Instr) (s t : State), exec c s = .next t → t.pending = s.pending

/-- R57: store bytes are changed by store turns alone (and by what R58 says of reset): every command but TURN_END,
POWER_ON and RESET_ASSERT leaves every byte as it reads, and TURN_END leaves every byte outside the cells its turn
writes. -/
def Obligations.OnlyWriteTurnsAndResetChangeStoreBytes : Prop :=
  (∀ (c : Instr) (s t : State) (a : Nat), c ≠ .turnEnd → c ≠ .powerOn → (∀ n, c ≠ .resetAssert n) →
    exec c s = .next t → t.storeByte a = s.storeByte a) ∧
  (∀ (s t : State) (a : Nat), exec .turnEnd s = .next t →
    (∀ r u, s.arbiter.current = some (r, u) → ∀ c ∈ u.written s, c.1 ≠ a) → t.storeByte a = s.storeByte a)

/-- R57, R59, R88, R127, R136, R177, R180: what a command leaves as it is. The arbiter moves by turn requests and turn ends
alone; the time base by MS_BOUNDARY; straps and reset by the three reset commands; a port's receiver, windows and session
state by the commands of that port that concern them; the lease unit and the job engine by the commands that reach them;
a command that concerns one port alone leaves every other port as it is. A command that asks the lease unit or the job
engine for values leaves them as they are where they have no expiry to take (log 5). -/
def Obligations.CommandsLeaveWhatIsNotTheirs : Prop :=
  ∀ (c : Instr) (s t : State), ofReset c = false → exec c s = .next t →
    t.straps = s.straps ∧ t.resetLine = s.resetLine ∧ t.epoch = s.epoch ∧ t.resets = s.resets ∧
    ((∀ b, c ≠ .msBoundary b) → t.time = s.time) ∧
    (c ≠ .turnEnd → (∀ r, c ≠ .turnRequest r) → t.arbiter = s.arbiter) ∧
    (∀ q, linePort c ≠ some q → t.lrx.get q = s.lrx.get q) ∧
    (∀ q, c ≠ .winOpen q → c ≠ .winClose q → c ≠ .close q → c ≠ .breakReport q → c ≠ .dropOrder q →
      (t.pu.get q).windows = (s.pu.get q).windows) ∧
    (∀ q, c ≠ .openSession q → c ≠ .sessionDown q →
      (t.pu.get q).mask = (s.pu.get q).mask ∧ (t.pu.get q).label = (s.pu.get q).label ∧
      (c ≠ .close q → c ≠ .breakReport q → c ≠ .dropOrder q →
        (t.pu.get q).session = (s.pu.get q).session ∧ (t.pu.get q).cause = (s.pu.get q).cause)) ∧
    (reachesLeaseUnit c = false → (asksBlocks c = true → s.leaseUnit.due = false) → t.leaseUnit = s.leaseUnit) ∧
    (reachesLeaseUnit c = false → reachesEngine c = false → (asksBlocks c = true → s.Quiet) → t.engine = s.engine) ∧
    (∀ p, onePort c = some p → (asksBlocks c = true → s.Quiet) → t.mail.get .engine = s.mail.get .engine ∧
      ∀ q, q ≠ p → t.ltx.get q = s.ltx.get q ∧ t.pu.get q = s.pu.get q ∧
        t.mail.get (.port q) = s.mail.get (.port q))

/-! ## Reset -/

/-- R58, R179, R180 with the reset states of every block: POWER_ON holds reset and leaves every store byte a free value;
RESET_RELEASE leaves every block in its reset state, samples the straps and keeps the store, and a receive line at space at
the release (its level an operand, log 8) is a break 22 bit times after it (R145); RESET_N low for 24 cycles
resets every block, and a byte keeps its value or, where the write turn in progress was to write it, has its old value or
the value being written (which of the two is free, log 7). A shorter low level, one while reset is held, and a release
while no reset is held change nothing (log 1). The straps keep their values until a release, and a POWER_ON while reset is
held is a power-on all the same (log 22); the epoch numbers the power-ons and `Config.powerOnByte` is the free value
(log 6). -/
def Obligations.ResetCommandsResetTheBlocks : Prop :=
  (∀ s : State, ∃ t : State, exec .powerOn s = .next t ∧
    t = { State.reset with straps := s.straps, resetLine := .powerOnHold, epoch := s.epoch + 1, resets := s.resets,
                           pending := s.pending } ∧
    ∀ a, t.storeByte a = Config.powerOnByte (s.epoch + 1) a) ∧
  (∀ (lr1 lr0 supv rx0 rx1 rx2 rx3 : Bool) (level : PerPort Bool) (s t : State), s.resetLine ≠ .released →
    level = { p0 := rx0, p1 := rx1, p2 := rx2, p3 := rx3 } →
    t = { State.reset with
      lrx := { p0 := { Receiver.reset with run := if rx0 then .none else .space 0 },
               p1 := { Receiver.reset with run := if rx1 then .none else .space 0 },
               p2 := { Receiver.reset with run := if rx2 then .none else .space 0 },
               p3 := { Receiver.reset with run := if rx3 then .none else .space 0 } },
      straps := { lr1 := lr1, lr0 := lr0, supv := supv }, store := s.store, epoch := s.epoch, resets := s.resets,
      pending := s.pending } →
    exec (.resetRelease (lr1, lr0) supv { rx0 := rx0, rx1 := rx1, rx2 := rx2, rx3 := rx3 }) s = .next t ∧
    ∀ p n, level.get p = false → ∃ u : State, exec (.lineBreak p n) t = .next u ∧
      (u.lrx.get p).state = (if n < 22 then .hunting else .brk) ∧
      (u.pu.get p).breakReports = (if n < 22 then 0 else 1)) ∧
  (∀ (rate : Bool × Bool) (supv : Bool) (rx : RxLevels) (s : State), s.resetLine = .released →
    exec (.resetRelease rate supv rx) s = .next s) ∧
  (∀ (n : Nat) (s : State), 24 ≤ n → s.resetLine = .released → ∃ t : State, exec (.resetAssert n) s = .next t ∧
    t = { State.reset with straps := s.straps, resetLine := .resetLow, store := t.store, epoch := s.epoch,
                           resets := s.resets + 1, pending := s.pending } ∧
    (∀ a, t.storeByte a = s.storeByte a ∨
      ∃ r u b, s.arbiter.current = some (r, u) ∧ (a, b) ∈ u.written s ∧ t.storeByte a = b) ∧
    ((∀ r u, s.arbiter.current = some (r, u) → u.written s = []) → t.store = s.store)) ∧
  (∀ (n : Nat) (s : State), n < 24 → exec (.resetAssert n) s = .next s) ∧
  (∀ (n : Nat) (s : State), s.resetLine ≠ .released → exec (.resetAssert n) s = .next s)

/-! ## Taking a frame -/

/-- R129: a frame is taken exactly when it is held, the session is DOWN or UP, no request is EXECUTING and the free
entries exceed the reservations; while readings are gathered the port unit takes nothing (R135). A request command
changes nothing while its port unit can take no frame and has nothing of its own going on; the held frame stays in its
slot (log 1). -/
def Obligations.FrameTakenExactlyUnderItsConditions : Prop :=
  (∀ (s : State) (p : Port) (f : Frame), s.takeable p = some f ↔
     (s.lrx.get p).held = some f ∧ ((s.pu.get p).session = .down ∨ (s.pu.get p).session = .up) ∧
     (s.pu.get p).executing = none ∧
     (s.ltx.get p).reserved < transmitQueueSize - (s.ltx.get p).queue.length ∧ (s.pu.get p).gather = none) ∧
  (∀ (c : Instr) (p : Port) (k : Kind) (s : State), requestOf c = some (p, k) → s.takeable p = none →
     s.handed p = none → (s.pu.get p).gather = none → exec c s = .next s)

/-- R130, R131, R161, 08 TABLE 3: the checks on a taken frame, in UP and in DOWN, the first that applies giving the reply.
The reply is all that the request leaves behind. A frame whose KIND is no request kind is answered UNKNOWN-KIND; a reply
to a KIND with its top bit set carries that KIND, any other that KIND plus 0x80. -/
def Obligations.ChecksOnATakenFrame : Prop :=
  (∀ (c : Instr) (p : Port) (k : Kind) (s : State) (f : Frame), requestOf c = some (p, k) → f.kind = k.code →
     (s.CanTake p .up f →
       (k = .openSession → exec c s = .next (s.served p (f.reply k .wrongState []))) ∧
       (k ≠ .openSession → lengthMatches k f.payload = false → exec c s = .next (s.served p (f.reply k .badLength []))) ∧
       (k ≠ .openSession → lengthMatches k f.payload = true → s.tagInUse p f.tag = true →
         exec c s = .next (s.served p (f.reply k .tagInUse []))) ∧
       (k ≠ .openSession → lengthMatches k f.payload = true → s.tagInUse p f.tag = false → k.isSupervisor = true →
         s.isSupervisor p = false → exec c s = .next (s.served p (f.reply k .notPermitted [])))) ∧
     (s.CanTake p .down f →
       (k ≠ .openSession → k ≠ .portStatus → exec c s = .next (s.served p (f.reply k .noSession []))) ∧
       (k = .openSession ∨ k = .portStatus → lengthMatches k f.payload = false →
         exec c s = .next (s.served p (f.reply k .badLength []))))) ∧
  (∀ (s : State) (p : Port) (f : Frame), isRequestKind f.kind = false → s.CanTake p .up f ∨ s.CanTake p .down f →
     exec (.unknownKind p) s = .next (s.served p { kind := if f.kind.msb then f.kind else f.kind + 0x80, tag := f.tag,
                                                   payload := [0x01] }))

/-! ## Sessions -/

/-- R133: OPEN in DOWN. A revision other than 1, a mask with a bit above LINE or a label above 16 bytes is refused
BAD-FIELD and changes nothing; otherwise mask and label are stored, the six counters cleared, the session is UP and the
reply carries port, supervisor flag and revision. -/
def Obligations.OpenOpensTheSession : Prop :=
  ∀ (s : State) (p : Port) (f : Frame), s.CanTake p .down f → f.kind = Kind.openSession.code →
    lengthMatches .openSession f.payload = true →
    ((fieldAt f.payload 0 1 ≠ 1 ∨ 8 ≤ fieldAt f.payload 1 1 ∨ 16 < fieldAt f.payload 2 1) →
      exec (.openSession p) s = .next (s.served p (f.reply .openSession .badField []))) ∧
    (fieldAt f.payload 0 1 = 1 → fieldAt f.payload 1 1 < 8 → fieldAt f.payload 2 1 ≤ 16 →
      exec (.openSession p) s = .next
        ((((s.served p (f.reply .openSession .ok [byte (portNumber p), if s.straps.supv && p == .p0 then 1 else 0, 1])).modLrx
          p (fun x => { x with checkDiscards := 0, lengthDiscards := 0, cutDiscards := 0, framingDiscards := 0,
                               overruns := 0 })).modLtx p (fun t => { t with dropped := 0 })).modPu p
          (fun u => { u with
            session := .up, label := f.payload.drop 3,
            mask := { lease := (fieldAt f.payload 1 1).testBit 0, job := (fieldAt f.payload 1 1).testBit 1,
                      line := (fieldAt f.payload 1 1).testBit 2 } })))

/-- R135, R170: the replies of PORT-STATUS and DEV-STATUS where no expiry is due, and that a status request whose readings
are taken one by one with nothing between them (log 20) gives the same reply. Neither changes anything else. (With an
expiry due: WhatIsLateEndsTheSame.) -/
def Obligations.StatusRequestsReport : Prop :=
  (∀ (s : State) (p : Port) (f : Frame), s.Quiet →
    s.Takes p .portStatus f ∨ (s.CanTake p .down f ∧ f.kind = Kind.portStatus.code ∧ f.payload = []) →
    exec (.portStatus p false) s = .next (s.served p (f.reply .portStatus .ok
      ([(s.pu.get p).session.code] ++ fieldOf 2 (s.lrx.get p).checkDiscards ++ fieldOf 2 (s.lrx.get p).lengthDiscards ++
        fieldOf 2 (s.lrx.get p).cutDiscards ++ fieldOf 2 (s.lrx.get p).framingDiscards ++
        fieldOf 2 (s.lrx.get p).overruns ++ fieldOf 2 (s.ltx.get p).dropped ++ fieldOf 1 (s.pu.get p).openWindows ++
        fieldOf 1 (s.leaseUnit.leasesOf p).length ++ fieldOf 1 (s.leaseUnit.waitersOf p).length ++
        fieldOf 1 (s.engine.jobsOf p).length)))) ∧
  (∀ (s : State) (p : Port) (f : Frame), s.Quiet → s.Takes p .devStatus f →
    exec (.devStatus p false) s = .next (s.served p (f.reply .devStatus .ok
      ([Port.p0, .p1, .p2, .p3].flatMap (fun q =>
          [(s.pu.get q).session.code] ++ fieldOf 1 (s.pu.get q).label.length ++
          ((s.pu.get q).label ++ List.replicate 16 0).take 16 ++
          fieldOf 1 (s.leaseUnit.leasesOf q).length ++ fieldOf 1 (s.leaseUnit.waitersOf q).length ++
          fieldOf 1 (s.engine.jobsOf q).length) ++
        fieldOf 1 s.leaseUnit.leases.length ++ fieldOf 1 s.leaseUnit.queue.length ++ fieldOf 1 s.engine.jobs.length ++
        fieldOf 1 s.engine.runningId ++ fieldOf 1 s.leaseUnit.nextLeaseId ++ fieldOf 1 s.engine.nextJobId)))) ∧
  (∀ (s : State) (p : Port) (f : Frame), s.Quiet →
    s.Takes p .portStatus f ∨ (s.CanTake p .down f ∧ f.kind = Kind.portStatus.code ∧ f.payload = []) →
    ∃ t : State, exec (.portStatus p true) s = .next t ∧ (t.pu.get p).gather ≠ none ∧
      exec (.portStatus p false) t = exec (.portStatus p false) s) ∧
  (∀ (s : State) (p : Port) (f : Frame), s.Quiet → s.Takes p .devStatus f →
    ∃ t : State, exec (.devStatus p true) s = .next t ∧ (t.pu.get p).gather ≠ none ∧
      exec (.devStatus p false) t = exec (.devStatus p false) s) ∧
  (∀ (s : State) (p : Port) (g : Gather), s.Quiet → (s.pu.get p).gather = some g →
    (g.kind = .portStatus → g.taken < 11 → ∃ t : State, exec (.portStatus p true) s = .next t ∧
      exec (.portStatus p false) t = exec (.portStatus p false) s) ∧
    (g.kind = .devStatus → g.taken < 26 → ∃ t : State, exec (.devStatus p true) s = .next t ∧
      exec (.devStatus p false) t = exec (.devStatus p false) s))

/-- R137, R138, R87: CLOSE in UP stays EXECUTING with its reservation and begins a teardown: CLOSING with cause CLOSE, the
held slot and the assembly empty, the receiver in HUNTING (a run of space and a character in it go on: log 27), every window CLOSED,
the four steps handed out. No other block and no other port changes. -/
def Obligations.CloseBeginsATeardown : Prop :=
  ∀ (s : State) (p : Port) (f : Frame), s.Takes p .close f → ∃ t : State, exec (.close p) s = .next t ∧
    (t.pu.get p).session = .closing ∧ (t.pu.get p).cause = some .close ∧
    (t.pu.get p).executing = some { tag := f.tag, kind := .close, reserved := true, phase := .closing } ∧
    (∀ i, (t.pu.get p).windowNamed i = none) ∧
    (t.pu.get p).stepsDue = { waiter := true, lease := true, job := true, history := true } ∧
    (t.pu.get p).mask = (s.pu.get p).mask ∧ (t.pu.get p).label = (s.pu.get p).label ∧
    (t.pu.get p).waiting = (s.pu.get p).waiting ∧
    (s.lrx.get p).Emptied (t.lrx.get p) ∧
    t.ltx = s.ltx.set p { s.ltx.get p with reserved := (s.ltx.get p).reserved + 1 } ∧
    (∀ q, q ≠ p → t.lrx.get q = s.lrx.get q ∧ t.pu.get q = s.pu.get q) ∧
    t.leaseUnit = s.leaseUnit ∧ t.arbiter = s.arbiter ∧ t.store = s.store ∧ t.engine = s.engine ∧ t.mail = s.mail ∧
    t.time = s.time

/-- R152, R158: a break report orders a flush, with discard mode unless the session is DOWN: every frame but the one being
sent leaves, the reservations are cleared. In UP a teardown with cause BREAK begins (R138): the receiver stays in BREAK,
or is in HUNTING where BREAK has ended, and the EXECUTING request is reached by its phase (R140). In CLOSING the cause
becomes BREAK, in DOWN the session stays DOWN. -/
def Obligations.BreakReportFlushesAndTearsDown : Prop :=
  ∀ (s : State) (p : Port), (s.pu.get p).breakReports ≠ 0 → (s.pu.get p).gather = none →
    ∃ t : State, exec (.breakReport p) s = .next t ∧
      (t.pu.get p).breakReports = (s.pu.get p).breakReports - 1 ∧
      (t.ltx.get p).queue = (s.ltx.get p).queue.take (s.ltx.get p).serializer.keeps ∧ (t.ltx.get p).reserved = 0 ∧
      (t.ltx.get p).serializer = (s.ltx.get p).serializer.cut ∧ (t.ltx.get p).dropped = (s.ltx.get p).dropped ∧
      (t.pu.get p).waiting = (s.pu.get p).waiting.map (fun w => { w with reserved := false }) ∧
      ((s.pu.get p).session = .down → (t.pu.get p).session = .down ∧ (t.ltx.get p).discard = (s.ltx.get p).discard ∧
        (t.lrx.get p) = (s.lrx.get p) ∧ t.mail = s.mail) ∧
      ((s.pu.get p).session = .up → (t.pu.get p).session = .closing ∧ (t.pu.get p).cause = some .brk ∧
        (t.ltx.get p).discard = true ∧
        ((s.lrx.get p).state = .brk → t.lrx.get p = { s.lrx.get p with held := none, buffer := [] }) ∧
        ((s.lrx.get p).state ≠ .brk → (s.lrx.get p).Emptied (t.lrx.get p)) ∧
        (∀ i, (t.pu.get p).windowNamed i = none) ∧
        (t.pu.get p).stepsDue = { waiter := true, lease := true, job := true, history := true } ∧
        s.ReachesExecuting t p) ∧
      ((s.pu.get p).session = .closing → (t.pu.get p).session = .closing ∧ (t.pu.get p).cause = some .brk ∧
        (t.ltx.get p).discard = true ∧ (t.pu.get p).stepsDue = (s.pu.get p).stepsDue ∧ t.mail = s.mail) ∧
      t.store = s.store ∧ t.leaseUnit = s.leaseUnit ∧ t.arbiter = s.arbiter ∧ t.engine = s.engine ∧
      (∀ q, q ≠ p → t.lrx.get q = s.lrx.get q ∧ t.pu.get q = s.pu.get q ∧ t.ltx.get q = s.ltx.get q)

/-- R141: the session becomes DOWN when nothing of the port is left to do, with mask, label and cause cleared and DOWN
reported; a CLOSE is answered OK into its reservation unless discard mode is on, which then goes off with an empty queue.
Nothing is left to do once every teardown step has been taken, the port has no live job, no end record, no EXECUTING
request but a CLOSE, no claim, and no held admission (log 13); while any of these remains, nothing changes. In the states
that LeaseTableAndWaitQueueNeverOverfill speaks of the port has then no waiter, no SETTLING request, no held lease and no
open window either, nor has a port that is DOWN. -/
def Obligations.SessionReachesDown : Prop :=
  (∀ (s : State) (p : Port), s.workDone p = true ↔
    (s.pu.get p).stepsDue = { waiter := false, lease := false, job := false, history := false } ∧
    (∀ j ∈ s.engine.jobs, j.port ≠ p) ∧ s.engine.histories.get p = [] ∧
    (∀ x, (s.pu.get p).executing = some x → x.phase = .closing) ∧
    (∀ c ∈ s.leaseUnit.claims, c.owner ≠ p) ∧ (∀ a ∈ s.leaseUnit.held, a.owner ≠ p)) ∧
  (∀ (s : State) (p : Port), s.TeardownOrderly →
    (s.pu.get p).session = .closing ∧ s.workDone p = true ∨ (s.pu.get p).session = .down →
    s.leaseUnit.waitersOf p = [] ∧ s.leaseUnit.settling.get p = none ∧ s.leaseUnit.leasesOf p = [] ∧
    ∀ i, (s.pu.get p).windowNamed i = none) ∧
  (∀ (s : State) (p : Port), (s.pu.get p).session = .closing → s.workDone p = true →
    ∃ t : State, exec (.sessionDown p) s = .next t ∧
      (t.pu.get p).session = .down ∧ (t.pu.get p).cause = none ∧ (t.pu.get p).label = [] ∧
      (t.pu.get p).mask = { lease := false, job := false, line := false } ∧ (t.pu.get p).executing = none ∧
      (t.pu.get p).downReports = (s.pu.get p).downReports + 1 ∧ (t.ltx.get p).discard = false ∧
      ((s.ltx.get p).discard = true → (t.ltx.get p).queue = [] ∧ (t.ltx.get p).reserved = 0) ∧
      ((s.ltx.get p).discard = false → (s.pu.get p).executing = none → t.ltx = s.ltx) ∧
      (∀ x, (s.pu.get p).executing = some x → (s.ltx.get p).discard = false → 0 < (s.ltx.get p).reserved →
        (t.ltx.get p).queue = (s.ltx.get p).queue ++ [replyFrame x.kind.code x.tag .ok []] ∧
        (t.ltx.get p).reserved = (s.ltx.get p).reserved - 1) ∧
      (t.ltx.get p).dropped = (s.ltx.get p).dropped ∧ t.lrx = s.lrx ∧ t.leaseUnit = s.leaseUnit ∧
      t.engine = s.engine ∧ t.store = s.store) ∧
  (∀ (s : State) (p : Port), (s.pu.get p).session ≠ .closing ∨ s.workDone p = false →
    exec (.sessionDown p) s = .next s)

/-- R174: PORT-DROP names port 1, 2 or 3, else BAD-FIELD; a DOWN target gives WRONG-STATE; a CLOSING target defers the
reply; an UP target is offered SESSION-ENDED and given the drop order, at once or, where `late`, with the offer still
to be taken. A DOWN report of the target that is still outstanding is cleared (log 14). -/
def Obligations.PortDropByTargetState : Prop :=
  ∀ (s : State) (p : Port) (f : Frame) (late : Bool), s.Takes p .portDrop f → p = .p0 →
    ((fieldAt f.payload 0 1 = 0 ∨ 3 < fieldAt f.payload 0 1) →
      exec (.portDrop p late) s = .next (s.served p (f.reply .portDrop .badField []))) ∧
    (∀ q : Port, q ≠ .p0 → fieldAt f.payload 0 1 = portNumber q →
      ((s.pu.get q).session = .down → exec (.portDrop p late) s = .next
        ((s.served p (f.reply .portDrop .wrongState [])).modPu q (fun u => { u with downReports := 0 }))) ∧
      ((s.pu.get q).session = .closing → exec (.portDrop p late) s = .next
        ((s.executingIn p .portDrop f (.untilDown q)).modPu q (fun u => { u with downReports := 0 }))) ∧
      ((s.pu.get q).session = .up → exec (.portDrop p late) s = .next
        ((if late then s.executingIn p .portDrop f (.untilDown q)
          else (s.executingIn p .portDrop f (.untilDown q)).offer q .sessionEnded []).modPu q
          (fun u => { u with downReports := 0, dropOrders := u.dropOrders ++ [late] }))))

/-- R174, R175: a drop order begins a teardown in UP, changes nothing in CLOSING and reports DOWN at once in DOWN; PU0
answers OK on the DOWN report of the port that its PORT-DROP waits on, and on no other. The teardown it begins empties
the receiver, which returns to HUNTING even from BREAK (R138; a run of space and a character in it go on: log 27), and reaches the EXECUTING
request by its phase (R140): one that ends there releases its reservation. -/
def Obligations.DropOrderAndDownReport : Prop :=
  (∀ (s : State) (p : Port) (w : Bool) (rest : List Bool), (s.pu.get p).dropOrders = w :: rest →
    (s.pu.get p).gather = none → ∃ t : State, exec (.dropOrder p) s = .next t ∧
      ((s.pu.get p).session = .up → (t.pu.get p).session = .closing ∧ (t.pu.get p).cause = some .portDrop ∧
        (∀ i, (t.pu.get p).windowNamed i = none) ∧ (s.lrx.get p).Emptied (t.lrx.get p) ∧
        (t.pu.get p).stepsDue = { waiter := true, lease := true, job := true, history := true } ∧
        (t.pu.get p).waiting = (s.pu.get p).waiting ∧ s.ReachesExecuting t p ∧
        (w = false → (t.ltx.get p).queue = (s.ltx.get p).queue) ∧
        (w = true → (t.ltx.get p).queue = ((s.offer p .sessionEnded []).ltx.get p).queue) ∧
        ((s.ltx.get p).discard = false → (s.pu.get p).executing = none → (t.ltx.get p).reserved = (s.ltx.get p).reserved) ∧
        (∀ x, (s.ltx.get p).discard = false → (s.pu.get p).executing = some x →
          ((∃ h, x.phase = .handed h) ∨ x.phase = .settling ∨ x.phase = .atChunkEnd →
            (t.ltx.get p).reserved = (s.ltx.get p).reserved) ∧
          ((∃ q, x.phase = .untilDown q) ∨ x.phase = .access →
            (t.ltx.get p).reserved = (s.ltx.get p).reserved - 1)) ∧
        t.store = s.store ∧ t.leaseUnit = s.leaseUnit ∧ t.engine = s.engine ∧ t.arbiter = s.arbiter) ∧
      ((s.pu.get p).session = .closing → t = s.modPu p (fun u => { u with dropOrders := rest })) ∧
      ((s.pu.get p).session = .down →
        t = s.modPu p (fun u => { u with dropOrders := rest, downReports := u.downReports + 1 }))) ∧
  (∀ (s : State) (q : Port) (x : Executing), (s.pu.get q).downReports ≠ 0 → (s.pu.get .p0).gather = none →
    (s.pu.get .p0).executing = some x → x.phase = .untilDown q → (s.ltx.get .p0).discard = false →
    0 < (s.ltx.get .p0).reserved → ∃ t : State, exec (.downReport q) s = .next t ∧
      (t.ltx.get .p0).queue = (s.ltx.get .p0).queue ++ [replyFrame x.kind.code x.tag .ok (fieldOf 1 (portNumber q))] ∧
      (t.ltx.get .p0).reserved = (s.ltx.get .p0).reserved - 1 ∧ (t.pu.get .p0).executing = none ∧
      (t.pu.get q).downReports = (s.pu.get q).downReports - 1) ∧
  (∀ (s : State) (q : Port), (s.pu.get q).downReports ≠ 0 → (s.pu.get .p0).gather = none →
    s.phase .p0 ≠ some (.untilDown q) →
    exec (.downReport q) s = .next (s.modPu q (fun u => { u with downReports := u.downReports - 1 })))

/-- R12, R21, R38, R50, R139, R140: the lease unit's two steps. After the waiter step the port has no waiter, no WAITING entry of one
and no SETTLING request; for each of its members of the settling set the admissions held on its range are then retried,
and one scan follows. After the lease step, taken with no waiter left, the port holds no lease; one scan follows, and then
the removed ids are reported to the job engine in ascending order, which is all that happens there where no admission is
held. Leases, waiters and settling requests of other ports stand but for what the scans grant and mark (with an expiry due
at the lease unit: WhatIsLateEndsTheSame). The waiter step discards
undecided a LEASE, RENEW, RELEASE, WITHDRAW or LEASE-LIST that stands handed over, the lease step a FORCE-RELEASE (log
15); what a step takes from the port releases its reservations, which discard mode has already cleared. Neither touches
the store. A step not due changes nothing (log 1). -/
def Obligations.TeardownStepsAtTheLeaseUnit : Prop :=
  (∀ (s : State) (p : Port) (late : Bool), (s.pu.get p).stepsDue.waiter = true →
    ∃ t : State, exec (.teardownWaiterStep p late) s = .next t ∧ (t.pu.get p).stepsDue.waiter = false ∧
      t.leaseUnit.waitersOf p = [] ∧ t.leaseUnit.settling.get p = none ∧ t.store = s.store ∧
      (s.leaseUnit.due = false →
        (∃ u : State,
          t = ((((s.leaseUnit.settling.get p).map (fun x => x.request.range)).toList ++
            ((s.leaseUnit.waitersOf p).filter (fun w => w.settling.isSome)).map (fun w => w.request.range)).foldl
              (fun v r => v.retry late r) u).scan late ∧
          u.leaseUnit = { s.leaseUnit with queue := s.leaseUnit.queue.filter (fun w => w.port != p),
                                           settling := s.leaseUnit.settling.set p none } ∧
          u.engine = s.engine ∧ u.mail = s.mail ∧ u.arbiter = s.arbiter ∧ u.lrx = s.lrx ∧
          (∀ q, q ≠ p → u.pu.get q = s.pu.get q ∧ u.ltx.get q = s.ltx.get q) ∧
          u.leaseUnit.OnlyGrants t.leaseUnit) ∧
        (t.pu.get p).waiting = (s.pu.get p).waiting.filter
          (fun e => (s.leaseUnit.waitersOf p).all (fun w => w.tag != e.tag)) ∧
        (∀ x, (s.pu.get p).executing = some x →
          (x.phase = .settling ∨ (∃ y, x.phase = .handed (.lease y)) ∨ (∃ i n, x.phase = .handed (.renew i n)) ∨
              (∃ i, x.phase = .handed (.release i)) ∨ (∃ g, x.phase = .handed (.withdraw g)) ∨
              x.phase = .handed .leaseList →
            (t.pu.get p).executing = none ∧
            ((s.ltx.get p).discard = false → (t.ltx.get p).reserved =
              (s.ltx.get p).reserved - (s.leaseUnit.waitersOf p).length - 1)) ∧
          (x.phase = .closing ∨ x.phase = .atChunkEnd ∨ (∃ i, x.phase = .handed (.forceRelease i)) ∨
              (∃ w n m, x.phase = .handed (.submit w n m)) ∨ (∃ i, x.phase = .handed (.jobPause i)) ∨
              (∃ i, x.phase = .handed (.jobResume i)) ∨ (∃ i, x.phase = .handed (.jobCancel i)) ∨
              (∃ i, x.phase = .handed (.jobQuery i)) ∨ (∃ i, x.phase = .handed (.forceCancel i)) →
            (t.pu.get p).executing = some x ∧
            ((s.ltx.get p).discard = false → (t.ltx.get p).reserved =
              (s.ltx.get p).reserved - (s.leaseUnit.waitersOf p).length))) ∧
        ((s.pu.get p).executing = none → (t.pu.get p).executing = none ∧
          ((s.ltx.get p).discard = false → (t.ltx.get p).reserved =
            (s.ltx.get p).reserved - (s.leaseUnit.waitersOf p).length)) ∧
        ((s.ltx.get p).discard = true → (t.ltx.get p).reserved = (s.ltx.get p).reserved))) ∧
  (∀ (s : State) (p : Port), (s.pu.get p).stepsDue.lease = true → (s.pu.get p).stepsDue.waiter = false →
    s.leaseUnit.waitersOf p = [] → ∃ t : State, exec (.teardownLeaseStep p) s = .next t ∧
      (t.pu.get p).stepsDue.lease = false ∧ t.leaseUnit.leasesOf p = [] ∧ t.store = s.store ∧
      (s.leaseUnit.due = false → ∃ u v : State, v = u.scan false ∧
        t = v.modEngine (fun e => { e with
          inbox := e.inbox ++ (sortById (s.leaseUnit.leasesOf p)).map (fun l => .removed l.id) }) ∧
        u.leaseUnit = { s.leaseUnit with leases := s.leaseUnit.leases.filter (fun l => l.port != p) } ∧
        u.engine = s.engine ∧ u.mail = s.mail ∧ u.arbiter = s.arbiter ∧ u.lrx = s.lrx ∧
        (∀ q, q ≠ p → u.pu.get q = s.pu.get q ∧ u.ltx.get q = s.ltx.get q) ∧
        u.leaseUnit.OnlyGrants t.leaseUnit) ∧
      (s.leaseUnit.due = false → s.leaseUnit.held = [] → t.engine = { s.engine with
        inbox := s.engine.inbox ++ (sortById (s.leaseUnit.leasesOf p)).map (fun l => .removed l.id) }) ∧
      (s.leaseUnit.due = false → ∀ x i, (s.pu.get p).executing = some x → x.phase = .handed (.forceRelease i) →
        (t.pu.get p).executing = none ∧
        ((s.ltx.get p).discard = false → (t.ltx.get p).reserved = (s.ltx.get p).reserved - 1))) ∧
  (∀ (s : State) (p : Port) (late : Bool), (s.pu.get p).stepsDue.waiter = false →
    exec (.teardownWaiterStep p late) s = .next s) ∧
  (∀ (s : State) (p : Port), (s.pu.get p).stepsDue.lease = false ∨ (s.pu.get p).stepsDue.waiter = true →
    exec (.teardownLeaseStep p) s = .next s)

/-- R124, R140: after the job step the only live job of the port is one in a chunk, its stop request cancel TEARDOWN with no
request of the port waiting on it; jobs of other ports keep everything but the waiting requests of this port and a
selection. The step discards a request of the port that stands handed over to the job engine or deferred at a chunk end,
and releases its reservation. The history step empties the port's end history and changes nothing else. (With a block
limit's expiry due at the job engine: WhatIsLateEndsTheSame.) -/
def Obligations.TeardownStepsAtTheJobEngine : Prop :=
  (∀ (s : State) (p : Port), s.EngineOrderly → s.engine.due = false → (s.pu.get p).stepsDue.job = true →
    ∃ t : State, exec (.teardownJobStep p) s = .next t ∧ (t.pu.get p).stepsDue.job = false ∧
      (∀ j ∈ t.engine.jobs, j.port = p → t.engine.inChunk j.id = true ∧ j.stop = .cancel .teardown) ∧
      (∀ j ∈ t.engine.jobs, ∀ w ∈ j.stopWaiters, w.port ≠ p) ∧
      (∀ i ∈ s.engine.jobs, i.port ≠ p → ∃ j ∈ t.engine.jobs,
        j = { i with state := j.state, stopWaiters := i.stopWaiters.filter (fun w => w.port != p) } ∧
        (j.state = i.state ∨ (i.state = .queued ∧ j.state = .running))) ∧
      t.engine.histories = s.engine.histories ∧ t.store = s.store ∧ t.leaseUnit = s.leaseUnit ∧
      (∀ x, (s.pu.get p).executing = some x →
        (x.phase = .atChunkEnd ∨ (∃ w n m, x.phase = .handed (.submit w n m)) ∨ (∃ i, x.phase = .handed (.jobPause i)) ∨
            (∃ i, x.phase = .handed (.jobResume i)) ∨ (∃ i, x.phase = .handed (.jobCancel i)) ∨
            (∃ i, x.phase = .handed (.jobQuery i)) ∨ (∃ i, x.phase = .handed (.forceCancel i)) →
          (t.pu.get p).executing = none ∧
          ((s.ltx.get p).discard = false → (t.ltx.get p).reserved = (s.ltx.get p).reserved - 1)) ∧
        (x.phase = .closing ∨ x.phase = .settling → (t.pu.get p).executing = some x ∧ t.ltx = s.ltx))) ∧
  (∀ (s : State) (p : Port), (s.pu.get p).stepsDue.history = true → (s.pu.get p).stepsDue.job = false →
    exec (.teardownHistoryStep p) s = .next
      ((s.modEngine (fun e => { e with histories := e.histories.set p [] })).modPu p
        (fun u => { u with stepsDue := { u.stepsDue with history := false } })))

/-! ## Windows -/

/-- R80 to R82: the checks of a WIN-OPEN in order, and the window it opens. -/
def Obligations.WinOpenDecision : Prop :=
  ∀ (s : State) (p : Port) (f : Frame), s.Takes p .winOpen f →
    (7 < fieldAt f.payload 0 1 → exec (.winOpen p) s = .next (s.served p (f.reply .winOpen .badField []))) ∧
    (∀ w, (s.pu.get p).windowNamed (fieldAt f.payload 0 1) = some w → fieldAt f.payload 0 1 ≤ 7 →
      exec (.winOpen p) s = .next (s.served p (f.reply .winOpen .wrongState []))) ∧
    (fieldAt f.payload 0 1 ≤ 7 → (s.pu.get p).windowNamed (fieldAt f.payload 0 1) = none →
      Rights.ofCode (fieldAt f.payload 9 1) = none →
      exec (.winOpen p) s = .next (s.served p (f.reply .winOpen .badField []))) ∧
    (∀ w : Window, fieldAt f.payload 0 1 ≤ 7 → (s.pu.get p).windowNamed (fieldAt f.payload 0 1) = none →
      Rights.ofCode (fieldAt f.payload 9 1) = some w.rights → w.base = fieldAt f.payload 1 3 →
      w.sizeCode = fieldAt f.payload 4 1 → w.repeatCode = fieldAt f.payload 5 1 → w.physical = fieldAt f.payload 6 3 →
      ((3 < w.sizeCode ∨ 3 < w.repeatCode ∨ 0x1000000 < w.base + w.size * repeatFactor w.repeatCode ∨
          0x40000 < w.physical + w.size) →
        exec (.winOpen p) s = .next (s.served p (f.reply .winOpen .badField []))) ∧
      (w.sizeCode ≤ 3 → w.repeatCode ≤ 3 → w.base + w.size * repeatFactor w.repeatCode ≤ 0x1000000 →
        w.physical + w.size ≤ 0x40000 →
        ((w.base % w.size ≠ 0 ∨ w.physical % w.size ≠ 0) →
          exec (.winOpen p) s = .next (s.served p (f.reply .winOpen .misaligned []))) ∧
        (w.base % w.size = 0 → w.physical % w.size = 0 →
          ((∃ i v, (s.pu.get p).windowNamed i = some v ∧ v.span.intersects w.span = true) →
            exec (.winOpen p) s = .next (s.served p (f.reply .winOpen .overlap []))) ∧
          ((∀ i v, (s.pu.get p).windowNamed i = some v → v.span.intersects w.span = false) →
            exec (.winOpen p) s = .next ((s.served p (f.reply .winOpen .ok (fieldOf 1 (fieldAt f.payload 0 1)))).modPu p
              (fun u => u.setWindow (fieldAt f.payload 0 1) (some w)))))))

/-- R83: WIN-CLOSE of an index above 7 is BAD-FIELD, of a CLOSED entry WRONG-STATE; an OPEN entry becomes CLOSED, no other
entry changes, and the reply OK carries the index. -/
def Obligations.WinCloseDecision : Prop :=
  ∀ (s : State) (p : Port) (f : Frame), s.Takes p .winClose f →
    (7 < fieldAt f.payload 0 1 → exec (.winClose p) s = .next (s.served p (f.reply .winClose .badField []))) ∧
    (fieldAt f.payload 0 1 ≤ 7 → (s.pu.get p).windowNamed (fieldAt f.payload 0 1) = none →
      exec (.winClose p) s = .next (s.served p (f.reply .winClose .wrongState []))) ∧
    (∀ w, (s.pu.get p).windowNamed (fieldAt f.payload 0 1) = some w →
      exec (.winClose p) s = .next ((s.served p (f.reply .winClose .ok (fieldOf 1 (fieldAt f.payload 0 1)))).modPu p
        (fun u => u.setWindow (fieldAt f.payload 0 1) none)) ∧
      ∀ i, ((s.pu.get p).setWindow (fieldAt f.payload 0 1) none).windowNamed i =
        if i = fieldAt f.payload 0 1 then none else (s.pu.get p).windowNamed i)

/-- R86: WIN-LIST reports the port's own window table as it stands and changes nothing. Its reply OK carries the 8 entries
in index order, laid out as the reply format has them: state 1 and the fields for an OPEN entry, zeros for a CLOSED one. -/
def Obligations.WinListReportsEveryEntry : Prop :=
  ∀ (s : State) (p : Port) (f : Frame), s.Takes p .winList f →
    exec (.winList p) s = .next (s.served p (f.reply .winList .ok ((List.range 8).flatMap (fun i =>
      match (s.pu.get p).windowNamed i with
      | none => [0, 0, 0, 0, 0, 0, 0, 0, 0, 0]
      | some w => [1] ++ fieldOf 3 w.base ++ fieldOf 1 w.sizeCode ++ fieldOf 1 w.repeatCode ++ fieldOf 3 w.physical ++
          [w.rights.code]))))

/-- R75, R76: a logical address in the span of a window translates to the physical base plus its distance from the logical
base modulo the size; with repeat ×1 that is a fixed displacement; the addresses of all repetitions at one offset name one
byte; the address lies inside the store. A range is located in an OPEN window exactly where it lies wholly inside that
window's span, and a named one exactly where it lies wholly inside the span of the window named. -/
def Obligations.TranslationFollowsTheWindow : Prop :=
  (∀ w : Window, w.Legal →
    (∀ l, w.span.covers l = true → w.translate l = w.physical + (l - w.base) % w.size ∧ w.translate l < storeSize) ∧
    (w.repeatCode = 0 → ∀ l, w.span.covers l = true → w.translate l = w.physical + (l - w.base)) ∧
    (∀ k o, k < repeatFactor w.repeatCode → o < w.size →
      w.span.covers (w.base + k * w.size + o) = true ∧ w.translate (w.base + k * w.size + o) = w.physical + o)) ∧
  (∀ (s : State) (p : Port) (a n : Nat) (w : Window), s.WindowsLegal → 1 ≤ n →
    ((s.pu.get p).located a n = some w ↔ ∃ i, (s.pu.get p).windowNamed i = some w ∧ w.base ≤ a ∧
      a + n ≤ w.base + w.size * repeatFactor w.repeatCode)) ∧
  (∀ (u : PortUnit) (i a n : Nat) (w : Window), u.named i a n = some w ↔
    u.windowNamed i = some w ∧ w.base ≤ a ∧ a + n ≤ w.base + w.size * repeatFactor w.repeatCode)

/-- R77, R42: the ranges of the byte set of a mapped range cover exactly the physical bytes that its logical bytes name. -/
def Obligations.ByteSetCoversTheNamedBytes : Prop :=
  ∀ (w : Window) (start count a : Nat), w.Legal → w.maps start count = true →
    ((∃ r ∈ w.byteSet start count, r.covers a = true) ↔ ∃ k, k < count ∧ (w.mapping start).address k = a)

/-! ## Access to the store -/

/-- R63 to R65, R68, R79: the checks of READ, WRITE and EXCHANGE-IF in order; one that passes asks for admission with its
byte set as read part, write part or both, and awaits it. The values of an EXCHANGE-IF are the least significant `width`
bytes of their fields. No store byte moves. -/
def Obligations.StoreRequestsAskForAdmission : Prop :=
  (∀ (s : State) (p : Port) (f : Frame), s.Takes p .read f →
    ((fieldAt f.payload 3 2 = 0 ∨ 1024 < fieldAt f.payload 3 2) →
      exec (.read p) s = .next (s.served p (f.reply .read .badField []))) ∧
    (1 ≤ fieldAt f.payload 3 2 → fieldAt f.payload 3 2 ≤ 1024 →
      ((s.pu.get p).located (fieldAt f.payload 0 3) (fieldAt f.payload 3 2) = none →
        exec (.read p) s = .next (s.served p (f.reply .read .notMapped []))) ∧
      (∀ w, (s.pu.get p).located (fieldAt f.payload 0 3) (fieldAt f.payload 3 2) = some w →
        (w.rights = .writeOnly → exec (.read p) s = .next (s.served p (f.reply .read .noRight []))) ∧
        (w.rights ≠ .writeOnly → exec (.read p) s = .next
          (s.awaiting p .read f (Operation.read.begin w (fieldAt f.payload 0 3) (fieldAt f.payload 3 2))
            { owner := p, origin := .read, writes := [],
              reads := w.byteSet (fieldAt f.payload 0 3) (fieldAt f.payload 3 2) }))))) ∧
  (∀ (s : State) (p : Port) (f : Frame), s.Takes p .write f →
    ((fieldAt f.payload 3 2 = 0 ∨ 1024 < fieldAt f.payload 3 2) →
      exec (.write p) s = .next (s.served p (f.reply .write .badField []))) ∧
    (1 ≤ fieldAt f.payload 3 2 → fieldAt f.payload 3 2 ≤ 1024 →
      ((s.pu.get p).located (fieldAt f.payload 0 3) (fieldAt f.payload 3 2) = none →
        exec (.write p) s = .next (s.served p (f.reply .write .notMapped []))) ∧
      (∀ w, (s.pu.get p).located (fieldAt f.payload 0 3) (fieldAt f.payload 3 2) = some w →
        (w.rights = .readOnly → exec (.write p) s = .next (s.served p (f.reply .write .noRight []))) ∧
        (w.rights ≠ .readOnly → exec (.write p) s = .next
          (s.awaiting p .write f
            ((Operation.write (f.payload.drop 5)).begin w (fieldAt f.payload 0 3) (fieldAt f.payload 3 2))
            { owner := p, origin := .write, reads := [],
              writes := w.byteSet (fieldAt f.payload 0 3) (fieldAt f.payload 3 2) }))))) ∧
  (∀ (s : State) (p : Port) (f : Frame) (width : Nat), s.Takes p .exchangeIf f → fieldAt f.payload 3 1 = width →
     ((width ≠ 1 ∧ width ≠ 2 ∧ width ≠ 4) →
       exec (.exchangeIf p) s = .next (s.served p (f.reply .exchangeIf .badField []))) ∧
     (width = 1 ∨ width = 2 ∨ width = 4 →
       ((fieldAt f.payload 4 (4 - width) ≠ 0 ∨ fieldAt f.payload 8 (4 - width) ≠ 0) →
         exec (.exchangeIf p) s = .next (s.served p (f.reply .exchangeIf .badField []))) ∧
       (fieldAt f.payload 4 (4 - width) = 0 → fieldAt f.payload 8 (4 - width) = 0 →
         ((s.pu.get p).located (fieldAt f.payload 0 3) width = none →
           exec (.exchangeIf p) s = .next (s.served p (f.reply .exchangeIf .notMapped []))) ∧
         (∀ w, (s.pu.get p).located (fieldAt f.payload 0 3) width = some w →
           (w.translate (fieldAt f.payload 0 3) % width ≠ 0 →
             exec (.exchangeIf p) s = .next (s.served p (f.reply .exchangeIf .misaligned []))) ∧
           (w.translate (fieldAt f.payload 0 3) % width = 0 → w.rights ≠ .readWrite →
             exec (.exchangeIf p) s = .next (s.served p (f.reply .exchangeIf .noRight []))) ∧
           (w.translate (fieldAt f.payload 0 3) % width = 0 → w.rights = .readWrite →
             exec (.exchangeIf p) s = .next
               (s.awaiting p .exchangeIf f
                 ((Operation.exchangeIf (slice f.payload (8 - width) width) (slice f.payload (12 - width) width)).begin w
                   (fieldAt f.payload 0 3) width)
                 { owner := p, origin := .exchangeIf, reads := w.byteSet (fieldAt f.payload 0 3) width,
                   writes := w.byteSet (fieldAt f.payload 0 3) width }))))))

/-! ## Leases -/

/-- R5, R79: the port unit's checks of a LEASE request in order. One that passes is handed to the lease unit; where it is
not decided in the same step it stands handed over. -/
def Obligations.LeaseRequestChecks : Prop :=
  ∀ (s : State) (p : Port) (f : Frame) (late : Bool), s.Takes p .lease f →
    ((7 < fieldAt f.payload 0 1 ∨ 1 < fieldAt f.payload 7 1 ∨ fieldAt f.payload 4 3 = 0 ∨ 65536 < fieldAt f.payload 4 3 ∨
        fieldAt f.payload 8 2 = 0 ∨ 60000 < fieldAt f.payload 8 2 ∨ 60000 < fieldAt f.payload 10 2) →
      exec (.lease p late) s = .next (s.served p (f.reply .lease .badField []))) ∧
    (fieldAt f.payload 0 1 ≤ 7 → fieldAt f.payload 7 1 ≤ 1 → 1 ≤ fieldAt f.payload 4 3 → fieldAt f.payload 4 3 ≤ 65536 →
      1 ≤ fieldAt f.payload 8 2 → fieldAt f.payload 8 2 ≤ 60000 → fieldAt f.payload 10 2 ≤ 60000 →
      ((s.pu.get p).named (fieldAt f.payload 0 1) (fieldAt f.payload 1 3) (fieldAt f.payload 4 3) = none →
        exec (.lease p late) s = .next (s.served p (f.reply .lease .notMapped []))) ∧
      (∀ w, (s.pu.get p).named (fieldAt f.payload 0 1) (fieldAt f.payload 1 3) (fieldAt f.payload 4 3) = some w →
        (w.size < (fieldAt f.payload 1 3 - w.base) % w.size + fieldAt f.payload 4 3 →
          exec (.lease p late) s = .next (s.served p (f.reply .lease .wraps []))) ∧
        ((fieldAt f.payload 1 3 - w.base) % w.size + fieldAt f.payload 4 3 ≤ w.size →
          ((fieldAt f.payload 7 1 = 0 ∧ w.rights = .readOnly ∨ fieldAt f.payload 7 1 = 1 ∧ w.rights = .writeOnly) →
            exec (.lease p late) s = .next (s.served p (f.reply .lease .noRight []))) ∧
          (¬ (fieldAt f.payload 7 1 = 0 ∧ w.rights = .readOnly ∨ fieldAt f.payload 7 1 = 1 ∧ w.rights = .writeOnly) →
            exec (.lease p true) s = .next (s.executingIn p .lease f (.handed (.lease (leaseAsked f w))))))))

/-- R6 to R11, R13, 01 TABLE 4: the lease unit's decision on a LEASE request in order: OVERLAP, NO-ROOM, CONFLICT, a
waiter, SETTLING, or a grant whose record takes the next id: the first after the last-assigned one that no lease holds,
255 being followed by 1. The request stands handed over. (With an expiry due at the lease unit: WhatIsLateEndsTheSame.) -/
def Obligations.LeaseDecisionInOrder : Prop :=
  (∀ (s : State) (p : Port) (x : LeaseRequest) (e : Executing) (late : Bool), s.leaseUnit.due = false →
    (s.pu.get p).executing = some e → e.phase = .handed (.lease x) →
    (s.leaseUnit.overlapsOwn p x.range = true → exec (.lease p late) s = .next (s.answer p .overlap [])) ∧
    (s.leaseUnit.overlapsOwn p x.range = false →
      (4 ≤ s.leaseUnit.holdings p → exec (.lease p late) s = .next (s.answer p .noRoom [])) ∧
      (s.leaseUnit.holdings p < 4 →
        (∀ id q, s.leaseUnit.conflictOf p x = some (id, q) → x.wait = 0 →
          exec (.lease p late) s = .next (s.answer p .conflict [byte id, byte (portNumber q)])) ∧
        (s.leaseUnit.conflictOf p x = none → s.leaseUnit.full = true → x.wait = 0 →
          exec (.lease p late) s = .next (s.answer p .noRoom [])) ∧
        (s.leaseUnit.conflictOf p x ≠ none ∨ s.leaseUnit.full = true → 0 < x.wait →
          (8 ≤ s.leaseUnit.queue.length ∨ 3 ≤ (s.leaseUnit.waitersOf p).length →
            exec (.lease p late) s = .next (s.answer p .noRoom [])) ∧
          (s.leaseUnit.queue.length < 8 → (s.leaseUnit.waitersOf p).length < 3 →
            exec (.lease p late) s = .next
              ((s.modLease (fun u => { u with queue := u.queue ++
                  [{ port := p, tag := e.tag, request := x, wait := x.wait, settling := none }] })).modPu p
                (fun u => { u with executing := none,
                                   waiting := u.waiting ++ [{ tag := e.tag, reserved := e.reserved }] })))) ∧
        (s.leaseUnit.conflictOf p x = none → s.leaseUnit.full = false →
          (s.leaseUnit.conflictingClaims x.kind x.range = [] →
            exec (.lease p late) s = .next
              ((s.modLease (fun u => { u with
                  leases := u.leases ++ [{ id := u.nextLeaseId, port := p, kind := x.kind, range := x.range,
                                           logical := x.logical, window := x.window, life := x.life }],
                  lastId := u.nextLeaseId })).answer p .ok
                (fieldOf 1 s.leaseUnit.nextLeaseId ++ [x.kind.code] ++ fieldOf 2 x.life))) ∧
          (s.leaseUnit.conflictingClaims x.kind x.range ≠ [] →
            exec (.lease p late) s = .next
              ((s.modLease (fun u => { u with
                  settling := u.settling.set p (some ⟨x, u.conflictingClaims x.kind x.range⟩) })).modPu p
                (fun u => { u with executing := some { e with phase := .settling } }))))))) ∧
  (∀ u : LeaseUnit, u.lastId ≤ 255 → (∃ i, 1 ≤ i ∧ i ≤ 255 ∧ ∀ l ∈ u.leases, l.id ≠ i) →
    ∃ k, k < 255 ∧ u.nextLeaseId = (u.lastId + k) % 255 + 1 ∧ (∀ l ∈ u.leases, l.id ≠ u.nextLeaseId) ∧
      ∀ j, j < k → ∃ l ∈ u.leases, l.id = (u.lastId + j) % 255 + 1)

/-- R3, R4, R6, R8, R29 to R33, R46, R52, 01 TABLE 2: what the tests of a lease request and of an access mean, the verdict
of the scan on one waiter, and what the scan does by it: a waiter passed over stays, a settling verdict marks it with the
claims it conflicts with, a grant takes it from the queue, makes its lease record, answers it OK and, where it was
settling, has the admissions held on its range retried (WithdrawalAndClaimEnd); the scan goes on with the next waiter. -/
def Obligations.LeaseTestsAndScanVerdict : Prop :=
  (∀ r t : Range, r.intersects t = true ↔ ∃ a, r.covers a = true ∧ t.covers a = true) ∧
  (∀ (p q : Port) (k l : LeaseKind) (r t : Range), conflicting p k r q l t = true ↔
    p ≠ q ∧ r.intersects t = true ∧ ¬ (k = .shared ∧ l = .shared)) ∧
  (∀ (l : Lease) (a : Access), l.forbids a = true ↔
    (l.kind = .exclusive ∧ l.port ≠ a.owner ∧ ∃ r ∈ a.reads, ∃ x, r.covers x = true ∧ l.range.covers x = true) ∨
    ((l.kind = .shared ∨ l.port ≠ a.owner) ∧ ∃ r ∈ a.writes, ∃ x, r.covers x = true ∧ l.range.covers x = true)) ∧
  (∀ (a : Access) (r : Range), a.meets r = true ↔
    ∃ t ∈ a.reads ++ a.writes, ∃ x, t.covers x = true ∧ r.covers x = true) ∧
  (∀ (u : LeaseUnit) (p : Port) (r : Range), u.overlapsOwn p r = true ↔
    (∃ l ∈ u.leases, l.port = p ∧ l.range.intersects r = true) ∨
    (∃ w ∈ u.queue, w.port = p ∧ w.request.range.intersects r = true)) ∧
  (∀ (u : LeaseUnit) (p : Port) (x : LeaseRequest), u.conflictOf p x = none ↔
    (∀ l ∈ u.leases, x.conflictsLease p l = false) ∧ (∀ w ∈ u.queue, x.conflictsWaiter p w = false) ∧
    (∀ q t, u.settling.get q = some t → x.conflictsSettling p q t = false)) ∧
  (∀ (u : LeaseUnit) (p : Port) (x : LeaseRequest) (id : Nat) (q : Port), u.conflictOf p x = some (id, q) →
    (∃ l ∈ u.leases, x.conflictsLease p l = true ∧ l.id = id ∧ l.port = q ∧
      ∀ m ∈ u.leases, x.conflictsLease p m = true → id ≤ m.id) ∨
    (id = 0 ∧ (∀ l ∈ u.leases, x.conflictsLease p l = false) ∧
      ((∃ older w younger, u.queue = older ++ w :: younger ∧ x.conflictsWaiter p w = true ∧ w.port = q ∧
          ∀ v ∈ older, x.conflictsWaiter p v = false) ∨
        ((∀ w ∈ u.queue, x.conflictsWaiter p w = false) ∧
          (∃ t, u.settling.get q = some t ∧ x.conflictsSettling p q t = true) ∧
          ∀ r t, portNumber r < portNumber q → u.settling.get r = some t → x.conflictsSettling p r t = false)))) ∧
  (∀ (c : Access) (k : LeaseKind) (r : Range), c.conflictsRequest k r = true ↔
    (∃ t ∈ c.writes, t.intersects r = true) ∨ (k = .exclusive ∧ ∃ t ∈ c.reads, t.intersects r = true)) ∧
  (∀ (u : LeaseUnit) (older : List Waiter) (w : Waiter), w.settling = none →
    ((∃ l ∈ u.leases, w.request.conflictsLease w.port l = true) ∨
        (∃ v ∈ older, w.request.conflictsWaiter w.port v = true) ∨
        (∃ q t, u.settling.get q = some t ∧ w.request.conflictsSettling w.port q t = true) ∨
        (∃ v ∈ u.queue, v.settling ≠ none ∧ w.request.conflictsWaiter w.port v = true) ∨
        12 ≤ u.leases.length + u.reservedEntries → u.verdict older w = .pass) ∧
    ((∀ l ∈ u.leases, w.request.conflictsLease w.port l = false) →
      (∀ v ∈ older, w.request.conflictsWaiter w.port v = false) →
      (∀ q t, u.settling.get q = some t → w.request.conflictsSettling w.port q t = false) →
      (∀ v ∈ u.queue, v.settling ≠ none → w.request.conflictsWaiter w.port v = false) →
      u.leases.length + u.reservedEntries < 12 →
      (u.conflictingClaims w.request.kind w.request.range = [] → u.verdict older w = .grant) ∧
      (u.conflictingClaims w.request.kind w.request.range ≠ [] →
        u.verdict older w = .settle (u.conflictingClaims w.request.kind w.request.range)))) ∧
  (∀ (u : LeaseUnit) (older : List Waiter) (w : Waiter), w.settling = some [] → u.verdict older w = .grant) ∧
  (∀ (u : LeaseUnit) (older : List Waiter) (w : Waiter) (c : Requester) (cs : List Requester),
    w.settling = some (c :: cs) → u.verdict older w = .pass) ∧
  (∀ (s : State) (late : Bool), s.scan late = State.scanFrom late s.leaseUnit.queue [] s) ∧
  (∀ (s : State) (late : Bool) (older : List Waiter), State.scanFrom late [] older s = s) ∧
  (∀ (s : State) (late : Bool) (older rest : List Waiter) (w : Waiter),
    (s.leaseUnit.verdict older w = .pass →
      State.scanFrom late (w :: rest) older s = State.scanFrom late rest (older ++ [w]) s) ∧
    (∀ claims v, s.leaseUnit.verdict older w = .settle claims → v = { w with settling := some claims } →
      State.scanFrom late (w :: rest) older s = State.scanFrom late rest (older ++ [v])
        (s.modLease (fun u => { u with queue := older ++ v :: rest }))) ∧
    (∀ t id, s.leaseUnit.verdict older w = .grant → id = s.leaseUnit.nextLeaseId →
      t = (s.modLease (fun u => { u with
          queue := older ++ rest, lastId := id,
          leases := u.leases ++ [{ id := id, port := w.port, kind := w.request.kind, range := w.request.range,
                                   logical := w.request.logical, window := w.request.window,
                                   life := w.request.life }] })).answerWaiter w.port w.tag .ok
        (fieldOf 1 id ++ [w.request.kind.code] ++ fieldOf 2 w.request.life) →
      (w.settling = none → State.scanFrom late (w :: rest) older s = State.scanFrom late rest older t) ∧
      (w.settling ≠ none → State.scanFrom late (w :: rest) older s =
        State.scanFrom late rest older (t.retry late w.request.range))))

/-- R15: RENEW replaces the remaining lifetime of the port's lease and nothing else; a bad id or lifetime is BAD-FIELD, an
id the port does not hold NOT-FOUND. One that is not decided in the same step stands handed over (that it may stand so:
log 3), and is decided so, whatever is due at the lease unit coming first (log 5; WithdrawalLapseAndWaitExpiry). -/
def Obligations.RenewReplacesTheLifetime : Prop :=
  (∀ (s : State) (p : Port) (f : Frame) (late : Bool), s.Takes p .renew f →
    ((fieldAt f.payload 0 1 = 0 ∨ fieldAt f.payload 1 2 = 0 ∨ 60000 < fieldAt f.payload 1 2) →
      exec (.renew p late) s = .next (s.served p (f.reply .renew .badField []))) ∧
    (1 ≤ fieldAt f.payload 0 1 → 1 ≤ fieldAt f.payload 1 2 → fieldAt f.payload 1 2 ≤ 60000 →
      exec (.renew p true) s = .next (s.executingIn p .renew f
        (.handed (.renew (fieldAt f.payload 0 1) (fieldAt f.payload 1 2))))) ∧
    (s.leaseUnit.due = false → 1 ≤ fieldAt f.payload 0 1 → 1 ≤ fieldAt f.payload 1 2 → fieldAt f.payload 1 2 ≤ 60000 →
      ((∀ l ∈ s.leaseUnit.leases, ¬ (l.id = fieldAt f.payload 0 1 ∧ l.port = p)) →
        exec (.renew p false) s = .next (s.served p (f.reply .renew .notFound []))) ∧
      ((∃ l ∈ s.leaseUnit.leases, l.id = fieldAt f.payload 0 1 ∧ l.port = p) →
        exec (.renew p false) s = .next
          ((s.served p (f.reply .renew .ok (fieldOf 1 (fieldAt f.payload 0 1) ++ fieldOf 2 (fieldAt f.payload 1 2)))).modLease
            (fun u => { u with leases := u.leases.map (fun l =>
              if l.id = fieldAt f.payload 0 1 then { l with life := fieldAt f.payload 1 2 } else l) }))))) ∧
  (∀ (s t : State) (p : Port) (id life : Nat) (late : Bool), s.handed p = some (.renew id life) → t = s.expireLeases →
    ((∀ l ∈ t.leaseUnit.leases, ¬ (l.id = id ∧ l.port = p)) →
      exec (.renew p late) s = .next (t.answer p .notFound [])) ∧
    ((∃ l ∈ t.leaseUnit.leases, l.id = id ∧ l.port = p) →
      exec (.renew p late) s = .next ((t.answer p .ok (fieldOf 1 id ++ fieldOf 2 life)).modLease
        (fun u => { u with leases := u.leases.map (fun l => if l.id = id then { l with life := life } else l) }))))

/-- R16, R19, R171: RELEASE of the port's lease removes it, queues OK, runs one scan and reports the id to the job engine;
FORCE-RELEASE does so for a lease of any port, queues OK with the id and the holder, and offers LEASE-REVOKED to the
holder. Id 0 is BAD-FIELD, an id not held NOT-FOUND. One that is not decided in the same step stands handed over with its
id (log 3; R140), and is decided so, whatever is due at the lease unit coming first (log 5). -/
def Obligations.ReleaseAndForceReleaseRemoveTheLease : Prop :=
  (∀ (s : State) (p : Port) (f : Frame) (late : Bool), s.Takes p .release f →
     (fieldAt f.payload 0 1 = 0 → exec (.release p late) s = .next (s.served p (f.reply .release .badField []))) ∧
     (1 ≤ fieldAt f.payload 0 1 → exec (.release p true) s = .next
       (s.executingIn p .release f (.handed (.release (fieldAt f.payload 0 1))))) ∧
     (s.leaseUnit.due = false → 1 ≤ fieldAt f.payload 0 1 →
       ((∀ l ∈ s.leaseUnit.leases, ¬ (l.id = fieldAt f.payload 0 1 ∧ l.port = p)) →
         exec (.release p false) s = .next (s.served p (f.reply .release .notFound []))) ∧
       ((∃ l ∈ s.leaseUnit.leases, l.id = fieldAt f.payload 0 1 ∧ l.port = p) →
         exec (.release p false) s = .next
           ((((s.served p (f.reply .release .ok (fieldOf 1 (fieldAt f.payload 0 1)))).modLease
             (fun u => { u with leases := u.leases.filter (fun l => l.id != fieldAt f.payload 0 1) })).scan
             false).modEngine
             (fun e => { e with inbox := e.inbox ++ [.removed (fieldAt f.payload 0 1)] }))))) ∧
  (∀ (s t : State) (p : Port) (id : Nat) (late : Bool), s.handed p = some (.release id) → t = s.expireLeases →
     ((∀ l ∈ t.leaseUnit.leases, ¬ (l.id = id ∧ l.port = p)) →
       exec (.release p late) s = .next (t.answer p .notFound [])) ∧
     ((∃ l ∈ t.leaseUnit.leases, l.id = id ∧ l.port = p) → exec (.release p late) s = .next
       ((((t.answer p .ok (fieldOf 1 id)).modLease
         (fun u => { u with leases := u.leases.filter (fun l => l.id != id) })).scan false).modEngine
         (fun e => { e with inbox := e.inbox ++ [.removed id] })))) ∧
  (∀ (s : State) (p : Port) (f : Frame) (late : Bool), s.Takes p .forceRelease f →
     (fieldAt f.payload 0 1 = 0 →
       exec (.forceRelease p late) s = .next (s.served p (f.reply .forceRelease .badField []))) ∧
     (1 ≤ fieldAt f.payload 0 1 → exec (.forceRelease p true) s = .next
       (s.executingIn p .forceRelease f (.handed (.forceRelease (fieldAt f.payload 0 1))))) ∧
     (s.leaseUnit.due = false → 1 ≤ fieldAt f.payload 0 1 →
       ((∀ l ∈ s.leaseUnit.leases, l.id ≠ fieldAt f.payload 0 1) →
         exec (.forceRelease p false) s = .next (s.served p (f.reply .forceRelease .notFound []))) ∧
       (∀ l ∈ s.leaseUnit.leases, s.LeaseIdsDistinct → l.id = fieldAt f.payload 0 1 →
         exec (.forceRelease p false) s = .next
           (((((s.served p (f.reply .forceRelease .ok (fieldOf 1 l.id ++ fieldOf 1 (portNumber l.port)))).modLease
             (fun u => { u with leases := u.leases.filter (fun m => m.id != l.id) })).offer l.port .leaseRevoked
             (fieldOf 1 l.id)).scan false).modEngine (fun e => { e with inbox := e.inbox ++ [.removed l.id] }))))) ∧
  (∀ (s t : State) (p : Port) (id : Nat) (late : Bool), s.handed p = some (.forceRelease id) → t = s.expireLeases →
     ((∀ l ∈ t.leaseUnit.leases, l.id ≠ id) → exec (.forceRelease p late) s = .next (t.answer p .notFound [])) ∧
     (∀ older l younger, t.leaseUnit.leases = older ++ l :: younger → l.id = id → (∀ m ∈ older, m.id ≠ id) →
       exec (.forceRelease p late) s = .next
         (((((t.answer p .ok (fieldOf 1 id ++ fieldOf 1 (portNumber l.port))).modLease
           (fun u => { u with leases := u.leases.filter (fun m => m.id != id) })).offer l.port .leaseRevoked
           (fieldOf 1 id)).scan false).modEngine (fun e => { e with inbox := e.inbox ++ [.removed id] }))))

/-- R20: LEASE-LIST reports the port's leases by ascending id and its waiters oldest first, and changes nothing. One that is
not answered in the same step stands handed over (log 3; R140), and is answered so, whatever is due at the lease unit
coming first (log 5). With nothing due every remaining time of a lease or of a waiter that is not settling is 1 at least
(10 TABLE 2). -/
def Obligations.LeaseListReportsTheHoldings : Prop :=
  (∀ (s : State) (p : Port) (f : Frame), s.Takes p .leaseList f →
    exec (.leaseList p true) s = .next (s.executingIn p .leaseList f (.handed .leaseList))) ∧
  (∀ (u : LeaseUnit) (p : Port) (late : Bool) (listed : List Byte),
    listed = fieldOf 1 ((u.leasesOf p).length + (u.waitersOf p).length) ++
      (sortById (u.leasesOf p)).flatMap (fun l => [0, byte l.id, l.kind.code, byte l.window] ++
        fieldOf 3 l.logical ++ fieldOf 3 l.range.length ++ fieldOf 2 l.life) ++
      (u.waitersOf p).flatMap (fun w => [1, w.tag, w.request.kind.code, byte w.request.window] ++
        fieldOf 3 w.request.logical ++ fieldOf 3 w.request.range.length ++ fieldOf 2 w.wait) →
    (∀ (s : State) (f : Frame), u = s.leaseUnit → u.due = false → s.Takes p .leaseList f →
      exec (.leaseList p false) s = .next (s.served p (f.reply .leaseList .ok listed))) ∧
    (∀ s t : State, s.handed p = some .leaseList → t = s.expireLeases → u = t.leaseUnit →
      exec (.leaseList p late) s = .next (t.answer p .ok listed))) ∧
  (∀ ls : List Lease, (sortById ls).Perm ls ∧ (sortById ls).Pairwise (fun l m => l.id ≤ m.id)) ∧
  (∀ u : LeaseUnit, u.due = false →
    (∀ l ∈ u.leases, 1 ≤ l.life) ∧ ∀ w ∈ u.queue, w.settling = none → 1 ≤ w.wait)

/-- R35, R17, R27: WITHDRAW of a waiter that is not settling: WITHDRAWN, then OK, then one scan; a settling waiter gives
WRONG-STATE, no waiter of the port with that tag NOT-FOUND. One that is not decided in the same step stands handed over with
its tag (log 3; R140), and is decided so, whatever is due at the lease unit coming first (log 5). A lease whose remaining lifetime is 0 lapses; a waiter whose
remaining wait is 0 and that is not settling times out. An expiry named for a timer that is not 0 changes nothing (log 1).
What the lease unit takes before another event is the lapses due, in table order, and then the wait expiries due, oldest
first (log 5); what the job engine takes is the block-limit expiries due, in submission order. -/
def Obligations.WithdrawalLapseAndWaitExpiry : Prop :=
  (∀ (s : State) (p : Port) (f : Frame) (tag : Byte), s.leaseUnit.due = false → s.Takes p .withdraw f →
    f.payload = [tag] →
     ((∀ w ∈ s.leaseUnit.queue, ¬ (w.port = p ∧ w.tag = tag)) →
       exec (.withdraw p false) s = .next (s.served p (f.reply .withdraw .notFound []))) ∧
     (∀ w, s.leaseUnit.waiterOf p tag = some w →
       (w.settling ≠ none → exec (.withdraw p false) s = .next (s.served p (f.reply .withdraw .wrongState []))) ∧
       (w.settling = none → 0 < (s.ltx.get p).reserved →
         ∃ t : State, exec (.withdraw p false) s = .next (t.scan false) ∧
           (t.ltx.get p).queue = (s.ltx.get p).queue ++
             [replyFrame Kind.lease.code tag .withdrawn [], f.reply .withdraw .ok []] ∧
           (t.ltx.get p).reserved = (s.ltx.get p).reserved - 1 ∧ (t.pu.get p).executing = none ∧
           (t.pu.get p).waiting = (s.pu.get p).waiting.filter (fun x => x.tag != tag) ∧
           t.leaseUnit = { s.leaseUnit with
             queue := s.leaseUnit.queue.filter (fun x => !(x.port == p && x.tag == tag)) } ∧
           t.engine = s.engine ∧ t.store = s.store ∧ t.mail = s.mail))) ∧
  (∀ (s : State) (p : Port) (f : Frame) (tag : Byte), s.Takes p .withdraw f → f.payload = [tag] →
    exec (.withdraw p true) s = .next (s.executingIn p .withdraw f (.handed (.withdraw tag)))) ∧
  (∀ (s t : State) (p : Port) (tag : Byte) (late : Bool), s.handed p = some (.withdraw tag) → t = s.expireLeases →
    ((∀ w ∈ t.leaseUnit.queue, ¬ (w.port = p ∧ w.tag = tag)) →
      exec (.withdraw p late) s = .next (t.answer p .notFound [])) ∧
    (∀ w, t.leaseUnit.waiterOf p tag = some w →
      (w.settling ≠ none → exec (.withdraw p late) s = .next (t.answer p .wrongState [])) ∧
      (w.settling = none → exec (.withdraw p late) s = .next
        ((((t.modLease (fun u => { u with queue := u.queue.filter (fun x => !(x.port == p && x.tag == tag)) })).answerWaiter
          p tag .withdrawn []).answer p .ok []).scan false)))) ∧
  (∀ (s : State) (l : Lease), s.LeaseIdsDistinct → l ∈ s.leaseUnit.leases → l.life = 0 →
    exec (.leaseLapse l.id) s = .next
      ((((s.modLease (fun u => { u with leases := u.leases.filter (fun m => m.id != l.id) })).offer l.port .leaseLapsed
        (fieldOf 1 l.id)).scan false).modEngine (fun e => { e with inbox := e.inbox ++ [.removed l.id] }))) ∧
  (∀ (s : State) (id : Nat), (∀ l ∈ s.leaseUnit.leases, l.id = id → l.life ≠ 0) →
    exec (.leaseLapse id) s = .next s) ∧
  (∀ (s : State) (p : Port) (tag : Byte) (w : Waiter), s.leaseUnit.waiterOf p tag = some w → w.wait = 0 →
    w.settling = none → (s.ltx.get p).discard = false → 0 < (s.ltx.get p).reserved →
    ∃ t : State, exec (.waitExpiry p tag) s = .next (t.scan false) ∧
      (t.ltx.get p).queue = (s.ltx.get p).queue ++ [replyFrame Kind.lease.code tag .timedOut []] ∧
      (t.ltx.get p).reserved = (s.ltx.get p).reserved - 1 ∧
      (t.pu.get p).waiting = (s.pu.get p).waiting.filter (fun x => x.tag != tag) ∧
      t.leaseUnit = { s.leaseUnit with
        queue := s.leaseUnit.queue.filter (fun x => !(x.port == p && x.tag == tag)) } ∧
      t.engine = s.engine ∧ t.store = s.store ∧ t.mail = s.mail) ∧
  (∀ (s : State) (p : Port) (tag : Byte), (∀ w, s.leaseUnit.waiterOf p tag = some w → w.wait ≠ 0 ∨ w.settling ≠ none) →
    exec (.waitExpiry p tag) s = .next s) ∧
  (∀ s : State, (s.leaseUnit.due = false → s.expireLeases = s) ∧ (s.engine.due = false → s.expireJobs = s)) ∧
  (∀ s t : State, t = s.after ((s.leaseUnit.leases.filter (fun l => l.life == 0)).map (fun l => .leaseLapse l.id)) →
    s.expireLeases = t.after ((t.leaseUnit.queue.filter (fun w => w.wait == 0 && w.settling == none)).map
      (fun w => .waitExpiry w.port w.tag))) ∧
  (∀ s : State, s.expireJobs = s.after ((s.engine.jobs.filter Job.limitReached).map
    (fun j => .blockLimitExpiry j.id))) ∧
  (∀ j : Job, j.limitReached = true ↔ ∃ x, j.state = .blocked x (some 0)) ∧
  (∀ u : LeaseUnit, u.due = true ↔
    (∃ l ∈ u.leases, l.life = 0) ∨ ∃ w ∈ u.queue, w.wait = 0 ∧ w.settling = none) ∧
  (∀ e : JobEngine, e.due = true ↔ ∃ j ∈ e.jobs, ∃ x, j.state = .blocked x (some 0)) ∧
  (∀ s : State, s.TimersInRange → s.InFlightOrderly → s.expireLeases.leaseUnit.due = false) ∧
  (∀ s : State, s.EngineOrderly → s.expireJobs.engine.due = false)

/-- R51, R109, R140 (log 3): a request handed over and decided by a further command of its row, with nothing between, ends
as the request decided at once; so does an admission request whose outcome a further command takes. R177 (log 5): where
expiries are due at the lease unit or the job engine, what that block takes next ends as it does after them: a request
handed over, an admission request, a withdrawal, a claim end, a teardown step, a removal report, a reading. -/
def Obligations.WhatIsLateEndsTheSame : Prop :=
  (∀ (c : Instr) (p : Port) (s : State), handedCommand c = some (p, true) → s.handed p = none →
     ∃ t : State, exec c s = .next t ∧ exec (atOnce c) t = exec (atOnce c) s) ∧
  (∀ (s : State) (r : Requester) (a : Access), s.leaseUnit.due = false → (s.mail.get r).request = some a →
     a.requester = r →
     (s.mail.get r).decision = none → s.engine.inbox = [] → (s.mail.get r).claimEnd = false →
     (s.mail.get r).withdrawal = false →
     ∃ t : State, exec (.admissionRequest r true) s = .next t ∧
       exec (.admissionRequest r false) t = exec (.admissionRequest r false) s) ∧
  (∀ (s : State) (p : Port) (c : Instr), s.expireLeases.leaseUnit.due = false → s.LeaseUnitDecides p c →
    exec c s = exec c s.expireLeases) ∧
  (∀ (s : State) (p : Port) (c : Instr), s.expireJobs.engine.due = false → s.EngineDecides p c →
    exec c s = exec c s.expireJobs) ∧
  (∀ (s : State) (r : Requester) (a : Access) (late : Bool), (s.mail.get r).request = some a →
    (s.mail.get r).decision = none → (∀ d rest, s.engine.inbox ≠ .decided d :: rest) → (s.mail.get r).claimEnd = false →
    (s.mail.get r).withdrawal = false →
    exec (.admissionRequest r late) s = .next
      ((s.expireLeases.modMail r (fun m => { m with request := none })).decideAdmission late a)) ∧
  (∀ (s : State) (r : Requester) (late : Bool), s.expireLeases.leaseUnit.due = false →
    s.expireLeases.mail.get r = s.mail.get r →
    ((s.mail.get r).claimEnd = true → exec (.claimEnd r late) s = exec (.claimEnd r late) s.expireLeases) ∧
    ((s.mail.get r).claimEnd = false → (s.mail.get r).withdrawal = true →
      exec (.admissionWithdrawal r late) s = exec (.admissionWithdrawal r late) s.expireLeases)) ∧
  (∀ (s : State) (p : Port) (late : Bool), s.expireLeases.leaseUnit.due = false →
    ((s.pu.get p).stepsDue.waiter = true →
      exec (.teardownWaiterStep p late) s = exec (.teardownWaiterStep p late) s.expireLeases) ∧
    ((s.pu.get p).stepsDue.lease = true → (s.pu.get p).stepsDue.waiter = false →
      exec (.teardownLeaseStep p) s = exec (.teardownLeaseStep p) s.expireLeases)) ∧
  (∀ (s : State) (p : Port), s.expireJobs.engine.due = false →
    ((s.pu.get p).stepsDue.job = true → exec (.teardownJobStep p) s = exec (.teardownJobStep p) s.expireJobs) ∧
    (∀ x rest, s.engine.inbox = .removed x :: rest →
      exec .leaseRemovalReport s = exec .leaseRemovalReport s.expireJobs)) ∧
  (∀ (s : State) (p : Port) (late : Bool) (g : Gather), (s.pu.get p).gather = some g →
    (s.expireLeases.leaseUnit.due = false →
      (g.kind = .portStatus → g.taken = 8 ∨ g.taken = 9 →
        exec (.portStatus p late) s = exec (.portStatus p late) s.expireLeases) ∧
      (g.kind = .devStatus →
        g.taken < 20 ∧ (g.taken % 5 = 2 ∨ g.taken % 5 = 3) ∨ g.taken = 20 ∨ g.taken = 21 ∨ g.taken = 24 →
        exec (.devStatus p late) s = exec (.devStatus p late) s.expireLeases)) ∧
    (s.expireJobs.engine.due = false →
      (g.kind = .portStatus → g.taken = 10 →
        exec (.portStatus p late) s = exec (.portStatus p late) s.expireJobs) ∧
      (g.kind = .devStatus → g.taken < 20 ∧ g.taken % 5 = 4 ∨ g.taken = 22 ∨ g.taken = 23 ∨ g.taken = 25 →
        exec (.devStatus p late) s = exec (.devStatus p late) s.expireJobs)))

/-! ## Admission -/

/-- R46 to R49: the lease unit decides a port's admission request: refused by the lowest forbidding lease and answered
LEASED; held where it meets a member of the settling set; otherwise admitted, with a claim and the first turn asked for.
(With an expiry due at the lease unit: WhatIsLateEndsTheSame.) -/
def Obligations.PortAdmissionIsDecided : Prop :=
  ∀ (s : State) (p : Port) (a : Access) (x : Executing) (o : PortOperation),
    s.mail.get (.port p) = { claimEnd := false, withdrawal := false, request := some a, decision := none, turn := none } →
    s.leaseUnit.due = false → a.requester = .port p → (s.pu.get p).executing = some x → x.phase = .access →
    (s.pu.get p).operation = some o → (s.ltx.get p).discard = false → 0 < (s.ltx.get p).reserved →
    (∀ l ∈ s.leaseUnit.leases, l.forbids a = true → (∀ m ∈ s.leaseUnit.leases, m.forbids a = true → l.id < m.id ∨ m = l) →
      ∃ t : State, exec (.admissionRequest (.port p) false) s = .next t ∧
        (t.ltx.get p).queue = (s.ltx.get p).queue ++
          [replyFrame x.kind.code x.tag .leased [byte l.id, byte (portNumber l.port)]] ∧
        (t.ltx.get p).reserved = (s.ltx.get p).reserved - 1 ∧ (t.pu.get p).executing = none ∧
        (t.pu.get p).operation = none ∧ t.mail.get (.port p) = Mail.empty ∧ t.leaseUnit = s.leaseUnit ∧
        t.store = s.store ∧ t.arbiter = s.arbiter) ∧
    ((∀ l ∈ s.leaseUnit.leases, l.forbids a = false) →
      ((∃ r ∈ s.leaseUnit.settlingRanges, a.meets r = true) →
        exec (.admissionRequest (.port p) false) s = .next
          ((s.modLease (fun u => { u with held := u.held ++ [a] })).modMail (.port p)
            (fun m => { m with request := none }))) ∧
      ((∀ r ∈ s.leaseUnit.settlingRanges, a.meets r = false) →
        exec (.admissionRequest (.port p) false) s = .next
          (((s.modLease (fun u => { u with claims := u.claims ++ [a] })).modMail (.port p)
            (fun m => { m with request := none, turn := some o.turn })).modPu p
            (fun u => { u with operation := some { o with admitted := true } }))))

/-- R46, R101, R106: the lease unit decides the admission of the running job's chunk. Refused: the job is BLOCKED on the
lowest forbidding lease with its block timer, JOB-BLOCKED is offered and another job is selected.
(With an expiry due at the lease unit: WhatIsLateEndsTheSame.) -/
def Obligations.ChunkAdmissionIsDecided : Prop :=
  ∀ (s : State) (a : Access) (r : RunningJob) (j : Job),
    s.mail.get .engine = { claimEnd := false, withdrawal := false, request := some a, decision := none, turn := none } →
    s.leaseUnit.due = false → a.requester = .engine → s.engine.inbox = [] → s.engine.running = some r → s.engine.find r.job = some j →
    (∀ l ∈ s.leaseUnit.leases, l.forbids a = true → (∀ m ∈ s.leaseUnit.leases, m.forbids a = true → l.id < m.id ∨ m = l) →
      ∃ t : State, exec (.admissionRequest .engine false) s = .next t.selectJob ∧
        t.engine = { s.engine with
          running := none,
          jobs := s.engine.jobs.map (fun k =>
            if k.id = j.id then { k with state := .blocked l.id (if j.limit = 0 then none else some j.limit) } else k) } ∧
        t.leaseUnit = s.leaseUnit ∧ t.mail.get .engine = Mail.empty ∧
        t.ltx.get j.port = (s.ltx.get j.port).offer (s.pu.get j.port).session (s.pu.get j.port).mask .jobBlocked
          ([byte j.id, byte l.id, byte (portNumber l.port)] ++ fieldOf 3 j.done)) ∧
    ((∀ l ∈ s.leaseUnit.leases, l.forbids a = false) →
      ((∃ r ∈ s.leaseUnit.settlingRanges, a.meets r = true) →
        exec (.admissionRequest .engine false) s = .next
          ((s.modLease (fun u => { u with held := u.held ++ [a] })).modMail .engine
            (fun m => { m with request := none }))) ∧
      ((∀ r ∈ s.leaseUnit.settlingRanges, a.meets r = false) →
        exec (.admissionRequest .engine false) s = .next
          (((s.modLease (fun u => { u with claims := u.claims ++ [a] })).modMail .engine
            (fun m => { m with request := none, turn := some (j.turn r.chunk) })).modEngine
            (fun e => { e with running := some { r with inChunk := true } }))))

/-- R12, R32, R34, R44, R46 to R51, R55, R109: a withdrawal removes the held admission, or ends the claim just made, or
changes nothing more. The end of a claim takes it from the claim list and from every recorded set, grants the executing
SETTLING requests whose set is then empty, in port order, and runs one scan. A grant that ends a settling has the held
admissions on its range decided afresh, one by one: refused by the lowest forbidding lease, held on where a member of the
settling set is still met, otherwise admitted. The outcome reaches its requester, in this step or, where `late`, later
(log 3); one that has withdrawn ignores it. Then what this comes to where nothing waits, where one SETTLING request is
granted, where one held admission is then admitted, and where a settling waiter's set empties. (With an expiry due at the
lease unit: WhatIsLateEndsTheSame.) -/
def Obligations.WithdrawalAndClaimEnd : Prop :=
  (∀ (s : State) (r : Requester) (late : Bool), s.leaseUnit.due = false → (s.mail.get r).withdrawal = true →
    (s.mail.get r).claimEnd = false →
    ((∃ a ∈ s.leaseUnit.held, a.requester = r) → exec (.admissionWithdrawal r late) s = .next
      ((s.modMail r (fun m => { m with withdrawal := false })).modLease
        (fun u => { u with held := u.held.filter (fun a => a.requester != r) }))) ∧
    ((∀ a ∈ s.leaseUnit.held, a.requester ≠ r) → (∀ c ∈ s.leaseUnit.claims, c.requester ≠ r) →
      exec (.admissionWithdrawal r late) s = .next (s.modMail r (fun m => { m with withdrawal := false }))) ∧
    ((∀ a ∈ s.leaseUnit.held, a.requester ≠ r) → (∃ c ∈ s.leaseUnit.claims, c.requester = r) →
      exec (.admissionWithdrawal r late) s = .next
        ((s.modMail r (fun m => { m with withdrawal := false })).endClaim late r))) ∧
  (∀ (s : State) (r : Requester) (late : Bool), s.leaseUnit.due = false → (s.mail.get r).claimEnd = true →
    exec (.claimEnd r late) s = .next ((s.modMail r (fun m => { m with claimEnd := false })).endClaim late r)) ∧
  (∀ (s t : State) (r : Requester) (late : Bool) (cut : Option Settling → Option Settling),
    (∀ x, cut x = x.map (fun y => { y with recorded := y.recorded.filter (fun c => c != r) })) →
    t = s.modLease (fun u => { u with
      claims := u.claims.filter (fun c => c.requester != r),
      queue := u.queue.map (fun w => { w with settling := w.settling.map (fun cs => cs.filter (fun c => c != r)) }),
      settling := { p0 := cut u.settling.p0, p1 := cut u.settling.p1, p2 := cut u.settling.p2,
                    p3 := cut u.settling.p3 } }) →
    s.endClaim late r = (([Port.p0, .p1, .p2, .p3].filter (fun p => match t.leaseUnit.settling.get p with
      | some x => x.recorded.isEmpty
      | none => false)).foldl (State.grantSettling late) t).scan late) ∧
  (∀ (s : State) (p : Port) (x : Settling) (late : Bool), s.leaseUnit.settling.get p = some x →
    State.grantSettling late s p = ((s.modLease (fun u => { u with
      settling := u.settling.set p none, lastId := u.nextLeaseId,
      leases := u.leases ++ [{ id := u.nextLeaseId, port := p, kind := x.request.kind, range := x.request.range,
                               logical := x.request.logical, window := x.request.window,
                               life := x.request.life }] })).answerIn p .settling .ok
      (fieldOf 1 s.leaseUnit.nextLeaseId ++ [x.request.kind.code] ++ fieldOf 2 x.request.life)).retry late
      x.request.range) ∧
  (∀ (s : State) (late : Bool) (r : Range), s.retry late r =
    (s.leaseUnit.held.filter (fun a => a.meets r)).foldl (State.retryOne late) s) ∧
  (∀ (u : LeaseUnit) (r : Range), r ∈ u.settlingRanges ↔
    (∃ q x, u.settling.get q = some x ∧ x.request.range = r) ∨
    (∃ w ∈ u.queue, w.settling ≠ none ∧ w.request.range = r)) ∧
  (∀ (s : State) (a : Access) (late : Bool),
    (∀ l ∈ s.leaseUnit.leases, l.forbids a = true → (∀ m ∈ s.leaseUnit.leases, m.forbids a = true → l.id < m.id ∨ m = l) →
      s.decideAdmission late a = s.deliver late a.requester (.refused l.id l.port) ∧
      State.retryOne late s a = (s.modLease (fun u => { u with
        held := u.held.filter (fun b => b.requester != a.requester) })).deliver late a.requester
        (.refused l.id l.port)) ∧
    ((∀ l ∈ s.leaseUnit.leases, l.forbids a = false) →
      ((∃ r ∈ s.leaseUnit.settlingRanges, a.meets r = true) →
        s.decideAdmission late a = s.modLease (fun u => { u with held := u.held ++ [a] }) ∧
        State.retryOne late s a = s) ∧
      ((∀ r ∈ s.leaseUnit.settlingRanges, a.meets r = false) →
        s.decideAdmission late a =
          (s.modLease (fun u => { u with claims := u.claims ++ [a] })).deliver late a.requester .admitted ∧
        State.retryOne late s a = (s.modLease (fun u => { u with
          held := u.held.filter (fun b => b.requester != a.requester), claims := u.claims ++ [a] })).deliver late
          a.requester .admitted))) ∧
  (∀ (s : State) (r : Requester) (late : Bool) (d : Decision), (s.mail.get r).withdrawal = true →
    s.deliver late r d = s) ∧
  (∀ (s : State) (q : Port) (d : Decision), (s.mail.get (.port q)).withdrawal = false →
    s.deliver true (.port q) d = s.modMail (.port q) (fun m => { m with decision := some d }) ∧
    (∀ o, (s.pu.get q).operation = some o → s.deliver false (.port q) .admitted =
      (s.modPu q (fun u => { u with operation := some { o with admitted := true } })).modMail (.port q)
        (fun m => { m with turn := some o.turn })) ∧
    (∀ o x id holder, (s.pu.get q).operation = some o → (s.pu.get q).executing = some x → x.phase = .access →
      s.deliver false (.port q) (.refused id holder) =
        (s.answer q .leased [byte id, byte (portNumber holder)]).modPu q (fun u => { u with operation := none }))) ∧
  (∀ (s : State) (d : Decision), (s.mail.get .engine).withdrawal = false →
    s.deliver true .engine d = s.modEngine (fun e => { e with inbox := e.inbox ++ [.decided d] }) ∧
    (∀ x rest, s.engine.inbox = .removed x :: rest →
      s.deliver false .engine d = s.modEngine (fun e => { e with inbox := e.inbox ++ [.decided d] })) ∧
    (∀ ru j, s.engine.inbox = [] → s.engine.running = some ru → s.engine.find ru.job = some j →
      (d = .admitted → s.deliver false .engine d =
        (s.modEngine (fun e => { e with running := some { ru with inChunk := true } })).modMail .engine
          (fun m => { m with turn := some (j.turn ru.chunk) })) ∧
      (∀ id holder, d = .refused id holder → s.deliver false .engine d =
        ((s.modEngine (fun e => { e with running := none, jobs := e.jobs.map (fun k => if k.id = j.id then
            { k with state := .blocked id (if j.limit = 0 then none else some j.limit) } else k) })).offer j.port
          .jobBlocked ([byte j.id, byte id, byte (portNumber holder)] ++ fieldOf 3 j.done)).selectJob))) ∧
  (∀ (s : State) (r : Requester) (late : Bool), s.leaseUnit.queue = [] → (∀ q, s.leaseUnit.settling.get q = none) →
    s.endClaim late r = s.modLease (fun u => { u with claims := u.claims.filter (fun c => c.requester != r) })) ∧
  (∀ (s : State) (r : Requester) (late : Bool) (p : Port) (x : LeaseRequest) (e : Executing),
    s.leaseUnit.queue = [] → s.leaseUnit.held = [] → s.leaseUnit.settling.get p = some { request := x, recorded := [r] } →
    (∀ q, q ≠ p → s.leaseUnit.settling.get q = none) → (s.pu.get p).executing = some e → e.phase = .settling →
    (s.ltx.get p).discard = false → 0 < (s.ltx.get p).reserved →
    ((s.endClaim late r).leaseUnit.settling.get p = none ∧
      (s.endClaim late r).leaseUnit.leases = s.leaseUnit.leases ++
        [{ id := s.leaseUnit.nextLeaseId, port := p, kind := x.kind, range := x.range, logical := x.logical,
           window := x.window, life := x.life }] ∧
      ((s.endClaim late r).ltx.get p).queue = (s.ltx.get p).queue ++ [replyFrame e.kind.code e.tag .ok
        (fieldOf 1 s.leaseUnit.nextLeaseId ++ [x.kind.code] ++ fieldOf 2 x.life)] ∧
      ((s.endClaim late r).pu.get p).executing = none)) ∧
  (∀ (s t : State) (r : Requester) (p q : Port) (x : LeaseRequest) (l : Lease) (a : Access) (o : PortOperation),
    s.leaseUnit.queue = [] → s.leaseUnit.settling.get p = some { request := x, recorded := [r] } →
    (∀ q, q ≠ p → s.leaseUnit.settling.get q = none) → s.leaseUnit.held = [a] → a.meets x.range = true → q ≠ p →
    a.requester = .port q → (s.pu.get q).operation = some o → (s.mail.get (.port q)).withdrawal = false →
    l = { id := s.leaseUnit.nextLeaseId, port := p, kind := x.kind, range := x.range, logical := x.logical,
          window := x.window, life := x.life } →
    (∀ m ∈ s.leaseUnit.leases ++ [l], m.forbids a = false) → t = s.endClaim false r →
    t.leaseUnit.held = [] ∧ t.leaseUnit.claims = s.leaseUnit.claims.filter (fun c => c.requester != r) ++ [a] ∧
    t.leaseUnit.leases = s.leaseUnit.leases ++ [l] ∧ (t.pu.get q).operation = some { o with admitted := true } ∧
    (t.mail.get (.port q)).turn = some o.turn) ∧
  (∀ (s t : State) (r : Requester) (late : Bool) (w : Waiter), s.leaseUnit.queue = [w] → w.settling = some [r] →
    (∀ q, s.leaseUnit.settling.get q = none) → s.leaseUnit.held = [] → (s.ltx.get w.port).discard = false →
    0 < (s.ltx.get w.port).reserved → t = s.endClaim late r →
    t.leaseUnit.queue = [] ∧
    t.leaseUnit.leases = s.leaseUnit.leases ++
      [{ id := s.leaseUnit.nextLeaseId, port := w.port, kind := w.request.kind, range := w.request.range,
         logical := w.request.logical, window := w.request.window, life := w.request.life }] ∧
    (t.ltx.get w.port).queue = (s.ltx.get w.port).queue ++ [replyFrame Kind.lease.code w.tag .ok
      (fieldOf 1 s.leaseUnit.nextLeaseId ++ [w.request.kind.code] ++ fieldOf 2 w.request.life)] ∧
    (t.ltx.get w.port).reserved = (s.ltx.get w.port).reserved - 1 ∧
    (t.pu.get w.port).waiting = (s.pu.get w.port).waiting.filter (fun e => e.tag != w.tag))

/-! ## The store arbiter -/

/-- R60: a FREE store grants the turn at once; a BUSY one adds the requester to the pending set. -/
def Obligations.TurnRequestGrantedOrPending : Prop :=
  ∀ (s : State) (r : Requester) (t : Turn), (s.mail.get r).turn = some t →
    (s.arbiter.current = none → s.arbiter.pending = [] → exec (.turnRequest r) s = .next
      ((s.modMail r (fun m => { m with turn := none })).setArbiter
        { current := some (r, t), pending := [], lastGranted := r })) ∧
    (∀ c, s.arbiter.current = some c → exec (.turnRequest r) s = .next
      ((s.modMail r (fun m => { m with turn := none })).setArbiter
        { current := some c, pending := s.arbiter.pending ++ [(r, t)], lastGranted := s.arbiter.lastGranted }))

/-- R61, R62, R57: a turn end writes the turn's cells and selects the next turn: none where none is pending, otherwise the
pending requester that comes first in the cyclic order after the last granted. That the bytes move at the turn end is log
9. With no current turn nothing changes (log 1). A turn outside the store, which no run makes, stops the model (log 19). -/
def Obligations.TurnEndWritesAndSelects : Prop :=
  (∀ s : State, s.arbiter.current = none → exec .turnEnd s = .next s) ∧
  (∀ (s : State) (r : Requester) (t : Turn), s.arbiter.current = some (r, t) → t.inStore = false →
    exec .turnEnd s = .fault .noStoreByte) ∧
  (∀ (s : State) (r : Requester) (t : Turn), s.arbiter.current = some (r, t) → t.inStore = true →
    ∃ n : State, exec .turnEnd s = .next n ∧ n.store = Memory.writeAll s.store (t.written s) ∧
      (s.arbiter.pending = [] →
        n.arbiter = { current := none, pending := [], lastGranted := s.arbiter.lastGranted }) ∧
      (∀ q u, (q, u) ∈ s.arbiter.pending → (s.arbiter.pending.map (fun x => x.1)).Nodup →
        (∀ before after, cyclicAfter s.arbiter.lastGranted = before ++ q :: after →
          (∀ b ∈ before, ∀ x ∈ s.arbiter.pending, x.1 ≠ b) →
          n.arbiter = { current := some (q, u), pending := s.arbiter.pending.filter (fun x => x.1 != q),
                        lastGranted := q })))

/-- R62, R69, R102: what a turn does to the bytes: a read returns them as they stand; a write leaves each with its value; a
compare-and-write writes only when the old value equals the expected one; a copy writes the source values as they stood
at the turn's start. -/
def Obligations.TurnsMoveTheirBytes : Prop :=
  (∀ (s : State) (bs : List Nat), (Turn.read bs).returned s = bs.map s.storeByte ∧ s.writeTurn (.read bs) = s) ∧
  (∀ (s : State) (bs : List Nat) (data : List Byte), bs.Nodup → bs.length = data.length →
    bs.map (s.writeTurn (.write bs data)).storeByte = data) ∧
  (∀ (s : State) (bs : List Nat) (expected new : List Byte), bs.Nodup → bs.length = new.length →
    (Turn.compareAndWrite bs expected new).returned s = bs.map s.storeByte ∧
    (bs.map s.storeByte = expected → bs.map (s.writeTurn (.compareAndWrite bs expected new)).storeByte = new) ∧
    (bs.map s.storeByte ≠ expected → s.writeTurn (.compareAndWrite bs expected new) = s)) ∧
  (∀ (s : State) (src dst : List Nat), dst.Nodup → src.length = dst.length →
    dst.map (s.writeTurn (.copy src dst)).storeByte = src.map s.storeByte)

/-- R62, R64, R66, R69, R70, R71: a port's turn end: the last turn queues the reply and reports the claim end, any other
asks for the next piece's turn, an abandoned operation asks for none and queues no reply. Piece k of an operation is its
bytes from 64 k on, 64 of them or what is left, each at its own physical address (R75); a WRITE piece carries the data
bytes of the same places. -/
def Obligations.PortTurnEndRepliesOrGoesOn : Prop :=
  (∀ o : PortOperation, ∃ bytes : List Nat,
    bytes.length = min 64 (o.count - 64 * o.piece) ∧
    (∀ k a, bytes[k]? = some a →
      a = o.mapping.physical + (o.mapping.offset + (64 * o.piece + k)) % o.mapping.size) ∧
    (o.operation = .read → o.turn = .read bytes) ∧
    (∀ data, o.operation = .write data → o.turn = .write bytes ((data.drop (64 * o.piece)).take 64)) ∧
    (∀ e v, o.operation = .exchangeIf e v → o.turn = .compareAndWrite bytes e v)) ∧
  (∀ (s : State) (p : Port) (t : Turn) (o : PortOperation), s.arbiter.current = some (.port p, t) → t.inStore = true →
    (s.pu.get p).operation = some o → ∃ n : State, exec .turnEnd s = .next n ∧
      (o.abandoned = true → (n.pu.get p).operation = none ∧ (n.mail.get (.port p)).claimEnd = true ∧ n.ltx = s.ltx ∧
        (n.mail.get (.port p)).turn = (s.mail.get (.port p)).turn) ∧
      (o.abandoned = false → 64 * (o.piece + 1) < o.count →
        (n.pu.get p).operation =
          some { o with piece := o.piece + 1, gathered := o.gathered ++ t.returned s } ∧
        (n.mail.get (.port p)).turn =
          some ({ o with piece := o.piece + 1, gathered := o.gathered ++ t.returned s } : PortOperation).turn ∧
        n.ltx = s.ltx) ∧
      (∀ x, o.abandoned = false → o.count ≤ 64 * (o.piece + 1) → (s.pu.get p).executing = some x → x.phase = .access →
        (s.ltx.get p).discard = false → 0 < (s.ltx.get p).reserved →
        (n.pu.get p).operation = none ∧ (n.pu.get p).executing = none ∧ (n.mail.get (.port p)).claimEnd = true ∧
        (n.ltx.get p).reserved = (s.ltx.get p).reserved - 1 ∧
        (o.operation = .read → (n.ltx.get p).queue = (s.ltx.get p).queue ++
          [replyFrame x.kind.code x.tag .ok (o.gathered ++ t.returned s)]) ∧
        (∀ data, o.operation = .write data →
          (n.ltx.get p).queue = (s.ltx.get p).queue ++ [replyFrame x.kind.code x.tag .ok []]) ∧
        (∀ e v, o.operation = .exchangeIf e v → (n.ltx.get p).queue = (s.ltx.get p).queue ++
          [replyFrame x.kind.code x.tag (if t.returned s = e then .ok else .mismatch)
            (List.replicate (4 - (t.returned s).length) 0 ++ t.returned s)])))

/-- R99, R101, R103, R105, R116, R119, R120: a chunk's turn end. The claim end is reported, bytes done grows by the chunk's size and a
SUM folds the bytes read. With no stop request the job asks for its next chunk, whose admission request is then on its way
(R101), or ends DONE with its record and JOB-END; with a pause it becomes PAUSED unless the chunk was the last; with a
cancel it ends, without a record and without JOB-END for the reason TEARDOWN. After a pause or an end the engine is IDLE
and selects a job (R99). The waiting requests are answered in the order of the list: those of a job that becomes PAUSED
with OK; of a job that ends, JOB-PAUSE with WRONG-STATE and the cancels with OK, before JOB-END. -/
def Obligations.ChunkEndGoesOnOrEnds : Prop :=
  (∀ (s : State) (t : Turn) (r : RunningJob) (j a : Job) (fields : List Byte) (sent : Mail), s.EngineOrderly →
    sent = { s.mail.get .engine with claimEnd := true } →
    s.arbiter.current = some (.engine, t) → t.inStore = true → s.engine.running = some r →
    s.engine.find r.job = some j →
    a = { j with done := j.done + r.chunk.size, work := j.work.fold (t.returned s) } →
    fields = fieldOf 1 j.id ++ fieldOf 3 a.done →
    ∃ n : State, exec .turnEnd s = .next n ∧ (n.mail.get .engine).claimEnd = true ∧
      (j.stop = .none → a.done < a.length → n.ltx = s.ltx ∧ n.pu = s.pu ∧ n.engine.find j.id = some a ∧
        n.engine.running = some { job := j.id, inChunk := false, chunk := a.nextChunk } ∧
        n.mail = s.mail.set .engine { sent with request := some (a.access a.nextChunk) } ∧
        a.access a.nextChunk = { owner := j.port, origin := .chunk j.id, reads := a.nextChunk.source.toList,
                                 writes := a.nextChunk.destination.toList }) ∧
      (j.stop = .pause → a.done < a.length →
        n.engine.find j.id = some { a with state := .paused, stop := .none, stopWaiters := [] } ∧
        n.engine.histories = s.engine.histories ∧
        ∃ m : State, n = m.selectJob ∧ m.mail = s.mail.set .engine sent ∧ m.engine = { s.engine with
          running := none,
          jobs := s.engine.jobs.map (fun k => if k.id = j.id then
            { a with state := .paused, stop := .none, stopWaiters := [] } else k) }) ∧
      ((j.stop = .none ∨ j.stop = .pause) ∧ a.done = a.length ∨ (∃ c, j.stop = .cancel c) →
        ∃ m : State, n = m.selectJob ∧ m.mail = s.mail.set .engine sent ∧ m.engine = { s.engine with
          running := none, jobs := s.engine.jobs.filter (fun k => k.id != j.id), histories := n.engine.histories }) ∧
      (j.stop = .none ∨ j.stop = .pause → a.done = a.length → n.engine.find j.id = none ∧
        n.engine.histories = s.engine.histories.set j.port
          ((a.endRecord .done .complete :: s.engine.histories.get j.port).take 4)) ∧
      (j.stop = .cancel .owner → n.engine.find j.id = none ∧ n.engine.histories = s.engine.histories.set j.port
        ((a.endRecord .cancelled .owner :: s.engine.histories.get j.port).take 4)) ∧
      (j.stop = .cancel .supervisor → n.engine.find j.id = none ∧ n.engine.histories = s.engine.histories.set j.port
        ((a.endRecord .cancelled .supervisor :: s.engine.histories.get j.port).take 4)) ∧
      (j.stop = .cancel .teardown → n.engine.find j.id = none ∧ n.engine.histories = s.engine.histories) ∧
      (∀ paused ended : State, (∀ w ∈ j.stopWaiters, s.phase w.port = some .atChunkEnd) →
        (j.stopWaiters.map (fun w => w.port)).Nodup →
        paused = j.stopWaiters.foldl (fun u w => u.answer w.port .ok fields) s →
        ended = j.stopWaiters.foldl (fun u w => if w.kind = .jobPause then u.answer w.port .wrongState []
          else u.answer w.port .ok fields) s →
        (j.stop = .pause → a.done < a.length → n.ltx = paused.ltx ∧ n.pu = paused.pu) ∧
        (j.stop = .none ∨ j.stop = .pause → a.done = a.length → n.pu = ended.pu ∧
          n.ltx = (ended.offer j.port .jobEnd (a.endRecord .done .complete).fields).ltx) ∧
        (j.stop = .cancel .owner → n.pu = ended.pu ∧
          n.ltx = (ended.offer j.port .jobEnd (a.endRecord .cancelled .owner).fields).ltx) ∧
        (j.stop = .cancel .supervisor → n.pu = ended.pu ∧
          n.ltx = (ended.offer j.port .jobEnd (a.endRecord .cancelled .supervisor).fields).ltx) ∧
        (j.stop = .cancel .teardown → n.pu = ended.pu ∧ n.ltx = ended.ltx))) ∧
  (∀ (a acc : Nat) (r : Word16) (bytes pattern : List Byte) (d : Direction),
    (Work.sum a r).fold bytes = .sum a (bytes.foldl crcByte r) ∧
    (Work.copy a acc d).fold bytes = .copy a acc d ∧ (Work.fill a pattern).fold bytes = .fill a pattern) ∧
  (∀ (j : Job) (o : EndOutcome) (e : EndReason), (j.endRecord o e).id = j.id ∧ (j.endRecord o e).kind = j.work.kind ∧
    (j.endRecord o e).outcome = o ∧ (j.endRecord o e).reason = e ∧ (j.endRecord o e).done = j.done ∧
    (∀ a r, j.work = .sum a r → o = .done → (j.endRecord o e).sum = r) ∧
    ((∀ a r, j.work ≠ .sum a r) ∨ o ≠ .done → (j.endRecord o e).sum = 0)) ∧
  (∀ x : EndRecord, x.fields = [byte x.id, x.kind.code, x.outcome.code, x.reason.code] ++ fieldOf 3 x.done ++
    fieldOf 2 x.sum.toNat)

/-! ## Jobs -/

/-- R92 to R97: the checks of the three submissions in order, the range checks by R76 and R77, and the job engine's
decision: NO-ROOM where 8 jobs stand or 3 of the port, otherwise a job at the tail with the next id, answered OK, and a
selection. The next id is the first after the last-assigned one that no live job has, 255 being followed by 1. (With an
expiry due at the job engine: WhatIsLateEndsTheSame.) -/
def Obligations.SubmissionsAreCheckedAndAccepted : Prop :=
  (∀ (u : PortUnit) (a n : Nat), (u.located a n = none → u.jobRange a n = .error .notMapped) ∧
    (∀ w, u.located a n = some w → w.size < (a - w.base) % w.size + n → u.jobRange a n = .error .wraps) ∧
    (∀ w, u.located a n = some w → (a - w.base) % w.size + n ≤ w.size → u.jobRange a n = .ok w)) ∧
  (∀ (s : State) (p : Port) (f : Frame) (late : Bool), s.Takes p .jobCopy f →
    ((fieldAt f.payload 6 3 = 0 ∨ 65536 < fieldAt f.payload 6 3 ∨ 60000 < fieldAt f.payload 9 2) →
      exec (.jobCopy p late) s = .next (s.served p (f.reply .jobCopy .badField []))) ∧
    (1 ≤ fieldAt f.payload 6 3 → fieldAt f.payload 6 3 ≤ 65536 → fieldAt f.payload 9 2 ≤ 60000 →
      (∀ r, (s.pu.get p).jobRange (fieldAt f.payload 0 3) (fieldAt f.payload 6 3) = .error r →
        exec (.jobCopy p late) s = .next (s.served p (f.reply .jobCopy r []))) ∧
      (∀ v r, (s.pu.get p).jobRange (fieldAt f.payload 0 3) (fieldAt f.payload 6 3) = .ok v →
        (s.pu.get p).jobRange (fieldAt f.payload 3 3) (fieldAt f.payload 6 3) = .error r →
        exec (.jobCopy p late) s = .next (s.served p (f.reply .jobCopy r []))) ∧
      (∀ v w, (s.pu.get p).jobRange (fieldAt f.payload 0 3) (fieldAt f.payload 6 3) = .ok v →
        (s.pu.get p).jobRange (fieldAt f.payload 3 3) (fieldAt f.payload 6 3) = .ok w →
        (v.rights = .writeOnly ∨ w.rights = .readOnly →
          exec (.jobCopy p late) s = .next (s.served p (f.reply .jobCopy .noRight []))) ∧
        (v.rights ≠ .writeOnly → w.rights ≠ .readOnly →
          exec (.jobCopy p true) s = .next (s.executingIn p .jobCopy f (.handed (.submit
            (.copy (v.translate (fieldAt f.payload 0 3)) (w.translate (fieldAt f.payload 3 3)))
            (fieldAt f.payload 6 3) (fieldAt f.payload 9 2)))))))) ∧
  (∀ (s : State) (p : Port) (f : Frame) (late : Bool), s.Takes p .jobFill f →
    ((fieldAt f.payload 3 3 = 0 ∨ 65536 < fieldAt f.payload 3 3 ∨ 60000 < fieldAt f.payload 10 2) →
      exec (.jobFill p late) s = .next (s.served p (f.reply .jobFill .badField []))) ∧
    (1 ≤ fieldAt f.payload 3 3 → fieldAt f.payload 3 3 ≤ 65536 → fieldAt f.payload 10 2 ≤ 60000 →
      (∀ r, (s.pu.get p).jobRange (fieldAt f.payload 0 3) (fieldAt f.payload 3 3) = .error r →
        exec (.jobFill p late) s = .next (s.served p (f.reply .jobFill r []))) ∧
      (∀ w, (s.pu.get p).jobRange (fieldAt f.payload 0 3) (fieldAt f.payload 3 3) = .ok w →
        (w.rights = .readOnly → exec (.jobFill p late) s = .next (s.served p (f.reply .jobFill .noRight []))) ∧
        (w.rights ≠ .readOnly → exec (.jobFill p true) s = .next (s.executingIn p .jobFill f (.handed (.submit
          (.fill (w.translate (fieldAt f.payload 0 3)) (slice f.payload 6 4))
          (fieldAt f.payload 3 3) (fieldAt f.payload 10 2)))))))) ∧
  (∀ (s : State) (p : Port) (f : Frame) (late : Bool), s.Takes p .jobSum f →
    ((fieldAt f.payload 3 3 = 0 ∨ 65536 < fieldAt f.payload 3 3 ∨ 60000 < fieldAt f.payload 6 2) →
      exec (.jobSum p late) s = .next (s.served p (f.reply .jobSum .badField []))) ∧
    (1 ≤ fieldAt f.payload 3 3 → fieldAt f.payload 3 3 ≤ 65536 → fieldAt f.payload 6 2 ≤ 60000 →
      (∀ r, (s.pu.get p).jobRange (fieldAt f.payload 0 3) (fieldAt f.payload 3 3) = .error r →
        exec (.jobSum p late) s = .next (s.served p (f.reply .jobSum r []))) ∧
      (∀ w, (s.pu.get p).jobRange (fieldAt f.payload 0 3) (fieldAt f.payload 3 3) = .ok w →
        (w.rights = .writeOnly → exec (.jobSum p late) s = .next (s.served p (f.reply .jobSum .noRight []))) ∧
        (w.rights ≠ .writeOnly → exec (.jobSum p true) s = .next (s.executingIn p .jobSum f (.handed (.submit
          (.sum (w.translate (fieldAt f.payload 0 3))) (fieldAt f.payload 3 3) (fieldAt f.payload 6 2)))))))) ∧
  (∀ (s : State) (p : Port) (w : Submission) (length limit : Nat) (late : Bool),
    s.engine.due = false → s.phase p = some (.handed (.submit w length limit)) →
    (8 ≤ s.engine.jobs.length ∨ 3 ≤ (s.engine.jobsOf p).length →
      exec (submissionCommand w p late) s = .next (s.answer p .noRoom [])) ∧
    (s.engine.jobs.length < 8 → (s.engine.jobsOf p).length < 3 →
      exec (submissionCommand w p late) s = .next
        (((s.modEngine (fun e => { e with
            lastId := e.nextJobId,
            jobs := e.jobs ++ [{ id := e.nextJobId, port := p, length := length, done := 0, limit := limit,
                                 state := .queued, stop := .none, stopWaiters := [],
                                 work := match w with
                                   | .copy a b => .copy a b (if a < b ∧ b < a + length then .descending else .ascending)
                                   | .fill b pattern => .fill b pattern
                                   | .sum a => .sum a 0xFFFF }] })).answer p .ok [byte s.engine.nextJobId]).selectJob))) ∧
  (∀ e : JobEngine, e.lastId ≤ 255 → (∃ i, 1 ≤ i ∧ i ≤ 255 ∧ ∀ j ∈ e.jobs, j.id ≠ i) →
    ∃ k, k < 255 ∧ e.nextJobId = (e.lastId + k) % 255 + 1 ∧ (∀ j ∈ e.jobs, j.id ≠ e.nextJobId) ∧
      ∀ i, i < k → ∃ j ∈ e.jobs, j.id = (e.lastId + i) % 255 + 1)

/-- R99 to R101: the engine takes the oldest QUEUED job, and only where it is IDLE; that job is RUNNING, its next chunk is
current, and the chunk's admission is asked for. A chunk has 64 bytes or what is left; a DESCENDING job takes its chunks
from its end. -/
def Obligations.SelectionTakesTheOldestQueuedJob : Prop :=
  (∀ s : State, s.engine.running ≠ none → s.selectJob = s) ∧
  (∀ s : State, (∀ j ∈ s.engine.jobs, j.state ≠ .queued) → s.selectJob = s) ∧
  (∀ (s : State) (older younger : List Job) (j : Job), s.engine.running = none →
    s.engine.jobs = older ++ j :: younger → (∀ i ∈ older, i.state ≠ .queued) → j.state = .queued →
    s.selectJob = (s.modEngine (fun e => { e with
        running := some { job := j.id, chunk := j.nextChunk, inChunk := false },
        jobs := e.jobs.map (fun i => if i.id = j.id then { i with state := .running } else i) })).modMail .engine
      (fun m => { m with request := some { owner := j.port, origin := .chunk j.id,
                                           reads := j.nextChunk.source.toList,
                                           writes := j.nextChunk.destination.toList } })) ∧
  (∀ j : Job, j.nextChunk.size = min 64 (j.length - j.done) ∧
    (∀ a b, j.work = .copy a b .descending → j.nextChunk.offset = j.length - j.done - j.nextChunk.size) ∧
    (∀ a b, j.work = .copy a b .ascending → j.nextChunk.offset = j.done) ∧
    (∀ a b d, j.work = .copy a b d →
      j.nextChunk.source = some { start := a + j.nextChunk.offset, length := j.nextChunk.size } ∧
      j.nextChunk.destination = some { start := b + j.nextChunk.offset, length := j.nextChunk.size }) ∧
    (∀ b pattern, j.work = .fill b pattern → j.nextChunk.offset = j.done ∧ j.nextChunk.source = none ∧
      j.nextChunk.destination = some { start := b + j.done, length := j.nextChunk.size }) ∧
    (∀ a acc, j.work = .sum a acc → j.nextChunk.offset = j.done ∧ j.nextChunk.destination = none ∧
      j.nextChunk.source = some { start := a + j.done, length := j.nextChunk.size }))

/-- R102, R104, R105: the destination byte at offset `i` from the job's destination start receives pattern byte `i` mod 4,
whatever the chunk: a FILL chunk writes exactly those cells. The turns of the other two kinds: a COPY chunk's from its
source bytes to its destination bytes, a SUM chunk's a read of its source bytes, each in ascending order. -/
def Obligations.FillPlacesItsPattern : Prop :=
  (∀ (s : State) (j : Job) (d : Nat) (pattern : List Byte) (a : Nat) (b : Byte), j.work = .fill d pattern →
    pattern.length = 4 → ((a, b) ∈ (j.turn j.nextChunk).written s ↔
      ∃ i, j.nextChunk.offset ≤ i ∧ i < j.nextChunk.offset + j.nextChunk.size ∧ a = d + i ∧
        pattern[i % 4]? = some b)) ∧
  fillBytes [0xA1, 0xB2, 0xC3, 0xD4] 0 10 = [0xA1, 0xB2, 0xC3, 0xD4, 0xA1, 0xB2, 0xC3, 0xD4, 0xA1, 0xB2] ∧
  (∀ (j : Job) (c : Chunk) (a b : Nat) (d : Direction), j.work = .copy a b d →
    j.turn c = .copy (List.range' (a + c.offset) c.size) (List.range' (b + c.offset) c.size)) ∧
  (∀ (j : Job) (c : Chunk) (a : Nat) (r : Word16), j.work = .sum a r →
    j.turn c = .read (List.range' (a + c.offset) c.size))

/-- R111 to R113, R115: JOB-PAUSE and JOB-RESUME by the state of the job. A pause of a job in a chunk is recorded and its
reply deferred; of one awaiting admission, the admission is withdrawn. Id 0 is BAD-FIELD; a request with another id is handed
to the job engine with that id, and is decided as it stands handed over (that it may stand so: log 3; decided in the same
step, or with an expiry due at the job engine: WhatIsLateEndsTheSame). -/
def Obligations.PauseAndResumeByJobState : Prop :=
  (∀ (s : State) (p : Port) (f : Frame) (late : Bool), s.Takes p .jobPause f →
    (fieldAt f.payload 0 1 = 0 → exec (.jobPause p late) s = .next (s.served p (f.reply .jobPause .badField []))) ∧
    (1 ≤ fieldAt f.payload 0 1 → exec (.jobPause p true) s = .next
      (s.executingIn p .jobPause f (.handed (.jobPause (fieldAt f.payload 0 1)))))) ∧
  (∀ (s : State) (p : Port) (f : Frame) (late : Bool), s.Takes p .jobResume f →
    (fieldAt f.payload 0 1 = 0 → exec (.jobResume p late) s = .next (s.served p (f.reply .jobResume .badField []))) ∧
    (1 ≤ fieldAt f.payload 0 1 → exec (.jobResume p true) s = .next
      (s.executingIn p .jobResume f (.handed (.jobResume (fieldAt f.payload 0 1)))))) ∧
  (∀ (s : State) (p : Port) (id : Nat) (e : Executing) (late : Bool), s.engine.due = false →
    (s.pu.get p).executing = some e → e.phase = .handed (.jobPause id) →
    (s.engine.findOf p id = none → exec (.jobPause p late) s = .next (s.answer p .notFound [])) ∧
    (∀ j, s.engine.findOf p id = some j →
      (j.state = .paused → exec (.jobPause p late) s = .next (s.answer p .wrongState [])) ∧
      ((j.state = .queued ∨ ∃ x t, j.state = .blocked x t) → exec (.jobPause p late) s = .next
        ((s.modEngine (fun g => { g with
          jobs := g.jobs.map (fun k => if k.id = id then { k with state := .paused } else k) })).answer p .ok
          (fieldOf 1 j.id ++ fieldOf 3 j.done))) ∧
      (j.state = .running → s.engine.inChunk id = false → exec (.jobPause p late) s = .next
        ((((s.withdrawAdmission .engine).modEngine (fun g => { g with
          running := none,
          jobs := g.jobs.map (fun k => if k.id = id then { k with state := .paused } else k) })).answer p .ok
          (fieldOf 1 j.id ++ fieldOf 3 j.done)).selectJob)) ∧
      (j.state = .running → s.engine.inChunk id = true → exec (.jobPause p late) s = .next
        ((s.modEngine (fun g => { g with jobs := g.jobs.map (fun k =>
          if k.id = id then { k with stop := if j.stop = .none then .pause else j.stop,
                                     stopWaiters := k.stopWaiters ++ [{ port := p, tag := e.tag, kind := e.kind }] }
          else k) })).setPhase p .atChunkEnd)))) ∧
  (∀ (s : State) (p : Port) (id : Nat) (late : Bool), s.engine.due = false → s.phase p = some (.handed (.jobResume id)) →
    (s.engine.findOf p id = none → exec (.jobResume p late) s = .next (s.answer p .notFound [])) ∧
    (∀ j, s.engine.findOf p id = some j →
      (j.state ≠ .paused → exec (.jobResume p late) s = .next (s.answer p .wrongState [])) ∧
      (j.state = .paused → exec (.jobResume p late) s = .next
        (((s.modEngine (fun g => { g with
          jobs := g.jobs.map (fun k => if k.id = id then { k with state := .queued } else k) })).answer p .ok
          (fieldOf 1 id)).selectJob))))

/-- R111, R114, R173, R115, R119: JOB-CANCEL and FORCE-CANCEL by the state of the job, with the recording of 07 TABLE 1. A
job that is not RUNNING ends at once: its record, the reply, JOB-END. Id 0 is BAD-FIELD; a request with another id is
handed to the job engine with that id, and is decided as it stands handed over (that it may stand so: log 3; decided in the
same step, or with an expiry due at the job engine: WhatIsLateEndsTheSame). -/
def Obligations.CancelsByJobState : Prop :=
  (∀ (s : State) (p : Port) (f : Frame) (late : Bool), s.Takes p .jobCancel f →
    (fieldAt f.payload 0 1 = 0 → exec (.jobCancel p late) s = .next (s.served p (f.reply .jobCancel .badField []))) ∧
    (1 ≤ fieldAt f.payload 0 1 → exec (.jobCancel p true) s = .next
      (s.executingIn p .jobCancel f (.handed (.jobCancel (fieldAt f.payload 0 1)))))) ∧
  (∀ (s : State) (p : Port) (f : Frame) (late : Bool), s.Takes p .forceCancel f →
    (fieldAt f.payload 0 1 = 0 → exec (.forceCancel p late) s = .next (s.served p (f.reply .forceCancel .badField []))) ∧
    (1 ≤ fieldAt f.payload 0 1 → exec (.forceCancel p true) s = .next
      (s.executingIn p .forceCancel f (.handed (.forceCancel (fieldAt f.payload 0 1)))))) ∧
  (∀ (s : State) (p : Port) (id : Nat) (late : Bool), s.engine.due = false →
    (s.phase p = some (.handed (.jobCancel id)) → s.engine.findOf p id = none →
      exec (.jobCancel p late) s = .next (s.answer p .notFound [])) ∧
    (s.phase p = some (.handed (.forceCancel id)) → s.engine.find id = none →
      exec (.forceCancel p late) s = .next (s.answer p .notFound []))) ∧
  (∀ (s : State) (p : Port) (id : Nat) (late : Bool) (j : Job) (e : Executing) (c : Instr) (reason : EndReason)
      (cancel : CancelReason), s.EngineOrderly → s.engine.due = false → (s.pu.get p).executing = some e →
    (c = .jobCancel p late ∧ e.phase = .handed (.jobCancel id) ∧ s.engine.findOf p id = some j ∧ reason = .owner ∧
        cancel = .owner ∨
      c = .forceCancel p late ∧ e.phase = .handed (.forceCancel id) ∧ s.engine.find id = some j ∧
        reason = .supervisor ∧ cancel = .supervisor) →
    (j.state ≠ .running → exec c s = .next
      (((s.modEngine (fun g => { g with
          jobs := g.jobs.filter (fun k => k.id != id),
          histories := g.histories.set j.port ((j.endRecord .cancelled reason :: g.histories.get j.port).take 4) })).answer
        p .ok (fieldOf 1 id ++ fieldOf 3 j.done)).offer j.port .jobEnd (j.endRecord .cancelled reason).fields)) ∧
    (j.state = .running → s.engine.inChunk id = false → exec c s = .next
      ((((s.withdrawAdmission .engine).modEngine (fun g => { g with
          running := none, jobs := g.jobs.filter (fun k => k.id != id),
          histories := g.histories.set j.port ((j.endRecord .cancelled reason :: g.histories.get j.port).take 4) })).answer
        p .ok (fieldOf 1 id ++ fieldOf 3 j.done)).offer j.port .jobEnd (j.endRecord .cancelled reason).fields).selectJob) ∧
    (j.state = .running → s.engine.inChunk id = true → exec c s = .next
      ((s.modEngine (fun g => { g with jobs := g.jobs.map (fun k =>
        if k.id = id then { k with stop := match j.stop with
                                     | .cancel r => .cancel r
                                     | .none | .pause => .cancel cancel,
                                   stopWaiters := k.stopWaiters ++ [{ port := p, tag := e.tag, kind := e.kind }] }
        else k) })).setPhase p .atChunkEnd)))

/-- R123: JOB-QUERY reports the port's live job with the id, else the newest end record with it, else NOT-FOUND, and
changes nothing. Id 0 is BAD-FIELD. One that is not answered in the same step stands handed over with its id (log 3; R140),
and is answered so, whatever is due at the job engine coming first (log 5). -/
def Obligations.QueryReportsJobOrRecord : Prop :=
  (∀ (s : State) (p : Port) (f : Frame) (late : Bool), s.Takes p .jobQuery f →
    (fieldAt f.payload 0 1 = 0 → exec (.jobQuery p late) s = .next (s.served p (f.reply .jobQuery .badField []))) ∧
    (1 ≤ fieldAt f.payload 0 1 → exec (.jobQuery p true) s = .next
      (s.executingIn p .jobQuery f (.handed (.jobQuery (fieldAt f.payload 0 1)))))) ∧
  (∀ (e : JobEngine) (p : Port) (id : Nat) (late : Bool) (r : Result) (fields : List Byte),
    ((∃ j, e.findOf p id = some j ∧ r = .ok ∧
        fields = [0, byte j.id, j.work.kind.code, j.state.code] ++ fieldOf 3 j.length ++ fieldOf 3 j.done ++
          [match j.state with
            | .blocked x _ => byte x
            | .queued | .running | .paused => 0]) ∨
      (e.findOf p id = none ∧ ∃ newer x older, e.histories.get p = newer ++ x :: older ∧ x.id = id ∧
        (∀ y ∈ newer, y.id ≠ id) ∧ r = .ok ∧
        fields = [1, byte x.id, x.kind.code, x.outcome.code, x.reason.code] ++ fieldOf 3 x.done ++
          fieldOf 2 x.sum.toNat) ∨
      (e.findOf p id = none ∧ (∀ x ∈ e.histories.get p, x.id ≠ id) ∧ r = .notFound ∧ fields = [])) →
    (∀ (s : State) (f : Frame), e = s.engine → e.due = false → s.Takes p .jobQuery f → fieldAt f.payload 0 1 = id →
      1 ≤ id → exec (.jobQuery p false) s = .next (s.served p (f.reply .jobQuery r fields))) ∧
    (∀ s t : State, s.handed p = some (.jobQuery id) → t = s.expireJobs → e = t.engine →
      exec (.jobQuery p late) s = .next (t.answer p r fields)))

/-- R108, R118: a removal report makes every job BLOCKED on that lease QUEUED, and a selection follows; the expiry of a
block limit ends the job FAILED with its record and JOB-END, no other job and not the engine's state being touched. Where
no report is next, or the timer named is not 0, nothing changes (log 1). (With an expiry due at the job engine before a
report: WhatIsLateEndsTheSame.) -/
def Obligations.RemovalReportAndBlockLimit : Prop :=
  (∀ (s : State) (x : Nat) (rest : List EngineMessage), s.engine.due = false → s.engine.inbox = .removed x :: rest →
    exec .leaseRemovalReport s = .next
      ((s.modEngine (fun e => { e with
        inbox := rest,
        jobs := e.jobs.map (fun j => match j.state with
          | .blocked y _ => if y = x then { j with state := .queued } else j
          | _ => j) })).selectJob)) ∧
  (∀ s : State, (∀ x rest, s.engine.inbox ≠ .removed x :: rest) → exec .leaseRemovalReport s = .next s) ∧
  (∀ (s : State) (j : Job) (x : Nat), s.EngineOrderly → j ∈ s.engine.jobs → j.state = .blocked x (some 0) →
    exec (.blockLimitExpiry j.id) s = .next
      ((s.modEngine (fun e => { e with
        jobs := e.jobs.filter (fun k => k.id != j.id),
        histories := e.histories.set j.port ((j.endRecord .failed .blockLimit :: e.histories.get j.port).take 4) })).offer
        j.port .jobEnd (j.endRecord .failed .blockLimit).fields)) ∧
  (∀ (s : State) (id : Nat), (∀ j ∈ s.engine.jobs, j.id = id → ∀ x, j.state ≠ .blocked x (some 0)) →
    exec (.blockLimitExpiry id) s = .next s)

/-! ## The port link -/

/-- R143, R145, R146, R149, 09 TABLE 3: a good marked character is eleven levels on the line, after its idle mark: the
start bit, the byte with its least significant bit first, and mark bit and stop bit at mark (its operands: log 10; one
level each: log 11). A receiver that is ready for it, no break and no character being in progress and the line at mark,
begins an assembly; in ASSEMBLING the frame in assembly is first discarded for CUT, counted and offered. Where the mark
before it ends BREAK, the receiver hunts and takes it. While reset is held the line is ignored. -/
def Obligations.MarkedCharacterBeginsAnAssembly : Prop :=
  ∀ (s : State) (p : Port) (idle : Nat) (c : Byte) (i : Instr), i = .assemblyBegins p idle c ∨ i = .cutDiscard p idle c →
    exec i s = .next (s.after (lineCommands p idle (goodLevels true c))) ∧
    (s.resetLine ≠ .released → exec i s = .next s) ∧
    (s.Listens p idle → (s.lrx.get p).state = .hunting →
      exec i s = .next (s.modLrx p (fun x => { x with state := .assembling, buffer := [c], run := .none }))) ∧
    (s.Listens p idle → (s.lrx.get p).state = .assembling →
      exec i s = .next ((s.modLrx p (fun x => { x with
        buffer := [c], run := .none, cutDiscards := min (x.cutDiscards + 1) 65535 })).offer p .frameDiscarded [2])) ∧
    (s.BreakOver p idle → exec i s = .next (s.modLrx p (fun x => { x with
      state := .assembling, buffer := [c], run := .none, character := [] })))

/-- R143, R145 to R150, 09 TABLE 3 and TABLE 5: a good unmarked character is eleven levels on the line, after its idle mark,
its mark bit at space (its operands: log 10; one level each: log 11). A receiver that is ready for it ignores it in
HUNTING and appends it in ASSEMBLING; a LEN above 1040 discards the frame for LENGTH; a complete frame is discarded for a
bad CHECK, placed in an empty held slot, lost as an overrun where the slot is full, or discarded uncounted in CLOSING,
whichever of the three rows names the character. Where the mark before it ends BREAK it is ignored in HUNTING. The CRC-16
starts at 0xFFFF and folds each byte as R105 gives. -/
def Obligations.UnmarkedCharacterGoesOnWithTheAssembly : Prop :=
  (∀ (s : State) (p : Port) (idle : Nat) (c : Byte) (i : Instr) (b : List Byte),
    i = .characterAppended p idle c ∨ i = .lengthDiscard p idle c ∨ i = .frameComplete p idle c →
    b = (s.lrx.get p).buffer ++ [c] →
    exec i s = .next (s.after (lineCommands p idle (goodLevels false c))) ∧
    (s.resetLine ≠ .released → exec i s = .next s) ∧
    (s.BreakOver p idle → exec i s = .next (s.modLrx p (fun x => { x with
      state := .hunting, run := .none, character := [] }))) ∧
    (s.Listens p idle →
      ((s.lrx.get p).state = .hunting → exec i s = .next (s.modLrx p (fun x => { x with run := .none }))) ∧
      ((s.lrx.get p).state = .assembling →
        (b.length < 4 ∨ 4 < b.length ∧ b.length ≠ lengthField b + 6 ∨ b.length = 4 ∧ lengthField b ≤ 1040 →
          exec i s = .next (s.modLrx p (fun x => { x with buffer := b, run := .none }))) ∧
        (b.length = 4 → 1040 < lengthField b →
          exec i s = .next ((s.modLrx p (fun x => { x with
            state := .hunting, buffer := [], run := .none,
            lengthDiscards := min (x.lengthDiscards + 1) 65535 })).offer p .frameDiscarded [1])) ∧
        (b.length = lengthField b + 6 →
          ((crc16 (b.take (b.length - 2))).toNat ≠ fieldAt b (b.length - 2) 2 →
            exec i s = .next ((s.modLrx p (fun x => { x with
              state := .hunting, buffer := [], run := .none,
              checkDiscards := min (x.checkDiscards + 1) 65535 })).offer p .frameDiscarded [0])) ∧
          ((crc16 (b.take (b.length - 2))).toNat = fieldAt b (b.length - 2) 2 →
            ((s.pu.get p).session = .closing → exec i s = .next (s.modLrx p (fun x => { x with
              state := .hunting, buffer := [], run := .none }))) ∧
            ((s.pu.get p).session ≠ .closing → (s.lrx.get p).held = none →
              exec i s = .next (s.modLrx p (fun x => { x with
                state := .hunting, buffer := [], run := .none,
                held := some { kind := b.getD 0 0, tag := b.getD 1 0,
                               payload := (b.drop 4).take (lengthField b) } }))) ∧
            ((s.pu.get p).session ≠ .closing → (s.lrx.get p).held ≠ none →
              exec i s = .next ((s.modLrx p (fun x => { x with
                state := .hunting, buffer := [], run := .none,
                overruns := min (x.overruns + 1) 65535 })).offer p .overrun [b.getD 0 0, b.getD 1 0]))))))) ∧
  (∀ b : List Byte, lengthField b = (b.getD 2 0).toNat * 256 + (b.getD 3 0).toNat ∨ b.length < 4) ∧
  crc16 [] = 0xFFFF#16 ∧ (∀ bs b, crc16 (bs ++ [b]) = crcByte (crc16 bs) b) ∧
  (∀ (shift : Word16 → Word16) (r : Word16) (b : Byte),
    (∀ x, shift x = if x.getLsbD 15 then (x <<< 1) ^^^ 0x1021#16 else x <<< 1) →
    crcByte r b = shift (shift (shift (shift (shift (shift (shift (shift (r ^^^ (b.setWidth 16 <<< 8))))))))))

/-- R145, R149, R151, 09 TABLE 3: the receive line bit by bit (BREAK and BREAK_END carry bit times, log 11; a character with
a stop-bit error, its operands those of log 10, is its levels). A character begins at the first space level after mark and
takes the ten levels after it; its stop bit, the last, ends it. At space that is a stop-bit error: FRAMING in ASSEMBLING,
nothing in HUNTING, and no start bit before mark. At mark it is the good character that its levels spell. 22 bit times of
space, counted from the last change to space, are a break, which empties assembly and held slot and is reported, a frame
in assembly being discarded for FRAMING before it. In BREAK no character is taken and a run of space is no second break;
11 bit times of mark end it, and a return to space before them begins the count anew. -/
def Obligations.StopBitErrorsAndBreaks : Prop :=
  (∀ (s : State) (p : Port) (n idle : Nat) (c : Byte) (m : Bool), s.resetLine ≠ .released →
    exec (.framingDiscard p idle (m, c)) s = .next s ∧ exec (.lineBreak p n) s = .next s ∧
    exec (.breakEnd p n) s = .next s) ∧
  (∀ (s : State) (p : Port) (m n : Nat),
    exec (.lineBreak p 0) s = .next s ∧ exec (.breakEnd p 0) s = .next s ∧
    exec (.lineBreak p (m + n)) s = .next (s.after [.lineBreak p m, .lineBreak p n]) ∧
    exec (.breakEnd p (m + n)) s = .next (s.after [.breakEnd p m, .breakEnd p n])) ∧
  (∀ (s : State) (p : Port) (before n : Nat), s.resetLine = .released → (s.lrx.get p).state ≠ .brk →
    ((s.lrx.get p).run = .space before ∨ before = 0 ∧ ∀ k, (s.lrx.get p).run ≠ .space k) → n = before + 1 →
    (n < 22 → (s.lrx.get p).character = [] → (s.lrx.get p).run = .space before →
      exec (.lineBreak p 1) s = .next (s.modLrx p (fun x => { x with run := .space n }))) ∧
    ((s.lrx.get p).character = [] → (∀ k, (s.lrx.get p).run ≠ .space k) →
      exec (.lineBreak p 1) s = .next (s.modLrx p (fun x => { x with run := .space n, character := [false] }))) ∧
    (n < 22 → (s.lrx.get p).character ≠ [] → (s.lrx.get p).character.length < 10 →
      exec (.lineBreak p 1) s = .next (s.modLrx p (fun x => { x with
        run := .space n, character := x.character ++ [false] }))) ∧
    (n < 22 → (s.lrx.get p).character.length = 10 → (s.lrx.get p).state = .hunting →
      exec (.lineBreak p 1) s = .next (s.modLrx p (fun x => { x with run := .space n, character := [] }))) ∧
    (n < 22 → (s.lrx.get p).character.length = 10 → (s.lrx.get p).state = .assembling →
      exec (.lineBreak p 1) s = .next ((s.modLrx p (fun x => { x with
        state := .hunting, buffer := [], run := .space n, character := [],
        framingDiscards := min (x.framingDiscards + 1) 65535 })).offer p .frameDiscarded [3])) ∧
    (22 ≤ n → (s.lrx.get p).state = .hunting →
      exec (.lineBreak p 1) s = .next ((s.modLrx p (fun x => { x with
        state := .brk, buffer := [], held := none, run := .space n, character := [] })).modPu p
        (fun u => { u with breakReports := u.breakReports + 1 }))) ∧
    (22 ≤ n → (s.lrx.get p).state = .assembling →
      exec (.lineBreak p 1) s = .next (((s.modLrx p (fun x => { x with
        state := .brk, buffer := [], held := none, run := .space n, character := [],
        framingDiscards := min (x.framingDiscards + 1) 65535 })).offer p .frameDiscarded [3]).modPu p
        (fun u => { u with breakReports := u.breakReports + 1 })))) ∧
  (∀ (s : State) (p : Port), s.resetLine = .released → (s.lrx.get p).state ≠ .brk →
    ((s.lrx.get p).character = [] →
      exec (.breakEnd p 1) s = .next (s.modLrx p (fun x => { x with run := .none }))) ∧
    ((s.lrx.get p).character ≠ [] → (s.lrx.get p).character.length < 10 →
      exec (.breakEnd p 1) s = .next (s.modLrx p (fun x => { x with
        run := .none, character := x.character ++ [true] }))) ∧
    (∀ (mark : Bool) (c : Byte), (s.lrx.get p).character = (goodLevels mark c).take 10 →
      exec (.breakEnd p 1) s = exec (if mark then .assemblyBegins p 0 c else .characterAppended p 0 c)
        (s.modLrx p (fun x => { x with run := .none, character := [] })))) ∧
  (∀ (s : State) (p : Port) (idle : Nat) (c : Byte) (m : Bool) (k : Nat), k = endingSpace (errorLevels m c) →
    exec (.framingDiscard p idle (m, c)) s = .next (s.after (lineCommands p idle (errorLevels m c))) ∧
    (s.Listens p idle → (s.lrx.get p).state = .hunting →
      exec (.framingDiscard p idle (m, c)) s = .next (s.modLrx p (fun x => { x with run := .space k }))) ∧
    (s.Listens p idle → (s.lrx.get p).state = .assembling →
      exec (.framingDiscard p idle (m, c)) s = .next ((s.modLrx p (fun x => { x with
        state := .hunting, buffer := [], run := .space k,
        framingDiscards := min (x.framingDiscards + 1) 65535 })).offer p .frameDiscarded [3])) ∧
    (s.BreakOver p idle → exec (.framingDiscard p idle (m, c)) s = .next (s.modLrx p (fun x => { x with
      state := .hunting, run := .space k, character := [] })))) ∧
  (∀ (s : State) (p : Port) (bits before n : Nat), s.resetLine = .released → 1 ≤ bits →
    ((s.lrx.get p).run = .space before ∨ before = 0 ∧ ∀ k, (s.lrx.get p).run ≠ .space k) → n = before + bits →
    ((s.lrx.get p).state = .brk →
      exec (.lineBreak p bits) s = .next (s.modLrx p (fun x => { x with run := .space n }))) ∧
    ((s.lrx.get p).state ≠ .brk → (s.lrx.get p).character = [] →
      (n < 22 → (s.lrx.get p).run = .space before →
        exec (.lineBreak p bits) s = .next (s.modLrx p (fun x => { x with run := .space n }))) ∧
      (n < 11 → (∀ k, (s.lrx.get p).run ≠ .space k) →
        exec (.lineBreak p bits) s = .next (s.modLrx p (fun x => { x with
          run := .space n, character := List.replicate bits false }))) ∧
      (11 ≤ n → n < 22 → (∀ k, (s.lrx.get p).run ≠ .space k) → (s.lrx.get p).state = .hunting →
        exec (.lineBreak p bits) s = .next (s.modLrx p (fun x => { x with run := .space n }))) ∧
      (11 ≤ n → n < 22 → (∀ k, (s.lrx.get p).run ≠ .space k) → (s.lrx.get p).state = .assembling →
        exec (.lineBreak p bits) s = .next ((s.modLrx p (fun x => { x with
          state := .hunting, buffer := [], run := .space n,
          framingDiscards := min (x.framingDiscards + 1) 65535 })).offer p .frameDiscarded [3])) ∧
      (22 ≤ n → (s.lrx.get p).state = .hunting →
        exec (.lineBreak p bits) s = .next ((s.modLrx p (fun x => { x with
          state := .brk, buffer := [], held := none, run := .space n })).modPu p
          (fun u => { u with breakReports := u.breakReports + 1 }))) ∧
      (22 ≤ n → (s.lrx.get p).state = .assembling →
        exec (.lineBreak p bits) s = .next (((s.modLrx p (fun x => { x with
          state := .brk, buffer := [], held := none, run := .space n,
          framingDiscards := min (x.framingDiscards + 1) 65535 })).offer p .frameDiscarded [3]).modPu p
          (fun u => { u with breakReports := u.breakReports + 1 }))))) ∧
  (∀ (s : State) (p : Port) (bits before : Nat), s.resetLine = .released → 1 ≤ bits →
    ((s.lrx.get p).run = .mark before ∨ before = 0 ∧ ∀ k, (s.lrx.get p).run ≠ .mark k) →
    ((s.lrx.get p).state = .brk → 11 ≤ before + bits →
      exec (.breakEnd p bits) s = .next (s.modLrx p (fun x => { x with
        state := .hunting, run := .none, character := [] }))) ∧
    ((s.lrx.get p).state = .brk → before + bits < 11 →
      exec (.breakEnd p bits) s = .next (s.modLrx p (fun x => { x with run := .mark (before + bits) }))) ∧
    ((s.lrx.get p).state ≠ .brk → (s.lrx.get p).character = [] →
      exec (.breakEnd p bits) s = .next (s.modLrx p (fun x => { x with run := .none }))))

/-- R154 to R156, R158: what the transmitter does: a reply joins the tail and turns its reservation into a frame, or is
discarded in discard mode; an offer is decided by the session, the mask and the room; the frame whose last character
has been sent leaves, and the next begins (a character that outlives its frame: log 12). FRAME_SENT says that it has been
sent, at whatever character and cycle the model's own count stands (log 4); on an IDLE serializer it changes nothing (log
1). -/
def Obligations.TransmitterQueuesAndSends : Prop :=
  (∀ (s : State) (p : Port) (x : Executing) (r : Result) (fields : List Byte), (s.pu.get p).executing = some x →
    ((s.ltx.get p).discard = false → 0 < (s.ltx.get p).reserved →
      s.answer p r fields = (s.modLtx p (fun t => { t with
        queue := t.queue ++ [replyFrame x.kind.code x.tag r fields], reserved := t.reserved - 1,
        serializer := if t.serializer = .idle then .sending 0 0 else t.serializer })).modPu p
        (fun u => { u with executing := none })) ∧
    ((s.ltx.get p).discard = true → s.answer p r fields = s.modPu p (fun u => { u with executing := none })) ∧
    (∀ f, (x.phase = f → s.answerIn p f r fields = s.answer p r fields) ∧
      (x.phase ≠ f → s.answerIn p f r fields = s))) ∧
  (∀ (s : State) (p : Port) (tag : Byte) (r : Result) (fields : List Byte),
    ((s.ltx.get p).discard = false → 0 < (s.ltx.get p).reserved →
      s.answerWaiter p tag r fields = (s.modLtx p (fun t => { t with
        queue := t.queue ++ [replyFrame Kind.lease.code tag r fields], reserved := t.reserved - 1,
        serializer := if t.serializer = .idle then .sending 0 0 else t.serializer })).modPu p
        (fun u => { u with waiting := u.waiting.filter (fun w => w.tag != tag) })) ∧
    ((s.ltx.get p).discard = true → s.answerWaiter p tag r fields =
      s.modPu p (fun u => { u with waiting := u.waiting.filter (fun w => w.tag != tag) }))) ∧
  (∀ (t : Transmitter) (session : Session) (m : NoticeMask) (n : NoticeKind) (fields : List Byte),
    (t.discard = true ∨ session ≠ .up ∨ n.enabled m = false → t.offer session m n fields = t) ∧
    (t.discard = false → session = .up → n.enabled m = true →
      (transmitQueueSize ≤ t.queue.length + t.reserved →
        t.offer session m n fields = { t with dropped := min (t.dropped + 1) 65535 }) ∧
      (t.queue.length + t.reserved < transmitQueueSize →
        t.offer session m n fields = { t with
          queue := t.queue ++ [{ kind := n.code, tag := 0, payload := fields }],
          serializer := if t.serializer = .idle then .sending 0 0 else t.serializer }))) ∧
  (∀ (s : State) (p : Port),
    ((s.ltx.get p).serializer = .idle → exec (.frameSent p) s = .next s) ∧
    (∀ i k, (s.ltx.get p).serializer = .sending i k ∨ (s.ltx.get p).serializer = .cutting i k →
      exec (.frameSent p) s = .next (s.modLtx p (fun t => { t with
        queue := t.queue.tail, serializer := if t.queue.tail = [] then .idle else .sending 0 0 }))) ∧
    (∀ c k, (s.ltx.get p).serializer = .finishing c k →
      exec (.frameSent p) s = .next (s.modLtx p (fun t => { t with
        serializer := if t.queue = [] then .idle else .sending 0 0 }))))

/-! ## The time base -/

/-- R177, R178, R14, R26, R106: a 1 ms boundary lowers every remaining lifetime, the remaining wait of every waiter whose
settling mark is clear, and every remaining block time by 1; a block that takes it alone leaves it to be taken by the
other, which takes it before any later clock cycle and any later boundary (log 5). So a timer that reaches 0 expires
before the next boundary, and none runs on: a boundary marked while something is due or still to be taken is that
boundary after it. No timer runs while reset is held. -/
def Obligations.BoundaryLowersTheTimers : Prop :=
  (∀ (s : State) (b : BoundaryTaker), s.resetLine ≠ .released → exec (.msBoundary b) s = .next s) ∧
  (∀ s : State, s.resetLine = .released → s.Quiet → s.time.leaseDue = false → s.time.engineDue = false →
    exec (.msBoundary .both) s = .next
      (((s.setTime { s.time with divider := 0 }).modLease LeaseUnit.lowerTimers).modEngine JobEngine.lowerTimers) ∧
    exec (.msBoundary .leaseUnit) s = .next
      ((s.setTime { s.time with divider := 0, engineDue := true }).modLease LeaseUnit.lowerTimers) ∧
    exec (.msBoundary .jobEngine) s = .next
      ((s.setTime { s.time with divider := 0, leaseDue := true }).modEngine JobEngine.lowerTimers)) ∧
  (∀ s : State, s.resetLine = .released → s.time.leaseDue = true → exec (.msBoundary .leaseUnit) s = .next
    ((s.expireLeases.setTime { s.time with leaseDue := false }).modLease LeaseUnit.lowerTimers)) ∧
  (∀ s : State, s.resetLine = .released → s.time.engineDue = true → exec (.msBoundary .jobEngine) s = .next
    ((s.expireJobs.setTime { s.time with engineDue := false }).modEngine JobEngine.lowerTimers)) ∧
  (∀ (s : State) (b : BoundaryTaker), s.resetLine = .released → s.catchUp.Quiet → s.catchUp.time.leaseDue = false →
    s.catchUp.time.engineDue = false → (b = .leaseUnit → s.time.leaseDue = false) →
    (b = .jobEngine → s.time.engineDue = false) →
    exec (.msBoundary b) s = exec (.msBoundary b) s.catchUp) ∧
  (∀ s t : State, s.resetLine = .released →
    (s.time.leaseDue = false → s.time.engineDue = false → s.catchUp = s.expireLeases.expireJobs) ∧
    (s.time.leaseDue = true → exec (.msBoundary .leaseUnit) s = .next t → s.catchUp = t.catchUp) ∧
    (s.time.leaseDue = false → s.time.engineDue = true → exec (.msBoundary .jobEngine) s = .next t →
      s.catchUp = t.catchUp)) ∧
  (∀ s : State, s.TimersInRange → s.InFlightOrderly → s.EngineOrderly → s.catchUp.Quiet ∧
    s.catchUp.time.leaseDue = false ∧ s.catchUp.time.engineDue = false ∧
    s.catchUp.time.divider = s.time.divider) ∧
  (∀ u : LeaseUnit, u.lowerTimers = { u with
    leases := u.leases.map (fun l => { l with life := l.life - 1 }),
    queue := u.queue.map (fun w => { w with wait := if w.settling = none then w.wait - 1 else w.wait }) }) ∧
  (∀ e : JobEngine, e.lowerTimers = { e with
    jobs := e.jobs.map (fun j => { j with state := match j.state with
      | .blocked x (some n) => .blocked x (some (n - 1))
      | other => other }) })

/-! ## Invariants -/

/-- R57: the store keeps the canonical form in which the model lists it (log 6). -/
def Obligations.StoreStaysCanonical : Prop := StepKeeps State.StoreCanonical

/-- R153, R159: frames and reservations of a transmit queue never exceed 8, and discard mode is on only in CLOSING. -/
def Obligations.TransmitQueuesNeverOverfill : Prop :=
  StepKeeps (fun s => s.QueuesFit ∧ s.DiscardWhileClosing)

/-- R1, R2, R24, R128, R131, R141: the lease table never holds more than 12 leases and reserved entries, lease ids are distinct and
1 to 255, the wait queue holds at most 8 waiters and 3 of one port, a port has at most 4 held leases and waiters; its
in-flight table has at most 4 entries, the WAITING ones its waiters, all of distinct tags; a port whose session is not UP
has nothing left of what its teardown steps have taken. -/
def Obligations.LeaseTableAndWaitQueueNeverOverfill : Prop :=
  StepKeeps (fun s => s.LeaseTableFits ∧ s.LeaseIdsDistinct ∧ s.WaitQueueFits ∧ s.HoldingsFit ∧ s.InFlightOrderly ∧
    s.TeardownOrderly)

/-- R4: two leases of different ports never cover a common byte unless both are SHARED, and no two of one port do. -/
def Obligations.LeasesNeverConflict : Prop := StepKeeps State.LeasesOrderly

/-- R48, R53: no held lease forbids a byte of a standing claim. -/
def Obligations.NoLeaseForbidsAStandingClaim : Prop := StepKeeps State.ClaimsUnforbidden

/-- R90, R98, R121: the job table, the engine and the end histories stay orderly. -/
def Obligations.JobEngineStaysOrderly : Prop := StepKeeps (fun s => s.EngineOrderly ∧ s.HistoriesFit)

/-- R74: no two open windows of one port share a logical address, and every open window's block lies wholly inside the store
and is aligned to its size; its span lies inside the logical space and its logical base is a multiple of its size. Size
code and repeat code fix block, span and repeat factor as 05 TABLE 2 gives; and WIN-OPEN opens no window that breaks
this. -/
def Obligations.WindowsStayLegal : Prop :=
  StepKeeps State.WindowsLegal ∧
  (∀ w : Window, w.size = blockSize w.sizeCode ∧
    w.span = { start := w.base, length := blockSize w.sizeCode * repeatFactor w.repeatCode }) ∧
  [0, 1, 2, 3].map blockSize = [0x100, 0x1000, 0x4000, 0x10000] ∧ [0, 1, 2, 3].map repeatFactor = [1, 2, 4, 8] ∧
  (∀ (s t : State) (p : Port), exec (.winOpen p) s = .next t → ∀ i w, (t.pu.get p).windowNamed i = some w →
    (s.pu.get p).windowNamed i = some w ∨ w.Legal ∧
      ∀ j v, j ≠ i → (t.pu.get p).windowNamed j = some v → v.span.intersects w.span = false)

/-- R136, R145, R146, R151, R177, R178: receivers stay legal, with at most 10 levels of a character in progress and none in
BREAK (whole bit times: log 11), counters within 16 bits, the divider within its range, with at most one of
the two blocks still to take the last boundary (log 5), and every timer within 60,000. -/
def Obligations.ReceiversCountersAndDividerStayInRange : Prop :=
  StepKeeps (fun s => s.ReceiversLegal ∧ s.CountersFit ∧ s.DividerInRange ∧ s.TimersInRange)

/-- The state right after reset has every invariant above. -/
def Obligations.ResetHasTheInvariants : Prop :=
  State.reset.StoreCanonical ∧ State.reset.QueuesFit ∧ State.reset.DiscardWhileClosing ∧ State.reset.LeaseTableFits ∧
  State.reset.LeaseIdsDistinct ∧ State.reset.WaitQueueFits ∧ State.reset.HoldingsFit ∧ State.reset.InFlightOrderly ∧
  State.reset.TeardownOrderly ∧ State.reset.LeasesOrderly ∧ State.reset.ClaimsUnforbidden ∧ State.reset.EngineOrderly ∧
  State.reset.HistoriesFit ∧ State.reset.WindowsLegal ∧ State.reset.ReceiversLegal ∧ State.reset.CountersFit ∧
  State.reset.DividerInRange ∧ State.reset.TimersInRange
end

