-- ==== Sys2Proof/Laws/Conditions.lean ====
section
/-! SUPPORT. The Bool conditions of Flags.lean as propositions over the state's fields: one lemma for each, by which a
statement is freed of `decide`. -/

namespace Sys2Proof.Machine

theorem Range.covers_iff (r : Range) (a : Nat) : r.covers a = true ↔ r.start ≤ a ∧ a < r.start + r.length :=
  decide_eq_true_iff

theorem Range.intersects_iff (r t : Range) : r.intersects t = true ↔
    max r.start t.start < min (r.start + r.length) (t.start + t.length) := decide_eq_true_iff

theorem Range.intersects_comm (r t : Range) : r.intersects t = t.intersects r := by
  have h : r.intersects t = true ↔ t.intersects r = true := by
    rw [Range.intersects_iff, Range.intersects_iff, Nat.max_comm, Nat.min_comm]
  cases a : r.intersects t <;> cases b : t.intersects r <;> simp_all

theorem conflicting_iff (p q : Port) (k l : LeaseKind) (r t : Range) : conflicting p k r q l t = true ↔
    p ≠ q ∧ r.intersects t = true ∧ (k ≠ .shared ∨ l ≠ .shared) := by
  cases k <;> cases l <;> simp [conflicting, bothShared]

theorem conflicting_comm (p q : Port) (k l : LeaseKind) (r t : Range) :
    conflicting p k r q l t = conflicting q l t p k r := by
  have h : conflicting p k r q l t = true ↔ conflicting q l t p k r = true := by
    rw [conflicting_iff, conflicting_iff, Range.intersects_comm r t]
    exact ⟨fun h => ⟨Ne.symm h.1, h.2.1, h.2.2.symm⟩, fun h => ⟨Ne.symm h.1, h.2.1, h.2.2.symm⟩⟩
  cases a : conflicting p k r q l t <;> cases b : conflicting q l t p k r <;> simp_all

theorem LeaseUnit.full_iff (u : LeaseUnit) : u.full = true ↔ leaseTableSize ≤ u.leases.length + u.reservedEntries :=
  decide_eq_true_iff

theorem Transmitter.hasRoom_iff (t : Transmitter) : t.hasRoom = true ↔
    t.reserved < transmitQueueSize - t.queue.length := decide_eq_true_iff

theorem Window.maps_iff (w : Window) (a n : Nat) : w.maps a n = true ↔
    w.base ≤ a ∧ a + n ≤ w.base + w.span.length := decide_eq_true_iff

theorem Window.contiguous_iff (w : Window) (a n : Nat) : w.contiguous a n = true ↔
    (a - w.base) % w.size + n ≤ w.size := decide_eq_true_iff

theorem mem_allPorts (p : Port) : p ∈ allPorts := by cases p <;> decide

/-- The executing members of the settling set are the ports that have one. -/
theorem LeaseUnit.mem_settlingExecuting (u : LeaseUnit) (p : Port) (t : Settling) :
    (p, t) ∈ u.settlingExecuting ↔ u.settling.get p = some t := by
  simp only [LeaseUnit.settlingExecuting, List.mem_filterMap, Option.map_eq_some_iff]
  constructor
  · rintro ⟨q, -, x, hx, e⟩
    obtain ⟨rfl, rfl⟩ := Prod.mk.inj e
    exact hx
  · intro h
    exact ⟨p, mem_allPorts p, t, h, rfl⟩

/-- The settling waiters are the waiters of the queue that carry the mark. -/
theorem LeaseUnit.mem_settlingWaiters (u : LeaseUnit) (w : Waiter) :
    w ∈ u.settlingWaiters ↔ w ∈ u.queue ∧ w.settling ≠ none := by
  simp [LeaseUnit.settlingWaiters, Option.isSome_iff_ne_none]

/-- Whether the lowest lease of a list is one of them, with the lowest id, or the list is empty. -/
theorem lowestLease_spec (ls : List Lease) :
    (lowestLease ls = none ∧ ls = []) ∨ ∃ l ∈ ls, lowestLease ls = some l ∧ ∀ m ∈ ls, l.id ≤ m.id := by
  induction ls with
  | nil => exact .inl ⟨rfl, rfl⟩
  | cons x xs ih =>
    refine .inr ?_
    rcases ih with ⟨h, e⟩ | ⟨l, hl, h, low⟩
    · subst e
      exact ⟨x, List.mem_cons_self, by simp [lowestLease], by simp⟩
    · by_cases c : x.id ≤ l.id
      · refine ⟨x, List.mem_cons_self, by simp [lowestLease, h, c], fun m hm => ?_⟩
        rcases List.mem_cons.mp hm with rfl | hm
        · exact Nat.le_refl _
        · exact Nat.le_trans c (low m hm)
      · refine ⟨l, List.mem_cons_of_mem _ hl, by simp [lowestLease, h, c], fun m hm => ?_⟩
        rcases List.mem_cons.mp hm with rfl | hm
        · omega
        · exact low m hm

end Sys2Proof.Machine
end

