-- ==== Sys2Proof/Laws/State.lean ====
section
/-! SUPPORT. Replacing one part of the state: what each field is afterwards, and the values of one port or requester. -/

namespace Sys2Proof.Machine

/-! ## One value for each port, one for each requester -/

@[simp] theorem PerPort.get_set_self {α : Type} (v : PerPort α) (p : Port) (a : α) : (v.set p a).get p = a := by
  cases p <;> rfl

theorem PerPort.get_set_ne {α : Type} (v : PerPort α) {p q : Port} (a : α) (h : q ≠ p) :
    (v.set p a).get q = v.get q := by
  cases p <;> cases q <;> first | rfl | exact absurd rfl h

theorem PerPort.get_set {α : Type} (v : PerPort α) (p q : Port) (a : α) :
    (v.set p a).get q = if q = p then a else v.get q := by
  cases p <;> cases q <;> rfl

@[simp] theorem PerPort.set_set {α : Type} (v : PerPort α) (p : Port) (a b : α) : (v.set p a).set p b = v.set p b := by
  cases p <;> rfl

@[simp] theorem PerPort.set_get {α : Type} (v : PerPort α) (p : Port) : v.set p (v.get p) = v := by
  cases p <;> rfl

@[simp] theorem PerPort.get_const {α : Type} (a : α) (p : Port) : (PerPort.const a).get p = a := by
  cases p <;> rfl

@[simp] theorem PerRequester.get_set_self {α : Type} (v : PerRequester α) (r : Requester) (a : α) :
    (v.set r a).get r = a := by
  cases r with
  | port p => exact PerPort.get_set_self _ _ _
  | engine => rfl

theorem PerRequester.get_set_ne {α : Type} (v : PerRequester α) {r q : Requester} (a : α) (h : q ≠ r) :
    (v.set r a).get q = v.get q := by
  cases r with
  | port p =>
    cases q with
    | port x => exact PerPort.get_set_ne _ _ (fun e => h (by rw [e]))
    | engine => rfl
  | engine =>
    cases q with
    | port x => rfl
    | engine => exact absurd rfl h

/-! ## modLrx -/

@[simp] theorem State.modLrx_lrx (s : State) (p : Port) (f : Receiver → Receiver) :
    (s.modLrx p f).lrx = s.lrx.set p (f (s.lrx.get p)) := rfl
@[simp] theorem State.modLrx_ltx (s : State) (p : Port) (f : Receiver → Receiver) : (s.modLrx p f).ltx = s.ltx := rfl
@[simp] theorem State.modLrx_pu (s : State) (p : Port) (f : Receiver → Receiver) : (s.modLrx p f).pu = s.pu := rfl
@[simp] theorem State.modLrx_leaseUnit (s : State) (p : Port) (f : Receiver → Receiver) :
    (s.modLrx p f).leaseUnit = s.leaseUnit := rfl
@[simp] theorem State.modLrx_arbiter (s : State) (p : Port) (f : Receiver → Receiver) :
    (s.modLrx p f).arbiter = s.arbiter := rfl
@[simp] theorem State.modLrx_store (s : State) (p : Port) (f : Receiver → Receiver) :
    (s.modLrx p f).store = s.store := rfl
@[simp] theorem State.modLrx_engine (s : State) (p : Port) (f : Receiver → Receiver) :
    (s.modLrx p f).engine = s.engine := rfl
@[simp] theorem State.modLrx_mail (s : State) (p : Port) (f : Receiver → Receiver) : (s.modLrx p f).mail = s.mail := rfl
@[simp] theorem State.modLrx_time (s : State) (p : Port) (f : Receiver → Receiver) : (s.modLrx p f).time = s.time := rfl
@[simp] theorem State.modLrx_straps (s : State) (p : Port) (f : Receiver → Receiver) :
    (s.modLrx p f).straps = s.straps := rfl
@[simp] theorem State.modLrx_resetLine (s : State) (p : Port) (f : Receiver → Receiver) :
    (s.modLrx p f).resetLine = s.resetLine := rfl
@[simp] theorem State.modLrx_epoch (s : State) (p : Port) (f : Receiver → Receiver) :
    (s.modLrx p f).epoch = s.epoch := rfl
@[simp] theorem State.modLrx_resets (s : State) (p : Port) (f : Receiver → Receiver) :
    (s.modLrx p f).resets = s.resets := rfl
@[simp] theorem State.modLrx_pending (s : State) (p : Port) (f : Receiver → Receiver) :
    (s.modLrx p f).pending = s.pending := rfl

/-! ## modLtx -/

@[simp] theorem State.modLtx_lrx (s : State) (p : Port) (f : Transmitter → Transmitter) :
    (s.modLtx p f).lrx = s.lrx := rfl
@[simp] theorem State.modLtx_ltx (s : State) (p : Port) (f : Transmitter → Transmitter) :
    (s.modLtx p f).ltx = s.ltx.set p (f (s.ltx.get p)) := rfl
@[simp] theorem State.modLtx_pu (s : State) (p : Port) (f : Transmitter → Transmitter) : (s.modLtx p f).pu = s.pu := rfl
@[simp] theorem State.modLtx_leaseUnit (s : State) (p : Port) (f : Transmitter → Transmitter) :
    (s.modLtx p f).leaseUnit = s.leaseUnit := rfl
@[simp] theorem State.modLtx_arbiter (s : State) (p : Port) (f : Transmitter → Transmitter) :
    (s.modLtx p f).arbiter = s.arbiter := rfl
@[simp] theorem State.modLtx_store (s : State) (p : Port) (f : Transmitter → Transmitter) :
    (s.modLtx p f).store = s.store := rfl
@[simp] theorem State.modLtx_engine (s : State) (p : Port) (f : Transmitter → Transmitter) :
    (s.modLtx p f).engine = s.engine := rfl
@[simp] theorem State.modLtx_mail (s : State) (p : Port) (f : Transmitter → Transmitter) :
    (s.modLtx p f).mail = s.mail := rfl
@[simp] theorem State.modLtx_time (s : State) (p : Port) (f : Transmitter → Transmitter) :
    (s.modLtx p f).time = s.time := rfl
@[simp] theorem State.modLtx_straps (s : State) (p : Port) (f : Transmitter → Transmitter) :
    (s.modLtx p f).straps = s.straps := rfl
@[simp] theorem State.modLtx_resetLine (s : State) (p : Port) (f : Transmitter → Transmitter) :
    (s.modLtx p f).resetLine = s.resetLine := rfl
@[simp] theorem State.modLtx_epoch (s : State) (p : Port) (f : Transmitter → Transmitter) :
    (s.modLtx p f).epoch = s.epoch := rfl
@[simp] theorem State.modLtx_resets (s : State) (p : Port) (f : Transmitter → Transmitter) :
    (s.modLtx p f).resets = s.resets := rfl
@[simp] theorem State.modLtx_pending (s : State) (p : Port) (f : Transmitter → Transmitter) :
    (s.modLtx p f).pending = s.pending := rfl

/-! ## modPu -/

@[simp] theorem State.modPu_lrx (s : State) (p : Port) (f : PortUnit → PortUnit) : (s.modPu p f).lrx = s.lrx := rfl
@[simp] theorem State.modPu_ltx (s : State) (p : Port) (f : PortUnit → PortUnit) : (s.modPu p f).ltx = s.ltx := rfl
@[simp] theorem State.modPu_pu (s : State) (p : Port) (f : PortUnit → PortUnit) :
    (s.modPu p f).pu = s.pu.set p (f (s.pu.get p)) := rfl
@[simp] theorem State.modPu_leaseUnit (s : State) (p : Port) (f : PortUnit → PortUnit) :
    (s.modPu p f).leaseUnit = s.leaseUnit := rfl
@[simp] theorem State.modPu_arbiter (s : State) (p : Port) (f : PortUnit → PortUnit) :
    (s.modPu p f).arbiter = s.arbiter := rfl
@[simp] theorem State.modPu_store (s : State) (p : Port) (f : PortUnit → PortUnit) :
    (s.modPu p f).store = s.store := rfl
@[simp] theorem State.modPu_engine (s : State) (p : Port) (f : PortUnit → PortUnit) :
    (s.modPu p f).engine = s.engine := rfl
@[simp] theorem State.modPu_mail (s : State) (p : Port) (f : PortUnit → PortUnit) : (s.modPu p f).mail = s.mail := rfl
@[simp] theorem State.modPu_time (s : State) (p : Port) (f : PortUnit → PortUnit) : (s.modPu p f).time = s.time := rfl
@[simp] theorem State.modPu_straps (s : State) (p : Port) (f : PortUnit → PortUnit) :
    (s.modPu p f).straps = s.straps := rfl
@[simp] theorem State.modPu_resetLine (s : State) (p : Port) (f : PortUnit → PortUnit) :
    (s.modPu p f).resetLine = s.resetLine := rfl
@[simp] theorem State.modPu_epoch (s : State) (p : Port) (f : PortUnit → PortUnit) :
    (s.modPu p f).epoch = s.epoch := rfl
@[simp] theorem State.modPu_resets (s : State) (p : Port) (f : PortUnit → PortUnit) :
    (s.modPu p f).resets = s.resets := rfl
@[simp] theorem State.modPu_pending (s : State) (p : Port) (f : PortUnit → PortUnit) :
    (s.modPu p f).pending = s.pending := rfl

/-! ## modLease -/

@[simp] theorem State.modLease_lrx (s : State) (f : LeaseUnit → LeaseUnit) : (s.modLease f).lrx = s.lrx := rfl
@[simp] theorem State.modLease_ltx (s : State) (f : LeaseUnit → LeaseUnit) : (s.modLease f).ltx = s.ltx := rfl
@[simp] theorem State.modLease_pu (s : State) (f : LeaseUnit → LeaseUnit) : (s.modLease f).pu = s.pu := rfl
@[simp] theorem State.modLease_leaseUnit (s : State) (f : LeaseUnit → LeaseUnit) :
    (s.modLease f).leaseUnit = f s.leaseUnit := rfl
@[simp] theorem State.modLease_arbiter (s : State) (f : LeaseUnit → LeaseUnit) :
    (s.modLease f).arbiter = s.arbiter := rfl
@[simp] theorem State.modLease_store (s : State) (f : LeaseUnit → LeaseUnit) : (s.modLease f).store = s.store := rfl
@[simp] theorem State.modLease_engine (s : State) (f : LeaseUnit → LeaseUnit) : (s.modLease f).engine = s.engine := rfl
@[simp] theorem State.modLease_mail (s : State) (f : LeaseUnit → LeaseUnit) : (s.modLease f).mail = s.mail := rfl
@[simp] theorem State.modLease_time (s : State) (f : LeaseUnit → LeaseUnit) : (s.modLease f).time = s.time := rfl
@[simp] theorem State.modLease_straps (s : State) (f : LeaseUnit → LeaseUnit) : (s.modLease f).straps = s.straps := rfl
@[simp] theorem State.modLease_resetLine (s : State) (f : LeaseUnit → LeaseUnit) :
    (s.modLease f).resetLine = s.resetLine := rfl
@[simp] theorem State.modLease_epoch (s : State) (f : LeaseUnit → LeaseUnit) : (s.modLease f).epoch = s.epoch := rfl
@[simp] theorem State.modLease_resets (s : State) (f : LeaseUnit → LeaseUnit) : (s.modLease f).resets = s.resets := rfl
@[simp] theorem State.modLease_pending (s : State) (f : LeaseUnit → LeaseUnit) :
    (s.modLease f).pending = s.pending := rfl

/-! ## setArbiter -/

@[simp] theorem State.setArbiter_lrx (s : State) (a : Arbiter) : (s.setArbiter a).lrx = s.lrx := rfl
@[simp] theorem State.setArbiter_ltx (s : State) (a : Arbiter) : (s.setArbiter a).ltx = s.ltx := rfl
@[simp] theorem State.setArbiter_pu (s : State) (a : Arbiter) : (s.setArbiter a).pu = s.pu := rfl
@[simp] theorem State.setArbiter_leaseUnit (s : State) (a : Arbiter) : (s.setArbiter a).leaseUnit = s.leaseUnit := rfl
@[simp] theorem State.setArbiter_arbiter (s : State) (a : Arbiter) : (s.setArbiter a).arbiter = a := rfl
@[simp] theorem State.setArbiter_store (s : State) (a : Arbiter) : (s.setArbiter a).store = s.store := rfl
@[simp] theorem State.setArbiter_engine (s : State) (a : Arbiter) : (s.setArbiter a).engine = s.engine := rfl
@[simp] theorem State.setArbiter_mail (s : State) (a : Arbiter) : (s.setArbiter a).mail = s.mail := rfl
@[simp] theorem State.setArbiter_time (s : State) (a : Arbiter) : (s.setArbiter a).time = s.time := rfl
@[simp] theorem State.setArbiter_straps (s : State) (a : Arbiter) : (s.setArbiter a).straps = s.straps := rfl
@[simp] theorem State.setArbiter_resetLine (s : State) (a : Arbiter) : (s.setArbiter a).resetLine = s.resetLine := rfl
@[simp] theorem State.setArbiter_epoch (s : State) (a : Arbiter) : (s.setArbiter a).epoch = s.epoch := rfl
@[simp] theorem State.setArbiter_resets (s : State) (a : Arbiter) : (s.setArbiter a).resets = s.resets := rfl
@[simp] theorem State.setArbiter_pending (s : State) (a : Arbiter) : (s.setArbiter a).pending = s.pending := rfl

/-! ## setStore -/

@[simp] theorem State.setStore_lrx (s : State) (m : List Host.Cell) : (s.setStore m).lrx = s.lrx := rfl
@[simp] theorem State.setStore_ltx (s : State) (m : List Host.Cell) : (s.setStore m).ltx = s.ltx := rfl
@[simp] theorem State.setStore_pu (s : State) (m : List Host.Cell) : (s.setStore m).pu = s.pu := rfl
@[simp] theorem State.setStore_leaseUnit (s : State) (m : List Host.Cell) :
    (s.setStore m).leaseUnit = s.leaseUnit := rfl
@[simp] theorem State.setStore_arbiter (s : State) (m : List Host.Cell) : (s.setStore m).arbiter = s.arbiter := rfl
@[simp] theorem State.setStore_store (s : State) (m : List Host.Cell) : (s.setStore m).store = m := rfl
@[simp] theorem State.setStore_engine (s : State) (m : List Host.Cell) : (s.setStore m).engine = s.engine := rfl
@[simp] theorem State.setStore_mail (s : State) (m : List Host.Cell) : (s.setStore m).mail = s.mail := rfl
@[simp] theorem State.setStore_time (s : State) (m : List Host.Cell) : (s.setStore m).time = s.time := rfl
@[simp] theorem State.setStore_straps (s : State) (m : List Host.Cell) : (s.setStore m).straps = s.straps := rfl
@[simp] theorem State.setStore_resetLine (s : State) (m : List Host.Cell) :
    (s.setStore m).resetLine = s.resetLine := rfl
@[simp] theorem State.setStore_epoch (s : State) (m : List Host.Cell) : (s.setStore m).epoch = s.epoch := rfl
@[simp] theorem State.setStore_resets (s : State) (m : List Host.Cell) : (s.setStore m).resets = s.resets := rfl
@[simp] theorem State.setStore_pending (s : State) (m : List Host.Cell) : (s.setStore m).pending = s.pending := rfl

/-! ## modEngine -/

@[simp] theorem State.modEngine_lrx (s : State) (f : JobEngine → JobEngine) : (s.modEngine f).lrx = s.lrx := rfl
@[simp] theorem State.modEngine_ltx (s : State) (f : JobEngine → JobEngine) : (s.modEngine f).ltx = s.ltx := rfl
@[simp] theorem State.modEngine_pu (s : State) (f : JobEngine → JobEngine) : (s.modEngine f).pu = s.pu := rfl
@[simp] theorem State.modEngine_leaseUnit (s : State) (f : JobEngine → JobEngine) :
    (s.modEngine f).leaseUnit = s.leaseUnit := rfl
@[simp] theorem State.modEngine_arbiter (s : State) (f : JobEngine → JobEngine) :
    (s.modEngine f).arbiter = s.arbiter := rfl
@[simp] theorem State.modEngine_store (s : State) (f : JobEngine → JobEngine) : (s.modEngine f).store = s.store := rfl
@[simp] theorem State.modEngine_engine (s : State) (f : JobEngine → JobEngine) :
    (s.modEngine f).engine = f s.engine := rfl
@[simp] theorem State.modEngine_mail (s : State) (f : JobEngine → JobEngine) : (s.modEngine f).mail = s.mail := rfl
@[simp] theorem State.modEngine_time (s : State) (f : JobEngine → JobEngine) : (s.modEngine f).time = s.time := rfl
@[simp] theorem State.modEngine_straps (s : State) (f : JobEngine → JobEngine) :
    (s.modEngine f).straps = s.straps := rfl
@[simp] theorem State.modEngine_resetLine (s : State) (f : JobEngine → JobEngine) :
    (s.modEngine f).resetLine = s.resetLine := rfl
@[simp] theorem State.modEngine_epoch (s : State) (f : JobEngine → JobEngine) : (s.modEngine f).epoch = s.epoch := rfl
@[simp] theorem State.modEngine_resets (s : State) (f : JobEngine → JobEngine) :
    (s.modEngine f).resets = s.resets := rfl
@[simp] theorem State.modEngine_pending (s : State) (f : JobEngine → JobEngine) :
    (s.modEngine f).pending = s.pending := rfl

/-! ## modMail -/

@[simp] theorem State.modMail_lrx (s : State) (r : Requester) (f : Mail → Mail) : (s.modMail r f).lrx = s.lrx := rfl
@[simp] theorem State.modMail_ltx (s : State) (r : Requester) (f : Mail → Mail) : (s.modMail r f).ltx = s.ltx := rfl
@[simp] theorem State.modMail_pu (s : State) (r : Requester) (f : Mail → Mail) : (s.modMail r f).pu = s.pu := rfl
@[simp] theorem State.modMail_leaseUnit (s : State) (r : Requester) (f : Mail → Mail) :
    (s.modMail r f).leaseUnit = s.leaseUnit := rfl
@[simp] theorem State.modMail_arbiter (s : State) (r : Requester) (f : Mail → Mail) :
    (s.modMail r f).arbiter = s.arbiter := rfl
@[simp] theorem State.modMail_store (s : State) (r : Requester) (f : Mail → Mail) :
    (s.modMail r f).store = s.store := rfl
@[simp] theorem State.modMail_engine (s : State) (r : Requester) (f : Mail → Mail) :
    (s.modMail r f).engine = s.engine := rfl
@[simp] theorem State.modMail_mail (s : State) (r : Requester) (f : Mail → Mail) :
    (s.modMail r f).mail = s.mail.set r (f (s.mail.get r)) := rfl
@[simp] theorem State.modMail_time (s : State) (r : Requester) (f : Mail → Mail) : (s.modMail r f).time = s.time := rfl
@[simp] theorem State.modMail_straps (s : State) (r : Requester) (f : Mail → Mail) :
    (s.modMail r f).straps = s.straps := rfl
@[simp] theorem State.modMail_resetLine (s : State) (r : Requester) (f : Mail → Mail) :
    (s.modMail r f).resetLine = s.resetLine := rfl
@[simp] theorem State.modMail_epoch (s : State) (r : Requester) (f : Mail → Mail) :
    (s.modMail r f).epoch = s.epoch := rfl
@[simp] theorem State.modMail_resets (s : State) (r : Requester) (f : Mail → Mail) :
    (s.modMail r f).resets = s.resets := rfl
@[simp] theorem State.modMail_pending (s : State) (r : Requester) (f : Mail → Mail) :
    (s.modMail r f).pending = s.pending := rfl

/-! ## setTime -/

@[simp] theorem State.setTime_lrx (s : State) (t : TimeBase) : (s.setTime t).lrx = s.lrx := rfl
@[simp] theorem State.setTime_ltx (s : State) (t : TimeBase) : (s.setTime t).ltx = s.ltx := rfl
@[simp] theorem State.setTime_pu (s : State) (t : TimeBase) : (s.setTime t).pu = s.pu := rfl
@[simp] theorem State.setTime_leaseUnit (s : State) (t : TimeBase) : (s.setTime t).leaseUnit = s.leaseUnit := rfl
@[simp] theorem State.setTime_arbiter (s : State) (t : TimeBase) : (s.setTime t).arbiter = s.arbiter := rfl
@[simp] theorem State.setTime_store (s : State) (t : TimeBase) : (s.setTime t).store = s.store := rfl
@[simp] theorem State.setTime_engine (s : State) (t : TimeBase) : (s.setTime t).engine = s.engine := rfl
@[simp] theorem State.setTime_mail (s : State) (t : TimeBase) : (s.setTime t).mail = s.mail := rfl
@[simp] theorem State.setTime_time (s : State) (t : TimeBase) : (s.setTime t).time = t := rfl
@[simp] theorem State.setTime_straps (s : State) (t : TimeBase) : (s.setTime t).straps = s.straps := rfl
@[simp] theorem State.setTime_resetLine (s : State) (t : TimeBase) : (s.setTime t).resetLine = s.resetLine := rfl
@[simp] theorem State.setTime_epoch (s : State) (t : TimeBase) : (s.setTime t).epoch = s.epoch := rfl
@[simp] theorem State.setTime_resets (s : State) (t : TimeBase) : (s.setTime t).resets = s.resets := rfl
@[simp] theorem State.setTime_pending (s : State) (t : TimeBase) : (s.setTime t).pending = s.pending := rfl

/-! ## Replacing twice -/

@[simp] theorem State.modLrx_modLrx (s : State) (p : Port) (f g : Receiver → Receiver) :
    (s.modLrx p f).modLrx p g = s.modLrx p (fun x => g (f x)) := by simp [State.modLrx]

@[simp] theorem State.modLtx_modLtx (s : State) (p : Port) (f g : Transmitter → Transmitter) :
    (s.modLtx p f).modLtx p g = s.modLtx p (fun x => g (f x)) := by simp [State.modLtx]

@[simp] theorem State.modPu_modPu (s : State) (p : Port) (f g : PortUnit → PortUnit) :
    (s.modPu p f).modPu p g = s.modPu p (fun x => g (f x)) := by simp [State.modPu]

@[simp] theorem State.modLease_modLease (s : State) (f g : LeaseUnit → LeaseUnit) :
    (s.modLease f).modLease g = s.modLease (fun x => g (f x)) := rfl

@[simp] theorem State.modEngine_modEngine (s : State) (f g : JobEngine → JobEngine) :
    (s.modEngine f).modEngine g = s.modEngine (fun x => g (f x)) := rfl

/-- A property kept by `f` on every element is kept over a list of them. -/
theorem State.each_induct {α : Type} (P : State → Prop) (f : State → α → State) (xs : List α)
    (h : ∀ s x, x ∈ xs → P s → P (f s x)) : ∀ s, P s → P (s.each xs f) := by
  induction xs with
  | nil => intro s hs; exact hs
  | cons x xs ih =>
    intro s hs
    exact ih (fun t y hy => h t y (List.mem_cons_of_mem _ hy)) _ (h s x List.mem_cons_self hs)

end Sys2Proof.Machine
end

