-- ==== Sys2Proof/Laws/Frames.lean ====
section
/-! SUPPORT. What the shared operations of replies, notices, admission, leases and jobs leave as it is: they change transmit
queues, in-flight tables, store operations, mail, the lease unit and the job engine, and nothing else. One lemma for
each operation. -/

namespace Sys2Proof.Machine

/-- The port unit but for its in-flight table and its store operation. -/
structure PortUnit.SessionKept (u v : PortUnit) : Prop where
  session : v.session = u.session
  cause : v.cause = u.cause
  mask : v.mask = u.mask
  label : v.label = u.label
  windows : v.windows = u.windows
  gather : v.gather = u.gather
  stepsDue : v.stepsDue = u.stepsDue
  breakReports : v.breakReports = u.breakReports
  dropOrders : v.dropOrders = u.dropOrders
  downReports : v.downReports = u.downReports

/-- The state but for transmitters, in-flight tables, store operations, mail, lease unit and job engine. -/
structure State.CoreKept (s t : State) : Prop where
  lrx : t.lrx = s.lrx
  unit : ∀ q, (s.pu.get q).SessionKept (t.pu.get q)
  arbiter : t.arbiter = s.arbiter
  store : t.store = s.store
  time : t.time = s.time
  straps : t.straps = s.straps
  resetLine : t.resetLine = s.resetLine
  epoch : t.epoch = s.epoch
  resets : t.resets = s.resets
  pending : t.pending = s.pending

theorem PortUnit.SessionKept.refl (u : PortUnit) : u.SessionKept u := ⟨rfl, rfl, rfl, rfl, rfl, rfl, rfl, rfl, rfl, rfl⟩

theorem PortUnit.SessionKept.trans {u v w : PortUnit} (h : u.SessionKept v) (k : v.SessionKept w) : u.SessionKept w :=
  ⟨k.1.trans h.1, k.2.trans h.2, k.3.trans h.3, k.4.trans h.4, k.5.trans h.5, k.6.trans h.6, k.7.trans h.7,
    k.8.trans h.8, k.9.trans h.9, k.10.trans h.10⟩

theorem State.CoreKept.refl (s : State) : s.CoreKept s :=
  ⟨rfl, fun _ => .refl _, rfl, rfl, rfl, rfl, rfl, rfl, rfl, rfl⟩

theorem State.CoreKept.trans {s t u : State} (h : s.CoreKept t) (k : t.CoreKept u) : s.CoreKept u :=
  ⟨k.1.trans h.1, fun q => (h.2 q).trans (k.2 q), k.3.trans h.3, k.4.trans h.4, k.5.trans h.5, k.6.trans h.6,
    k.7.trans h.7, k.8.trans h.8, k.9.trans h.9, k.10.trans h.10⟩

/-! ## One part replaced -/

theorem State.CoreKept.modLtx {s t : State} (h : s.CoreKept t) (p : Port) (f : Transmitter → Transmitter) :
    s.CoreKept (t.modLtx p f) := ⟨h.1, h.2, h.3, h.4, h.5, h.6, h.7, h.8, h.9, h.10⟩

theorem State.CoreKept.modLease {s t : State} (h : s.CoreKept t) (f : LeaseUnit → LeaseUnit) :
    s.CoreKept (t.modLease f) := ⟨h.1, h.2, h.3, h.4, h.5, h.6, h.7, h.8, h.9, h.10⟩

theorem State.CoreKept.modEngine {s t : State} (h : s.CoreKept t) (f : JobEngine → JobEngine) :
    s.CoreKept (t.modEngine f) := ⟨h.1, h.2, h.3, h.4, h.5, h.6, h.7, h.8, h.9, h.10⟩

theorem State.CoreKept.modMail {s t : State} (h : s.CoreKept t) (r : Requester) (f : Mail → Mail) :
    s.CoreKept (t.modMail r f) := ⟨h.1, h.2, h.3, h.4, h.5, h.6, h.7, h.8, h.9, h.10⟩

theorem State.CoreKept.modPu {s t : State} (h : s.CoreKept t) (p : Port) (f : PortUnit → PortUnit)
    (hf : ∀ u : PortUnit, u.SessionKept (f u)) : s.CoreKept (t.modPu p f) := by
  refine ⟨h.1, fun q => ?_, h.3, h.4, h.5, h.6, h.7, h.8, h.9, h.10⟩
  by_cases e : q = p
  · subst e
    rw [State.modPu_pu, PerPort.get_set_self]
    exact (h.2 q).trans (hf _)
  · rw [State.modPu_pu, PerPort.get_set_ne _ _ e]
    exact h.2 q

/-! ## Replies and notices -/

theorem State.CoreKept.answer {s t : State} (h : s.CoreKept t) (p : Port) (r : Result) (fs : List Byte) :
    s.CoreKept (t.answer p r fs) := by
  unfold State.answer
  split
  · exact h
  · exact (h.modLtx p _).modPu p _ (fun _ =>
    ⟨rfl, rfl, rfl, rfl, rfl, rfl, rfl, rfl, rfl, rfl⟩)

theorem State.CoreKept.answerIn {s t : State} (h : s.CoreKept t) (p : Port) (f : Phase) (r : Result) (fs : List Byte) :
    s.CoreKept (t.answerIn p f r fs) := by
  unfold State.answerIn
  split
  · exact h.answer p r fs
  · exact h

theorem State.CoreKept.offer {s t : State} (h : s.CoreKept t) (p : Port) (n : NoticeKind) (fs : List Byte) :
    s.CoreKept (t.offer p n fs) := h.modLtx p _

theorem State.CoreKept.answerWaiter {s t : State} (h : s.CoreKept t) (p : Port) (tag : Byte) (r : Result)
    (fs : List Byte) : s.CoreKept (t.answerWaiter p tag r fs) := (h.modLtx p _).modPu p _ (fun _ =>
    ⟨rfl, rfl, rfl, rfl, rfl, rfl, rfl, rfl, rfl, rfl⟩)

theorem State.CoreKept.answerDirect {s t : State} (h : s.CoreKept t) (p : Port) (k tag : Byte) (r : Result)
    (fs : List Byte) : s.CoreKept (t.answerDirect p k tag r fs) := h.modLtx p _

theorem State.CoreKept.dropExecuting {s t : State} (h : s.CoreKept t) (p : Port) : s.CoreKept (t.dropExecuting p) :=
  (h.modLtx p _).modPu p _ (fun _ =>
    ⟨rfl, rfl, rfl, rfl, rfl, rfl, rfl, rfl, rfl, rfl⟩)

theorem State.CoreKept.dropWaiting {s t : State} (h : s.CoreKept t) (p : Port) (tag : Byte) :
    s.CoreKept (t.dropWaiting p tag) := (h.modLtx p _).modPu p _ (fun _ =>
    ⟨rfl, rfl, rfl, rfl, rfl, rfl, rfl, rfl, rfl, rfl⟩)

theorem State.CoreKept.setPhase {s t : State} (h : s.CoreKept t) (p : Port) (f : Phase) :
    s.CoreKept (t.setPhase p f) := h.modPu p _ (fun _ =>
    ⟨rfl, rfl, rfl, rfl, rfl, rfl, rfl, rfl, rfl, rfl⟩)

theorem State.CoreKept.each {α : Type} {s t : State} (h : s.CoreKept t) (xs : List α) (f : State → α → State)
    (hf : ∀ u x, s.CoreKept u → s.CoreKept (f u x)) : s.CoreKept (t.each xs f) :=
  State.each_induct (fun u => s.CoreKept u) f xs (fun u x _ hu => hf u x hu) t h

/-! ## What a requester sends and receives -/

theorem State.CoreKept.askAdmission {s t : State} (h : s.CoreKept t) (a : Access) : s.CoreKept (t.askAdmission a) :=
  h.modMail _ _

theorem State.CoreKept.askTurn {s t : State} (h : s.CoreKept t) (r : Requester) (x : Turn) :
    s.CoreKept (t.askTurn r x) := h.modMail _ _

theorem State.CoreKept.reportClaimEnd {s t : State} (h : s.CoreKept t) (r : Requester) :
    s.CoreKept (t.reportClaimEnd r) := h.modMail _ _

theorem State.CoreKept.withdrawAdmission {s t : State} (h : s.CoreKept t) (r : Requester) :
    s.CoreKept (t.withdrawAdmission r) := by
  unfold State.withdrawAdmission
  split
  · exact h.modMail _ _
  · cases r with
    | port p => exact h.modMail _ _
    | engine => exact (h.modMail _ _).modEngine _

theorem State.CoreKept.setOperation {s t : State} (h : s.CoreKept t) (p : Port) (o : Option PortOperation) :
    s.CoreKept (t.modPu p (fun u => { u with operation := o })) :=
  h.modPu p _ (fun _ => ⟨rfl, rfl, rfl, rfl, rfl, rfl, rfl, rfl, rfl, rfl⟩)

theorem State.CoreKept.clearOperation {s t : State} (h : s.CoreKept t) (p : Port) : s.CoreKept (t.clearOperation p) :=
  h.modPu p _ (fun _ =>
    ⟨rfl, rfl, rfl, rfl, rfl, rfl, rfl, rfl, rfl, rfl⟩)

theorem State.CoreKept.portDecision {s t : State} (h : s.CoreKept t) (p : Port) (d : Decision) :
    s.CoreKept (t.portDecision p d) := by
  unfold State.portDecision
  split
  · exact h
  · split
    · exact (h.answerIn ..).clearOperation p
    · exact (h.setOperation p _).askTurn _ _

theorem State.CoreKept.portTurnEnd {s t : State} (h : s.CoreKept t) (p : Port) (bytes : List Byte) :
    s.CoreKept (t.portTurnEnd p bytes) := by
  unfold State.portTurnEnd
  split
  · exact h
  · split
    · exact (h.clearOperation p).reportClaimEnd _
    · split
      · exact ((h.answerIn ..).clearOperation p).reportClaimEnd _
      · exact (h.setOperation p _).askTurn _ _

/-! ## The job engine -/

theorem State.CoreKept.askChunk {s t : State} (h : s.CoreKept t) (j : Job) : s.CoreKept (t.askChunk j) :=
  (h.modEngine _).askAdmission _

theorem State.CoreKept.selectJob {s t : State} (h : s.CoreKept t) : s.CoreKept t.selectJob := by
  unfold State.selectJob
  split
  · exact h
  · split
    · exact h
    · exact (h.modEngine _).askChunk _

theorem State.CoreKept.blockJob {s t : State} (h : s.CoreKept t) (j : Job) (id : Nat) (q : Port) :
    s.CoreKept (t.blockJob j id q) := by
  unfold State.blockJob
  exact ((h.modEngine _).offer _ _ _).selectJob

theorem State.CoreKept.engineDecision {s t : State} (h : s.CoreKept t) (d : Decision) :
    s.CoreKept (t.engineDecision d) := by
  unfold State.engineDecision
  split
  · exact h
  · split
    · exact h
    · split
      · exact h.blockJob _ _ _
      · exact (h.modEngine _).askTurn _ _

theorem State.CoreKept.takeEngineDecision {s t : State} (h : s.CoreKept t) : s.CoreKept t.takeEngineDecision := by
  unfold State.takeEngineDecision
  split
  · exact (h.modEngine _).engineDecision _
  · exact h

theorem State.CoreKept.answerEnded {s t : State} (h : s.CoreKept t) (j : Job) : s.CoreKept (t.answerEnded j) := by
  refine h.each _ _ (fun u w hu => ?_)
  split
  · exact hu.answerIn ..
  · exact hu.answerIn ..

theorem State.CoreKept.answerPaused {s t : State} (h : s.CoreKept t) (j : Job) : s.CoreKept (t.answerPaused j) :=
  h.each _ _ (fun _ _ hu => hu.answerIn ..)

theorem State.CoreKept.endJob {s t : State} (h : s.CoreKept t) (j : Job) (o : EndOutcome) (r : EndReason)
    (replies : State → State) (hr : ∀ u, s.CoreKept u → s.CoreKept (replies u)) :
    s.CoreKept (t.endJob j o r replies) := (hr _ (h.modEngine _)).offer _ _ _

theorem State.CoreKept.endJobTorn {s t : State} (h : s.CoreKept t) (j : Job) (replies : State → State)
    (hr : ∀ u, s.CoreKept u → s.CoreKept (replies u)) : s.CoreKept (t.endJobTorn j replies) := hr _ (h.modEngine _)

theorem State.CoreKept.endCancelled {s t : State} (h : s.CoreKept t) (j : Job) (c : CancelReason)
    (replies : State → State) (hr : ∀ u, s.CoreKept u → s.CoreKept (replies u)) :
    s.CoreKept (t.endCancelled j c replies) := by
  unfold State.endCancelled
  split
  · exact h.endJob _ _ _ _ hr
  · exact h.endJob _ _ _ _ hr
  · exact h.endJobTorn _ _ hr

theorem State.CoreKept.resolveChunk {s t : State} (h : s.CoreKept t) (j : Job) : s.CoreKept (t.resolveChunk j) := by
  unfold State.resolveChunk
  split
  · exact (h.endCancelled _ _ _ (fun _ hu => hu.answerEnded j)).selectJob
  · split
    · exact (h.endJob _ _ _ _ (fun _ hu => hu.answerEnded j)).selectJob
    · exact ((h.modEngine _).answerPaused j).selectJob
  · split
    · exact (h.endJob _ _ _ _ (fun _ hu => hu.answerEnded j)).selectJob
    · exact h.askChunk j

theorem State.CoreKept.chunkEnd {s t : State} (h : s.CoreKept t) (bytes : List Byte) : s.CoreKept (t.chunkEnd bytes) := by
  unfold State.chunkEnd
  split
  · exact h
  · split
    · exact h
    · exact ((h.reportClaimEnd _).modEngine _).resolveChunk _

theorem State.CoreKept.deferStop {s t : State} (h : s.CoreKept t) (p : Port) (j : Job) (k : StopKind) :
    s.CoreKept (t.deferStop p j k) := by
  unfold State.deferStop
  split
  · exact h
  · exact (h.modEngine _).setPhase p _

theorem State.CoreKept.cancelJob {s t : State} (h : s.CoreKept t) (p : Port) (j : Job) (c : CancelReason) :
    s.CoreKept (t.cancelJob p j c) := by
  unfold State.cancelJob
  dsimp only
  split
  · split
    · exact h.deferStop p j _
    · exact ((h.withdrawAdmission _).endCancelled _ _ _ (fun _ hu => hu.answer ..)).selectJob
  · exact h.endCancelled _ _ _ (fun _ hu => hu.answer ..)

theorem State.CoreKept.submit {s t : State} (h : s.CoreKept t) (p : Port) (w : Submission) (length limit : Nat) :
    s.CoreKept (t.submit p w length limit) := by
  unfold State.submit
  split
  · exact h.answer ..
  · exact ((h.modEngine _).answer ..).selectJob

theorem State.CoreKept.decidePause {s t : State} (h : s.CoreKept t) (p : Port) (id : Nat) :
    s.CoreKept (t.decidePause p id) := by
  unfold State.decidePause
  split
  · exact h.answer ..
  · split
    · exact (h.modEngine _).answer ..
    · exact (h.modEngine _).answer ..
    · split
      · exact h.deferStop ..
      · exact (((h.withdrawAdmission _).modEngine _).answer ..).selectJob
    · exact h.answer ..

theorem State.CoreKept.decideResume {s t : State} (h : s.CoreKept t) (p : Port) (id : Nat) :
    s.CoreKept (t.decideResume p id) := by
  unfold State.decideResume
  split
  · exact h.answer ..
  · split
    · exact ((h.modEngine _).answer ..).selectJob
    all_goals exact h.answer ..

theorem State.CoreKept.decideCancel {s t : State} (h : s.CoreKept t) (p : Port) (id : Nat) :
    s.CoreKept (t.decideCancel p id) := by
  unfold State.decideCancel
  split
  · exact h.answer ..
  · exact h.cancelJob ..

theorem State.CoreKept.decideQuery {s t : State} (h : s.CoreKept t) (p : Port) (id : Nat) :
    s.CoreKept (t.decideQuery p id) := by
  unfold State.decideQuery
  split
  · exact h.answer ..
  · split
    · exact h.answer ..
    · exact h.answer ..

/-! ## Admission and leases -/

theorem State.CoreKept.deliver {s t : State} (h : s.CoreKept t) (late : Bool) (r : Requester) (d : Decision) :
    s.CoreKept (t.deliver late r d) := by
  unfold State.deliver
  split
  · exact h
  · cases r with
    | port p =>
      dsimp only
      split
      · exact h.modMail _ _
      · exact h.portDecision p d
    | engine =>
      dsimp only
      split
      · exact h.modEngine _
      · exact (h.modEngine _).takeEngineDecision

theorem State.CoreKept.concludeAdmission {s t : State} (h : s.CoreKept t) (late : Bool) (a : Access) (d : Decision) :
    s.CoreKept (t.concludeAdmission late a d) := by
  unfold State.concludeAdmission
  split
  · exact h.deliver ..
  · exact (h.modLease _).deliver ..

theorem State.CoreKept.decideAdmission {s t : State} (h : s.CoreKept t) (late : Bool) (a : Access) :
    s.CoreKept (t.decideAdmission late a) := by
  unfold State.decideAdmission
  split
  · exact h.modLease _
  · exact h.concludeAdmission ..

theorem State.CoreKept.retryOne {s t : State} (h : s.CoreKept t) (late : Bool) (a : Access) :
    s.CoreKept (State.retryOne late t a) := by
  unfold State.retryOne
  split
  · exact h
  · exact (h.modLease _).concludeAdmission ..

theorem State.CoreKept.retry {s t : State} (h : s.CoreKept t) (late : Bool) (r : Range) :
    s.CoreKept (t.retry late r) := h.each _ _ (fun _ a hu => hu.retryOne late a)

theorem State.CoreKept.grantExecuting {s t : State} (h : s.CoreKept t) (p : Port) (x : LeaseRequest) :
    s.CoreKept (t.grantExecuting p x) := (h.modLease _).answer ..

theorem State.CoreKept.grantSettling {s t : State} (h : s.CoreKept t) (late : Bool) (p : Port) :
    s.CoreKept (State.grantSettling late t p) := by
  unfold State.grantSettling
  split
  · exact h
  · exact ((h.modLease _).answerIn ..).retry ..

theorem State.CoreKept.grantWaiter {s t : State} (h : s.CoreKept t) (late : Bool) (w : Waiter) :
    s.CoreKept (t.grantWaiter late w) := by
  unfold State.grantWaiter
  dsimp only
  split
  · exact (h.modLease _).answerWaiter ..
  · exact ((h.modLease _).answerWaiter ..).retry ..

theorem State.CoreKept.scanFrom {s t : State} (late : Bool) (rest older : List Waiter) (h : s.CoreKept t) :
    s.CoreKept (State.scanFrom late rest older t) := by
  induction rest generalizing older t with
  | nil => exact h
  | cons w rest ih =>
    unfold State.scanFrom
    split
    · exact ih _ h
    · exact ih _ (h.modLease _)
    · exact ih _ ((h.modLease _).grantWaiter late w)

theorem State.CoreKept.scan {s t : State} (h : s.CoreKept t) (late : Bool) : s.CoreKept (t.scan late) :=
  State.CoreKept.scanFrom late _ _ h

theorem State.CoreKept.endClaim {s t : State} (h : s.CoreKept t) (late : Bool) (r : Requester) :
    s.CoreKept (t.endClaim late r) :=
  ((h.modLease _).each _ _ (fun _ p hu => hu.grantSettling late p)).scan late

theorem State.CoreKept.reportRemoval {s t : State} (h : s.CoreKept t) (id : Nat) : s.CoreKept (t.reportRemoval id) :=
  h.modEngine _

theorem State.CoreKept.afterRemoval {s t : State} (h : s.CoreKept t) (id : Nat) : s.CoreKept (t.afterRemoval id) :=
  (h.scan false).reportRemoval id

theorem State.CoreKept.joinQueue {s t : State} (h : s.CoreKept t) (p : Port) (x : LeaseRequest) :
    s.CoreKept (t.joinQueue p x) := by
  unfold State.joinQueue
  split
  · exact h.answer ..
  · split
    · exact h
    · exact (h.modLease _).modPu p _ (fun _ =>
    ⟨rfl, rfl, rfl, rfl, rfl, rfl, rfl, rfl, rfl, rfl⟩)

theorem State.CoreKept.enterSettling {s t : State} (h : s.CoreKept t) (p : Port) (x : LeaseRequest)
    (cs : List Requester) : s.CoreKept (t.enterSettling p x cs) := (h.modLease _).setPhase p _

theorem State.CoreKept.decideLease {s t : State} (h : s.CoreKept t) (p : Port) (x : LeaseRequest) :
    s.CoreKept (t.decideLease p x) := by
  unfold State.decideLease
  split
  · exact h.answer ..
  · split
    · exact h.answer ..
    · split
      · split
        · exact h.answer ..
        · exact h.joinQueue p x
      · split
        · split
          · exact h.answer ..
          · exact h.joinQueue p x
        · split
          · exact h.grantExecuting p x
          · exact h.enterSettling p x _

theorem State.CoreKept.handOver {s t : State} (h : s.CoreKept t) (p : Port) (late : Bool) (x : Handed)
    (decide : State → State) (hd : ∀ u, s.CoreKept u → s.CoreKept (decide u)) :
    s.CoreKept (t.handOver p late x decide) := by
  unfold State.handOver
  split
  · exact h.setPhase p _
  · exact hd _ (h.setPhase p _)

end Sys2Proof.Machine
end

