-- ==== Sys2Proof/Laws/Expiries.lean ====
section
/-! SUPPORT. Expiries: where none is due, taking those that are due changes nothing; whatever is due, it leaves the core of
the state and every request handed over as it is. The lemmas on a block's events cite these instead of unfolding the
expiries. -/

namespace Sys2Proof.Machine

/-! ## Nothing due -/

theorem LeaseUnit.due_eq_false (u : LeaseUnit) : u.due = false ↔
    (∀ l ∈ u.leases, l.life ≠ 0) ∧ ∀ w ∈ u.queue, w.wait = 0 → w.settling ≠ none := by
  simp [LeaseUnit.due, Lease.lapsed, Waiter.timedOut]

theorem JobEngine.due_eq_false (e : JobEngine) : e.due = false ↔ ∀ j ∈ e.jobs, j.limitReached = false := by
  simp [JobEngine.due]

theorem Job.limitReached_iff (j : Job) : j.limitReached = true ↔ ∃ x, j.state = .blocked x (some 0) := by
  unfold Job.limitReached
  split
  · rename_i x h
    exact ⟨fun _ => ⟨x, h⟩, fun _ => rfl⟩
  · rename_i h
    exact ⟨fun e => absurd e (by simp), fun ⟨x, e⟩ => absurd e (h x)⟩

theorem State.takeLapses_quiet {s : State} (h : s.leaseUnit.due = false) : s.takeLapses = s := by
  have e : s.leaseUnit.leases.filter Lease.lapsed = [] := by
    simp only [LeaseUnit.due, Bool.or_eq_false_iff, List.any_eq_false] at h
    exact List.filter_eq_nil_iff.mpr h.1
  simp [State.takeLapses, e, State.each]

theorem State.takeWaitExpiries_quiet {s : State} (h : s.leaseUnit.due = false) : s.takeWaitExpiries = s := by
  have e : s.leaseUnit.queue.filter Waiter.timedOut = [] := by
    simp only [LeaseUnit.due, Bool.or_eq_false_iff, List.any_eq_false] at h
    exact List.filter_eq_nil_iff.mpr h.2
  simp [State.takeWaitExpiries, e, State.each]

/-- Where no expiry is due at the lease unit, none is taken. -/
theorem State.expireLeases_quiet {s : State} (h : s.leaseUnit.due = false) : s.expireLeases = s := by
  rw [State.expireLeases, State.takeLapses_quiet h, State.takeWaitExpiries_quiet h]

/-- Where no expiry is due at the job engine, none is taken. -/
theorem State.expireJobs_quiet {s : State} (h : s.engine.due = false) : s.expireJobs = s := by
  have e : s.engine.jobs.filter Job.limitReached = [] := by
    simp only [JobEngine.due, List.any_eq_false] at h
    exact List.filter_eq_nil_iff.mpr h
  simp [State.expireJobs, e, State.each]

theorem State.atLeaseUnit_quiet {s : State} (h : s.leaseUnit.due = false) (f : State → State) :
    s.atLeaseUnit f = f s := by
  rw [State.atLeaseUnit, State.expireLeases_quiet h]

theorem State.atEngine_quiet {s : State} (h : s.engine.due = false) (f : State → State) : s.atEngine f = f s := by
  rw [State.atEngine, State.expireJobs_quiet h]

/-- Where nothing is due, a reading changes nothing. -/
theorem State.settle_quiet {s : State} (h : s.leaseUnit.due = false) (k : s.engine.due = false) (b : Owner) :
    s.settle b = s := by
  cases b
  · rfl
  · exact State.expireLeases_quiet h
  · exact State.expireJobs_quiet k

/-- Where nothing is due, readings change nothing, and their values join the bytes in order. -/
theorem State.takeReadings_quiet {s : State} (h : s.leaseUnit.due = false) (k : s.engine.due = false)
    (rs : List Reading) (fields : List Byte) :
    State.takeReadings rs s fields = (s, fields ++ rs.flatMap (fun r => r.value s)) := by
  induction rs generalizing fields with
  | nil => simp [State.takeReadings]
  | cons r rest ih =>
    simp only [State.takeReadings, State.settle_quiet h k]
    rw [ih]
    simp

/-! ## What every expiry leaves as it is -/

theorem State.CoreKept.takeLapse {s t : State} (h : s.CoreKept t) (id : Nat) : s.CoreKept (t.takeLapse id) := by
  unfold State.takeLapse
  split
  · exact h
  · exact ((h.modLease _).offer _ _ _).afterRemoval _

theorem State.CoreKept.takeWaitExpiry {s t : State} (h : s.CoreKept t) (p : Port) (tag : Byte) :
    s.CoreKept (t.takeWaitExpiry p tag) := by
  unfold State.takeWaitExpiry
  split
  · exact h
  · split
    · exact ((h.modLease _).answerWaiter ..).scan _
    · exact h

theorem State.CoreKept.expireLeases {s t : State} (h : s.CoreKept t) : s.CoreKept t.expireLeases :=
  (h.each _ _ (fun _ _ hu => hu.takeLapse _)).each _ _ (fun _ _ hu => hu.takeWaitExpiry ..)

theorem State.CoreKept.takeBlockLimit {s t : State} (h : s.CoreKept t) (id : Nat) :
    s.CoreKept (t.takeBlockLimit id) := by
  unfold State.takeBlockLimit
  split
  · exact h
  · split
    · exact h.endJob _ _ _ _ (fun _ hu => hu)
    · exact h

theorem State.CoreKept.expireJobs {s t : State} (h : s.CoreKept t) : s.CoreKept t.expireJobs :=
  h.each _ _ (fun _ _ hu => hu.takeBlockLimit _)

theorem State.CoreKept.atLeaseUnit {s t : State} (h : s.CoreKept t) (f : State → State)
    (hf : ∀ u, s.CoreKept u → s.CoreKept (f u)) : s.CoreKept (t.atLeaseUnit f) := hf _ h.expireLeases

theorem State.CoreKept.atEngine {s t : State} (h : s.CoreKept t) (f : State → State)
    (hf : ∀ u, s.CoreKept u → s.CoreKept (f u)) : s.CoreKept (t.atEngine f) := hf _ h.expireJobs

theorem State.CoreKept.settle {s t : State} (h : s.CoreKept t) (b : Owner) : s.CoreKept (t.settle b) := by
  cases b
  · exact h
  · exact h.expireLeases
  · exact h.expireJobs

theorem State.CoreKept.takeReadings {s t : State} (h : s.CoreKept t) (rs : List Reading) (fields : List Byte) :
    s.CoreKept (State.takeReadings rs t fields).1 := by
  induction rs generalizing t fields with
  | nil => exact h
  | cons r rest ih => exact ih (h.settle r.owner) _

/-! ## A block-limit expiry stays at the job engine -/

theorem State.takeBlockLimit_leaseUnit (s : State) (id : Nat) : (s.takeBlockLimit id).leaseUnit = s.leaseUnit := by
  unfold State.takeBlockLimit
  split
  · rfl
  · split <;> rfl

/-- No block-limit expiry touches the lease unit (R118). -/
theorem State.expireJobs_leaseUnit (s : State) : s.expireJobs.leaseUnit = s.leaseUnit :=
  State.each_induct (fun u => u.leaseUnit = s.leaseUnit) _ _
    (fun u id _ hu => (u.takeBlockLimit_leaseUnit id).trans hu) s rfl

/-- A block-limit expiry leaves the engine's running job, its last id and what is on its way to it (R118). -/
theorem State.takeBlockLimit_inbox (s : State) (id : Nat) : (s.takeBlockLimit id).engine.inbox = s.engine.inbox := by
  unfold State.takeBlockLimit
  split
  · rfl
  · split <;> rfl

theorem State.expireJobs_inbox (s : State) : s.expireJobs.engine.inbox = s.engine.inbox :=
  State.each_induct (fun u => u.engine.inbox = s.engine.inbox) _ _
    (fun u id _ hu => (u.takeBlockLimit_inbox id).trans hu) s rfl

/-! ## A request handed over outlives every expiry -/

/-- Every EXECUTING request that stands handed over still stands (R140). -/
structure State.HandedKept (s t : State) : Prop where
  kept : ∀ p h, s.handed p = some h → (t.pu.get p).executing = (s.pu.get p).executing

theorem State.HandedKept.refl (s : State) : s.HandedKept s := ⟨fun _ _ _ => rfl⟩

theorem State.handed_congr {s t : State} {p : Port} (h : (t.pu.get p).executing = (s.pu.get p).executing) :
    t.handed p = s.handed p := by
  simp only [State.handed, State.phase, h]

theorem State.HandedKept.handed {s t : State} (k : s.HandedKept t) {p : Port} {h : Handed} (e : s.handed p = some h) :
    t.handed p = some h := (State.handed_congr (k.kept p h e)).trans e

theorem State.HandedKept.of_pu {s t u : State} (k : s.HandedKept t) (e : u.pu = t.pu) : s.HandedKept u :=
  ⟨fun p h a => by rw [e]; exact k.kept p h a⟩

theorem State.HandedKept.modLease {s t : State} (k : s.HandedKept t) (f : LeaseUnit → LeaseUnit) :
    s.HandedKept (t.modLease f) := k.of_pu rfl

theorem State.HandedKept.modMail {s t : State} (k : s.HandedKept t) (r : Requester) (f : Mail → Mail) :
    s.HandedKept (t.modMail r f) := k.of_pu rfl

theorem State.HandedKept.modLtx {s t : State} (k : s.HandedKept t) (p : Port) (f : Transmitter → Transmitter) :
    s.HandedKept (t.modLtx p f) := k.of_pu rfl

theorem State.HandedKept.modPu {s t : State} (k : s.HandedKept t) (p : Port) (f : PortUnit → PortUnit)
    (hf : ∀ u, (f u).executing = u.executing) : s.HandedKept (t.modPu p f) := by
  refine ⟨fun q h a => ?_⟩
  by_cases e : q = p
  · subst e
    rw [State.modPu_pu, PerPort.get_set_self, hf]
    exact k.kept q h a
  · rw [State.modPu_pu, PerPort.get_set_ne _ _ e]
    exact k.kept q h a

/-- An answer that reaches a request in another phase does not reach one that stands handed over. -/
theorem State.HandedKept.answerIn {s t : State} (k : s.HandedKept t) (p : Port) (f : Phase) (r : Result) (fs : List Byte)
    (hf : ∀ h, f ≠ .handed h) : s.HandedKept (t.answerIn p f r fs) := by
  unfold State.answerIn
  split
  · rename_i ph
    refine ⟨fun q h a => ?_⟩
    have e : q ≠ p := by
      rintro rfl
      have b := k.handed a
      simp only [State.handed, ph] at b
      split at b
      · rename_i h' c
        exact hf h' (Option.some.inj c)
      · exact absurd b (by simp)
    unfold State.answer
    split
    · exact k.kept q h a
    · rw [State.modPu_pu, PerPort.get_set_ne _ _ e]
      exact k.kept q h a
  · exact k

theorem State.selectJob_pu (s : State) : s.selectJob.pu = s.pu := by
  unfold State.selectJob
  split
  · rfl
  · split <;> rfl

theorem State.engineDecision_pu (s : State) (d : Decision) : (s.engineDecision d).pu = s.pu := by
  unfold State.engineDecision
  split
  · rfl
  · split
    · rfl
    · split
      · exact State.selectJob_pu _
      · rfl

theorem State.takeEngineDecision_pu (s : State) : s.takeEngineDecision.pu = s.pu := by
  unfold State.takeEngineDecision
  split
  · exact State.engineDecision_pu _ _
  · rfl

theorem State.HandedKept.portDecision {s t : State} (k : s.HandedKept t) (p : Port) (d : Decision) :
    s.HandedKept (t.portDecision p d) := by
  unfold State.portDecision
  split
  · exact k
  · split
    · exact (k.answerIn p .access _ _ (by simp)).modPu p _ (fun _ => rfl)
    · refine State.HandedKept.modMail (t := t.modPu p _) ?_ _ _
      exact k.modPu p _ (fun _ => rfl)

theorem State.HandedKept.deliver {s t : State} (k : s.HandedKept t) (late : Bool) (r : Requester) (d : Decision) :
    s.HandedKept (t.deliver late r d) := by
  unfold State.deliver
  split
  · exact k
  · cases r with
    | port p =>
      dsimp only
      split
      · exact k.of_pu rfl
      · exact k.portDecision p d
    | engine =>
      dsimp only
      split
      · exact k.of_pu rfl
      · exact k.of_pu (State.takeEngineDecision_pu _)

theorem State.HandedKept.concludeAdmission {s t : State} (k : s.HandedKept t) (late : Bool) (a : Access) (d : Decision) :
    s.HandedKept (t.concludeAdmission late a d) := by
  unfold State.concludeAdmission
  split
  · exact k.deliver ..
  · exact (k.modLease _).deliver ..

theorem State.HandedKept.each {α : Type} {s t : State} (k : s.HandedKept t) (xs : List α) (f : State → α → State)
    (hf : ∀ u x, s.HandedKept u → s.HandedKept (f u x)) : s.HandedKept (t.each xs f) :=
  State.each_induct (fun u => s.HandedKept u) f xs (fun u x _ hu => hf u x hu) t k

theorem State.HandedKept.retry {s t : State} (k : s.HandedKept t) (late : Bool) (r : Range) :
    s.HandedKept (t.retry late r) := by
  refine k.each _ _ (fun u a hu => ?_)
  unfold State.retryOne
  split
  · exact hu
  · exact (hu.modLease _).concludeAdmission ..

theorem State.HandedKept.answerWaiter {s t : State} (k : s.HandedKept t) (p : Port) (tag : Byte) (r : Result)
    (fs : List Byte) : s.HandedKept (t.answerWaiter p tag r fs) :=
  (k.modLtx p _).modPu p _ (fun _ => rfl)

theorem State.HandedKept.grantWaiter {s t : State} (k : s.HandedKept t) (late : Bool) (w : Waiter) :
    s.HandedKept (t.grantWaiter late w) := by
  unfold State.grantWaiter
  dsimp only
  split
  · exact (k.modLease _).answerWaiter ..
  · exact ((k.modLease _).answerWaiter ..).retry ..

theorem State.HandedKept.scanFrom {s t : State} (late : Bool) (rest older : List Waiter) (k : s.HandedKept t) :
    s.HandedKept (State.scanFrom late rest older t) := by
  induction rest generalizing older t with
  | nil => exact k
  | cons w rest ih =>
    unfold State.scanFrom
    split
    · exact ih _ k
    · exact ih _ (k.modLease _)
    · exact ih _ ((k.modLease _).grantWaiter late w)

theorem State.HandedKept.scan {s t : State} (k : s.HandedKept t) (late : Bool) : s.HandedKept (t.scan late) :=
  State.HandedKept.scanFrom late _ _ k

/-- No lapse and no wait expiry reaches a request that stands handed over. -/
theorem State.HandedKept.expireLeases {s t : State} (k : s.HandedKept t) : s.HandedKept t.expireLeases := by
  refine (k.each _ _ (fun u id hu => ?_)).each _ _ (fun u w hu => ?_)
  · unfold State.takeLapse
    split
    · exact hu
    · exact (((hu.modLease _).modLtx _ _).scan false).of_pu rfl
  · unfold State.takeWaitExpiry
    split
    · exact hu
    · split
      · exact ((hu.modLease _).answerWaiter ..).scan false
      · exact hu

/-- No block-limit expiry reaches a port unit. -/
theorem State.expireJobs_pu (s : State) : s.expireJobs.pu = s.pu := by
  refine State.each_induct (fun u => u.pu = s.pu) _ _ (fun u id _ hu => Eq.trans ?_ hu) s rfl
  unfold State.takeBlockLimit
  split
  · rfl
  · split <;> rfl

/-- What the lease unit takes first leaves a request handed over where it is. -/
theorem State.expireLeases_handed {s : State} {p : Port} {h : Handed} (e : s.handed p = some h) :
    s.expireLeases.handed p = some h := (State.HandedKept.refl s).expireLeases.handed e

theorem State.expireJobs_handed (s : State) (p : Port) : s.expireJobs.handed p = s.handed p :=
  State.handed_congr (by rw [State.expireJobs_pu])

end Sys2Proof.Machine
end

