-- ==== Sys2Proof/Laws/Decisions.lean ====
section
/-! SUPPORT. What the decisions on requests, the admission and the teardown steps leave as it is (as Frames.lean, one lemma
for each). -/

namespace Sys2Proof.Machine

theorem State.CoreKept.control {s t : State} (h : s.CoreKept t) (p : Port) (late : Bool) (f : Frame)
    (x : Nat → Handed) (d : Nat → State → State) (hd : ∀ id u, s.CoreKept u → s.CoreKept (d id u)) :
    s.CoreKept (t.control p late f x d) := by
  unfold State.control
  split
  · exact h.answer ..
  · exact h.handOver _ _ _ _ (hd _)

theorem State.CoreKept.discardHanded {s t : State} (h : s.CoreKept t) (p : Port) (b : TakenBy) :
    s.CoreKept (t.discardHanded p b) := by
  unfold State.discardHanded
  split
  · exact h
  · split
    · exact h.dropExecuting p
    · exact h

theorem State.CoreKept.dropInPhase {s t : State} (h : s.CoreKept t) (p : Port) (b : Phase) :
    s.CoreKept (t.dropInPhase p b) := by
  unfold State.dropInPhase
  split
  · exact h.dropExecuting p
  · exact h

theorem State.CoreKept.tearJob {s t : State} (h : s.CoreKept t) (j : Job) : s.CoreKept (t.tearJob j) := by
  unfold State.tearJob
  split
  · split
    · exact h.modEngine _
    · exact (h.withdrawAdmission _).endJobTorn _ _ (fun _ h => h)
  · exact h.endJobTorn _ _ (fun _ h => h)

theorem State.CoreKept.jobStep {s t : State} (h : s.CoreKept t) (p : Port) : s.CoreKept (t.jobStep p) := by
  unfold State.jobStep
  exact ((((h.discardHanded p _).modEngine _).dropInPhase p _).each _ _ (fun u j hu => hu.tearJob j)).selectJob

theorem State.CoreKept.waiterStep {s t : State} (h : s.CoreKept t) (p : Port) (late : Bool) :
    s.CoreKept (t.waiterStep p late) := by
  unfold State.waiterStep
  exact (((((h.discardHanded p _).modLease _).each _ _ (fun _ _ hu => hu.dropWaiting ..)).dropInPhase _ _).each _ _
    (fun _ _ hu => hu.retry ..)).scan late

theorem State.CoreKept.leaseStep {s t : State} (h : s.CoreKept t) (p : Port) : s.CoreKept (t.leaseStep p) := by
  unfold State.leaseStep
  exact (((h.discardHanded p _).modLease _).scan _).each _ _ (fun _ _ hu => hu.reportRemoval _)

theorem State.CoreKept.admission {s t : State} (h : s.CoreKept t) (r : Requester) (late : Bool) :
    s.CoreKept (t.admission r late) := by
  have A : ∀ r, s.CoreKept (t.takeAdmission r late) := by
    intro r; unfold State.takeAdmission
    dsimp only
    split
    · exact h
    · split
      · exact h
      · exact h.atLeaseUnit _ (fun _ hu => (hu.modMail _ _).decideAdmission ..)
  unfold State.admission
  split
  · split
    · exact (h.modMail _ _).portDecision _ _
    · exact A _
  · split
    · exact h.takeEngineDecision
    · exact A _

theorem State.CoreKept.checkLease {s t : State} (h : s.CoreKept t) (p : Port) (late : Bool) (f : Frame) :
    s.CoreKept (t.checkLease p late f) := by
  unfold State.checkLease
  dsimp only
  repeat' split
  all_goals first | exact h.answer .. | exact h.handOver _ _ _ _ (fun u hu => hu.atLeaseUnit _ (fun _ hv => hv.decideLease ..))

theorem State.CoreKept.checkCopy {s t : State} (h : s.CoreKept t) (p : Port) (late : Bool) (f : Frame) :
    s.CoreKept (t.checkCopy p late f) := by
  unfold State.checkCopy
  dsimp only
  repeat' split
  all_goals first | exact h.answer .. | exact h.handOver _ _ _ _ (fun u hu => hu.atEngine _ (fun _ hv => hv.submit ..))

theorem State.CoreKept.checkFill {s t : State} (h : s.CoreKept t) (p : Port) (late : Bool) (f : Frame) :
    s.CoreKept (t.checkFill p late f) := by
  unfold State.checkFill
  dsimp only
  repeat' split
  all_goals first | exact h.answer .. | exact h.handOver _ _ _ _ (fun u hu => hu.atEngine _ (fun _ hv => hv.submit ..))

theorem State.CoreKept.checkSum {s t : State} (h : s.CoreKept t) (p : Port) (late : Bool) (f : Frame) :
    s.CoreKept (t.checkSum p late f) := by
  unfold State.checkSum
  dsimp only
  repeat' split
  all_goals first | exact h.answer .. | exact h.handOver _ _ _ _ (fun u hu => hu.atEngine _ (fun _ hv => hv.submit ..))

theorem State.CoreKept.beginAccess {s t : State} (h : s.CoreKept t) (p : Port) (o : PortOperation)
    (a : Access) : s.CoreKept (t.beginAccess p o a) :=
  ((h.setOperation p _).setPhase _ _).askAdmission _

theorem State.CoreKept.decideRead {s t : State} (h : s.CoreKept t) (p : Port) (f : Frame) :
    s.CoreKept (t.decideRead p f) := by
  unfold State.decideRead
  dsimp only
  repeat' split
  all_goals first | exact h.answer .. | exact h.beginAccess ..

theorem State.CoreKept.decideWrite {s t : State} (h : s.CoreKept t) (p : Port) (f : Frame) :
    s.CoreKept (t.decideWrite p f) := by
  unfold State.decideWrite
  dsimp only
  repeat' split
  all_goals first | exact h.answer .. | exact h.beginAccess ..

theorem State.CoreKept.decideExchangeIf {s t : State} (h : s.CoreKept t) (p : Port) (f : Frame) :
    s.CoreKept (t.decideExchangeIf p f) := by
  unfold State.decideExchangeIf
  dsimp only
  repeat' split
  all_goals first | exact h.answer .. | exact h.beginAccess ..

theorem State.CoreKept.decideRenew {s t : State} (h : s.CoreKept t) (p : Port) (a b : Nat) :
    s.CoreKept (t.decideRenew p a b) := by
  unfold State.decideRenew
  split
  · exact h.answer ..
  · exact (h.modLease _).answer ..

theorem State.CoreKept.decideRelease {s t : State} (h : s.CoreKept t) (p : Port) (a : Nat) :
    s.CoreKept (t.decideRelease p a) := by
  unfold State.decideRelease
  split
  · exact h.answer ..
  · exact ((h.modLease _).answer ..).afterRemoval _

theorem State.CoreKept.decideWithdraw {s t : State} (h : s.CoreKept t) (p : Port) (a : Byte) :
    s.CoreKept (t.decideWithdraw p a) := by
  unfold State.decideWithdraw
  split
  · exact h.answer ..
  · split
    · exact h.answer ..
    · exact (((h.modLease _).answerWaiter ..).answer ..).scan _

theorem State.CoreKept.decideForceRelease {s t : State} (h : s.CoreKept t) (p : Port) (a : Nat) :
    s.CoreKept (t.decideForceRelease p a) := by
  unfold State.decideForceRelease
  split
  · exact h.answer ..
  · exact (((h.modLease _).answer ..).offer ..).afterRemoval _

theorem State.CoreKept.decideForceCancel {s t : State} (h : s.CoreKept t) (p : Port) (a : Nat) :
    s.CoreKept (t.decideForceCancel p a) := by
  unfold State.decideForceCancel
  split
  · exact h.answer ..
  · exact h.cancelJob ..

end Sys2Proof.Machine
end

