-- ==== Sys2Proof/Laws/Link.lean ====
section
/-! SUPPORT. The receive line: what one bit time can change, a run of the line in parts, and a whole character, which the
receiver that is ready for it classes as R145 gives. -/

namespace Sys2Proof.Machine

/-! ## What the line can change -/

/-- The state but for the receiver, the transmitter and the break reports of one port. -/
structure State.LineKept (p : Port) (s t : State) : Prop where
  lrx : ∀ q, q ≠ p → t.lrx.get q = s.lrx.get q
  ltx : ∀ q, q ≠ p → t.ltx.get q = s.ltx.get q
  others : ∀ q, q ≠ p → t.pu.get q = s.pu.get q
  unit : ∃ n, t.pu.get p = { s.pu.get p with breakReports := n }
  leaseUnit : t.leaseUnit = s.leaseUnit
  arbiter : t.arbiter = s.arbiter
  store : t.store = s.store
  engine : t.engine = s.engine
  mail : t.mail = s.mail
  time : t.time = s.time
  straps : t.straps = s.straps
  resetLine : t.resetLine = s.resetLine
  epoch : t.epoch = s.epoch
  resets : t.resets = s.resets
  pending : t.pending = s.pending

theorem State.LineKept.refl (p : Port) (s : State) : LineKept p s s :=
  ⟨fun _ _ => rfl, fun _ _ => rfl, fun _ _ => rfl, ⟨_, rfl⟩, rfl, rfl, rfl, rfl, rfl, rfl, rfl, rfl, rfl, rfl, rfl⟩

theorem State.LineKept.trans {p : Port} {s t u : State} (h : LineKept p s t) (k : LineKept p t u) : LineKept p s u :=
  ⟨fun q e => (k.1 q e).trans (h.1 q e), fun q e => (k.2 q e).trans (h.2 q e), fun q e => (k.3 q e).trans (h.3 q e),
    let ⟨_, x⟩ := h.4; let ⟨n, y⟩ := k.4; ⟨n, by rw [y, x]⟩,
    k.5.trans h.5, k.6.trans h.6, k.7.trans h.7, k.8.trans h.8, k.9.trans h.9, k.10.trans h.10, k.11.trans h.11,
    k.12.trans h.12, k.13.trans h.13, k.14.trans h.14, k.15.trans h.15⟩

theorem State.LineKept.modLrx {p : Port} {s t : State} (h : LineKept p s t) (f : Receiver → Receiver) :
    LineKept p s (t.modLrx p f) :=
  ⟨fun q e => (PerPort.get_set_ne _ _ e).trans (h.1 q e), h.2, h.3, h.4, h.5, h.6, h.7, h.8, h.9, h.10, h.11, h.12, h.13,
    h.14, h.15⟩

theorem State.LineKept.offer {p : Port} {s t : State} (h : LineKept p s t) (n : NoticeKind) (fs : List Byte) :
    LineKept p s (t.offer p n fs) :=
  ⟨h.1, fun q e => (PerPort.get_set_ne _ _ e).trans (h.2 q e), h.3, h.4, h.5, h.6, h.7, h.8, h.9, h.10, h.11, h.12, h.13,
    h.14, h.15⟩

theorem State.LineKept.discardFrame {p : Port} {s t : State} (h : LineKept p s t) (r : DiscardReason) :
    LineKept p s (t.discardFrame p r) := (h.modLrx _).offer _ _

theorem State.LineKept.discardAssembly {p : Port} {s t : State} (h : LineKept p s t) :
    LineKept p s (t.discardAssembly p) := by
  unfold State.discardAssembly
  split
  · exact h.discardFrame _
  · exact h

theorem State.LineKept.placeFrame {p : Port} {s t : State} (h : LineKept p s t) (f : Frame) :
    LineKept p s (t.placeFrame p f) := by
  unfold State.placeFrame
  split
  · exact h
  · split
    · exact h.modLrx _
    · exact (h.modLrx _).offer _ _

theorem State.LineKept.assemble {p : Port} {s t : State} (h : LineKept p s t) (b : List Byte) :
    LineKept p s (t.assemble p b) := by
  unfold State.assemble
  split
  · exact h.discardFrame _
  · split
    · unfold State.completeFrame
      split
      · exact (h.modLrx _).placeFrame _
      · exact h.discardFrame _
    · exact h.modLrx _

theorem State.LineKept.takeMarked {p : Port} {s t : State} (h : LineKept p s t) (c : Byte) :
    LineKept p s (t.takeMarked p c) := by
  unfold State.takeMarked
  split
  · exact (h.discardFrame _).modLrx _
  all_goals exact h.modLrx _

theorem State.LineKept.takeUnmarked {p : Port} {s t : State} (h : LineKept p s t) (c : Byte) :
    LineKept p s (t.takeUnmarked p c) := by
  unfold State.takeUnmarked
  split
  · exact h.assemble _
  all_goals exact h

theorem State.LineKept.takeCharacter {p : Port} {s t : State} (h : LineKept p s t) (levels : List Bool) (stop : Bool) :
    LineKept p s (t.takeCharacter p levels stop) := by
  unfold State.takeCharacter
  split
  · split
    · exact h.takeMarked _
    · exact h.takeUnmarked _
  · exact h.discardAssembly

theorem State.LineKept.characterBit {p : Port} {s t : State} (h : LineKept p s t) (level : Bool) :
    LineKept p s (t.characterBit p level) := by
  unfold State.characterBit
  dsimp only
  split
  · exact h
  · split
    · exact h.modLrx _
    · exact (h.modLrx _).takeCharacter _ _

theorem State.LineKept.detectBreak {p : Port} {s t : State} (h : LineKept p s t) : LineKept p s (t.detectBreak p) :=
  let k := h.modLrx (fun x => { x with buffer := [], held := none, state := .brk, character := [] })
  ⟨k.1, k.2, fun q e => (PerPort.get_set_ne _ _ e).trans (k.3 q e),
    let ⟨_, x⟩ := k.4
    ⟨_, (PerPort.get_set_self _ _ _).trans (by rw [x])⟩,
    k.5, k.6, k.7, k.8, k.9, k.10, k.11, k.12, k.13, k.14, k.15⟩

/-- One bit time of a port's receive line changes its receiver, its transmitter and its break reports, and nothing else. -/
theorem State.lineBit_kept (s : State) (p : Port) (level : Bool) : LineKept p s (s.lineBit p level) := by
  unfold State.lineBit
  split
  · exact (LineKept.refl p s).modLrx _
  · dsimp only
    split
    · exact ((LineKept.refl p s).characterBit _).modLrx _
    · exact (((LineKept.refl p s).characterBit _).modLrx _).discardAssembly.detectBreak

/-- So does a run of levels. -/
theorem State.line_kept (s : State) (p : Port) (levels : List Bool) : LineKept p s (s.line p levels) := by
  unfold State.line
  split
  · exact .refl p s
  · exact State.each_induct (fun t => LineKept p s t) _ _ (fun t l _ h => h.trans (t.lineBit_kept p l)) s (.refl p s)

/-! ## A run of the line in parts -/

theorem State.line_held {s : State} (h : s.resetLine ≠ .released) (p : Port) (levels : List Bool) :
    s.line p levels = s := if_pos h

@[simp] theorem State.line_nil (s : State) (p : Port) : s.line p [] = s := by
  unfold State.line
  split <;> rfl

theorem State.line_cons (s : State) (p : Port) (level : Bool) (levels : List Bool) :
    s.line p (level :: levels) = (s.line p [level]).line p levels := by
  by_cases h : s.resetLine = .released
  · have k : (s.lineBit p level).resetLine = .released := (s.lineBit_kept p level).resetLine.trans h
    simp [State.line, State.each, h, k]
  · rw [State.line_held h, State.line_held h, State.line_held h]

theorem State.line_append (s : State) (p : Port) (a b : List Bool) : s.line p (a ++ b) = (s.line p a).line p b := by
  induction a generalizing s with
  | nil => rw [State.line_nil, List.nil_append]
  | cons l ls ih => rw [List.cons_append, State.line_cons, ih, ← State.line_cons]

theorem State.line_bit {s : State} (h : s.resetLine = .released) (p : Port) (level : Bool) :
    s.line p [level] = s.lineBit p level := by simp [State.line, State.each, h]

/-- The line at one level for `m + n` bit times is that level for `m` and then for `n`. -/
theorem State.line_replicate_add (s : State) (p : Port) (level : Bool) (m n : Nat) :
    s.line p (List.replicate (m + n) level) = (s.line p (List.replicate m level)).line p (List.replicate n level) := by
  rw [← List.replicate_append_replicate, State.line_append]

/-! ## One bit time -/

theorem State.modLrx_congr {s : State} {p : Port} {f g : Receiver → Receiver} (h : f (s.lrx.get p) = g (s.lrx.get p)) :
    s.modLrx p f = s.modLrx p g := by
  unfold State.modLrx
  rw [h]

theorem State.modLrx_id {s : State} {p : Port} {f : Receiver → Receiver} (h : f (s.lrx.get p) = s.lrx.get p) :
    s.modLrx p f = s := by
  unfold State.modLrx
  rw [h, PerPort.set_get]

/-- In BREAK a bit time concerns the run alone, or ends BREAK (R151). -/
theorem State.lineBit_brk {s : State} {p : Port} (h : (s.lrx.get p).state = .brk) (level : Bool) :
    s.lineBit p level = s.modLrx p (Receiver.breakBit level) := if_pos h

/-- No class of character changes the receiver's run or the character in progress. -/
theorem State.takeCharacter_run (s : State) (p : Port) (levels : List Bool) (stop : Bool) :
    ((s.takeCharacter p levels stop).lrx.get p).run = (s.lrx.get p).run ∧
    ((s.takeCharacter p levels stop).lrx.get p).character = (s.lrx.get p).character := by
  have offer : ∀ (t : State) (n : NoticeKind) (fs : List Byte), (t.offer p n fs).lrx = t.lrx := fun _ _ _ => rfl
  have discard : ∀ r, ((s.discardFrame p r).lrx.get p).run = (s.lrx.get p).run ∧
      ((s.discardFrame p r).lrx.get p).character = (s.lrx.get p).character := by
    intro r
    unfold State.discardFrame
    rw [offer, State.modLrx_lrx, PerPort.get_set_self]
    cases r <;> exact ⟨rfl, rfl⟩
  unfold State.takeCharacter
  split
  · split
    · unfold State.takeMarked
      split <;> simp only [State.modLrx_lrx, PerPort.get_set_self, Receiver.begin, and_self]
      exact discard _
    · unfold State.takeUnmarked
      split
      · unfold State.assemble
        split
        · exact discard _
        · split
          · unfold State.completeFrame
            split
            · unfold State.placeFrame
              split
              · simp [Receiver.hunt]
              · split <;> simp [Receiver.hunt, offer]
            · exact discard _
          · simp
      all_goals exact ⟨rfl, rfl⟩
  · unfold State.discardAssembly
    split
    · exact discard _
    · exact ⟨rfl, rfl⟩

/-- The run of the line in HUNTING and ASSEMBLING after one more bit time. -/
def LineRun.next (r : LineRun) (level : Bool) : LineRun := if level then .none else .space (r.spaces + 1)

theorem LineRun.next_spaces (r : LineRun) (level : Bool) : (r.next level).spaces ≤ r.spaces + 1 := by
  cases level
  · exact Nat.le_refl _
  · exact Nat.zero_le _

/-- A bit time that belongs to no character counts the run alone. -/
theorem State.lineBit_idle {s : State} {p : Port} (h : (s.lrx.get p).state ≠ .brk) {level : Bool}
    (k : (s.lrx.get p).inCharacter level = false) (r : ((s.lrx.get p).run.next level).spaces < breakBits) :
    s.lineBit p level = s.modLrx p (Receiver.countRun level) := by
  have e : s.characterBit p level = s := by
    unfold State.characterBit
    simp [k]
  unfold State.lineBit
  rw [if_neg h, e]
  exact if_pos (by rw [State.modLrx_lrx, PerPort.get_set_self]; exact r)

/-- A bit time of a character that is not its stop bit joins the levels so far. -/
theorem State.lineBit_more {s : State} {p : Port} (h : (s.lrx.get p).state ≠ .brk) {level : Bool}
    (k : (s.lrx.get p).inCharacter level = true) (l : (s.lrx.get p).character.length < 10)
    (r : ((s.lrx.get p).run.next level).spaces < breakBits) :
    s.lineBit p level = s.modLrx p (fun x => { x with character := x.character ++ [level], run := x.run.next level }) := by
  have e : s.characterBit p level = s.modLrx p (fun x => { x with character := x.character ++ [level] }) := by
    unfold State.characterBit
    have : (s.lrx.get p).character.length + 1 < characterBits := Nat.succ_lt_succ l
    simp only [k, Bool.not_true, Bool.false_eq_true, if_false, this, if_true]
    exact State.modLrx_congr rfl
  unfold State.lineBit
  rw [if_neg h, e]
  dsimp only
  rw [State.modLrx_modLrx]
  exact if_pos (by rw [State.modLrx_lrx, PerPort.get_set_self]; exact r)

/-- The stop bit ends the character, which is classed (R145). -/
theorem State.lineBit_stop {s : State} {p : Port} (h : (s.lrx.get p).state ≠ .brk) (level : Bool)
    (l : 10 ≤ (s.lrx.get p).character.length) (r : ((s.lrx.get p).run.next level).spaces < breakBits) :
    s.lineBit p level = ((s.modLrx p (fun x => { x with character := [] })).takeCharacter p (s.lrx.get p).character
      level).modLrx p (Receiver.countRun level) := by
  have k : (s.lrx.get p).inCharacter level = true := by
    unfold Receiver.inCharacter
    cases e : (s.lrx.get p).character with
    | nil => rw [e] at l; exact absurd l (by decide)
    | cons => rfl
  have e : s.characterBit p level = (s.modLrx p (fun x => { x with character := [] })).takeCharacter p
      (s.lrx.get p).character level := by
    unfold State.characterBit
    have : ¬ (s.lrx.get p).character.length + 1 < characterBits := Nat.not_lt.mpr (Nat.succ_le_succ l)
    simp only [k, Bool.not_true, Bool.false_eq_true, if_false, this]
  unfold State.lineBit
  rw [if_neg h, e]
  refine if_pos ?_
  rw [State.modLrx_lrx, PerPort.get_set_self]
  unfold Receiver.countRun
  rw [(State.takeCharacter_run _ _ _ _).1, State.modLrx_lrx, PerPort.get_set_self]
  exact r

/-! ## A break -/

/-- A frame in assembly is discarded for FRAMING: what that is (R149). -/
theorem State.discardAssembly_assembling {s : State} {p : Port} (h : (s.lrx.get p).state = .assembling) :
    s.discardAssembly p = (s.modLrx p (fun x => { x with
      state := .hunting, buffer := [], framingDiscards := countUp x.framingDiscards })).offer p .frameDiscarded [3] :=
  if_pos h

theorem State.discardAssembly_other {s : State} {p : Port} (h : (s.lrx.get p).state ≠ .assembling) :
    s.discardAssembly p = s := if_neg h

/-- Space in a character is its stop-bit error or no end of it. -/
theorem State.characterBit_space (s : State) (p : Port) : ∃ c,
    s.characterBit p false = s.modLrx p (fun x => { x with character := c }) ∨
    s.characterBit p false = (s.discardAssembly p).modLrx p (fun x => { x with character := c }) := by
  unfold State.characterBit
  dsimp only
  split
  · exact ⟨(s.lrx.get p).character, .inl (State.modLrx_id rfl).symm⟩
  · split
    · exact ⟨_, .inl rfl⟩
    · refine ⟨[], .inr ?_⟩
      unfold State.takeCharacter
      simp only [Bool.false_eq_true, if_false]
      by_cases h : (s.lrx.get p).state = .assembling
      · rw [State.discardAssembly_assembling h, State.discardAssembly_assembling (by simp [h])]
        unfold State.offer
        simp [State.modLtx, State.modLrx]
      · rw [State.discardAssembly_other h, State.discardAssembly_other (by simp [h])]

/-- The 22nd bit time of space is a break, before which a frame in assembly is discarded for FRAMING (R151). -/
theorem State.lineBit_break {s : State} {p : Port} (h : (s.lrx.get p).state ≠ .brk)
    (r : breakBits ≤ (s.lrx.get p).run.spaces + 1) :
    s.lineBit p false = (((s.discardAssembly p).modLrx p (fun x => { x with
      state := .brk, buffer := [], held := none, run := .space (x.run.spaces + 1), character := [] })).modPu p
      (fun u => { u with breakReports := u.breakReports + 1 })) := by
  have once : ((s.discardAssembly p).lrx.get p).state ≠ .assembling := by
    by_cases k : (s.lrx.get p).state = .assembling
    · rw [State.discardAssembly_assembling k]
      simp [State.offer]
    · rw [State.discardAssembly_other k]
      exact k
  have run : ((s.discardAssembly p).lrx.get p).run = (s.lrx.get p).run := by
    by_cases k : (s.lrx.get p).state = .assembling
    · rw [State.discardAssembly_assembling k]
      simp [State.offer]
    · rw [State.discardAssembly_other k]
  have any : ∀ (t : State) (c : List Bool), (t.lrx.get p).run = (s.lrx.get p).run →
      t.discardAssembly p = s.discardAssembly p →
      s.characterBit p false = t.modLrx p (fun x => { x with character := c }) →
      s.lineBit p false = (((s.discardAssembly p).modLrx p (fun x => { x with
        state := .brk, buffer := [], held := none, run := .space (x.run.spaces + 1), character := [] })).modPu p
        (fun u => { u with breakReports := u.breakReports + 1 })) := by
    intro t c tr td e
    unfold State.lineBit
    rw [if_neg h, e]
    dsimp only
    rw [State.modLrx_modLrx, if_neg]
    · by_cases k : (t.lrx.get p).state = .assembling
      · rw [← td, State.discardAssembly_assembling k, State.discardAssembly_assembling (by simp [Receiver.countRun, k])]
        unfold State.detectBreak State.offer
        simp [State.modLtx, State.modLrx, State.modPu, Receiver.countRun]
      · rw [← td, State.discardAssembly_other k, State.discardAssembly_other (by simp [Receiver.countRun, k])]
        unfold State.detectBreak
        simp [State.modLrx, State.modPu, Receiver.countRun]
    · simp only [State.modLrx_lrx, PerPort.get_set_self, Receiver.countRun, Bool.false_eq_true, if_false,
        LineRun.spaces, tr]
      exact Nat.not_lt.mpr r
  obtain ⟨c, e | e⟩ := s.characterBit_space p
  · exact any s c rfl rfl e
  · exact any _ c run (State.discardAssembly_other once) e
/-! ## A whole character -/

/-- Bits inside a character, up to the stop bit, join its levels. -/
theorem State.line_inside (bits : List Bool) : ∀ {s : State} {p : Port}, s.resetLine = .released →
    (s.lrx.get p).state ≠ .brk → (s.lrx.get p).character ≠ [] → (s.lrx.get p).character.length + bits.length ≤ 10 →
    (s.lrx.get p).run.spaces ≤ (s.lrx.get p).character.length →
    s.line p bits = s.modLrx p (fun x => { x with character := x.character ++ bits, run := bits.foldl LineRun.next x.run }) ∧
    (bits.foldl LineRun.next (s.lrx.get p).run).spaces ≤ (s.lrx.get p).character.length + bits.length := by
  induction bits with
  | nil =>
    intro s p _ _ _ _ r
    refine ⟨?_, r⟩
    rw [State.line_nil]
    exact (State.modLrx_id (by simp)).symm
  | cons b bs ih =>
    intro s p h st c l r
    rw [List.length_cons] at l
    have n := LineRun.next_spaces (s.lrx.get p).run b
    have inside : (s.lrx.get p).inCharacter b = true := by
      unfold Receiver.inCharacter
      cases e : (s.lrx.get p).character with
      | nil => exact absurd e c
      | cons => rfl
    have e : s.lineBit p b = s.modLrx p (fun x => { x with character := x.character ++ [b], run := x.run.next b }) :=
      State.lineBit_more st inside (by omega) (by unfold breakBits; omega)
    have g : ((s.lineBit p b).lrx.get p) = { s.lrx.get p with character := (s.lrx.get p).character ++ [b],
                                                              run := (s.lrx.get p).run.next b } := by
      rw [e, State.modLrx_lrx, PerPort.get_set_self]
    have i := ih (s := s.lineBit p b) (p := p) ((s.lineBit_kept p b).resetLine.trans h) (by rw [g]; exact st)
      (by rw [g]; simp) (by rw [g]; simp; omega) (by rw [g]; simp; omega)
    rw [State.line_cons, State.line_bit h, i.1, e, State.modLrx_modLrx]
    refine ⟨State.modLrx_congr (by simp), ?_⟩
    have := i.2
    rw [g] at this
    simp only [List.length_append, List.length_singleton] at this
    simp only [List.foldl_cons, List.length_cons]
    omega

/-- The bits of a byte in the order of the line spell it. -/
theorem byteOfBits_levels : ∀ c : Byte, byteOfBits ((List.range 8).map (fun i => c.getLsbD i)) = c := by decide +kernel

/-- The receiver's run set. -/
def State.setRun (s : State) (p : Port) (r : LineRun) : State := s.modLrx p (fun x => { x with run := r })

theorem State.setRun_offer (s : State) (p : Port) (r : LineRun) (n : NoticeKind) (fs : List Byte) :
    (s.setRun p r).offer p n fs = (s.offer p n fs).setRun p r := rfl

theorem State.setRun_modLrx (s : State) (p : Port) (r : LineRun) (f : Receiver → Receiver)
    (h : ∀ x : Receiver, f { x with run := r } = { f x with run := r }) :
    (s.setRun p r).modLrx p f = (s.modLrx p f).setRun p r := by
  simp only [State.setRun, State.modLrx_modLrx, h]

theorem State.setRun_discardFrame (s : State) (p : Port) (r : LineRun) (d : DiscardReason) :
    (s.setRun p r).discardFrame p d = (s.discardFrame p d).setRun p r := by
  unfold State.discardFrame
  rw [State.setRun_modLrx _ _ _ _ (fun x => by cases d <;> rfl), State.setRun_offer]

theorem State.setRun_lrx (s : State) (p : Port) (r : LineRun) :
    (s.setRun p r).lrx.get p = { s.lrx.get p with run := r } := PerPort.get_set_self _ _ _

theorem State.setRun_pu (s : State) (p : Port) (r : LineRun) : (s.setRun p r).pu = s.pu := rfl

/-- The class of a character does not depend on the run, which it leaves as it is. -/
theorem State.setRun_takeCharacter (s : State) (p : Port) (r : LineRun) (levels : List Bool) (stop : Bool) :
    (s.setRun p r).takeCharacter p levels stop = (s.takeCharacter p levels stop).setRun p r := by
  have place : ∀ (t : State) (f : Frame), (t.setRun p r).placeFrame p f = (t.placeFrame p f).setRun p r := by
    intro t f
    unfold State.placeFrame
    rw [State.setRun_pu, State.setRun_lrx]
    dsimp only
    split
    · rfl
    · split
      · rw [State.setRun_modLrx _ _ _ _ (fun _ => rfl)]
      · rw [State.setRun_modLrx _ _ _ _ (fun _ => rfl), State.setRun_offer]
  have assemble : ∀ (t : State) (b : List Byte), (t.setRun p r).assemble p b = (t.assemble p b).setRun p r := by
    intro t b
    unfold State.assemble State.completeFrame
    split
    · exact State.setRun_discardFrame ..
    · split
      · split
        · rw [State.setRun_modLrx _ _ _ _ (fun _ => rfl), place]
        · exact State.setRun_discardFrame ..
      · exact State.setRun_modLrx _ _ _ _ (fun _ => rfl)
  unfold State.takeCharacter State.takeMarked State.takeUnmarked State.discardAssembly
  rw [State.setRun_lrx]
  dsimp only
  cases stop
  · simp only [Bool.false_eq_true, if_false]
    split
    · exact State.setRun_discardFrame ..
    · rfl
  · simp only [if_true]
    split
    · split
      · rw [State.setRun_discardFrame, State.setRun_modLrx _ _ _ _ (fun _ => rfl)]
      all_goals rw [State.setRun_modLrx _ _ _ _ (fun _ => rfl)]
    · split
      · exact assemble _ _
      all_goals rfl

/-- The class of a whole character (R145): its stop bit, its mark bit and its byte. -/
def State.classify (s : State) (p : Port) (mark : Bool) (b : Byte) (stop : Bool) : State :=
  if stop then if mark then s.takeMarked p b else s.takeUnmarked p b else s.discardAssembly p

/-- A receiver without a character in progress, its line at mark, takes the character that follows. -/
theorem State.line_character {s : State} {p : Port} (h : s.resetLine = .released) (st : (s.lrx.get p).state ≠ .brk)
    (c : (s.lrx.get p).character = []) (r : (s.lrx.get p).run.atSpace = false) (mark : Bool) (b : Byte) (stop : Bool) :
    s.line p (characterLevels (mark, b) stop) =
      (s.classify p mark b stop).setRun p ((characterLevels (mark, b) stop).foldl LineRun.next .none) := by
  have sp : (s.lrx.get p).run.spaces = 0 := by
    cases e : (s.lrx.get p).run with
    | space n => rw [e] at r; cases r
    | none => rfl
    | mark n => rfl
  let mid : List Bool := (List.range 8).map (fun i => b.getLsbD i) ++ [mark]
  have long : mid.length = 9 := by simp [mid]
  have cut : characterLevels (mark, b) stop = false :: (mid ++ [stop]) := by
    simp [characterLevels, mid]
  have e1 : s.lineBit p false = s.modLrx p (fun x => { x with character := [false], run := .space 1 }) := by
    rw [State.lineBit_more st (by simp [Receiver.inCharacter, c, r]) (by simp [c])
      (by simp only [LineRun.next, Bool.false_eq_true, if_false, sp]; decide)]
    exact State.modLrx_congr (by simp [c, LineRun.next, sp])
  have g1 : ((s.lineBit p false).lrx.get p) = { s.lrx.get p with character := [false], run := .space 1 } := by
    rw [e1, State.modLrx_lrx, PerPort.get_set_self]
  have h1 := (s.lineBit_kept p false).resetLine.trans h
  have i := State.line_inside mid h1 (by rw [g1]; exact st) (by rw [g1]; simp) (by rw [g1]; simp [long])
    (by rw [g1]; exact Nat.le_refl 1)
  rw [g1] at i
  have e2 : s.line p (false :: mid) = s.modLrx p (fun x => { x with
      character := false :: mid, run := mid.foldl LineRun.next (.space 1) }) := by
    rw [State.line_cons, State.line_bit h, i.1, e1, State.modLrx_modLrx]
    rfl
  have g2 : (s.line p (false :: mid)).lrx.get p = { s.lrx.get p with
      character := false :: mid, run := mid.foldl LineRun.next (.space 1) } := by
    rw [e2, State.modLrx_lrx, PerPort.get_set_self]
  have h2 := (s.line_kept p (false :: mid)).resetLine.trans h
  have bound := LineRun.next_spaces (mid.foldl LineRun.next (.space 1)) stop
  have le := i.2
  simp only [List.length_singleton, long] at le
  rw [cut, ← List.cons_append, State.line_append, State.line_bit h2, State.lineBit_stop (by rw [g2]; exact st) stop
    (by rw [g2]; simp [long]) (by rw [g2]; unfold breakBits; dsimp only; omega), g2]
  have e3 : (s.line p (false :: mid)).modLrx p (fun x => { x with character := [] }) =
      s.setRun p (mid.foldl LineRun.next (.space 1)) := by
    rw [e2, State.modLrx_modLrx]
    exact State.modLrx_congr (by simp [c])
  have e4 : ∀ t : State, t.takeCharacter p (false :: mid) stop = t.classify p mark b stop := by
    intro t
    have e5 : (((false :: mid).drop 1).take 8) = (List.range 8).map (fun i => b.getLsbD i) := by simp [mid]
    have e6 : (false :: mid).getD 9 false = mark := by simp [mid]
    unfold State.takeCharacter State.classify
    rw [e5, e6, byteOfBits_levels]
  rw [e3, State.setRun_takeCharacter, e4]
  simp only [State.setRun, State.modLrx_modLrx, Receiver.countRun]
  refine State.modLrx_congr ?_
  simp [LineRun.next, LineRun.spaces, List.foldl_append]

/-- The run of the line after these levels, counted from mark. -/
theorem LineRun.foldl_next (levels : List Bool) : levels.foldl LineRun.next .none =
    if endingSpace levels = 0 then .none else .space (endingSpace levels) := by
  have e : ∀ ls : List Bool, (ls.reverse.foldl LineRun.next .none) =
      if (ls.takeWhile (fun l => !l)).length = 0 then .none else .space (ls.takeWhile (fun l => !l)).length := by
    intro ls
    induction ls with
    | nil => rfl
    | cons l ls ih =>
      rw [List.reverse_cons, List.foldl_append, ih]
      cases l
      · simp only [List.foldl_cons, List.foldl_nil, LineRun.next, List.takeWhile_cons]
        generalize ls.takeWhile (fun l => !l) = w
        cases w <;> rfl
      · simp [LineRun.next]
  have f := e levels.reverse
  rwa [List.reverse_reverse] at f

theorem characterLevels_good (mark : Bool) (b : Byte) : characterLevels (mark, b) true = goodLevels mark b := rfl

theorem characterLevels_error (mark : Bool) (b : Byte) : characterLevels (mark, b) false = errorLevels mark b := rfl

/-! ## Runs of mark and space -/

/-- Where no character and no break is in progress, mark ends a run of space (R145). -/
theorem State.line_mark_idle {s : State} {p : Port} (h : s.resetLine = .released) (st : (s.lrx.get p).state ≠ .brk)
    (c : (s.lrx.get p).character = []) (n : Nat) : s.line p (List.replicate (n + 1) true) = s.setRun p .none := by
  have one : ∀ t : State, (t.lrx.get p).state ≠ .brk → (t.lrx.get p).character = [] →
      t.lineBit p true = t.setRun p .none := fun t a b =>
    State.lineBit_idle a (by simp [Receiver.inCharacter, b]) (Nat.zero_lt_succ _)
  induction n with
  | zero => exact (State.line_bit h p true).trans (one s st c)
  | succ n ih =>
    rw [State.line_replicate_add, ih]
    refine (State.line_bit (s := s.setRun p .none) h p true).trans ?_
    rw [one _ (by rw [State.setRun_lrx]; exact st) (by rw [State.setRun_lrx]; exact c)]
    simp only [State.setRun, State.modLrx_modLrx]

/-- Where no character and no break is in progress, the line at space stays at space without a start bit (R145). -/
theorem State.line_space_idle {s : State} {p : Port} (h : s.resetLine = .released) (st : (s.lrx.get p).state ≠ .brk)
    (c : (s.lrx.get p).character = []) {m : Nat} (r : (s.lrx.get p).run = .space m) (n : Nat) (le : m + n < breakBits) :
    s.line p (List.replicate n false) = s.setRun p (.space (m + n)) := by
  induction n with
  | zero =>
    refine (State.line_nil s p).trans (State.modLrx_id ?_).symm
    rw [Nat.add_zero, ← r]
  | succ n ih =>
    rw [State.line_replicate_add, ih (by omega)]
    refine (State.line_bit (s := s.setRun p _) h p false).trans ?_
    rw [State.lineBit_idle (by rw [State.setRun_lrx]; exact st)
      (by rw [State.setRun_lrx]; simp [Receiver.inCharacter, c, LineRun.atSpace]) (by rw [State.setRun_lrx]; exact le)]
    simp only [State.setRun, State.modLrx_modLrx]
    rfl

/-- In BREAK space is counted, and is no second break (R151). -/
theorem State.line_space_brk {s : State} {p : Port} (h : s.resetLine = .released) (st : (s.lrx.get p).state = .brk)
    (n : Nat) : s.line p (List.replicate (n + 1) false) = s.setRun p (.space ((s.lrx.get p).run.spaces + (n + 1))) := by
  induction n with
  | zero => exact (State.line_bit h p false).trans (State.lineBit_brk st false)
  | succ n ih =>
    rw [State.line_replicate_add, ih]
    refine (State.line_bit (s := s.setRun p _) h p false).trans ?_
    rw [State.lineBit_brk (by rw [State.setRun_lrx]; exact st)]
    simp only [State.setRun, State.modLrx_modLrx]
    rfl

/-- In BREAK fewer than 11 bit times of mark are counted (R151). -/
theorem State.line_mark_brk {s : State} {p : Port} (h : s.resetLine = .released) (st : (s.lrx.get p).state = .brk)
    (n : Nat) (le : (s.lrx.get p).run.marks + (n + 1) < breakEndBits) :
    s.line p (List.replicate (n + 1) true) = s.setRun p (.mark ((s.lrx.get p).run.marks + (n + 1))) := by
  have one : ∀ t : State, (t.lrx.get p).state = .brk → (t.lrx.get p).run.marks + 1 < breakEndBits →
      t.lineBit p true = t.setRun p (.mark ((t.lrx.get p).run.marks + 1)) := by
    intro t a b
    rw [State.lineBit_brk a]
    exact State.modLrx_congr (by simp only [Receiver.breakBit, if_true, if_neg (Nat.not_le.mpr b)])
  induction n with
  | zero => exact (State.line_bit h p true).trans (one s st le)
  | succ n ih =>
    rw [State.line_replicate_add, ih (by omega)]
    refine (State.line_bit (s := s.setRun p _) h p true).trans ?_
    rw [one _ (by rw [State.setRun_lrx]; exact st) (by rw [State.setRun_lrx]; exact le)]
    simp only [State.setRun_lrx]
    simp only [State.setRun, State.modLrx_modLrx]
    rfl

/-- 11 bit times of mark end BREAK (R151). -/
theorem State.line_mark_ends_brk {s : State} {p : Port} (h : s.resetLine = .released) (st : (s.lrx.get p).state = .brk)
    (n : Nat) (le : breakEndBits ≤ (s.lrx.get p).run.marks + (n + 1)) :
    s.line p (List.replicate (n + 1) true) =
      s.modLrx p (fun x => { x with state := .hunting, run := .none, character := [] }) := by
  induction n with
  | zero =>
    rw [show List.replicate (0 + 1) true = [true] from rfl, State.line_bit h, State.lineBit_brk st]
    exact State.modLrx_congr (by simp only [Receiver.breakBit, if_true, if_pos le])
  | succ n ih =>
    rw [State.line_replicate_add]
    by_cases e : breakEndBits ≤ (s.lrx.get p).run.marks + (n + 1)
    · rw [ih e]
      refine (State.line_mark_idle (s := s.modLrx p _) h ?_ ?_ 0).trans ?_
      · simp
      · simp
      · simp only [State.setRun, State.modLrx_modLrx]
    · rw [State.line_mark_brk h st n (Nat.not_le.mp e)]
      refine (State.line_bit (s := s.setRun p _) h p true).trans ?_
      rw [State.lineBit_brk (by rw [State.setRun_lrx]; exact st)]
      simp only [State.setRun, State.modLrx_modLrx]
      exact State.modLrx_congr (by simp only [Receiver.breakBit, if_true, LineRun.marks]; exact if_pos le)

/-! ## A receiver that is ready for a character -/

theorem levelCommands_after (p : Port) (levels : List Bool) (s : State) :
    s.after (levelCommands p levels) = s.line p levels := by
  induction levels generalizing s with
  | nil => exact (s.line_nil p).symm
  | cons l ls ih =>
    have e : s.after (levelCommands p (l :: ls)) = (s.line p [l]).after (levelCommands p ls) := by cases l <;> rfl
    rw [e, ih, ← State.line_cons]

/-- The commands that say of the line what a character is come to the levels of that character. -/
theorem lineCommands_after (p : Port) (idle : Nat) (levels : List Bool) (s : State) :
    s.after (lineCommands p idle levels) = s.line p (List.replicate idle true ++ levels) := by
  unfold lineCommands
  split
  · subst idle
    exact levelCommands_after p levels s
  · have e : s.after ([Instr.breakEnd p idle] ++ levelCommands p levels) =
        (s.line p (List.replicate idle true)).after (levelCommands p levels) := rfl
    rw [e, levelCommands_after, State.line_append]

/-- A receiver that listens takes the character (R145). -/
theorem State.Listens.character {s : State} {p : Port} {idle : Nat} (h : s.Listens p idle) (mark : Bool) (b : Byte)
    (stop : Bool) : s.character p idle (mark, b) stop =
      ((s.setRun p (if idle = 0 then (s.lrx.get p).run else .none)).classify p mark b stop).setRun p
        ((characterLevels (mark, b) stop).foldl LineRun.next .none) := by
  obtain ⟨r, st, c, m⟩ := h
  unfold State.character
  rw [State.line_append]
  cases idle with
  | zero =>
    have k : s.setRun p (s.lrx.get p).run = s := State.modLrx_id rfl
    have w : (s.lrx.get p).run.atSpace = false := by
      cases e : (s.lrx.get p).run with
      | space n => exact absurd (m n e) (by decide)
      | none => rfl
      | mark n => rfl
    simp only [List.replicate_zero, State.line_nil, if_true, k]
    exact State.line_character r st c w _ _ _
  | succ n =>
    rw [State.line_mark_idle r st c]
    simp only [Nat.succ_ne_zero, if_false]
    refine State.line_character (s := s.setRun p .none) r ?_ ?_ ?_ _ _ _ <;> rw [State.setRun_lrx]
    · exact st
    · exact c
    · rfl

/-- The idle mark before a character ends BREAK (R151). -/
theorem State.BreakOver.line {s : State} {p : Port} {idle : Nat} (h : s.BreakOver p idle) :
    s.line p (List.replicate idle true) =
      s.modLrx p (fun x => { x with state := .hunting, run := .none, character := [] }) := by
  obtain ⟨r, st, i, e⟩ := h
  obtain ⟨n, rfl⟩ : ∃ n, idle = n + 1 := ⟨idle - 1, by omega⟩
  refine State.line_mark_ends_brk r st n ?_
  unfold breakEndBits
  rcases e with e | ⟨k, e, f⟩
  · omega
  · rw [e]
    exact f

end Sys2Proof.Machine
end

