-- ==== Sys2Proof/Laws/Requests.lean ====
section
/-! SUPPORT. Taking a request: what a port unit that takes a frame hands to the request's own meaning, and what the reply
leaves behind. The statements about requests cite these instead of unfolding the taking. -/

namespace Sys2Proof.Machine

/-- The frame that a port unit can take is takeable. -/
theorem State.CanTake.takeable {s : State} {p : Port} {x : Session} {f : Frame} (h : s.CanTake p x f)
    (hx : x ≠ .closing) : s.takeable p = some f := by
  simp [State.takeable, h.session, hx, h.free, h.quiet, h.room, h.held]

theorem State.Takes.canTake {s : State} {p : Port} {k : Kind} {f : Frame} (h : s.Takes p k f) : s.CanTake p .up f :=
  ⟨h.held, h.up, h.free, h.quiet, h.room, h.sends⟩

/-- A port with no EXECUTING request has handed nothing over. -/
theorem State.handed_of_free {s : State} {p : Port} (h : (s.pu.get p).executing = none) : s.handed p = none := by
  simp [State.handed, State.phase, h]

theorem State.Takes.handed {s : State} {p : Port} {k : Kind} {f : Frame} (h : s.Takes p k f) : s.handed p = none :=
  State.handed_of_free h.free

/-- A request that passes the checks of 08 TABLE 3 is decided by its own meaning, right after it has been begun. -/
theorem State.Takes.takeRequest {s : State} {p : Port} {k : Kind} {f : Frame} (h : s.Takes p k f)
    (body : Frame → State → State) : s.takeRequest p k body = body f (s.beginRequest p k f.tag) := by
  have hp : ¬ (k.isSupervisor = true ∧ s.isSupervisor p = false) := by
    rintro ⟨a, b⟩
    rw [h.permitted a] at b
    exact absurd b (by simp)
  simp [State.takeRequest, h.canTake.takeable (by simp), h.kind, h.up, State.takeUp, h.notOpen, h.length, h.tag, hp]

/-! ## The state in which a request is decided -/

@[simp] theorem State.beginRequest_leaseUnit (s : State) (p : Port) (k : Kind) (tag : Byte) :
    (s.beginRequest p k tag).leaseUnit = s.leaseUnit := rfl
@[simp] theorem State.beginRequest_engine (s : State) (p : Port) (k : Kind) (tag : Byte) :
    (s.beginRequest p k tag).engine = s.engine := rfl
@[simp] theorem State.beginRequest_mail (s : State) (p : Port) (k : Kind) (tag : Byte) :
    (s.beginRequest p k tag).mail = s.mail := rfl
@[simp] theorem State.beginRequest_straps (s : State) (p : Port) (k : Kind) (tag : Byte) :
    (s.beginRequest p k tag).straps = s.straps := rfl
@[simp] theorem State.beginRequest_arbiter (s : State) (p : Port) (k : Kind) (tag : Byte) :
    (s.beginRequest p k tag).arbiter = s.arbiter := rfl
@[simp] theorem State.beginRequest_store (s : State) (p : Port) (k : Kind) (tag : Byte) :
    (s.beginRequest p k tag).store = s.store := rfl

@[simp] theorem State.beginRequest_pu (s : State) (p : Port) (k : Kind) (tag : Byte) :
    (s.beginRequest p k tag).pu = s.pu.set p { s.pu.get p with
      executing := some { tag := tag, kind := k, reserved := true, phase := .deciding } } := rfl

@[simp] theorem State.beginRequest_ltx (s : State) (p : Port) (k : Kind) (tag : Byte) :
    (s.beginRequest p k tag).ltx = s.ltx.set p (s.ltx.get p).reserve := rfl

@[simp] theorem State.beginRequest_lrx (s : State) (p : Port) (k : Kind) (tag : Byte) :
    (s.beginRequest p k tag).lrx = s.lrx.set p { s.lrx.get p with held := none } := rfl

/-- A request begun that goes into another phase: handing over, SETTLING, awaiting admission. -/
theorem State.beginRequest_setPhase (s : State) (p : Port) (k : Kind) (f : Frame) (x : Phase) :
    (s.beginRequest p k f.tag).setPhase p x = s.executingIn p k f x := by
  simp [State.beginRequest, State.setPhase, State.executingIn, State.modPu]

/-! ## Answering -/

theorem Transmitter.queueReply_reserve {t : Transmitter} (h : t.discard = false) (f : Frame) :
    t.reserve.queueReply f = t.append f := by
  simp [Transmitter.reserve, Transmitter.queueReply, Transmitter.append, h]

theorem Transmitter.queueDirect_room {t : Transmitter} (h : t.discard = false) (r : t.hasRoom = true) (f : Frame) :
    t.queueDirect f = t.append f := by
  simp [Transmitter.queueDirect, h, r]

theorem PortUnit.executing_none {u : PortUnit} (h : u.executing = none) : { u with executing := none } = u := by
  cases u
  simp_all

/-- An answer does not read the phase it ends. -/
theorem State.setPhase_answer (s : State) (p : Port) (f : Phase) (r : Result) (fs : List Byte) :
    (s.setPhase p f).answer p r fs = s.answer p r fs := by
  cases h : (s.pu.get p).executing with
  | none =>
    have e : { s.pu.get p with executing := none } = s.pu.get p := PortUnit.executing_none h
    simp [State.answer, State.setPhase, State.modPu, h, e]
  | some x => simp [State.answer, State.setPhase, State.modPu, State.modLtx, h]

/-- A request that is answered at once leaves its reply behind and nothing else. -/
theorem State.beginRequest_answer {s : State} {p : Port} (free : (s.pu.get p).executing = none)
    (sends : (s.ltx.get p).discard = false) (k : Kind) (tag : Byte) (r : Result) (fs : List Byte) :
    (s.beginRequest p k tag).answer p r fs = s.served p (replyFrame k.code tag r fs) := by
  have e : { s.pu.get p with executing := none } = s.pu.get p := PortUnit.executing_none free
  simp [State.answer, State.beginRequest, State.served, State.modLtx, State.modPu, State.emptySlot, State.modLrx,
    Transmitter.queueReply_reserve sends, e]

theorem State.Takes.answer {s : State} {p : Port} {k : Kind} {f : Frame} (h : s.Takes p k f) (r : Result)
    (fs : List Byte) : (s.beginRequest p k f.tag).answer p r fs = s.served p (f.reply k r fs) :=
  State.beginRequest_answer h.free h.sends k f.tag r fs

/-- A frame answered directly in DOWN leaves its reply behind and nothing else. -/
theorem State.CanTake.answerDirect {s : State} {p : Port} {x : Session} {f : Frame} (h : s.CanTake p x f)
    (kind tag : Byte) (r : Result) (fs : List Byte) :
    (s.emptySlot p).answerDirect p kind tag r fs = s.served p (replyFrame kind tag r fs) := by
  have e := Transmitter.queueDirect_room h.sends h.room (replyFrame kind tag r fs)
  simp [State.answerDirect, State.served, State.modLtx, State.emptySlot, State.modLrx, e]

/-- An answer does not read the lease unit. -/
theorem State.answer_modLease (s : State) (f : LeaseUnit → LeaseUnit) (p : Port) (r : Result) (fs : List Byte) :
    (s.modLease f).answer p r fs = (s.answer p r fs).modLease f := by
  unfold State.answer
  rw [State.modLease_pu]
  split <;> rfl

/-- An answer does not read the job engine. -/
theorem State.answer_modEngine (s : State) (f : JobEngine → JobEngine) (p : Port) (r : Result) (fs : List Byte) :
    (s.modEngine f).answer p r fs = (s.answer p r fs).modEngine f := by
  unfold State.answer
  rw [State.modEngine_pu]
  split <;> rfl

/-- An answer does not read what a change of the port unit leaves of its in-flight table. -/
theorem State.answer_modPu (s : State) (f : PortUnit → PortUnit) (p : Port) (r : Result) (fs : List Byte)
    (hf : ∀ u, (f u).executing = u.executing)
    (hc : ∀ u : PortUnit, f { u with executing := none } = { f u with executing := none }) :
    (s.modPu p f).answer p r fs = (s.answer p r fs).modPu p f := by
  unfold State.answer
  rw [State.modPu_pu, PerPort.get_set_self, hf]
  split
  · rfl
  · simp [State.modLtx, State.modPu, hc]

end Sys2Proof.Machine
end

