-- ==== Sys2Proof/Laws/Scan.lean ====
section
/-! SUPPORT. What a retry and a scan do to leases, settling requests and waiters: a retry leaves them, and a scan grants or
marks waiters and does nothing else to them. -/

namespace Sys2Proof.Machine

/-! ## Outcomes reach no lease record -/

theorem State.answer_leaseUnit (s : State) (p : Port) (r : Result) (fs : List Byte) :
    (s.answer p r fs).leaseUnit = s.leaseUnit := by
  unfold State.answer
  split <;> rfl

theorem State.answerIn_leaseUnit (s : State) (p : Port) (f : Phase) (r : Result) (fs : List Byte) :
    (s.answerIn p f r fs).leaseUnit = s.leaseUnit := by
  unfold State.answerIn
  split
  · exact s.answer_leaseUnit p r fs
  · rfl

theorem State.portDecision_leaseUnit (s : State) (p : Port) (d : Decision) :
    (s.portDecision p d).leaseUnit = s.leaseUnit := by
  unfold State.portDecision
  split
  · rfl
  · split
    · exact State.answerIn_leaseUnit ..
    · rfl

theorem State.selectJob_leaseUnit (s : State) : s.selectJob.leaseUnit = s.leaseUnit := by
  unfold State.selectJob
  split
  · rfl
  · split <;> rfl

theorem State.takeEngineDecision_leaseUnit (s : State) : s.takeEngineDecision.leaseUnit = s.leaseUnit := by
  unfold State.takeEngineDecision State.engineDecision
  split
  · split
    · rfl
    · split
      · rfl
      · split
        · unfold State.blockJob
          exact State.selectJob_leaseUnit _
        · rfl
  · rfl

theorem State.deliver_leaseUnit (s : State) (late : Bool) (r : Requester) (d : Decision) :
    (s.deliver late r d).leaseUnit = s.leaseUnit := by
  unfold State.deliver
  split
  · rfl
  · split
    · split
      · rfl
      · exact State.portDecision_leaseUnit ..
    · dsimp only
      split
      · rfl
      · exact State.takeEngineDecision_leaseUnit _

/-! ## A retry -/

/-- Leases, settling requests and wait queue are the same. -/
structure LeaseUnit.TablesKept (u v : LeaseUnit) : Prop where
  leases : v.leases = u.leases
  settling : v.settling = u.settling
  queue : v.queue = u.queue
  lastId : v.lastId = u.lastId

theorem State.retryOne_tables (late : Bool) (s : State) (a : Access) :
    s.leaseUnit.TablesKept (s.retryOne late a).leaseUnit := by
  unfold State.retryOne
  split
  · exact ⟨rfl, rfl, rfl, rfl⟩
  · unfold State.concludeAdmission
    split <;> rw [State.deliver_leaseUnit] <;> exact ⟨rfl, rfl, rfl, rfl⟩

/-- A retry changes claims and the held set alone (R50). -/
theorem State.retry_tables (s : State) (late : Bool) (r : Range) :
    s.leaseUnit.TablesKept (s.retry late r).leaseUnit :=
  State.each_induct (fun t => s.leaseUnit.TablesKept t.leaseUnit) _ _
    (fun t a _ h => let k := State.retryOne_tables late t a
      ⟨k.1.trans h.1, k.2.trans h.2, k.3.trans h.3, k.4.trans h.4⟩) s ⟨rfl, rfl, rfl, rfl⟩

/-! ## A scan -/

/-- A grant from the queue makes the waiter's lease and leaves the queue and the settling requests (R32). -/
theorem State.grantWaiter_tables (s : State) (late : Bool) (w : Waiter) :
    (s.grantWaiter late w).leaseUnit.leases = s.leaseUnit.leases ++ [w.lease s.leaseUnit.nextLeaseId] ∧
    (s.grantWaiter late w).leaseUnit.settling = s.leaseUnit.settling ∧
    (s.grantWaiter late w).leaseUnit.queue = s.leaseUnit.queue := by
  unfold State.grantWaiter
  dsimp only
  split
  · exact ⟨rfl, rfl, rfl⟩
  · have k := State.retry_tables ((s.modLease (fun u => u.grant w.port w.request)).answerWaiter w.port w.tag .ok
      (w.request.grantFields s.leaseUnit.nextLeaseId)) late w.request.range
    exact ⟨k.1, k.2, k.3⟩

/-- The pass over the rest of a queue. -/
theorem State.scanFrom_tables (late : Bool) : ∀ (rest older : List Waiter) (s : State),
    s.leaseUnit.queue = older ++ rest →
    (State.scanFrom late rest older s).leaseUnit.settling = s.leaseUnit.settling ∧
    ∃ granted q, (State.scanFrom late rest older s).leaseUnit.leases = s.leaseUnit.leases ++ granted ∧
      (State.scanFrom late rest older s).leaseUnit.queue = older ++ q ∧
      (∀ l ∈ granted, ∃ w ∈ rest, l = w.lease l.id) ∧
      (q.map Waiter.unmarked).Sublist (rest.map Waiter.unmarked) ∧
      ∀ w ∈ rest, w.StaysIn q ∨ ∃ l ∈ granted, l = w.lease l.id := by
  intro rest
  induction rest with
  | nil =>
    intro older s h
    refine ⟨rfl, [], [], (List.append_nil _).symm, h, ?_, List.Sublist.refl _, ?_⟩
    · intro l hl; cases hl
    · intro w hw; cases hw
  | cons w rest ih =>
    intro older s h
    unfold State.scanFrom
    split
    · obtain ⟨a, g, q, b, c, d, e, f⟩ := ih (older ++ [w]) s (by rw [h]; simp)
      refine ⟨a, g, w :: q, b, by rw [c]; simp, fun l hl => ?_, ?_, fun v hv => ?_⟩
      · obtain ⟨v, hv, e⟩ := d l hl
        exact ⟨v, .tail _ hv, e⟩
      · exact List.Sublist.cons_cons _ e
      · cases hv with
        | head => exact .inl ⟨w.settling, .head _, fun _ => rfl⟩
        | tail _ hv => exact (f v hv).imp (fun ⟨m, x, y⟩ => ⟨m, .tail _ x, y⟩) id
    · rename_i claims verdict
      have clear : w.settling = none := by
        unfold LeaseUnit.verdict at verdict
        split at verdict
        · split at verdict <;> cases verdict
        · assumption
      dsimp only
      obtain ⟨a, g, q, b, c, d, e, f⟩ := ih (older ++ [{ w with settling := some claims }])
        (s.setQueue (older ++ { w with settling := some claims } :: rest)) (by simp [State.setQueue])
      refine ⟨a, g, { w with settling := some claims } :: q, b, by rw [c]; simp, fun l hl => ?_, ?_, fun v hv => ?_⟩
      · obtain ⟨v, hv, e⟩ := d l hl
        exact ⟨v, .tail _ hv, e⟩
      · exact List.Sublist.cons_cons _ e
      · cases hv with
        | head => exact .inl ⟨some claims, .head _, fun n => absurd clear n⟩
        | tail _ hv => exact (f v hv).imp (fun ⟨m, x, y⟩ => ⟨m, .tail _ x, y⟩) id
    · obtain ⟨x, y, z⟩ := State.grantWaiter_tables (s.setQueue (older ++ rest)) late w
      obtain ⟨a, g, q, b, c, d, e, f⟩ := ih older ((s.setQueue (older ++ rest)).grantWaiter late w) z
      refine ⟨a.trans y, w.lease (s.setQueue (older ++ rest)).leaseUnit.nextLeaseId :: g, q, ?_, c, fun l hl => ?_, ?_,
        fun v hv => ?_⟩
      · rw [b, x, List.append_assoc]
        rfl
      · cases hl with
        | head => exact ⟨w, .head _, rfl⟩
        | tail _ hl =>
          obtain ⟨v, hv, e⟩ := d l hl
          exact ⟨v, .tail _ hv, e⟩
      · exact List.Sublist.cons _ e
      · cases hv with
        | head => exact .inr ⟨_, .head _, rfl⟩
        | tail _ hv => exact (f v hv).imp id (fun ⟨l, m, n⟩ => ⟨l, .tail _ m, n⟩)

/-- Retries and one scan after them: leases, settling requests and waiters stand but for the scan's grants and marks. -/
theorem State.scan_onlyGrants (s : State) (late late' : Bool) (ranges : List Range) :
    s.leaseUnit.OnlyGrants (((s.each ranges (fun t r => t.retry late r)).scan late').leaseUnit) := by
  have k : s.leaseUnit.TablesKept (s.each ranges (fun t r => t.retry late r)).leaseUnit :=
    State.each_induct (fun t => s.leaseUnit.TablesKept t.leaseUnit) _ _
      (fun t r _ h => let k := t.retry_tables late r
        ⟨k.1.trans h.1, k.2.trans h.2, k.3.trans h.3, k.4.trans h.4⟩) s ⟨rfl, rfl, rfl, rfl⟩
  generalize s.each ranges (fun t r => t.retry late r) = t at k
  obtain ⟨a, g, q, b, c, d, e, f⟩ := State.scanFrom_tables late' t.leaseUnit.queue [] t rfl
  rw [show State.scanFrom late' t.leaseUnit.queue [] t = t.scan late' from rfl] at a b c
  rw [k.leases] at b
  rw [k.queue] at d e f
  rw [List.nil_append] at c
  exact ⟨⟨g, b, d⟩, a.trans k.settling, by rw [c]; exact e, fun w hw => (f w hw).imp
    (fun h => by rw [c]; exact h) (fun ⟨l, m, n⟩ => ⟨l, by rw [b]; exact List.mem_append_right _ m, n⟩)⟩

end Sys2Proof.Machine
end

