-- ==== Sys2Proof/Laws/Store.lean ====
section
/-! SUPPORT. The store: what a write changes, and that its canonical form is kept. -/

namespace Sys2Proof.Machine

theorem Memory.lookup_write_self (m : List Host.Cell) (a : Nat) (b : Byte) :
    Memory.lookup (Memory.write m a b) a = some b := by
  induction m with
  | nil => simp [Memory.write, Memory.lookup]
  | cons c m ih =>
    obtain ⟨c, x⟩ := c
    unfold Memory.write
    split
    · simp [Memory.lookup]
    · split
      · simp [Memory.lookup]
      · rename_i h
        simp [Memory.lookup, h, ih]

theorem Memory.lookup_write_ne (m : List Host.Cell) {a c : Nat} (b : Byte) (h : c ≠ a) :
    Memory.lookup (Memory.write m a b) c = Memory.lookup m c := by
  induction m with
  | nil => simp [Memory.write, Memory.lookup, h]
  | cons d m ih =>
    obtain ⟨d, x⟩ := d
    unfold Memory.write
    split
    · simp [Memory.lookup, h]
    · split
      · rename_i e
        simp [Memory.lookup, ← e, h]
      · simp [Memory.lookup, ih]

/-- A byte that no cell of the list names reads as before. -/
theorem Memory.lookup_writeAll_of_notMem (cells m : List Host.Cell) {a : Nat} (h : ∀ c ∈ cells, c.1 ≠ a) :
    Memory.lookup (Memory.writeAll m cells) a = Memory.lookup m a := by
  induction cells generalizing m with
  | nil => rfl
  | cons c cells ih =>
    have hc := h c List.mem_cons_self
    exact (ih (m := Memory.write m c.1 c.2) (fun d hd => h d (List.mem_cons_of_mem _ hd))).trans
      (Memory.lookup_write_ne m c.2 (Ne.symm hc))

/-- A byte after writes reads as before, or as a value that one of the cells gives it. -/
theorem Memory.lookup_writeAll (cells m : List Host.Cell) (a : Nat) :
    Memory.lookup (Memory.writeAll m cells) a = Memory.lookup m a ∨
      ∃ b, (a, b) ∈ cells ∧ Memory.lookup (Memory.writeAll m cells) a = some b := by
  induction cells generalizing m with
  | nil => exact .inl rfl
  | cons c cells ih =>
    rcases ih (Memory.write m c.1 c.2) with h | ⟨b, hb, h⟩
    · by_cases e : a = c.1
      · refine .inr ⟨c.2, by rw [e]; exact List.mem_cons_self, ?_⟩
        exact h.trans (by rw [e]; exact Memory.lookup_write_self m c.1 c.2)
      · exact .inl (h.trans (Memory.lookup_write_ne m c.2 e))
    · exact .inr ⟨b, List.mem_cons_of_mem _ hb, h⟩

theorem Memory.sortedFrom_mono {m : List Host.Cell} {i j : Nat} (h : Memory.sortedFrom j m = true) (ij : i ≤ j) :
    Memory.sortedFrom i m = true := by
  cases m with
  | nil => rfl
  | cons c m =>
    simp only [Memory.sortedFrom, Bool.and_eq_true, decide_eq_true_eq] at h ⊢
    exact ⟨Nat.le_trans ij h.1, h.2⟩

theorem Memory.sortedFrom_write {m : List Host.Cell} {low a : Nat} (b : Byte) (h : Memory.sortedFrom low m = true)
    (ha : low ≤ a) : Memory.sortedFrom low (Memory.write m a b) = true := by
  induction m generalizing low with
  | nil => simp [Memory.write, Memory.sortedFrom, ha]
  | cons c m ih =>
    obtain ⟨c, x⟩ := c
    simp only [Memory.sortedFrom, Bool.and_eq_true, decide_eq_true_eq] at h
    unfold Memory.write
    split
    · rename_i hac
      simp only [Memory.sortedFrom, Bool.and_eq_true, decide_eq_true_eq]
      exact ⟨ha, hac, h.2⟩
    · split
      · rename_i e
        subst e
        simp only [Memory.sortedFrom, Bool.and_eq_true, decide_eq_true_eq]
        exact ⟨ha, h.2⟩
      · simp only [Memory.sortedFrom, Bool.and_eq_true, decide_eq_true_eq]
        exact ⟨h.1, ih h.2 (by omega)⟩

theorem Memory.all_write {m : List Host.Cell} {a : Nat} (b : Byte) (P : Nat → Bool)
    (h : m.all (fun c => P c.1) = true) (ha : P a = true) : (Memory.write m a b).all (fun c => P c.1) = true := by
  induction m with
  | nil => simp [Memory.write, ha]
  | cons c m ih =>
    obtain ⟨c, x⟩ := c
    simp only [List.all_cons, Bool.and_eq_true] at h
    unfold Memory.write
    split
    · simp only [List.all_cons, Bool.and_eq_true]; exact ⟨ha, h.1, h.2⟩
    · split
      · simp only [List.all_cons, Bool.and_eq_true]; exact ⟨ha, h.2⟩
      · simp only [List.all_cons, Bool.and_eq_true]; exact ⟨h.1, ih h.2⟩

/-- A write to a store address keeps the canonical form. -/
theorem Memory.wf_write {m : List Host.Cell} {a : Nat} (b : Byte) (h : Memory.wf m = true) (ha : a < storeSize) :
    Memory.wf (Memory.write m a b) = true := by
  simp only [Memory.wf, Bool.and_eq_true] at h ⊢
  exact ⟨Memory.sortedFrom_write b h.1 (Nat.zero_le _),
    Memory.all_write b (fun n => decide (n < storeSize)) h.2 (by simpa using ha)⟩

/-- Writes to store addresses keep the canonical form. -/
theorem Memory.wf_writeAll {m cells : List Host.Cell} (h : Memory.wf m = true) (hc : ∀ c ∈ cells, c.1 < storeSize) :
    Memory.wf (Memory.writeAll m cells) = true := by
  induction cells generalizing m with
  | nil => exact h
  | cons c cells ih =>
    exact ih (Memory.wf_write c.2 h (hc c List.mem_cons_self)) (fun d hd => hc d (List.mem_cons_of_mem _ hd))

/-- The cells a turn writes stand at addresses of the turn. -/
theorem Turn.written_address (t : Turn) (s : State) : ∀ c ∈ t.written s, c.1 ∈ t.addresses := by
  intro c hc
  cases t with
  | read bs => simp [Turn.written] at hc
  | write bs data =>
    have h : (c.1, c.2) ∈ bs.zip data := hc
    exact (List.of_mem_zip h).1
  | compareAndWrite bs e n =>
    simp only [Turn.written] at hc
    split at hc
    · have h : (c.1, c.2) ∈ bs.zip n := hc
      exact (List.of_mem_zip h).1
    · simp at hc
  | copy src dst =>
    have h : (c.1, c.2) ∈ dst.zip (src.map s.storeByte) := hc
    exact List.mem_append_right _ (List.of_mem_zip h).1

/-- A turn inside the store keeps the canonical form. -/
theorem State.wf_writeTurn (s : State) (t : Turn) (h : Memory.wf s.store = true) (ht : t.inStore = true) :
    Memory.wf (s.writeTurn t).store = true := by
  refine Memory.wf_writeAll h (fun c hc => ?_)
  have hm := Turn.written_address t s c hc
  simpa using List.all_eq_true.mp ht c.1 hm

/-- A byte outside the cells a turn writes reads as before. -/
theorem State.storeByte_writeTurn (s : State) (t : Turn) {a : Nat} (h : ∀ c ∈ t.written s, c.1 ≠ a) :
    (s.writeTurn t).storeByte a = s.storeByte a := by
  simp only [State.storeByte, State.writeTurn, State.setStore_store, State.setStore_epoch]
  rw [Memory.lookup_writeAll_of_notMem _ _ h]

/-- The store right after reset is canonical. -/
theorem State.wf_reset : Memory.wf State.reset.store = true := rfl

end Sys2Proof.Machine
end

