-- ==== Sys2Proof/Laws/Transmit.lean ====
section
/-! SUPPORT. The transmit queue: what each of its operations does to its fields. -/

namespace Sys2Proof.Machine

/-- A frame that joins the tail, and the serializer that begins it where it was IDLE (R154). -/
theorem Transmitter.append_eq (t : Transmitter) (f : Frame) : t.append f =
    { t with queue := t.queue ++ [f], serializer := if t.serializer = .idle then .sending 0 0 else t.serializer } := by
  obtain ⟨q, r, x, d, n⟩ := t
  cases x <;> cases q <;> simp [Transmitter.append, Transmitter.start]

@[simp] theorem Transmitter.append_queue (t : Transmitter) (f : Frame) : (t.append f).queue = t.queue ++ [f] := by
  rw [Transmitter.append_eq]
@[simp] theorem Transmitter.append_reserved (t : Transmitter) (f : Frame) : (t.append f).reserved = t.reserved := by
  rw [Transmitter.append_eq]
@[simp] theorem Transmitter.append_discard (t : Transmitter) (f : Frame) : (t.append f).discard = t.discard := by
  rw [Transmitter.append_eq]
@[simp] theorem Transmitter.append_dropped (t : Transmitter) (f : Frame) : (t.append f).dropped = t.dropped := by
  rw [Transmitter.append_eq]

/-- The IDLE serializer begins the oldest frame; nothing else changes (R154). -/
theorem Transmitter.start_eq (t : Transmitter) : t.start =
    { t with serializer := if t.serializer = .idle ∧ t.queue ≠ [] then .sending 0 0 else t.serializer } := by
  obtain ⟨q, r, x, d, n⟩ := t
  cases x <;> cases q <;> simp [Transmitter.start]

/-- No operation of the queue lets frames and reservations exceed 8 where they did not (R153). -/
theorem Transmitter.queueReply_fits {t : Transmitter} (h : t.queue.length + t.reserved ≤ transmitQueueSize)
    (f : Frame) : (t.queueReply f).queue.length + (t.queueReply f).reserved ≤ transmitQueueSize := by
  unfold Transmitter.queueReply
  split
  · exact h
  · rename_i e
    rw [Transmitter.append_queue, Transmitter.append_reserved, List.length_append, List.length_singleton]
    have : t.reserved ≠ 0 := fun z => e (.inr z)
    dsimp only
    omega

theorem Transmitter.queueDirect_fits {t : Transmitter} (h : t.queue.length + t.reserved ≤ transmitQueueSize)
    (f : Frame) : (t.queueDirect f).queue.length + (t.queueDirect f).reserved ≤ transmitQueueSize := by
  unfold Transmitter.queueDirect
  split
  · exact h
  · rename_i e
    have r : t.hasRoom = true := by
      cases c : t.hasRoom
      · exact absurd (.inr c) e
      · rfl
    rw [Transmitter.hasRoom_iff] at r
    rw [Transmitter.append_queue, Transmitter.append_reserved, List.length_append, List.length_singleton]
    omega

theorem Transmitter.offer_fits {t : Transmitter} (h : t.queue.length + t.reserved ≤ transmitQueueSize)
    (s : Session) (m : NoticeMask) (n : NoticeKind) (fs : List Byte) :
    (t.offer s m n fs).queue.length + (t.offer s m n fs).reserved ≤ transmitQueueSize := by
  unfold Transmitter.offer
  split
  · exact h
  · split
    · exact h
    · split
      · exact h
      · rename_i e
        have r : t.hasRoom = true := by simpa using e
        rw [Transmitter.hasRoom_iff] at r
        rw [Transmitter.append_queue, Transmitter.append_reserved, List.length_append, List.length_singleton]
        omega

theorem Transmitter.release_fits {t : Transmitter} (h : t.queue.length + t.reserved ≤ transmitQueueSize) :
    t.release.queue.length + t.release.reserved ≤ transmitQueueSize := by
  unfold Transmitter.release
  split
  · exact h
  · dsimp only
    omega

theorem Transmitter.reserve_fits {t : Transmitter} (h : t.hasRoom = true) :
    t.reserve.queue.length + t.reserve.reserved ≤ transmitQueueSize := by
  rw [Transmitter.hasRoom_iff] at h
  simp only [Transmitter.reserve]
  omega

/-- The frame being sent leaves; reservations and discard mode stay (R154, R158). -/
theorem Transmitter.frameSent_fits {t : Transmitter} (h : t.queue.length + t.reserved ≤ transmitQueueSize) :
    t.frameSent.queue.length + t.frameSent.reserved ≤ transmitQueueSize := by
  unfold Transmitter.frameSent
  split
  all_goals first
    | exact h
    | (rw [Transmitter.start_eq]
       simp only [List.length_tail]
       omega)

end Sys2Proof.Machine
end

