-- ==== Sys2Proof/WellFormed.lean ====
section
/-! DEFINITION. Which command operands the spec's ranges allow. -/

namespace Sys2Proof

/-- The operand checks. A lease or job id is 1 to 255 (R1, R89); a run of the line is at least one bit time. Every other
operand is admitted at every value of its type. -/
def Instr.wellFormed : Instr → Bool
  | .leaseLapse id => decide (1 ≤ id ∧ id ≤ 255)
  | .blockLimitExpiry id => decide (1 ≤ id ∧ id ≤ 255)
  | .lineBreak _ bits => decide (1 ≤ bits)
  | .breakEnd _ bits => decide (1 ≤ bits)
  | .openSession _ | .close _ | .portStatus _ _ | .winOpen _ | .winClose _ | .winList _ | .read _ | .write _
  | .exchangeIf _ | .lease _ _ | .renew _ _ | .release _ _ | .withdraw _ _ | .leaseList _ _ | .jobCopy _ _
  | .jobFill _ _ | .jobSum _ _ | .jobPause _ _ | .jobResume _ _ | .jobCancel _ _ | .jobQuery _ _ | .devStatus _ _
  | .forceRelease _ _ | .forceCancel _ _ | .portDrop _ _ | .unknownKind _ | .frameComplete _ _ _
  | .lengthDiscard _ _ _ | .cutDiscard _ _ _ | .framingDiscard _ _ _ | .breakReport _ | .dropOrder _ | .teardownWaiterStep _ _
  | .teardownLeaseStep _ | .teardownJobStep _ | .teardownHistoryStep _ | .sessionDown _ | .downReport _
  | .msBoundary _ | .waitExpiry _ _ | .admissionRequest _ _ | .admissionWithdrawal _ _ | .claimEnd _ _
  | .turnRequest _ | .turnEnd | .leaseRemovalReport | .frameSent _ | .powerOn | .resetAssert _
  | .resetRelease _ _ _ | .assemblyBegins _ _ _ | .characterAppended _ _ _ => true

end Sys2Proof
end

