-- ==== Sys2Proof/Tests/Slice0.lean ====
section
/-! SUPPORT. Tests. First the operand checks with an ill-formed term for each; then, for each command, one step on a small
state; then, for each statement with hypotheses, concrete states and operands that meet them (`test_meets_…`), clause by
clause, at boundary values. Every test state is built from `up`, all four ports UP with three windows each. -/

open Sys2Proof Sys2Proof.Machine

namespace Sys2Proof.Tests

-- One test after the other: side by side, their kernel evaluations ask for more threads than the memory limit has room for.
set_option Elab.async false

/-! ## Operand checks -/

theorem test_refused_leaseLapse : (Instr.leaseLapse 0).wellFormed = false ∧ (Instr.leaseLapse 256).wellFormed = false ∧
    (Instr.leaseLapse 1).wellFormed = true ∧ (Instr.leaseLapse 255).wellFormed = true := by decide
theorem test_refused_blockLimitExpiry : (Instr.blockLimitExpiry 0).wellFormed = false ∧
    (Instr.blockLimitExpiry 256).wellFormed = false ∧ (Instr.blockLimitExpiry 255).wellFormed = true := by decide
theorem test_refused_lineBreak : (Instr.lineBreak .p0 0).wellFormed = false ∧
    (Instr.lineBreak .p0 1).wellFormed = true := by decide
theorem test_refused_breakEnd : (Instr.breakEnd .p0 0).wellFormed = false ∧
    (Instr.breakEnd .p0 1).wellFormed = true := by decide

/-! ## The test states -/

/-- 4 KB of the store, read and write. -/
def winA : Window := { base := 0, sizeCode := 1, repeatCode := 0, physical := 0, rights := .readWrite }
/-- 256 bytes seen twice, read only. -/
def winB : Window := { base := 0x010000, sizeCode := 0, repeatCode := 1, physical := 0x1000, rights := .readOnly }
/-- The last 256 bytes of the store seen eight times, write only. -/
def winC : Window := { base := 0x020000, sizeCode := 0, repeatCode := 3, physical := 0x3FF00, rights := .writeOnly }

def unitUp : PortUnit :=
  { PortUnit.reset with session := .up, mask := { lease := true, job := true, line := true }, label := [0x4E],
                        windows := #v[some winA, some winB, some winC, none, none, none, none, none] }

/-- All four ports UP, P0 the supervisor port. -/
def up : State := { State.reset with pu := .const unitUp, straps := { lr1 := false, lr0 := false, supv := true } }

/-- As after reset, but for the supervisor strap. -/
def down : State := { State.reset with straps := { lr1 := false, lr0 := false, supv := true } }

def hold (s : State) (p : Port) (f : Frame) : State := s.modLrx p (fun x => { x with held := some f })

def frame (k : Kind) (payload : List Byte) : Frame := { kind := k.code, tag := 7, payload := payload }

/-- A request of port P0 in its held slot. -/
def ask (k : Kind) (payload : List Byte) : State := hold up .p0 (frame k payload)

/-- A port with a request EXECUTING. -/
def executing (s : State) (p : Port) (k : Kind) (f : Phase) : State :=
  let x : Executing := { tag := 7, kind := k, reserved := true, phase := f }
  (s.modPu p (fun u => { u with executing := some x })).modLtx p Transmitter.reserve

/-- A request of a port that stands handed over. -/
def handing (s : State) (p : Port) (k : Kind) (h : Handed) : State := executing s p k (.handed h)

def nextOf : Host.Outcome State Fault Refusal → Option State
  | .next s => some s
  | _ => none

/-- The payloads of a port's transmit queue after a command. -/
def sent (c : Instr) (s : State) (p : Port) : List (List Byte) :=
  match nextOf (exec c s) with
  | some t => (t.ltx.get p).queue.map Frame.payload
  | none => []

/-- Some part of the state after a command. -/
def after {α : Type} (c : Instr) (s : State) (f : State → α) : Option α := (nextOf (exec c s)).map f

/-! ### Jobs -/

def jobRun : Job :=
  { id := 1, port := .p1, work := .copy 0x1000 0x1040 .descending, length := 100, done := 0, limit := 0,
    state := .running, stop := .none, stopWaiters := [] }
def jobQueued : Job :=
  { id := 2, port := .p0, work := .fill 0 [1, 2, 3, 4], length := 10, done := 0, limit := 5, state := .queued,
    stop := .none, stopWaiters := [] }
def jobPaused : Job :=
  { id := 3, port := .p0, work := .sum 0 0xFFFF, length := 64, done := 0, limit := 0, state := .paused, stop := .none,
    stopWaiters := [] }
def jobBlocked : Job :=
  { id := 4, port := .p2, work := .sum 0x100 0xFFFF, length := 64, done := 0, limit := 1, state := .blocked 9 (some 1),
    stop := .none, stopWaiters := [] }
/-- Its block limit has run out. -/
def jobDue : Job := { jobBlocked with state := .blocked 9 (some 0) }
def ended : EndRecord :=
  { id := 9, kind := .fill, outcome := .done, reason := .complete, done := 10, sum := 0 }

/-- The engine BUSY with `j`, in a chunk or awaiting admission, three other jobs in the table. -/
def engineOn (j : Job) (inChunk : Bool) : JobEngine :=
  { jobs := [j, jobQueued, jobPaused, jobBlocked], running := some { job := 1, chunk := j.nextChunk, inChunk := inChunk },
    lastId := 4, histories := { p0 := [ended], p1 := [], p2 := [], p3 := [] }, inbox := [] }

def working (j : Job) (inChunk : Bool) : State := { up with engine := engineOn j inChunk }
/-- The same with a block-limit expiry due. -/
def workingDue : State :=
  (working jobRun true).modEngine (fun e => { e with jobs := [jobRun, jobQueued, jobPaused, jobDue] })

/-- The engine IDLE, its jobs as given. -/
def resting (jobs : List Job) : State :=
  { up with engine := { JobEngine.reset with jobs := jobs, lastId := 4 } }

/-! ### Leases -/

def request (start length wait : Nat) (k : LeaseKind) : LeaseRequest :=
  { kind := k, range := { start := start, length := length }, logical := start, window := 0, life := 5, wait := wait }

def lease1 : Lease :=
  { id := 1, port := .p1, kind := .exclusive, range := { start := 0x100, length := 0x10 }, logical := 0x100, window := 0,
    life := 5 }
def lease2 : Lease :=
  { id := 2, port := .p0, kind := .shared, range := { start := 0x200, length := 0x10 }, logical := 0x200, window := 0,
    life := 5 }
def waiter : Waiter :=
  { port := .p0, tag := 3, request := request 0x100 8 9 .exclusive, wait := 9, settling := none }
def settled : Waiter :=
  { port := .p2, tag := 4, request := request 0x300 8 9 .exclusive, wait := 9, settling := some [.port .p3] }
def claim3 : Access :=
  { owner := .p3, origin := .read, reads := [{ start := 0x300, length := 4 }], writes := [] }

/-- Two leases, a waiter of P0, a settling waiter of P2 and the claim of P3 it waits for. -/
def leased : State :=
  let s := up.modLease (fun u => { u with leases := [lease1, lease2], lastId := 2, queue := [waiter, settled],
                                          claims := [claim3] })
  let t := (s.modPu .p0 (fun u => { u with waiting := [{ tag := 3, reserved := true }] })).modLtx .p0 Transmitter.reserve
  (t.modPu .p2 (fun u => { u with waiting := [{ tag := 4, reserved := true }] })).modLtx .p2 Transmitter.reserve

/-- The same with the lapse of lease 1 due; with the wait expiry of P0's waiter due. -/
def lapsing : State := leased.modLease (fun u => { u with leases := [{ lease1 with life := 0 }, lease2] })
def expiring : State := leased.modLease (fun u => { u with queue := [{ waiter with wait := 0 }, settled] })

/-! ## Meeting the conditions of a taking -/

def takesB (s : State) (p : Port) (k : Kind) (f : Frame) : Bool :=
  decide (s.takeable p = some f) && decide ((s.pu.get p).session = .up) && decide ((s.ltx.get p).discard = false) &&
  decide (f.kind = k.code) && decide (k ≠ .openSession) && lengthMatches k f.payload && !s.tagInUse p f.tag &&
  (!k.isSupervisor || s.isSupervisor p)

theorem takeable_parts {s : State} {p : Port} {f : Frame} (h : s.takeable p = some f) :
    (s.lrx.get p).held = some f ∧ (s.pu.get p).executing = none ∧ (s.pu.get p).gather = none ∧
    (s.ltx.get p).hasRoom = true := by
  unfold State.takeable at h
  split at h
  · rename_i c
    exact ⟨h, c.2.1, c.2.2.1, c.2.2.2⟩
  · exact absurd h (by simp)

theorem takes_of {s : State} {p : Port} {k : Kind} {f : Frame} (h : takesB s p k f = true) : s.Takes p k f := by
  simp only [takesB, Bool.and_eq_true, decide_eq_true_eq, Bool.not_eq_true', Bool.or_eq_true] at h
  obtain ⟨⟨⟨⟨⟨⟨⟨a, b⟩, c⟩, d⟩, e⟩, g⟩, i⟩, j⟩ := h
  obtain ⟨w, x, y, z⟩ := takeable_parts a
  refine ⟨w, b, x, y, z, c, d, e, g, i, fun q => ?_⟩
  rcases j with j | j
  · rw [q] at j
    exact absurd j (by simp)
  · exact j

theorem canTake_of {s : State} {p : Port} {x : Session} {f : Frame}
    (h : s.takeable p = some f ∧ (s.pu.get p).session = x ∧ (s.ltx.get p).discard = false) : s.CanTake p x f := by
  obtain ⟨a, b, c⟩ := h
  obtain ⟨w, y, z, r⟩ := takeable_parts a
  exact ⟨w, b, y, z, r, c⟩

/-! ## One step of each command -/

def rd (a n : Nat) : List Byte := fieldOf 3 a ++ fieldOf 2 n

/-- READ and WRITE (R63, R65): count 0, count 1025, unmapped, no right, and one that passes. -/
theorem test_read : ([rd 0 0, rd 0 1025, rd 0x1000 1, rd 0x020000 1].map (fun b => sent (.read .p0) (ask .read b) .p0) =
      [[[3]], [[3]], [[7]], [[8]]]) ∧
    after (.read .p0) (ask .read (rd 0x0100F0 0x20)) (fun t => (t.mail.get (.port .p0)).request) =
      some (some { owner := .p0, origin := .read, writes := [],
                   reads := [{ start := 0x10F0, length := 0x10 }, { start := 0x1000, length := 0x10 }] }) := by
  decide +kernel
theorem test_write : sent (.write .p0) (ask .write (rd 0x010000 1 ++ [5])) .p0 = [[8]] ∧
    after (.write .p0) (ask .write (rd 0x0207FF 1 ++ [5])) (fun t => (t.mail.get (.port .p0)).request) =
      some (some { owner := .p0, origin := .write, reads := [], writes := [{ start := 0x3FFFF, length := 1 }] }) := by
  decide +kernel
/-- EXCHANGE-IF (R68): width 3, a value above its width, misaligned, no right, and one that passes. -/
def exch (a w : Nat) (e n : Nat) : List Byte := fieldOf 3 a ++ fieldOf 1 w ++ fieldOf 4 e ++ fieldOf 4 n
theorem test_exchangeIf : ([exch 0 3 0 0, exch 0 1 0x100 0, exch 1 2 0 0, exch 0x010000 2 0 0].map
      (fun b => sent (.exchangeIf .p0) (ask .exchangeIf b) .p0) = [[[3]], [[3]], [[0xA]], [[8]]]) ∧
    after (.exchangeIf .p0) (ask .exchangeIf (exch 4 2 0x1234 0x5678)) (fun t => (t.pu.get .p0).operation.map
      (fun o => (o.operation, o.turn))) =
      some (some (.exchangeIf [0x12, 0x34] [0x56, 0x78], .compareAndWrite [4, 5] [0x12, 0x34] [0x56, 0x78])) := by
  decide +kernel

/-- OPEN (R133): revision, mask, label; then the reply. -/
theorem test_openSession : ([[2, 0, 0], [1, 8, 0], [1, 7, 17] ++ List.replicate 17 0x41].map
      (fun b => sent (.openSession .p0) (hold down .p0 (frame .openSession b)) .p0) = [[[3]], [[3]], [[3]]]) ∧
    sent (.openSession .p0) (hold down .p0 (frame .openSession [1, 7, 1, 0x41])) .p0 = [[0, 0, 1, 1]] := by
  decide +kernel
theorem test_close : after (.close .p0) (ask .close []) (fun t => (t.pu.get .p0).session) = some .closing := by
  decide +kernel
/-- PORT-STATUS (R135): state UP, no counts, three windows. -/
theorem test_portStatus : sent (.portStatus .p0 false) (ask .portStatus []) .p0 =
    [[0, 1, 0, 0, 0, 0, 0, 0, 0, 0, 0, 0, 0, 0, 3, 0, 0, 0]] := by decide +kernel
theorem test_devStatus : (sent (.devStatus .p0 false) (ask .devStatus []) .p0).map List.length = [91] := by
  decide +kernel

def wo (i base size times physical rights : Nat) : List Byte :=
  fieldOf 1 i ++ fieldOf 3 base ++ fieldOf 1 size ++ fieldOf 1 times ++ fieldOf 3 physical ++ fieldOf 1 rights
/-- WIN-OPEN (R81): the checks in order, then a window at the top of both spaces. -/
theorem test_winOpen : ([wo 8 0 0 0 0 1, wo 0 0 0 0 0 1, wo 3 0 0 0 0 0, wo 3 0 4 0 0 1, wo 3 0 0 4 0 1,
      wo 3 0xFFFF00 0 1 0 1, wo 3 0x100000 0 0 0x3FF01 1, wo 3 0x100001 0 0 0 1, wo 3 0x0FFF 0 0 0 1,
      wo 3 0x000F00 0 0 0 1].map (fun b => sent (.winOpen .p0) (ask .winOpen b) .p0) =
      [[[3]], [[5]], [[3]], [[3]], [[3]], [[3]], [[3]], [[0xA]], [[0xA]], [[0xB]]]) ∧
    sent (.winOpen .p0) (ask .winOpen (wo 7 0xFFFF00 0 0 0x3FF00 3)) .p0 = [[0, 7]] := by decide +kernel
theorem test_winClose : [[8], [3], [0]].map (fun b => sent (.winClose .p0) (ask .winClose b) .p0) =
    [[[3]], [[5]], [[0, 0]]] := by decide +kernel
theorem test_winList : (sent (.winList .p0) (ask .winList []) .p0).map (List.take 21) =
    [[0, 1, 0, 0, 0, 1, 0, 0, 0, 0, 3, 1, 1, 0, 0, 0, 1, 0, 0x10, 0, 1]] := by decide +kernel

def le (w start length kind life wait : Nat) : List Byte :=
  fieldOf 1 w ++ fieldOf 3 start ++ fieldOf 3 length ++ fieldOf 1 kind ++ fieldOf 2 life ++ fieldOf 2 wait
/-- LEASE (R5, R13): the checks in order, then a grant of id 1. -/
theorem test_lease : ([le 8 0 1 0 1 0, le 0 0 1 2 1 0, le 0 0 0 0 1 0, le 0 0 65537 0 1 0, le 0 0 1 0 0 0,
      le 0 0 1 0 60001 0, le 0 0 1 0 1 60001, le 0 0x1000 1 0 1 0, le 3 0 1 0 1 0, le 1 0x0100FF 2 1 1 0,
      le 1 0x010000 1 0 1 0, le 2 0x020000 1 1 1 0].map (fun b => sent (.lease .p0 false) (ask .lease b) .p0) =
      [[[3]], [[3]], [[3]], [[3]], [[3]], [[3]], [[3]], [[7]], [[7]], [[9]], [[8]], [[8]]]) ∧
    sent (.lease .p0 false) (ask .lease (le 0 0xFFF 1 1 60000 60000)) .p0 = [[0, 1, 1, 0xEA, 0x60]] := by
  decide +kernel

/-- The state `leased` with a request of P0 held. -/
def askLeased (k : Kind) (payload : List Byte) : State := hold leased .p0 (frame k payload)

theorem test_lease_decisions : ([le 0 0x200 1 0 1 0, le 0 0x108 1 0 1 0, le 0 0x109 1 0 1 1].map
      (fun b => sent (.lease .p0 false) (askLeased .lease b) .p0) = [[[0xB]], [[0xD, 1, 1]], []]) ∧
    after (.lease .p0 false) (askLeased .lease (le 0 0x109 1 0 1 1)) (fun t => t.leaseUnit.queue.length) = some 3 := by
  decide +kernel
theorem test_renew : [[0, 0, 1], [1, 0, 0], [1, 0xEA, 0x61], [1, 0, 1], [2, 0xEA, 0x60]].map
      (fun b => sent (.renew .p0 false) (askLeased .renew b) .p0) =
      [[[3]], [[3]], [[3]], [[0x10]], [[0, 2, 0xEA, 0x60]]] := by decide +kernel
theorem test_release : [[0], [1], [2]].map (fun b => sent (.release .p0 false) (askLeased .release b) .p0) =
    [[[3]], [[0x10]], [[0, 2]]] := by decide +kernel
theorem test_withdraw : [[4], [3]].map (fun b => sent (.withdraw .p0 false) (askLeased .withdraw b) .p0) =
    [[[0x10]], [[0x11], [0]]] := by decide +kernel
theorem test_leaseList : sent (.leaseList .p0 false) (askLeased .leaseList []) .p0 =
    [[0, 2, 0, 2, 1, 0, 0, 2, 0, 0, 0, 0x10, 0, 5, 1, 3, 0, 0, 0, 1, 0, 0, 0, 8, 0, 9]] := by decide +kernel
/-- FORCE-RELEASE (R171): P1 is told of its lease, and the waiter of P0 is granted. -/
theorem test_forceRelease : [[0], [3], [1]].map (fun b => sent (.forceRelease .p0 false) (askLeased .forceRelease b) .p0) =
      [[[3]], [[0x10]], [[0, 1, 1], [0, 3, 0, 0, 5]]] ∧
    sent (.forceRelease .p0 false) (askLeased .forceRelease [1]) .p1 = [[1]] := by decide +kernel
theorem test_leaseLapse : sent (.leaseLapse 1) lapsing .p1 = [[1]] ∧ sent (.leaseLapse 1) lapsing .p0 = [[0, 3, 0, 0, 5]] ∧
    after (.leaseLapse 2) leased id = some leased := by decide +kernel
theorem test_waitExpiry : sent (.waitExpiry .p0 3) expiring .p0 = [[0xF]] ∧
    after (.waitExpiry .p2 4) leased id = some leased := by decide +kernel
/-- What is due comes first (R177, log 5): a RENEW finds no lapsed lease, a WITHDRAW no waiter timed out, a LEASE-LIST
reports neither. -/
theorem test_due_first : sent (.renew .p0 false) (hold (lapsing.modLease (fun u => { u with
      leases := [lease1, { lease2 with life := 0 }] })) .p0 (frame .renew [2, 0, 9])) .p0 = [[2], [0x10]] ∧
    sent (.withdraw .p0 false) (hold expiring .p0 (frame .withdraw [3])) .p0 = [[0xF], [0x10]] ∧
    (sent (.leaseList .p1 false) (hold lapsing .p1 (frame .leaseList [])) .p1) = [[1], [0, 0]] := by decide +kernel

def co (a b n limit : Nat) : List Byte := fieldOf 3 a ++ fieldOf 3 b ++ fieldOf 3 n ++ fieldOf 2 limit
/-- JOB-COPY (R92, R93): the checks in order, the source first, then acceptance under id 1 and its first chunk. -/
theorem test_jobCopy : ([co 0 0 0 0, co 0 0 65537 0, co 0 0 1 60001, co 0x1000 0 1 0, co 0x0100FF 0x1000 2 0,
      co 0 0x1000 1 0, co 0x020000 0 1 0, co 0 0x010000 1 0].map (fun b => sent (.jobCopy .p0 false) (ask .jobCopy b) .p0) =
      [[[3]], [[3]], [[3]], [[7]], [[9]], [[7]], [[8]], [[8]]]) ∧
    after (.jobCopy .p0 false) (ask .jobCopy (co 0 0x40 100 60000)) (fun t => (t.mail.get .engine).request) =
      some (some { owner := .p0, origin := .chunk 1, reads := [{ start := 36, length := 64 }],
                   writes := [{ start := 100, length := 64 }] }) := by decide +kernel
def fi (a n limit : Nat) : List Byte := fieldOf 3 a ++ fieldOf 3 n ++ [0xA1, 0xB2, 0xC3, 0xD4] ++ fieldOf 2 limit
theorem test_jobFill : [fi 0 0 0, fi 0x1000 1 0, fi 0x0200FF 2 0, fi 0x010000 1 0, fi 0 65536 60000, fi 0 10 60000].map
      (fun b => sent (.jobFill .p0 false) (ask .jobFill b) .p0) = [[[3]], [[7]], [[9]], [[8]], [[7]], [[0, 1]]] := by
  decide +kernel
def su (a n limit : Nat) : List Byte := fieldOf 3 a ++ fieldOf 3 n ++ fieldOf 2 limit
theorem test_jobSum : [su 0 0 0, su 0x1000 1 0, su 0x0100FF 2 0, su 0x020000 1 0, su 0 10 60000].map
      (fun b => sent (.jobSum .p0 false) (ask .jobSum b) .p0) = [[[3]], [[7]], [[9]], [[8]], [[0, 1]]] := by decide +kernel

/-- The state `working` with a control request of a port held. -/
def control (c : Bool) (p : Port) (k : Kind) (id : Byte) : State := hold (working jobRun c) p (frame k [id])

theorem test_jobPause : sent (.jobPause .p0 false) (control true .p0 .jobPause 2) .p0 = [[0, 2, 0, 0, 0]] ∧
    sent (.jobPause .p0 false) (control true .p0 .jobPause 3) .p0 = [[5]] ∧
    sent (.jobPause .p1 false) (control false .p1 .jobPause 1) .p1 = [[0, 1, 0, 0, 0]] ∧
    after (.jobPause .p1 false) (control true .p1 .jobPause 1) (fun t => t.phase .p1) = some (some .atChunkEnd) := by
  decide +kernel
theorem test_jobResume : sent (.jobResume .p0 false) (control true .p0 .jobResume 3) .p0 = [[0, 3]] ∧
    sent (.jobResume .p0 false) (control true .p0 .jobResume 2) .p0 = [[5]] ∧
    sent (.jobResume .p0 false) (control true .p0 .jobResume 1) .p0 = [[0x10]] := by decide +kernel
theorem test_jobCancel : sent (.jobCancel .p0 false) (control true .p0 .jobCancel 2) .p0 =
      [[0, 2, 0, 0, 0], [2, 1, 1, 1, 0, 0, 0, 0, 0]] ∧
    after (.jobCancel .p1 false) (control false .p1 .jobCancel 1) (fun t => t.engine.runningId) = some 2 := by
  decide +kernel
theorem test_forceCancel : sent (.forceCancel .p0 false) (control true .p0 .forceCancel 4) .p0 = [[0, 4, 0, 0, 0]] ∧
    sent (.forceCancel .p0 false) (control true .p0 .forceCancel 4) .p2 = [[4, 2, 1, 2, 0, 0, 0, 0, 0]] := by decide +kernel
theorem test_jobQuery : [2, 9, 7].map (fun b => sent (.jobQuery .p0 false) (control true .p0 .jobQuery b) .p0) =
    [[[0, 0, 2, 1, 0, 0, 0, 10, 0, 0, 0, 0]], [[0, 1, 9, 1, 0, 0, 0, 0, 10, 0, 0]], [[0x10]]] := by decide +kernel
theorem test_leaseRemovalReport : after .leaseRemovalReport ((working jobRun true).modEngine (fun e =>
      { e with inbox := [.removed 9] })) (fun t => t.engine.jobs.map Job.state) =
    some [.running, .queued, .paused, .queued] := by decide +kernel
theorem test_blockLimitExpiry : sent (.blockLimitExpiry 4) workingDue .p2 = [[4, 2, 2, 3, 0, 0, 0, 0, 0]] := by
  decide +kernel

/-- PORT-DROP (R174): BAD-FIELD, WRONG-STATE, and the drop order with the notice. -/
theorem test_portDrop : sent (.portDrop .p0 false) (ask .portDrop [4]) .p0 = [[3]] ∧
    sent (.portDrop .p0 false) (hold (up.modPu .p3 (fun u => { u with session := .down })) .p0 (frame .portDrop [3])) .p0 =
      [[5]] ∧
    after (.portDrop .p0 false) (ask .portDrop [1]) (fun t => (t.pu.p1.dropOrders, t.ltx.p1.queue.map Frame.kind)) =
      some ([false], [0x46]) := by decide +kernel
theorem test_dropOrder : after (.dropOrder .p1) (up.modPu .p1 (fun u => { u with dropOrders := [false] }))
      (fun t => (t.pu.p1.session, t.pu.p1.cause)) = some (.closing, some .portDrop) := by decide +kernel
/-- R138: a teardown whose cause is not a break returns the receiver to HUNTING, also from BREAK. -/
theorem test_dropOrder_in_break : after (.dropOrder .p1) ((up.modPu .p1 (fun u => { u with dropOrders := [false] })).modLrx
      .p1 (fun x => { x with state := .brk, run := .mark 3 })) (fun t => (t.lrx.p1.state, t.lrx.p1.run)) =
    some (.hunting, .none) := by decide +kernel
/-- PU0 waits for the DOWN report of P1 (R175). -/
def dropping : State :=
  (executing up .p0 .portDrop (.untilDown .p1)).modPu .p1 (fun u => { u with session := .down, downReports := 1 })
theorem test_downReport : sent (.downReport .p1) dropping .p0 = [[0, 1]] := by decide +kernel

/-- P0 in CLOSING, with every step done. -/
def closing : State := up.modPu .p0 (fun u => { u with session := .closing, cause := some .close })
theorem test_sessionDown : after (.sessionDown .p0) closing (fun t => (t.pu.p0.session, t.pu.p0.downReports)) =
    some (.down, 1) := by decide +kernel
theorem test_breakReport : after (.breakReport .p0) (up.modPu .p0 (fun u => { u with breakReports := 1 }))
      (fun t => (t.pu.p0.session, t.pu.p0.cause, t.ltx.p0.discard)) = some (.closing, some .brk, true) := by decide +kernel

/-- A state whose port has every teardown step due. -/
def tearing (s : State) (p : Port) : State := s.modPu p (fun u => { u with session := .closing, stepsDue := .all })
theorem test_teardownWaiterStep : after (.teardownWaiterStep .p0 false) (tearing leased .p0)
      (fun t => (t.leaseUnit.queue, (t.pu.get .p0).waiting, (t.ltx.get .p0).reserved)) = some ([settled], [], 0) := by
  decide +kernel
/-- A settling waiter leaves with its port, and the admission held on its range is admitted (R38, R50). -/
theorem test_teardownWaiterStep_retries : after (.teardownWaiterStep .p2 false) (tearing (leased.modLease (fun u =>
      { u with held := [{ owner := .p1, origin := .write, reads := [], writes := [settled.request.range] }] })) .p2)
      (fun t => (t.leaseUnit.queue, t.leaseUnit.held, t.leaseUnit.claims.map Access.owner)) =
    some ([waiter], [], [.p3, .p1]) := by decide +kernel
theorem test_teardownLeaseStep : after (.teardownLeaseStep .p1) (up.modPu .p1 (fun u =>
      { u with stepsDue := { StepsDue.all with waiter := false } })|>.modLease (fun u => { u with leases := [lease1, lease2] }))
      (fun t => (t.leaseUnit.leases, t.engine.inbox)) = some ([lease2], [.removed 1]) := by decide +kernel
theorem test_teardownJobStep : after (.teardownJobStep .p0) (tearing (working jobRun true) .p0)
      (fun t => t.engine.jobs) = some [jobRun, jobBlocked] ∧
    after (.teardownJobStep .p1) (tearing (working jobRun true) .p1) (fun t => (t.engine.find 1).map Job.stop) =
      some (some (.cancel .teardown)) := by decide +kernel
theorem test_teardownHistoryStep : after (.teardownHistoryStep .p0) (up.modPu .p0 (fun u =>
      { u with stepsDue := { StepsDue.none with history := true } })|>.modEngine (fun _ => engineOn jobRun true))
      (fun t => t.engine.histories.get .p0) = some [] := by decide +kernel

theorem test_unknownKind : after (.unknownKind .p0) (hold up .p0 { kind := 0x85, tag := 2, payload := [1] })
      (fun t => t.ltx.p0.queue) = some [{ kind := 0x85, tag := 2, payload := [1] }] ∧
    after (.unknownKind .p0) (hold up .p0 { kind := 0x7F, tag := 2, payload := [] })
      (fun t => t.ltx.p0.queue) = some [{ kind := 0xFF, tag := 2, payload := [1] }] := by decide +kernel

/-! ### Store -/

/-- P0's WRITE of two bytes has the current turn; P1 and the job engine wait. -/
def turning : State :=
  let o : PortOperation := { operation := .write [0xAA, 0xBB], mapping := winA.mapping 0x10, count := 2, piece := 0,
                             gathered := [], admitted := true, abandoned := false }
  ((executing up .p0 .write .access).modPu .p0 (fun u => { u with operation := some o })).setArbiter
    { current := some (.port .p0, o.turn), pending := [(.engine, .read [0]), (.port .p1, .read [1])],
      lastGranted := .port .p0 }
theorem test_turnEnd : after .turnEnd turning (fun t => (t.store, t.arbiter.current, t.ltx.p0.queue.map Frame.payload)) =
      some ([(0x10, 0xAA), (0x11, 0xBB)], some (.port .p1, .read [1]), [[0]]) ∧
    after .turnEnd turning (fun t => (t.mail.get (.port .p0)).claimEnd) = some true := by decide +kernel
/-- A job's chunk end with a pause waiting: JOB-PAUSE is answered and the next job selected (R116). -/
def jobStopping : Job := { jobRun with stop := .pause, stopWaiters := [{ port := .p1, tag := 7, kind := .jobPause }] }
/-- The job engine's chunk has the current turn. -/
def chunkOf (j : Job) : State :=
  (working j true).setArbiter { current := some (.engine, .copy [1] [2]), pending := [], lastGranted := .engine }
theorem test_turnEnd_chunk : after .turnEnd (executing (chunkOf jobStopping) .p1 .jobPause .atChunkEnd)
      (fun t => (t.ltx.p1.queue.map Frame.payload, t.engine.runningId)) = some ([[0, 1, 0, 0, 64]], 2) := by decide +kernel
/-- With no stop request the job asks for its next chunk (R103). -/
theorem test_turnEnd_asks : after .turnEnd (chunkOf jobRun) (fun t => (t.mail.get .engine).request) =
    some (some { owner := .p1, origin := .chunk 1, reads := [{ start := 0x1000, length := 36 }],
                 writes := [{ start := 0x1040, length := 36 }] }) := by decide +kernel
theorem test_turnRequest : after (.turnRequest .engine) (up.askTurn .engine (.read [7])) (fun t => t.arbiter) =
      some { current := some (.engine, .read [7]), pending := [], lastGranted := .engine } ∧
    after (.turnRequest .engine) ((up.setArbiter { Arbiter.reset with current := some (.port .p0, .read [1]) }).askTurn
      .engine (.read [7])) (fun t => t.arbiter.pending) = some [(.engine, .read [7])] := by decide +kernel

/-- P0 awaits the admission of a WRITE of one byte. -/
def awaitingAt (s : State) (start : Nat) : State :=
  let o : PortOperation := { operation := .write [0xAA], mapping := winA.mapping start, count := 1, piece := 0,
                             gathered := [], admitted := false, abandoned := false }
  ((executing s .p0 .write .access).modPu .p0 (fun u => { u with operation := some o })).askAdmission
    { owner := .p0, origin := .write, reads := [], writes := [{ start := start, length := 1 }] }
theorem test_admissionRequest : sent (.admissionRequest (.port .p0) false) (awaitingAt leased 0x10F) .p0 = [[0xC, 1, 1]] ∧
    sent (.admissionRequest (.port .p0) false) (awaitingAt leased 0x200) .p0 = [[0xC, 2, 0]] ∧
    after (.admissionRequest (.port .p0) false) (awaitingAt leased 0x307) (fun t => t.leaseUnit.held.length) = some 1 ∧
    after (.admissionRequest (.port .p0) false) (awaitingAt leased 0x308) (fun t =>
      (t.leaseUnit.claims.length, (t.mail.get (.port .p0)).turn)) = some (2, some (.write [0x308] [0xAA])) := by
  decide +kernel
theorem test_admissionWithdrawal : after (.admissionWithdrawal (.port .p3) false)
      (leased.modMail (.port .p3) (fun m => { m with withdrawal := true })) (fun t => t.leaseUnit.claims) = some [] := by
  decide +kernel
/-- The claim of P3 ends: the settling waiter of P2 is granted id 3 (R34). -/
theorem test_claimEnd : sent (.claimEnd (.port .p3) false) (leased.reportClaimEnd (.port .p3)) .p2 = [[0, 3, 0, 0, 5]] := by
  decide +kernel

/-! ### The line -/

/-- P0's receiver with these characters in assembly. -/
def assembling (b : List Byte) : State := up.modLrx .p0 (fun x => { x with state := .assembling, buffer := b })
theorem test_assemblyBegins : after (.assemblyBegins .p0 0 0x10) up (fun t => (t.lrx.p0.state, t.lrx.p0.buffer)) =
    some (.assembling, [0x10]) := by decide +kernel
theorem test_cutDiscard : after (.cutDiscard .p0 0 0x10) (assembling [1, 2]) (fun t => (t.lrx.p0.buffer,
      t.lrx.p0.cutDiscards, t.ltx.p0.queue)) = some ([0x10], 1, [{ kind := 0x44, tag := 0, payload := [2] }]) := by
  decide +kernel
theorem test_characterAppended : after (.characterAppended .p0 0 0x10) (assembling [1, 2, 4]) (fun t => t.lrx.p0.buffer) =
    some [1, 2, 4, 0x10] := by decide +kernel
theorem test_lengthDiscard : after (.lengthDiscard .p0 0 0x11) (assembling [1, 2, 4]) (fun t =>
      (t.lrx.p0.state, t.lrx.p0.lengthDiscards)) = some (.hunting, 1) := by decide +kernel
/-- The check of 31 32 … 39 is 0x29B1 (R147), and a complete frame is placed. -/
theorem test_crc : crc16 [0x31, 0x32, 0x33, 0x34, 0x35, 0x36, 0x37, 0x38, 0x39] = 0x29B1 := by decide +kernel
/-- A CLOSE with tag 7 but for the last byte of its check. -/
def lacking : List Byte := [2, 7, 0, 0] ++ (fieldOf 2 (crc16 [2, 7, 0, 0]).toNat).take 1
def lastOf : Byte := (fieldOf 2 (crc16 [2, 7, 0, 0]).toNat).getD 1 0
theorem test_frameComplete : after (.frameComplete .p0 0 lastOf) (assembling lacking) (fun t => t.lrx.p0.held) =
      some (some { kind := 2, tag := 7, payload := [] }) ∧
    after (.frameComplete .p0 0 (lastOf + 1)) (assembling lacking) (fun t => (t.lrx.p0.held, t.lrx.p0.checkDiscards)) =
      some (none, 1) := by decide +kernel
/-- A character with a stop-bit error whose mark bit and three highest data bits are 0 ends in 5 bit times of space. -/
theorem test_framingDiscard : after (.framingDiscard .p0 0 (false, 0x1F)) (assembling [1]) (fun t => (t.lrx.p0.state,
      t.lrx.p0.framingDiscards, t.lrx.p0.run)) = some (.hunting, 1, .space 5) := by decide +kernel
/-- R145: after a stop-bit error and without mark, 0x01 unmarked has its only bit time of mark at its first data bit. A
character begins after it, and five bit times of mark make it a marked 0x80. -/
theorem test_start_bit_inside : ((after (.framingDiscard .p0 0 (true, 0xFF)) up id).bind (fun s =>
      (after (.characterAppended .p0 0 0x01) s id).bind (fun t => after (.breakEnd .p0 5) t (fun u =>
        (u.lrx.p0.state, u.lrx.p0.buffer, u.lrx.p0.character))))) = some (.assembling, [0x80], []) := by decide +kernel
/-- R145: five bit times of space and mark after them are a marked 0xF0; four of space and six of mark are no whole
character yet. -/
theorem test_levels_spell_a_character : ((after (.lineBreak .p0 5) up id).bind (fun s => after (.breakEnd .p0 20) s (fun t =>
      (t.lrx.p0.state, t.lrx.p0.buffer)))) = some (.assembling, [0xF0]) ∧
    ((after (.lineBreak .p0 4) up id).bind (fun s => after (.breakEnd .p0 6) s (fun t =>
      (t.lrx.p0.state, t.lrx.p0.character.length)))) = some (.hunting, 10) := by decide +kernel
theorem test_lineBreak : after (.lineBreak .p0 21) up (fun t => t.lrx.p0.state) = some .hunting ∧
    after (.lineBreak .p0 22) up (fun t => (t.lrx.p0.state, t.pu.p0.breakReports)) = some (.brk, 1) := by decide +kernel
theorem test_breakEnd : after (.breakEnd .p0 10) (up.modLrx .p0 (fun x => { x with state := .brk })) (fun t =>
      t.lrx.p0.state) = some .brk ∧
    after (.breakEnd .p0 11) (up.modLrx .p0 (fun x => { x with state := .brk })) (fun t => t.lrx.p0.state) =
      some .hunting := by decide +kernel
/-- R151: ten bit times of mark, a character and one more bit time of mark do not end BREAK; 11 bit times of space hold a
stop bit at space, and discard the frame in assembly for FRAMING. -/
theorem test_break_counts_anew : ((after (.breakEnd .p0 10) (up.modLrx .p0 (fun x => { x with state := .brk })) id).bind
      (fun s => (after (.characterAppended .p0 0 0xFF) s id).bind (fun t => after (.breakEnd .p0 1) t
        (fun u => (u.lrx.p0.state, u.lrx.p0.run))))) = some (.brk, .mark 2) := by decide +kernel
theorem test_space_discards : after (.lineBreak .p0 10) (assembling [1]) (fun t => t.lrx.p0.state) = some .assembling ∧
    after (.lineBreak .p0 11) (assembling [1]) (fun t => (t.lrx.p0.state, t.lrx.p0.framingDiscards)) =
      some (.hunting, 1) := by decide +kernel
theorem test_frameSent : after (.frameSent .p0) (up.modLtx .p0 (fun t => { t with
      queue := [frame .close [], frame .read []], serializer := .sending 5 0 })) (fun t => (t.ltx.p0.queue,
      t.ltx.p0.serializer)) = some ([frame .read []], .sending 0 0) := by decide +kernel

/-! ### Time and reset -/

theorem test_msBoundary : after (.msBoundary .both) leased (fun t => (t.leaseUnit.leases.map Lease.life,
      t.leaseUnit.queue.map Waiter.wait)) = some ([4, 4], [8, 9]) := by decide +kernel
theorem test_idle : (nextOf (step { up with time := { up.time with divider := 23999 } })).map (fun t => t.time) =
    some TimeBase.reset := by decide +kernel
theorem test_powerOn : after .powerOn leased (fun t => (t.leaseUnit, t.resetLine, t.epoch)) =
    some (LeaseUnit.reset, .powerOnHold, 1) := by decide +kernel
theorem test_resetAssert : after (.resetAssert 23) leased id = some leased ∧
    after (.resetAssert 24) leased (fun t => (t.leaseUnit, t.resetLine)) = some (LeaseUnit.reset, .resetLow) := by
  decide +kernel
theorem test_resetRelease : after (.resetRelease (true, false) true ⟨true, true, true, true⟩)
      { State.reset with resetLine := .resetLow } id =
    some { State.reset with straps := { lr1 := true, lr0 := false, supv := true } } := by decide +kernel
/-- R145: RXD1 at space at the release is a break 22 bit times after it. -/
theorem test_resetRelease_at_space : ([21, 22].map (fun n => (after (.resetRelease (false, false) false ⟨true, false, true, true⟩)
      { State.reset with resetLine := .resetLow } id).bind (fun s => after (.lineBreak .p1 n) s (fun t =>
        (t.lrx.p1.state, t.pu.p1.breakReports))))) = [some (.hunting, 0), some (.brk, 1)] := by decide +kernel

/-! ## States and operands that meet the hypotheses of the statements

One theorem for each statement that has hypotheses, named after it, clause by clause at boundary values. -/

/-- Each of these payloads of this kind is taken from P0. -/
theorem test_meets_takes_requests : ∀ x ∈ ([(.close, []), (.portStatus, []), (.devStatus, []), (.winList, []),
      (.leaseList, []), (.winClose, [0]), (.winClose, [3]), (.winClose, [8]), (.portDrop, [0]), (.portDrop, [1]),
      (.portDrop, [2]), (.portDrop, [3]), (.portDrop, [4]),
      (.release, [0]), (.release, [1]), (.forceRelease, [0]), (.forceRelease, [1]), (.withdraw, [3]),
      (.renew, [0, 0, 1]), (.renew, [1, 0, 0]), (.renew, [1, 0xEA, 0x61]), (.renew, [1, 0xEA, 0x60]),
      (.jobPause, [0]), (.jobResume, [0]), (.jobCancel, [0]), (.jobQuery, [0]), (.jobQuery, [1]), (.jobQuery, [9]),
      (.forceCancel, [0])] : List (Kind × List Byte)),
    (ask x.1 x.2).Takes .p0 x.1 (frame x.1 x.2) := by
  intro x hx
  refine takes_of ?_
  revert x
  decide +kernel

theorem test_meets_EmptyQueueIsOneClockCycle : up.pending = [] ∧ up.resetLine = .released ∧
    up.time.divider + 1 < boundaryCycles ∧ ({ up.time with divider := 23998 } : TimeBase).divider + 1 < boundaryCycles ∧
    ({ up.time with divider := 23999 } : TimeBase).divider + 1 = boundaryCycles ∧
    ({ up with resetLine := .resetLow } : State).resetLine ≠ .released := by decide

theorem quiet_of {s : State} (h : s.leaseUnit.due = false ∧ s.engine.due = false) : s.Quiet := h
/-- P0's serializer at this point of two frames, at 208 cycles a bit and so 2288 a character. -/
def ticking (x : Serializer) : State :=
  up.modLtx .p0 (fun t => { t with queue := [frame .close [], frame .read []], serializer := x })
theorem test_meets_EmptyQueueIsOneClockCycle_serializers : up.Quiet ∧ up.time.leaseDue = false ∧ up.time.engineDue = false ∧
    2286 + 1 < 11 * 208 ∧ 11 * 208 ≤ 2287 + 1 ∧ 4 + 1 < (frame .close []).payload.length + 6 ∧
    (frame .close []).payload.length + 6 ≤ 5 + 1 ∧
    (∀ x ∈ [Serializer.sending 4 2286, .sending 4 2287, .sending 5 2287, .cutting 0 2286, .cutting 0 2287],
      ((ticking x).ltx.get .p0).serializer = x ∧
      ((ticking x).ltx.get .p0).queue = frame .close [] :: [frame .read []]) ∧
    ((ticking (.finishing (true, 2) 2287)).ltx.get .p0).serializer = .finishing (true, 2) 2287 ∧
    ((up.ltx.get .p0).serializer = .idle ∧ up.straps = { lr1 := false, lr0 := false, supv := true }) ∧
    ((2 : Byte) :: 7 :: fieldOf 2 0)[0]? = some 2 ∧ ((2 : Byte) :: 7 :: fieldOf 2 0)[3]? = some 0 :=
  ⟨⟨rfl, rfl⟩, rfl, rfl, by decide⟩
/-- A state in which the lease unit, or the job engine, has a boundary still to take, and something is due. -/
def behind (l e : Bool) : State :=
  { lapsing with time := { divider := 5, leaseDue := l, engineDue := e }, engine := workingDue.engine }
theorem test_meets_catchUp : ∀ x ∈ [(false, false), (true, false), (false, true)],
    (behind x.1 x.2).catchUp.leaseUnit.due = false ∧ (behind x.1 x.2).catchUp.engine.due = false ∧
    (behind x.1 x.2).catchUp.time = { divider := 5, leaseDue := false, engineDue := false } := by decide +kernel

/-- For the statements about every command that answers a next state. -/
theorem test_meets_exec_next : exec .turnEnd up = .next up ∧ exec (.frameSent .p0) up = .next up ∧
    ofReset .turnEnd = false ∧ linePort (.close .p0) ≠ some .p1 ∧ reachesLeaseUnit .turnEnd = false ∧
    reachesEngine (.frameSent .p0) = false ∧ onePort (.frameSent .p0) = some .p0 ∧
    asksBlocks (.leaseList .p0 false) = true ∧ reachesLeaseUnit (.leaseList .p0 false) = false ∧
    leased.leaseUnit.due = false ∧ leased.engine.due = false := ⟨rfl, rfl, by decide +kernel⟩
theorem test_meets_OnlyWriteTurns : after .turnEnd turning id ≠ none ∧ turning.arbiter.current.isSome = true := by
  decide +kernel

theorem test_meets_ResetCommandsResetTheBlocks : 24 ≤ 24 ∧ 23 < 24 ∧ turning.resetLine = .released ∧
    turning.arbiter.current.map (fun x => x.2.written turning) = some [(0x10, 0xAA), (0x11, 0xBB)] ∧
    up.arbiter.current = none ∧ ({ up with resetLine := .powerOnHold } : State).resetLine ≠ .released := by decide +kernel

theorem test_meets_FrameTaken : (ask .close []).takeable .p0 = some (frame .close []) ∧
    requestOf (.close .p0) = some (.p0, .close) ∧ up.takeable .p0 = none ∧ up.handed .p0 = none ∧
    (up.pu.get .p0).gather = none := by decide +kernel

/-- UP: an OPEN, a bad length, a tag in use, a supervisor kind from P1. DOWN: a READ, a PORT-STATUS of a bad length. -/
theorem test_meets_ChecksOnATakenFrame :
    (ask .openSession []).CanTake .p0 .up (frame .openSession []) ∧
    ((ask .close [0]).CanTake .p0 .up (frame .close [0]) ∧ lengthMatches .close [0] = false) ∧
    ((hold leased .p0 { kind := 2, tag := 3, payload := [] }).CanTake .p0 .up { kind := 2, tag := 3, payload := [] } ∧
      leased.tagInUse .p0 3 = true ∧ lengthMatches .close [] = true) ∧
    ((hold up .p1 (frame .devStatus [])).CanTake .p1 .up (frame .devStatus []) ∧ up.isSupervisor .p1 = false ∧
      Kind.isSupervisor .devStatus = true ∧ (hold up .p1 (frame .devStatus [])).tagInUse .p1 7 = false) ∧
    (hold down .p0 (frame .read [])).CanTake .p0 .down (frame .read []) ∧
    ((hold down .p0 (frame .portStatus [0])).CanTake .p0 .down (frame .portStatus [0]) ∧
      lengthMatches .portStatus [0] = false) ∧
    ((hold up .p0 { kind := 0x85, tag := 0, payload := [] }).CanTake .p0 .up { kind := 0x85, tag := 0, payload := [] } ∧
      isRequestKind 0x85 = false ∧ isRequestKind 0x34 = false) :=
  ⟨canTake_of (by decide +kernel), ⟨canTake_of (by decide +kernel), by decide⟩,
    ⟨canTake_of (by decide +kernel), by decide +kernel⟩, ⟨canTake_of (by decide +kernel), by decide +kernel⟩,
    canTake_of (by decide +kernel), ⟨canTake_of (by decide +kernel), by decide⟩,
    ⟨canTake_of (by decide +kernel), by decide⟩⟩

theorem test_meets_OpenOpensTheSession : ∀ b ∈ ([[2, 0, 0], [1, 8, 0], [1, 7, 17] ++ List.replicate 17 0x41,
      [1, 7, 16] ++ List.replicate 16 0x41, [1, 0, 0]] : List (List Byte)),
    (hold down .p0 (frame .openSession b)).CanTake .p0 .down (frame .openSession b) ∧
    lengthMatches .openSession b = true := by
  intro b hb
  refine (fun h => ⟨canTake_of h.1, h.2⟩) (?_ : _ ∧ _)
  revert b
  decide +kernel
theorem test_meets_OpenOpensTheSession_clauses : fieldAt [2, 0, 0] 0 1 ≠ 1 ∧ 8 ≤ fieldAt [1, 8, 0] 1 1 ∧
    16 < fieldAt [1, 7, 17] 2 1 ∧ fieldAt [1, 7, 16] 0 1 = 1 ∧ fieldAt [1, 7, 16] 1 1 < 8 ∧
    fieldAt [1, 7, 16] 2 1 ≤ 16 := by decide

theorem test_meets_StatusRequestsReport : (hold down .p0 (frame .portStatus [])).CanTake .p0 .down (frame .portStatus []) :=
  canTake_of (by decide +kernel)

/-- A status request of which all readings but one have been taken. -/
theorem test_meets_StatusRequestsReport_gather : up.Quiet ∧ ∀ x ∈ [(Kind.portStatus, 10), (.devStatus, 25)],
    (((ask x.1 []).modPu .p0 (fun u => { u with gather := some { kind := x.1, tag := 7, taken := x.2, fields := [] } })).pu.get
      .p0).gather = some { kind := x.1, tag := 7, taken := x.2, fields := [] } ∧ (x.2 < 11 ∨ x.1 = .devStatus ∧ x.2 < 26) :=
  ⟨⟨rfl, rfl⟩, by decide⟩

/-- A port with a drop order and a break report, its EXECUTING request in each phase that a teardown reaches. -/
def reached (f : Option Phase) (b : Bool) : State :=
  let s := up.modPu .p1 (fun u => { u with breakReports := 1, dropOrders := [b] })
  match f with
  | none => s
  | some x => executing s .p1 .lease x
theorem test_meets_teardown_by_phase : ∀ f ∈ [none, some .settling, some .atChunkEnd, some (.handed .leaseList),
      some (.untilDown .p2), some .access], ∀ b ∈ [true, false],
    (reached f b).phase .p1 = f ∧ ((reached f b).pu.get .p1).session = .up ∧ ((reached f b).pu.get .p1).gather = none ∧
    ((reached f b).pu.get .p1).breakReports ≠ 0 ∧ ((reached f b).pu.get .p1).dropOrders = b :: [] ∧
    ((reached f b).ltx.get .p1).discard = false := by decide
/-- In turns; awaiting admission, the request not taken by the lease unit yet, and taken. -/
theorem test_meets_teardown_of_access : (turning.phase .p0 = some .access ∧
      ((turning.pu.get .p0).operation).map PortOperation.admitted = some true) ∧
    ((awaitingAt up 0).phase .p0 = some .access ∧
      (((awaitingAt up 0).pu.get .p0).operation).map PortOperation.admitted = some false ∧
      ((awaitingAt up 0).mail.get (.port .p0)).request.isSome = true) ∧
    (((awaitingAt up 0).modMail (.port .p0) (fun m => { m with request := none })).mail.get (.port .p0)).request = none := by
  decide +kernel

theorem test_meets_BreakReport : ∀ x ∈ [Session.down, .up, .closing], ∃ s : State, (s.pu.get .p0).session = x ∧
    (s.pu.get .p0).breakReports ≠ 0 ∧ (s.pu.get .p0).gather = none :=
  fun x _ => ⟨up.modPu .p0 (fun u => { u with session := x, breakReports := 1 }), rfl, by cases x <;> decide, rfl⟩

theorem test_meets_SessionReachesDown : (closing.pu.get .p0).session = .closing ∧ closing.workDone .p0 = true ∧
    (executing closing .p0 .close .closing).workDone .p0 = true ∧
    0 < ((executing closing .p0 .close .closing).ltx.get .p0).reserved ∧
    ((closing.modLtx .p0 (fun t => { t with discard := true })).ltx.get .p0).discard = true ∧
    (up.pu.get .p0).session ≠ .closing ∧ (tearing up .p0).workDone .p0 = false := by decide +kernel

theorem test_meets_PortDropByTargetState : fieldAt [0] 0 1 = 0 ∧ 3 < fieldAt [4] 0 1 ∧ fieldAt [1] 0 1 = portNumber .p1 ∧
    fieldAt [3] 0 1 = portNumber .p3 ∧ (up.pu.get .p1).session = .up ∧ (down.pu.get .p1).session = .down ∧
    ((tearing up .p1).pu.get .p1).session = .closing := by decide +kernel

theorem test_meets_DropOrderAndDownReport : (∀ x ∈ [Session.down, .up, .closing], ∃ s : State,
      (s.pu.get .p1).session = x ∧ (s.pu.get .p1).dropOrders = [true] ∧ (s.pu.get .p1).gather = none) ∧
    (dropping.pu.get .p1).downReports ≠ 0 ∧ (dropping.pu.get .p0).gather = none ∧
    (dropping.pu.get .p0).executing = some { tag := 7, kind := .portDrop, reserved := true, phase := .untilDown .p1 } ∧
    0 < (dropping.ltx.get .p0).reserved ∧ dropping.phase .p0 ≠ some (.untilDown .p2) :=
  ⟨fun x _ => ⟨up.modPu .p1 (fun u => { u with session := x, dropOrders := [true] }), rfl, rfl, rfl⟩, by decide +kernel⟩

theorem test_meets_TeardownStepsAtTheLeaseUnit : ((tearing leased .p0).pu.get .p0).stepsDue.waiter = true ∧
    ((tearing leased .p0).leaseUnit.waitersOf .p1 = [] ∧ leased.leaseUnit.held = []) ∧ leased.leaseUnit.due = false ∧
    (((tearing leased .p1).modPu .p1 (fun u => { u with stepsDue := { u.stepsDue with waiter := false } })).pu.get
      .p1).stepsDue = { waiter := false, lease := true, job := true, history := true } ∧
    (up.pu.get .p0).stepsDue.waiter = false ∧ (up.pu.get .p0).stepsDue.lease = false := by decide +kernel

/-- The phases that the waiter step ends, those that it leaves, and that of the lease step; three waiters leave. -/
theorem test_meets_TeardownStepsAtTheLeaseUnit_phases : ∀ f ∈ [Phase.settling, .handed (.lease (request 0 1 0 .shared)),
      .handed (.renew 1 1), .handed (.release 1), .handed (.withdraw 3), .handed .leaseList, .closing, .atChunkEnd,
      .handed (.forceRelease 1), .handed (.submit (.sum 0) 1 0), .handed (.jobPause 1), .handed (.jobResume 1),
      .handed (.jobCancel 1), .handed (.jobQuery 1), .handed (.forceCancel 1)],
    let s := tearing (executing leased .p0 .lease f) .p0
    s.phase .p0 = some f ∧ (s.pu.get .p0).stepsDue.waiter = true ∧ s.leaseUnit.due = false ∧ (s.ltx.get .p0).discard = false ∧
    (s.ltx.get .p0).reserved = 2 ∧ (s.leaseUnit.waitersOf .p0).length = 1 ∧ (leased.pu.get .p0).executing = none := by
  decide +kernel

/-- A BUSY engine is orderly: for the statements that assume it. -/
theorem orderly_of {s : State} {r : RunningJob} (run : s.engine.running = some r)
    (h : s.engine.jobs.length ≤ jobTableSize ∧ (∀ p ∈ allPorts, (s.engine.jobsOf p).length ≤ portJobLimit) ∧
      (s.engine.jobs.map Job.id).Nodup ∧ (∀ j ∈ s.engine.jobs, 1 ≤ j.id ∧ j.id ≤ 255) ∧
      (∀ j ∈ s.engine.jobs, j.done < j.length) ∧
      (∃ j ∈ s.engine.jobs, j.id = r.job ∧ j.state = .running ∧ r.chunk = j.nextChunk) ∧
      (∀ j ∈ s.engine.jobs, j.state = .running → j.id = r.job))
    (quiet : ∀ p w n l, s.handed p ≠ some (.submit w n l)) : s.EngineOrderly := by
  obtain ⟨a, b, c, d, e, f, g⟩ := h
  refine ⟨a, fun p => b p (by cases p <;> decide), c, d, e, fun k => ?_, fun q k => ?_, fun q k => ?_,
    fun p w n l k => ?_⟩
  · rw [run] at k
    exact absurd k (by simp)
  · rw [run] at k
    obtain rfl := Option.some.inj k
    exact f
  · rw [run] at k
    obtain rfl := Option.some.inj k
    exact g
  · exact absurd k (quiet p w n l)

theorem orderly_working (c : Bool) : (working jobRun c).EngineOrderly :=
  orderly_of rfl (by cases c <;> decide) (by intro p w n l k; cases p <;> cases k)

theorem test_meets_TeardownStepsAtTheJobEngine : (tearing (working jobRun true) .p1).EngineOrderly ∧
    ((tearing (working jobRun true) .p1).pu.get .p1).stepsDue.job = true ∧
    ((tearing up .p1).modPu .p1 (fun u => { u with stepsDue := { u.stepsDue with job := false } })).pu.p1.stepsDue =
      { waiter := true, lease := true, job := false, history := true } :=
  ⟨orderly_of rfl (by decide) (by intro p w n l k; cases p <;> cases k), by decide, by decide⟩

theorem test_meets_TeardownStepsAtTheJobEngine_phases : ∀ f ∈ [Phase.atChunkEnd, .handed (.submit (.sum 0) 1 0),
      .handed (.jobPause 1), .handed (.jobResume 1), .handed (.jobCancel 1), .handed (.jobQuery 1), .handed (.forceCancel 1),
      .closing, .settling],
    let s := tearing (executing (working jobRun true) .p1 .jobPause f) .p1
    s.phase .p1 = some f ∧ (s.pu.get .p1).stepsDue.job = true ∧ s.engine.due = false ∧ (s.ltx.get .p1).discard = false := by
  decide +kernel

theorem test_meets_WinOpenDecision : (∀ b ∈ [wo 8 0 0 0 0 1, wo 0 0 0 0 0 1, wo 3 0 0 0 0 0, wo 3 0 0 0 0 4, wo 3 0 4 0 0 1,
      wo 3 0 0 4 0 1, wo 3 0xFFFF00 0 1 0 1, wo 3 0x100000 0 0 0x3FF01 1, wo 3 0x100001 0 0 0 1, wo 3 0x000F00 0 0 0 1,
      wo 7 0xFFFF00 0 0 0x3FF00 3], (ask .winOpen b).Takes .p0 .winOpen (frame .winOpen b)) ∧
    (7 < fieldAt (wo 8 0 0 0 0 1) 0 1 ∧ unitUp.windowNamed (fieldAt (wo 0 0 0 0 0 1) 0 1) = some winA ∧
      fieldAt (wo 7 0 0 0 0 0) 0 1 ≤ 7 ∧ unitUp.windowNamed 7 = none ∧ Rights.ofCode 0 = none ∧ Rights.ofCode 4 = none) ∧
    (3 < (askedWindow (wo 3 0 4 0 0 1) .readOnly).sizeCode ∧ 3 < (askedWindow (wo 3 0 0 4 0 1) .readOnly).repeatCode ∧
      0x1000000 < 0xFFFF00 + blockSize 0 * repeatFactor 1 ∧ 0x40000 < 0x3FF01 + blockSize 0) ∧
    (0xFFFF00 + blockSize 0 * repeatFactor 0 ≤ 0x1000000 ∧ 0x3FF00 + blockSize 0 ≤ 0x40000 ∧ 0x100001 % blockSize 0 ≠ 0 ∧
      0xFFFF00 % blockSize 0 = 0 ∧ 0x3FF00 % blockSize 0 = 0 ∧
      winA.span.intersects (askedWindow (wo 3 0x000F00 0 0 0 1) .readOnly).span = true) := by
  refine ⟨fun b hb => takes_of ?_, by decide +kernel⟩
  revert b
  decide +kernel

theorem windows_of_up {i : Nat} {v : Window} (h : unitUp.windowNamed i = some v) : v = winA ∨ v = winB ∨ v = winC := by
  match i with
  | 0 => exact .inl (Option.some.inj h).symm
  | 1 => exact .inr (.inl (Option.some.inj h).symm)
  | 2 => exact .inr (.inr (Option.some.inj h).symm)
  | 3 | 4 | 5 | 6 | 7 => exact absurd h (by simp [unitUp, PortUnit.windowNamed])
  | n + 8 => exact absurd h (by simp [unitUp, PortUnit.windowNamed])

/-- No span of the three windows meets the last 256 logical addresses. -/
theorem test_meets_WinOpenDecision_free : ∀ i v, unitUp.windowNamed i = some v →
    v.span.intersects (askedWindow (wo 7 0xFFFF00 0 0 0x3FF00 3) .readWrite).span = false := by
  intro i v h
  rcases windows_of_up h with rfl | rfl | rfl <;> decide

theorem test_meets_WinCloseDecision : 7 < fieldAt [8] 0 1 ∧ fieldAt [7] 0 1 ≤ 7 ∧ unitUp.windowNamed (fieldAt [3] 0 1) = none ∧
    unitUp.windowNamed (fieldAt [0] 0 1) = some winA := by decide

theorem test_meets_TranslationFollowsTheWindow : winA.Legal ∧ winC.Legal ∧ winA.repeatCode = 0 ∧
    winC.span.covers 0x020000 = true ∧ winC.span.covers 0x0207FF = true ∧ 7 < repeatFactor 3 ∧ 255 < winC.size := by
  unfold Window.Legal
  decide

/-- A range that ends with the span, one that goes past it, one outside; and the same by the index of its window. -/
theorem test_meets_TranslationFollowsTheWindow_located : (1 ≤ 2 ∧ unitUp.located 0x0207FE 2 = some winC ∧
      unitUp.windowNamed 2 = some winC ∧ winC.base ≤ 0x0207FE ∧
      0x0207FE + 2 ≤ winC.base + winC.size * repeatFactor winC.repeatCode) ∧
    unitUp.located 0x0207FF 2 = none ∧ unitUp.located 0x1000 1 = none ∧ unitUp.named 2 0x0207FE 2 = some winC ∧
    unitUp.named 2 0x0207FF 2 = none ∧ unitUp.named 3 0 1 = none ∧ unitUp.named 8 0 1 = none := by decide

theorem test_meets_ByteSetCoversTheNamedBytes : winC.Legal ∧ winC.maps 0x020000 0x100 = true ∧
    winC.maps 0x0200FF 2 = true ∧ winC.maps 0x020001 0x7FF = true := by
  unfold Window.Legal
  decide

/-- The payloads that reach each clause, and the three windows behind them. -/
theorem test_meets_StoreRequestsAskForAdmission :
    (∀ b ∈ [rd 0 0, rd 0 1025, rd 0x1000 1, rd 0x020000 1, rd 0xC00 1024], (ask .read b).Takes .p0 .read (frame .read b)) ∧
    (∀ b ∈ [rd 0 0, rd 0x1000 1 ++ [5], rd 0x010000 1 ++ [5], rd 0x0207FF 1 ++ [5]],
      (ask .write b).Takes .p0 .write (frame .write b)) ∧
    (∀ b ∈ [exch 0 3 0 0, exch 0 1 0x100 0, exch 0x1000 4 0 0, exch 1 2 0 0, exch 0x010000 2 0 0, exch 0xFFC 4 1 2],
      (ask .exchangeIf b).Takes .p0 .exchangeIf (frame .exchangeIf b)) := by
  refine ⟨fun b hb => takes_of ?_, fun b hb => takes_of ?_, fun b hb => takes_of ?_⟩ <;> revert b <;> decide +kernel
theorem test_meets_StoreRequestsAskForAdmission_clauses :
    unitUp.located 0x1000 1 = none ∧ unitUp.located 0x0207FF 1 = some winC ∧ unitUp.located 0x0100F0 0x110 = some winB ∧
    unitUp.located 0xC00 1024 = some winA ∧ unitUp.located 0xFFC 4 = some winA ∧ unitUp.located 1 2 = some winA ∧
    fieldAt (exch 0 1 0x100 0) 4 3 ≠ 0 ∧ fieldAt (exch 0 2 0xFFFF 0xFFFF) 4 2 = 0 ∧ fieldAt (exch 0 2 0xFFFF 0xFFFF) 8 2 = 0 ∧
    winA.translate 1 % 2 ≠ 0 ∧ winA.translate 0xFFC % 4 = 0 ∧ winB.translate 0x010000 % 2 = 0 := by decide

theorem test_meets_LeaseRequestChecks : (∀ b ∈ [le 8 0 1 0 1 0, le 0 0 1 2 1 0, le 0 0 0 0 1 0, le 0 0 65537 0 1 0, le 0 0 1 0 0 0,
      le 0 0 1 0 60001 0, le 0 0 1 0 1 60001, le 0 0x1000 1 0 1 0, le 1 0x0100FF 2 1 1 0, le 1 0x010000 1 0 1 0,
      le 2 0x020000 1 1 1 0, le 0 0xFFF 1 1 60000 60000, le 7 0 65536 1 1 0],
      (ask .lease b).Takes .p0 .lease (frame .lease b)) ∧
    unitUp.named 0 0x1000 1 = none ∧ unitUp.named 1 0x0100FF 2 = some winB ∧
    winB.size < (0x0100FF - winB.base) % winB.size + 2 ∧ unitUp.named 0 0xFFF 1 = some winA ∧
    (0xFFF - winA.base) % winA.size + 1 ≤ winA.size ∧ unitUp.named 2 0x020000 1 = some winC := by
  refine ⟨fun b hb => takes_of ?_, by decide⟩
  revert b
  decide +kernel

/-- A SHARED lease of 16 bytes of a port, its place and id by number. -/
def leaseAt (p : Port) (i : Nat) : Lease :=
  { id := i + 1, port := p, kind := .shared, range := { start := 0x400 + 16 * i, length := 16 }, logical := 0, window := 0,
    life := 1 }
def waiterAt (p : Port) (i : Nat) : Waiter :=
  { port := p, tag := byte i, request := request (0x800 + 16 * i) 16 9 .exclusive, wait := 9, settling := none }
def owners : List Port := [.p1, .p2, .p3, .p1, .p2, .p3, .p1, .p2, .p3, .p1, .p2, .p3]
/-- Twelve leases of the other ports; eight waiters of theirs. -/
def crowded : State := up.modLease (fun u => { u with leases := owners.zipIdx.map (fun x => leaseAt x.1 x.2) })
def crowdedQueue : State :=
  crowded.modLease (fun u => { u with queue := (owners.take 8).zipIdx.map (fun x => waiterAt x.1 x.2) })
/-- P0 with four leases; P0 with three waiters. -/
def four : State := up.modLease (fun u => { u with leases := (List.range 4).map (leaseAt .p0) })
def three : State := up.modLease (fun u =>
  { u with leases := [lease1], queue := (List.range 3).map (waiterAt .p0) })

/-- In order: OVERLAP at a last byte, NO-ROOM at four holdings, CONFLICT with a lease, NO-ROOM in a full table, no room in
the queue (eight, and three of the port), room for a waiter, a grant, SETTLING. -/
theorem test_meets_LeaseDecisionInOrder : leased.leaseUnit.overlapsOwn .p0 { start := 0x20F, length := 1 } = true ∧
    (4 ≤ four.leaseUnit.holdings .p0 ∧ four.leaseUnit.overlapsOwn .p0 { start := 0x440, length := 1 } = false) ∧
    (leased.leaseUnit.holdings .p0 < 4 ∧
      leased.leaseUnit.conflictOf .p0 (request 0x10F 1 0 .exclusive) = some (1, .p1)) ∧
    (crowded.leaseUnit.conflictOf .p0 (request 0 1 0 .shared) = none ∧ crowded.leaseUnit.full = true) ∧
    (8 ≤ crowdedQueue.leaseUnit.queue.length ∧ crowdedQueue.leaseUnit.full = true) ∧
    (3 ≤ (three.leaseUnit.waitersOf .p0).length ∧ three.leaseUnit.holdings .p0 < 4 ∧
      three.leaseUnit.conflictOf .p0 (request 0x100 1 1 .exclusive) ≠ none) ∧
    (leased.leaseUnit.queue.length < 8 ∧ (leased.leaseUnit.waitersOf .p0).length < 3 ∧
      leased.leaseUnit.conflictOf .p0 (request 0x10F 1 1 .exclusive) ≠ none) ∧
    (leased.leaseUnit.conflictOf .p0 (request 0 1 0 .exclusive) = none ∧ leased.leaseUnit.full = false ∧
      leased.leaseUnit.conflictingClaims .exclusive { start := 0, length := 1 } = []) ∧
    (up.modLease (fun u => { u with claims := [claim3] })).leaseUnit.conflictingClaims .exclusive
      { start := 0x303, length := 1 } ≠ [] := by decide +kernel
/-- The next id after 254 and 255, and where the first candidates are in use. -/
theorem test_meets_next_ids : leased.leaseUnit.due = false ∧ four.leaseUnit.due = false ∧ crowded.leaseUnit.due = false ∧
    crowdedQueue.leaseUnit.due = false ∧ three.leaseUnit.due = false ∧
    ({ leased.leaseUnit with lastId := 254 } : LeaseUnit).nextLeaseId = 255 ∧
    ({ leased.leaseUnit with lastId := 255 } : LeaseUnit).nextLeaseId = 3 ∧
    (∀ l ∈ leased.leaseUnit.leases, l.id ≠ 3) ∧ (∀ l ∈ leased.leaseUnit.leases, l.id ≠ 255) ∧
    ({ (working jobRun true).engine with lastId := 255 } : JobEngine).nextJobId = 5 ∧
    (∀ j ∈ (working jobRun true).engine.jobs, j.id ≠ 5) ∧ (working jobRun true).engine.lastId ≤ 255 := by decide +kernel
theorem test_meets_LeaseDecisionInOrder_handed (x : LeaseRequest) :
    ((handing leased .p0 .lease (.lease x)).pu.get .p0).executing =
      some { tag := 7, kind := .lease, reserved := true, phase := .handed (.lease x) } := rfl

/-- A conflict named by a lease, by a waiter, by an executing SETTLING request; for the scan, a waiter stopped by a lease,
an older waiter, a SETTLING request, a settling waiter, a full table, and one free, without and with a claim. -/
theorem test_meets_LeaseTestsAndScanVerdict :
    let sett : State := up.modLease (fun u => { u with settling := u.settling.set .p1 (some ⟨request 0 8 0 .shared, [.engine]⟩) })
    leased.leaseUnit.conflictOf .p0 (request 0x100 1 0 .shared) = some (1, .p1) ∧
    leased.leaseUnit.conflictOf .p0 (request 0x307 1 0 .exclusive) = some (0, .p2) ∧
    sett.leaseUnit.conflictOf .p0 (request 7 1 0 .exclusive) = some (0, .p1) ∧
    (waiter.settling = none ∧ waiter.request.conflictsLease .p0 lease1 = true) ∧
    ((waiterAt .p1 0).settling = none ∧ (request 0x80F 1 0 .shared).conflictsWaiter .p0 (waiterAt .p1 0) = true) ∧
    (sett.leaseUnit.settling.get .p1).map (fun t => (request 7 1 0 .exclusive).conflictsSettling .p0 .p1 t) = some true ∧
    (settled ∈ leased.leaseUnit.queue ∧ settled.settling ≠ none ∧
      (request 0x307 1 0 .shared).conflictsWaiter .p0 settled = true) ∧
    12 ≤ crowded.leaseUnit.leases.length + crowded.leaseUnit.reservedEntries ∧
    up.leaseUnit.verdict [] waiter = .grant ∧
    (up.modLease (fun u => { u with claims := [claim3] })).leaseUnit.verdict [] { waiter with request := settled.request } =
      .settle [.port .p3] ∧
    up.leaseUnit.leases.length + up.leaseUnit.reservedEntries < 12 := by decide +kernel

/-- For the scan: a waiter passed over, one to mark settling, one to grant, and a settling one whose set is empty. -/
theorem test_meets_scan : leased.leaseUnit.verdict [] waiter = .pass ∧
    (up.modLease (fun u => { u with claims := [claim3] })).leaseUnit.verdict [] { waiter with request := settled.request } =
      .settle [.port .p3] ∧
    up.leaseUnit.verdict [] waiter = .grant ∧ waiter.settling = none ∧
    up.leaseUnit.verdict [] { settled with settling := some [] } = .grant ∧ settled.settling = some (.port .p3 :: []) := by
  decide +kernel
theorem test_meets_RenewReplacesTheLifetime_handed : (handing leased .p0 .renew (.renew 2 9)).handed .p0 = some (.renew 2 9) ∧
    (∃ l ∈ (handing lapsing .p0 .renew (.renew 2 9)).expireLeases.leaseUnit.leases, l.id = 2 ∧ l.port = .p0) ∧
    (∀ l ∈ (handing lapsing .p0 .renew (.renew 1 9)).expireLeases.leaseUnit.leases, ¬ (l.id = 1 ∧ l.port = .p0)) := by
  decide +kernel

theorem test_meets_Renew_Release : (∀ x ∈ ([(.renew, [0, 0, 1]), (.renew, [1, 0, 0]), (.renew, [1, 0xEA, 0x61]),
      (.renew, [1, 0, 1]), (.renew, [2, 0xEA, 0x60]), (.release, [0]), (.release, [1]), (.release, [2]), (.release, [255]),
      (.forceRelease, [0]), (.forceRelease, [3]), (.forceRelease, [1]), (.forceRelease, [255]), (.withdraw, [4]),
      (.withdraw, [3]), (.leaseList, [])] : List (Kind × List Byte)),
      (askLeased x.1 x.2).Takes .p0 x.1 (frame x.1 x.2)) ∧
    (∀ l ∈ leased.leaseUnit.leases, ¬ (l.id = 1 ∧ l.port = .p0)) ∧ (∃ l ∈ leased.leaseUnit.leases, l.id = 2 ∧ l.port = .p0) ∧
    (∀ l ∈ leased.leaseUnit.leases, l.id ≠ 3) ∧ lease1 ∈ leased.leaseUnit.leases ∧
    ((leased.leaseUnit.leases.map Lease.id).Nodup ∧ ∀ l ∈ leased.leaseUnit.leases, 1 ≤ l.id ∧ l.id ≤ 255) := by
  refine ⟨fun x hx => takes_of ?_, by decide⟩
  revert x
  decide +kernel

/-- Handed over with the lapse of lease 1 due: lease 2 is there and lease 1 is not, for its port and for any. -/
theorem test_meets_Release_handed :
    let s (h : Handed) : State := handing lapsing .p0 .release h
    ((s (.release 2)).handed .p0 = some (.release 2) ∧
      (∃ l ∈ (s (.release 2)).expireLeases.leaseUnit.leases, l.id = 2 ∧ l.port = .p0)) ∧
    ((s (.release 1)).handed .p0 = some (.release 1) ∧
      (∀ l ∈ (s (.release 1)).expireLeases.leaseUnit.leases, ¬ (l.id = 1 ∧ l.port = .p0))) ∧
    ((s (.forceRelease 2)).handed .p0 = some (.forceRelease 2) ∧
      (s (.forceRelease 2)).expireLeases.leaseUnit.leases.map Lease.id = [] ++ 2 :: [3]) ∧
    ((s (.forceRelease 1)).handed .p0 = some (.forceRelease 1) ∧
      (∀ l ∈ (s (.forceRelease 1)).expireLeases.leaseUnit.leases, l.id ≠ 1)) ∧
    (s .leaseList).handed .p0 = some .leaseList := by decide +kernel

/-- Handed over: a waiter timed out, one still there with the lapse of lease 2 due, and a settling one. -/
theorem test_meets_Withdraw_handed :
    let s : State := leased.modLease (fun u => { u with leases := [lease1, { lease2 with life := 0 }] })
    ((handing expiring .p0 .withdraw (.withdraw 3)).handed .p0 = some (.withdraw 3) ∧
      (∀ w ∈ (handing expiring .p0 .withdraw (.withdraw 3)).expireLeases.leaseUnit.queue, ¬ (w.port = .p0 ∧ w.tag = 3))) ∧
    (s.leaseUnit.due = true ∧ waiter.settling = none ∧
      (handing s .p0 .withdraw (.withdraw 3)).expireLeases.leaseUnit.waiterOf .p0 3 = some waiter) ∧
    ((handing expiring .p2 .withdraw (.withdraw 4)).handed .p2 = some (.withdraw 4) ∧ settled.settling ≠ none ∧
      (handing expiring .p2 .withdraw (.withdraw 4)).expireLeases.leaseUnit.waiterOf .p2 4 = some settled) := by
  decide +kernel

theorem test_meets_WithdrawalLapseAndWaitExpiry : (∀ w ∈ leased.leaseUnit.queue, ¬ (w.port = .p0 ∧ w.tag = 4)) ∧
    leased.leaseUnit.waiterOf .p0 3 = some waiter ∧ waiter.settling = none ∧ leased.leaseUnit.due = false ∧
    leased.leaseUnit.waiterOf .p2 4 = some settled ∧ settled.settling ≠ none ∧ settled.wait ≠ 0 ∧
    0 < ((askLeased .withdraw [3]).ltx.get .p0).reserved ∧ (leased.ltx.get .p0).discard = false ∧
    lease2 ∈ leased.leaseUnit.leases ∧ lease2.life ≠ 0 := by decide +kernel
theorem test_meets_WithdrawalLapseAndWaitExpiry_due : ({ lease1 with life := 0 } : Lease) ∈ lapsing.leaseUnit.leases ∧
    ((lapsing.leaseUnit.leases.map Lease.id).Nodup ∧ ∀ l ∈ lapsing.leaseUnit.leases, 1 ≤ l.id ∧ l.id ≤ 255) ∧
    expiring.leaseUnit.waiterOf .p0 3 = some { waiter with wait := 0 } ∧ (expiring.ltx.get .p0).discard = false ∧
    0 < (expiring.ltx.get .p0).reserved ∧ lapsing.leaseUnit.due = true ∧ expiring.leaseUnit.due = true ∧
    workingDue.engine.due = true ∧ (working jobRun true).engine.due = false ∧
    jobDue.limitReached = true ∧ jobBlocked.limitReached = false := by decide +kernel

theorem test_meets_WhatIsLateEndsTheSame : handedCommand (.lease .p0 true) = some (.p0, true) ∧
    (ask .lease (le 0 0 1 0 1 0)).handed .p0 = none ∧
    ((awaitingAt leased 0x308).mail.get (.port .p0)).request.map Access.requester = some (.port .p0) ∧
    ((awaitingAt leased 0x308).mail.get (.port .p0)).decision = none ∧ leased.engine.inbox = [] := by decide +kernel

/-- Each request that the lease unit, or the job engine, decides stands handed over with an expiry due. -/
theorem test_meets_due_decisions (x : LeaseRequest) (b : Bool) :
    (handing lapsing .p0 .lease (.lease x)).LeaseUnitDecides .p0 (.lease .p0 b) ∧
    (handing lapsing .p0 .renew (.renew 2 9)).LeaseUnitDecides .p0 (.renew .p0 b) ∧
    (handing lapsing .p0 .release (.release 2)).LeaseUnitDecides .p0 (.release .p0 b) ∧
    (handing lapsing .p0 .withdraw (.withdraw 3)).LeaseUnitDecides .p0 (.withdraw .p0 b) ∧
    (handing lapsing .p0 .leaseList .leaseList).LeaseUnitDecides .p0 (.leaseList .p0 b) ∧
    (handing lapsing .p0 .forceRelease (.forceRelease 1)).LeaseUnitDecides .p0 (.forceRelease .p0 b) ∧
    (handing workingDue .p0 .jobCopy (.submit (.copy 0 1) 1 0)).EngineDecides .p0 (.jobCopy .p0 b) ∧
    (handing workingDue .p0 .jobFill (.submit (.fill 0 []) 1 0)).EngineDecides .p0 (.jobFill .p0 b) ∧
    (handing workingDue .p0 .jobSum (.submit (.sum 0) 1 0)).EngineDecides .p0 (.jobSum .p0 b) ∧
    (handing workingDue .p0 .jobPause (.jobPause 2)).EngineDecides .p0 (.jobPause .p0 b) ∧
    (handing workingDue .p0 .jobResume (.jobResume 3)).EngineDecides .p0 (.jobResume .p0 b) ∧
    (handing workingDue .p0 .jobCancel (.jobCancel 2)).EngineDecides .p0 (.jobCancel .p0 b) ∧
    (handing workingDue .p0 .jobQuery (.jobQuery 2)).EngineDecides .p0 (.jobQuery .p0 b) ∧
    (handing workingDue .p0 .forceCancel (.forceCancel 4)).EngineDecides .p0 (.forceCancel .p0 b) := by
  refine ⟨.inl ⟨_, _, rfl, rfl⟩, .inr (.inl ⟨_, _, _, rfl, rfl⟩), .inr (.inr (.inl ⟨_, _, rfl, rfl⟩)),
    .inr (.inr (.inr (.inl ⟨_, _, rfl, rfl⟩))), .inr (.inr (.inr (.inr (.inl ⟨_, rfl, rfl⟩)))),
    .inr (.inr (.inr (.inr (.inr ⟨_, _, rfl, rfl⟩)))), .inl ⟨_, _, _, _, _, rfl, rfl⟩,
    .inr (.inl ⟨_, _, _, _, _, rfl, rfl⟩), .inr (.inr (.inl ⟨_, _, _, _, rfl, rfl⟩)),
    .inr (.inr (.inr (.inl ⟨_, _, rfl, rfl⟩))), .inr (.inr (.inr (.inr (.inl ⟨_, _, rfl, rfl⟩)))),
    .inr (.inr (.inr (.inr (.inr (.inl ⟨_, _, rfl, rfl⟩))))),
    .inr (.inr (.inr (.inr (.inr (.inr (.inl ⟨_, _, rfl, rfl⟩)))))),
    .inr (.inr (.inr (.inr (.inr (.inr (.inr ⟨_, _, rfl, rfl⟩))))))⟩
theorem test_meets_due_before_events : lapsing.expireLeases.leaseUnit.due = false ∧ workingDue.expireJobs.engine.due = false ∧
    ((lapsing.reportClaimEnd (.port .p3)).expireLeases.mail.get (.port .p3) =
      (lapsing.reportClaimEnd (.port .p3)).mail.get (.port .p3) ∧
      ((lapsing.reportClaimEnd (.port .p3)).mail.get (.port .p3)).claimEnd = true) ∧
    ((tearing lapsing .p1).expireLeases.leaseUnit.due = false ∧ ((tearing lapsing .p1).pu.get .p1).stepsDue = .all) ∧
    ((awaitingAt lapsing 0x308).mail.get (.port .p0)).request.isSome = true ∧
    (workingDue.modEngine (fun e => { e with inbox := [.removed 9] })).engine.inbox = .removed 9 :: [] ∧
    (∀ k, k < 26 → k < 20 ∧ (k % 5 = 2 ∨ k % 5 = 3) ∨ k = 20 ∨ k = 21 ∨ k = 24 ∨ (k < 20 ∧ k % 5 = 4) ∨ k = 22 ∨ k = 23 ∨
      k = 25 ∨ (k < 20 ∧ k % 5 < 2)) := by decide +kernel

/-- Forbidden by lease 1 alone; held on the settling range; admitted beside it. -/
theorem test_meets_PortAdmissionIsDecided : ∀ x ∈ [0x10F, 0x307, 0x308],
    let s := awaitingAt leased x
    let a : Access := { owner := .p0, origin := .write, reads := [], writes := [{ start := x, length := 1 }] }
    s.mail.get (.port .p0) = { claimEnd := false, withdrawal := false, request := some a, decision := none, turn := none } ∧
    a.requester = .port .p0 ∧ s.phase .p0 = some .access ∧ (s.pu.get .p0).operation.isSome = true ∧
    (s.ltx.get .p0).discard = false ∧ 0 < (s.ltx.get .p0).reserved ∧
    (lease1.forbids a = decide (x = 0x10F)) ∧ lease2.forbids a = false ∧
    ((∃ r ∈ s.leaseUnit.settlingRanges, a.meets r = true) ↔ x = 0x307) := by decide +kernel

/-- The job engine awaits the admission of its chunk under these leases and claims. -/
def chunkAwaiting (u : LeaseUnit) : State := { (working jobRun false).askAdmission (jobRun.access jobRun.nextChunk) with leaseUnit := u }
theorem test_meets_ChunkAdmissionIsDecided :
    let s := chunkAwaiting up.leaseUnit
    let l : Lease := { leaseAt .p3 0 with range := { start := 0x1064, length := 16 } }
    s.mail.get .engine = { claimEnd := false, withdrawal := false, request := some (jobRun.access jobRun.nextChunk),
                           decision := none, turn := none } ∧
    (jobRun.access jobRun.nextChunk).requester = .engine ∧ s.engine.inbox = [] ∧
    s.engine.running = some { job := 1, chunk := jobRun.nextChunk, inChunk := false } ∧ s.engine.find 1 = some jobRun ∧
    l.forbids (jobRun.access jobRun.nextChunk) = true ∧ lease1.forbids (jobRun.access jobRun.nextChunk) = false ∧
    (jobRun.access jobRun.nextChunk).meets { start := 0x10A3, length := 1 } = true ∧
    (jobRun.access jobRun.nextChunk).meets { start := 0x10A4, length := 1 } = false := by decide +kernel

theorem test_meets_WithdrawalAndClaimEnd :
    let s := leased.modMail (.port .p3) (fun m => { m with withdrawal := true })
    let h := s.modLease (fun u => { u with held := [claim3] })
    let t := executing (up.modLease (fun u =>
      { u with settling := u.settling.set .p1 (some { request := request 0x300 8 0 .exclusive, recorded := [.port .p3] }),
               claims := [claim3] })) .p1 .lease .settling
    ((s.mail.get (.port .p3)).withdrawal = true ∧ (s.mail.get (.port .p3)).claimEnd = false ∧
      (∀ a ∈ s.leaseUnit.held, a.requester ≠ .port .p3) ∧ (∃ c ∈ s.leaseUnit.claims, c.requester = .port .p3)) ∧
    (∃ a ∈ h.leaseUnit.held, a.requester = .port .p3) ∧ (∀ c ∈ up.leaseUnit.claims, c.requester ≠ .port .p3) ∧
    ((leased.reportClaimEnd (.port .p3)).mail.get (.port .p3)).claimEnd = true ∧
    (up.leaseUnit.queue = [] ∧ ∀ q ∈ allPorts, up.leaseUnit.settling.get q = none) ∧
    (t.leaseUnit.queue = [] ∧ t.leaseUnit.held = [] ∧ (∀ q ∈ allPorts, q ≠ .p1 → t.leaseUnit.settling.get q = none) ∧
      t.phase .p1 = some .settling ∧ (t.ltx.get .p1).discard = false ∧ 0 < (t.ltx.get .p1).reserved) := by decide +kernel

/-- An admission of P2 held on the range of P1's SETTLING request, whose set empties with the claim of P3; an admission of
the running job's chunk, refused; one held again. -/
def heldOn : State :=
  let o : PortOperation := { operation := .write [0xAA], mapping := winA.mapping 0x200, count := 1, piece := 0,
                             gathered := [], admitted := false, abandoned := false }
  let s := executing (executing up .p1 .lease .settling) .p2 .write .access
  (s.modPu .p2 (fun u => { u with operation := some o })).modLease (fun u =>
    { u with settling := u.settling.set .p1 (some { request := request 0x200 8 0 .exclusive, recorded := [.port .p3] }),
             claims := [claim3], held := [{ owner := .p2, origin := .write, reads := [],
                                            writes := [{ start := 0x208, length := 1 }, { start := 0x207, length := 1 }] }] })
/-- The claim of P3 ends: P1 is granted id 1, which refuses P2 at once. -/
theorem test_claimEnd_retry : sent (.claimEnd (.port .p3) false) (heldOn.reportClaimEnd (.port .p3)) .p1 = [[0, 1, 0, 0, 5]] ∧
    sent (.claimEnd (.port .p3) false) (heldOn.reportClaimEnd (.port .p3)) .p2 = [[0xC, 1, 1]] := by decide +kernel
theorem test_meets_WithdrawalAndClaimEnd_retry :
    let s := heldOn.modLease (fun u => { u with
      held := u.held.map (fun a => { a with reads := a.writes, writes := [] }),
      settling := u.settling.set .p1 (some { request := request 0x200 8 0 .shared, recorded := [.port .p3] }) })
    let l : Lease := { id := s.leaseUnit.nextLeaseId, port := .p1, kind := .shared, range := { start := 0x200, length := 8 },
                       logical := 0x200, window := 0, life := 5 }
    (s.leaseUnit.queue = [] ∧ (s.leaseUnit.settling.get .p1).map Settling.recorded = some [.port .p3] ∧
      (∀ q ∈ allPorts, q ≠ .p1 → s.leaseUnit.settling.get q = none) ∧ s.leaseUnit.held.length = 1 ∧
      (∀ a ∈ s.leaseUnit.held, a.meets { start := 0x200, length := 8 } = true ∧ a.requester = .port .p2 ∧
        ∀ m ∈ s.leaseUnit.leases ++ [l], m.forbids a = false) ∧
      (s.pu.get .p2).operation.isSome = true ∧ (s.mail.get (.port .p2)).withdrawal = false) ∧
    (∀ a ∈ heldOn.leaseUnit.held, ({ l with kind := .exclusive } : Lease).forbids a = true) ∧
    (heldOn.leaseUnit.settlingRanges = [{ start := 0x200, length := 8 }] ∧
      ∀ a ∈ heldOn.leaseUnit.held, (∀ m ∈ heldOn.leaseUnit.leases, m.forbids a = false) ∧
        a.meets { start := 0x200, length := 8 } = true) ∧
    heldOn.phase .p2 = some .access ∧ (heldOn.leaseUnit.due = false ∧ heldOn.engine.inbox = []) := by decide +kernel
/-- The queue is one settling waiter whose set is the claim that ends; an outcome reaches the job engine. -/
theorem test_meets_WithdrawalAndClaimEnd_waiter :
    let s := leased.modLease (fun u => { u with queue := [settled] })
    (s.leaseUnit.queue = [settled] ∧ settled.settling = some [.port .p3] ∧ (∀ q ∈ allPorts, s.leaseUnit.settling.get q = none) ∧
      s.leaseUnit.held = [] ∧ (s.ltx.get settled.port).discard = false ∧ 0 < (s.ltx.get settled.port).reserved) ∧
    ((working jobRun false).mail.get .engine).withdrawal = false ∧ (working jobRun false).engine.inbox = [] ∧
    ((working jobRun false).engine.running.map RunningJob.job = some 1 ∧ (working jobRun false).engine.find 1 = some jobRun) ∧
    ((working jobRun false).modEngine (fun e => { e with inbox := [.removed 9] })).engine.inbox = .removed 9 :: [] := by
  decide +kernel

theorem test_meets_TurnRequestGrantedOrPending : ((up.askTurn .engine (.read [7])).mail.get .engine).turn = some (.read [7]) ∧
    up.arbiter.current = none ∧ up.arbiter.pending = [] ∧ turning.arbiter.current.isSome = true := by decide

theorem test_meets_TurnEndWritesAndSelects : up.arbiter.current = none ∧ (Turn.read [0x40000]).inStore = false ∧
    (Turn.read [0x3FFFF]).inStore = true ∧ turning.arbiter.current.map (fun x => x.2.inStore) = some true ∧
    (turning.arbiter.pending.map (fun x => x.1)).Nodup ∧ (Requester.port .p1, Turn.read [1]) ∈ turning.arbiter.pending ∧
    cyclicAfter turning.arbiter.lastGranted = [] ++ Requester.port .p1 :: [.port .p2, .port .p3, .engine, .port .p0] := by
  decide +kernel

theorem test_meets_TurnsMoveTheirBytes : [0x3FFFF, 0].Nodup ∧ [0x3FFFF, 0].length = ([1, 2] : List Byte).length ∧
    [(turning.writeTurn (.write [5] [9])).storeByte 5] = [9] ∧ ([9] : List Byte) ≠ [8] := by decide +kernel

/-- A port's operation at a piece: its last at 64 times the pieces done, one more byte makes one more piece. -/
theorem test_meets_PortTurnEndRepliesOrGoesOn :
    let o : PortOperation := { operation := .read, mapping := winA.mapping 0, count := 64, piece := 0, gathered := [],
                               admitted := true, abandoned := false }
    (turning.pu.get .p0).operation.isSome = true ∧ o.count ≤ 64 * (o.piece + 1) ∧
    64 * (({ o with count := 65 } : PortOperation).piece + 1) < 65 ∧ { o with abandoned := true }.abandoned = true ∧
    turning.phase .p0 = some .access ∧ (turning.ltx.get .p0).discard = false ∧ 0 < (turning.ltx.get .p0).reserved := by
  decide +kernel

/-- Two requests wait on a job in its chunk, a pause of P1 and a FORCE-CANCEL of P0, under each kind of stop request. -/
def chunkAwaitedTwice (length : Nat) (k : StopKind) : State :=
  executing (executing (chunkOf { jobRun with length := length, stop := k, stopWaiters :=
    [{ port := .p1, tag := 7, kind := .jobPause }, { port := .p0, tag := 7, kind := .forceCancel }] })
    .p1 .jobPause .atChunkEnd) .p0 .forceCancel .atChunkEnd
theorem test_meets_ChunkEndGoesOnOrEnds_two : ∀ n ∈ [64, 65], ∀ k ∈ [StopKind.none, .pause, .cancel .owner,
      .cancel .supervisor, .cancel .teardown], (chunkAwaitedTwice n k).EngineOrderly ∧
    (chunkAwaitedTwice n k).phase .p1 = some .atChunkEnd ∧ (chunkAwaitedTwice n k).phase .p0 = some .atChunkEnd := by
  intro n hn k hk
  simp only [List.mem_cons, List.not_mem_nil, or_false] at hn hk
  rcases hn with rfl | rfl <;> rcases hk with rfl | rfl | rfl | rfl | rfl <;>
    exact ⟨orderly_of rfl (by decide) (by intro p w n l k; cases p <;> cases k), by decide⟩
/-- A FORCE-CANCEL behind a pause: WRONG-STATE, OK, and JOB-END with reason SUPERVISOR (R116, R119). -/
theorem test_turnEnd_two : sent .turnEnd (chunkAwaitedTwice 100 (.cancel .supervisor)) .p1 =
      [[5], [1, 0, 1, 2, 0, 0, 64, 0, 0]] ∧
    sent .turnEnd (chunkAwaitedTwice 100 (.cancel .supervisor)) .p0 = [[0, 1, 0, 0, 64]] := by decide +kernel
theorem test_meets_ChunkEndGoesOnOrEnds : (chunkOf jobRun).EngineOrderly ∧
    (chunkOf jobRun).arbiter.current = some (.engine, .copy [1] [2]) ∧ (Turn.copy [1] [2]).inStore = true ∧
    (chunkOf jobRun).engine.find 1 = some jobRun ∧ jobRun.stop = .none ∧
    jobRun.done + jobRun.nextChunk.size < jobRun.length ∧
    { jobRun with length := 64 }.done + { jobRun with length := 64 }.nextChunk.size = 64 ∧
    (chunkOf jobStopping).engine.find 1 = some jobStopping ∧ jobStopping.stop = .pause ∧
    jobStopping.done + jobStopping.nextChunk.size < jobStopping.length :=
  ⟨orderly_of rfl (by decide) (by intro p w n l k; cases p <;> cases k), by decide⟩
theorem test_meets_ChunkEndGoesOnOrEnds_cancel : ∀ r ∈ [CancelReason.owner, .supervisor, .teardown],
    (chunkOf { jobRun with stop := .cancel r }).EngineOrderly :=
  fun r _ => orderly_of rfl (by cases r <;> decide) (by intro p w n l k; cases p <;> cases k)

/-- P1's job in its chunk with the stop request `k` and P1's control request `w` on its waiting list. -/
def chunkAwaited (length : Nat) (k : StopKind) (w : Kind) : State :=
  executing (chunkOf { jobRun with length := length, stop := k, stopWaiters := [{ port := .p1, tag := 7, kind := w }] })
    .p1 w .atChunkEnd
theorem test_meets_ChunkEndGoesOnOrEnds_waiting : ∀ x ∈ [(200, StopKind.pause, Kind.jobPause), (64, .pause, .jobPause),
      (200, .cancel .owner, .jobCancel), (64, .cancel .supervisor, .forceCancel)],
    (chunkAwaited x.1 x.2.1 x.2.2).EngineOrderly ∧ (chunkAwaited x.1 x.2.1 x.2.2).phase .p1 = some .atChunkEnd := by
  intro x hx
  simp only [List.mem_cons, List.not_mem_nil, or_false] at hx
  rcases hx with rfl | rfl | rfl | rfl <;>
    exact ⟨orderly_of rfl (by decide) (by intro p w n l k; cases p <;> cases k), by decide⟩

theorem test_meets_SubmissionsAreCheckedAndAccepted :
    (∀ b ∈ [co 0 0 0 0, co 0 0 65537 0, co 0 0 1 60001, co 0x1000 0 1 0, co 0 0x1000 1 0, co 0x020000 0 1 0,
      co 0 0x010000 1 0, co 0 0x40 100 60000, co 0 0 65536 0], (ask .jobCopy b).Takes .p0 .jobCopy (frame .jobCopy b)) ∧
    (∀ b ∈ [fi 0 0 0, fi 0x1000 1 0, fi 0x0200FF 2 0, fi 0x010000 1 0, fi 0 10 60000],
      (ask .jobFill b).Takes .p0 .jobFill (frame .jobFill b)) ∧
    (∀ b ∈ [su 0 0 0, su 0x1000 1 0, su 0x0100FF 2 0, su 0x020000 1 0, su 0 10 60000],
      (ask .jobSum b).Takes .p0 .jobSum (frame .jobSum b)) := by
  refine ⟨fun b hb => takes_of ?_, fun b hb => takes_of ?_, fun b hb => takes_of ?_⟩ <;> revert b <;> decide +kernel
def jobNumber (p : Port) (i : Nat) : Job := { jobPaused with id := i + 1, port := p }
theorem test_meets_SubmissionsAreCheckedAndAccepted_clauses :
    unitUp.located 0x1000 1 = none ∧ unitUp.located 0x0100FF 2 = some winB ∧
    winB.size < (0x0100FF - winB.base) % winB.size + 2 ∧ (0 - winA.base) % winA.size + 4096 ≤ winA.size ∧
    8 ≤ (resting ((owners.take 8).zipIdx.map (fun x => jobNumber x.1 x.2))).engine.jobs.length ∧
    3 ≤ ((resting ((List.range 3).map (jobNumber .p0))).engine.jobsOf .p0).length ∧
    ((resting ((List.range 2).map (jobNumber .p0))).engine.jobsOf .p0).length < 3 ∧
    (handing up .p0 .jobSum (.submit (.sum 0) 1 0)).phase .p0 = some (.handed (.submit (.sum 0) 1 0)) := by decide +kernel

theorem test_meets_SelectionTakesTheOldestQueuedJob : (working jobRun true).engine.running.isSome = true ∧
    (∀ j ∈ (resting [jobPaused]).engine.jobs, j.state ≠ .queued) ∧ (resting [jobPaused, jobQueued]).engine.running = none ∧
    (resting [jobPaused, jobQueued]).engine.jobs = [jobPaused] ++ jobQueued :: [] ∧ jobPaused.state ≠ .queued ∧
    jobQueued.state = .queued ∧ jobRun.work = .copy 0x1000 0x1040 .descending ∧ jobQueued.work = .fill 0 [1, 2, 3, 4] ∧
    jobPaused.work = .sum 0 0xFFFF ∧ ([1, 2, 3, 4] : List Byte).length = 4 := by decide

/-- A FILL in its last chunk, a COPY, a SUM. -/
theorem test_meets_FillPlacesItsPattern : jobQueued.work = .fill 0 [1, 2, 3, 4] ∧ jobRun.work = .copy 0x1000 0x1040 .descending ∧
    jobPaused.work = .sum 0 0xFFFF ∧ (9, (2 : Byte)) ∈ (jobQueued.turn jobQueued.nextChunk).written up ∧
    jobRun.turn jobRun.nextChunk = .copy (List.range' (0x1000 + 36) 64) (List.range' (0x1040 + 36) 64) := by decide +kernel

/-- A job in each state for its own port, and a port with none of that id. -/
theorem test_meets_PauseAndResume_Cancels : (working jobRun true).engine.findOf .p0 2 = some jobQueued ∧
    (working jobRun true).engine.findOf .p0 3 = some jobPaused ∧ (working jobRun true).engine.findOf .p2 4 = some jobBlocked ∧
    (working jobRun true).engine.findOf .p1 1 = some jobRun ∧ (working jobRun true).engine.findOf .p0 1 = none ∧
    (working jobRun true).engine.find 5 = none ∧ (working jobRun true).engine.find 4 = some jobBlocked ∧
    jobQueued.state = .queued ∧ jobBlocked.state = .blocked 9 (some 1) ∧ jobPaused.state = .paused ∧
    (working jobRun true).engine.due = false ∧
    jobRun.state = .running ∧ (working jobRun true).engine.inChunk 1 = true ∧
    (working jobRun false).engine.inChunk 1 = false := by decide
/-- Taken with id 0, and with the least and the greatest id that is handed over. -/
theorem test_meets_control_taken : ∀ k ∈ [Kind.jobPause, .jobResume, .jobCancel, .jobQuery, .forceCancel],
    ∀ id ∈ [(0 : Byte), 1, 255], (control true .p0 k id).Takes .p0 k (frame k [id]) := by
  intro k hk id hid
  refine takes_of ?_
  revert k id
  decide +kernel
theorem test_meets_PauseAndResume_handed (h : Handed) (c : Bool) :
    ((handing (working jobRun c) .p1 .jobCancel h).pu.get .p1).executing =
      some { tag := 7, kind := .jobCancel, reserved := true, phase := .handed h } := rfl
theorem test_meets_CancelsByJobState (c : Bool) : (handing (working jobRun c) .p1 .jobCancel (.jobCancel 1)).EngineOrderly :=
  orderly_of rfl (by cases c <;> decide) (by intro p w n l k; cases p <;> cases k)

theorem test_meets_QueryReportsJobOrRecord : (control true .p0 .jobQuery 9).Takes .p0 .jobQuery (frame .jobQuery [9]) ∧
    (working jobRun true).engine.findOf .p0 9 = none ∧ (working jobRun true).engine.histories.get .p0 = [] ++ ended :: [] ∧
    (∀ x ∈ (working jobRun true).engine.histories.get .p0, x.id ≠ 7) ∧ fieldAt [9] 0 1 = ended.id :=
  ⟨takes_of (by decide +kernel), by decide⟩
/-- Handed over with the block limit of P2's job 4 due: a live job, the job's end record, an older record, and neither. -/
theorem test_meets_QueryReportsJobOrRecord_handed :
    let s (p : Port) (id : Nat) : State := handing workingDue p .jobQuery (.jobQuery id)
    workingDue.engine.due = true ∧ (s .p2 4).handed .p2 = some (.jobQuery 4) ∧
    (s .p0 2).expireJobs.engine.findOf .p0 2 = some jobQueued ∧
    ((s .p2 4).expireJobs.engine.findOf .p2 4 = none ∧
      (s .p2 4).expireJobs.engine.histories.get .p2 = [] ++ jobDue.endRecord .failed .blockLimit :: []) ∧
    ((s .p0 9).expireJobs.engine.findOf .p0 9 = none ∧
      (s .p0 9).expireJobs.engine.histories.get .p0 = [] ++ ended :: []) ∧
    ((s .p0 7).expireJobs.engine.findOf .p0 7 = none ∧
      ∀ x ∈ (s .p0 7).expireJobs.engine.histories.get .p0, x.id ≠ 7) := by decide +kernel

theorem test_meets_RemovalReportAndBlockLimit :
    ((working jobRun true).modEngine (fun e => { e with inbox := [.removed 9] })).engine.inbox = .removed 9 :: [] ∧
    (working jobRun true).engine.inbox = [] ∧ (working jobRun true).engine.due = false ∧
    jobDue ∈ workingDue.engine.jobs ∧ jobDue.state = .blocked 9 (some 0) ∧
    (∀ j ∈ (working jobRun true).engine.jobs, j.id = 4 → j.state = .blocked 9 (some 1)) := by decide
theorem orderly_workingDue : workingDue.EngineOrderly :=
  orderly_of rfl (by decide) (by intro p w n l k; cases p <;> cases k)

/-- A receiver after one bit time of space with no character; after 22; after the break and ten bit times of mark. -/
def spaced : State := up.modLrx .p0 (fun x => { x with run := .space 1 })
def broken : State := up.modLrx .p0 (fun x => { x with state := .brk, run := .space 22 })
def ending : State := up.modLrx .p0 (fun x => { x with state := .brk, run := .mark 10 })
theorem test_meets_MarkedCharacter : up.Listens .p0 0 ∧ spaced.Listens .p0 1 ∧ (assembling [1]).Listens .p0 0 ∧
    (up.lrx.get .p0).state = .hunting ∧ ((assembling [1]).lrx.get .p0).state = .assembling :=
  ⟨⟨rfl, by decide, rfl, fun _ h => by cases h⟩, ⟨rfl, by decide, rfl, fun _ _ => Nat.le_refl 1⟩,
    ⟨rfl, by decide, rfl, fun _ h => by cases h⟩, rfl, rfl⟩
/-- BREAK ends with the 11th bit time of mark, in one run or after ten; it does not with ten. -/
theorem test_meets_BreakOver : broken.BreakOver .p0 11 ∧ ending.BreakOver .p0 1 ∧ ¬ broken.BreakOver .p0 10 :=
  ⟨⟨rfl, rfl, by decide, .inl (by decide)⟩, ⟨rfl, rfl, by decide, .inr ⟨10, rfl, by decide⟩⟩,
    fun h => h.2.2.2.elim (by decide) (fun ⟨_, e, _⟩ => by cases e)⟩

/-- The second character, LEN 1040 and 1041, a character before the last, the last with a good and a bad check. -/
theorem test_meets_UnmarkedCharacter : ([1, 2] : List Byte).length < 4 ∧
    (([1, 2, 4, 0x10] : List Byte).length = 4 ∧ lengthField [1, 2, 4, 0x10] ≤ 1040) ∧
    (([1, 2, 4, 0x11] : List Byte).length = 4 ∧ 1040 < lengthField [1, 2, 4, 0x11]) ∧
    (4 < lacking.length ∧ lacking.length ≠ lengthField lacking + 6) ∧
    ((lacking ++ [lastOf]).length = lengthField (lacking ++ [lastOf]) + 6 ∧
      (crc16 ((lacking ++ [lastOf]).take 4)).toNat = fieldAt (lacking ++ [lastOf]) 4 2) ∧
    (crc16 ((lacking ++ [lastOf + 1]).take 4)).toNat ≠ fieldAt (lacking ++ [lastOf + 1]) 4 2 ∧
    (closing.pu.get .p0).session = .closing ∧ (up.lrx.get .p0).held = none ∧
    ((ask .close []).lrx.get .p0).held ≠ none := by decide +kernel

/-- A receiver in the state given, its line at this run, with these levels of a character in progress. -/
def inCharacter (x : RxState) (r : LineRun) (levels : List Bool) : State :=
  up.modLrx .p0 (fun y => { y with state := x, buffer := if x = .assembling then [1] else [], run := r, character := levels })
/-- One bit time: no start bit, a start bit, a level of a character, its stop bit at space, the 21st and the 22nd bit time
of space; at mark, none, a level, the stop bit of a marked 0x80 and of an unmarked 0. -/
theorem test_meets_StopBitErrorsAndBreaks_one : ∀ x ∈ [RxState.hunting, .assembling],
    (let s := inCharacter x (.space 20) []
     s.resetLine = .released ∧ (s.lrx.get .p0).state = x ∧ x ≠ .brk ∧ (s.lrx.get .p0).run = .space 20 ∧
       (s.lrx.get .p0).character = [] ∧ 20 + 1 < 22) ∧
    (∀ r ∈ [LineRun.none, .mark 3], ((inCharacter x r []).lrx.get .p0).run.atSpace = false ∧
      ((inCharacter x r []).lrx.get .p0).character = []) ∧
    ((inCharacter x (.space 9) (List.replicate 9 false)).lrx.get .p0).character.length < 10 ∧
    ((inCharacter x (.space 10) (List.replicate 10 false)).lrx.get .p0).character.length = 10 ∧ 10 + 1 < 22 ∧
    ((inCharacter x (.space 21) []).lrx.get .p0).run = .space 21 ∧ 22 ≤ 21 + 1 ∧
    (∀ m ∈ [true, false], ∀ c ∈ [0x80, (0 : Byte)],
      ((inCharacter x .none ((goodLevels m c).take 10)).lrx.get .p0).character = (goodLevels m c).take 10) := by
  decide +kernel
/-- Many bit times: runs of space of 10, 11, 21 and 22 from the beginning, of 21 and 22 going on, and in BREAK; runs of mark
in BREAK of 10 and 11, from the beginning and going on, and without a break. A stop-bit error after mark ends in one bit
time of space, one of zeros in 11. -/
theorem test_meets_StopBitErrorsAndBreaks : (spaced.lrx.get .p0).run = .space 1 ∧ (up.lrx.get .p0).run.atSpace = false ∧
    (up.lrx.get .p0).character = [] ∧ (up.lrx.get .p0).state = .hunting ∧
    ((assembling [1]).lrx.get .p0).state = .assembling ∧ ((assembling [1]).lrx.get .p0).run.atSpace = false ∧
    0 + 10 < 11 ∧ 11 ≤ 0 + 11 ∧ 0 + 21 < 22 ∧ 22 ≤ 0 + 22 ∧ 1 + 20 < 22 ∧ 22 ≤ 1 + 21 ∧
    (broken.lrx.get .p0).state = .brk ∧ (broken.lrx.get .p0).run = .space 22 ∧ (broken.lrx.get .p0).run.marks = 0 ∧
    (ending.lrx.get .p0).run = .mark 10 ∧ 11 ≤ 10 + 1 ∧ up.resetLine = .released ∧
    ({ up with resetLine := .resetLow } : State).resetLine ≠ .released ∧
    endingSpace (errorLevels true 0xFF) = 1 ∧ endingSpace (errorLevels false 0) = 11 := by decide +kernel

/-- Room for a notice at seven entries taken, none at eight. -/
theorem test_meets_TransmitterQueuesAndSends :
    ((executing up .p0 .close .closing).pu.get .p0).executing.isSome = true ∧
    0 < ((executing up .p0 .close .closing).ltx.get .p0).reserved ∧
    transmitQueueSize ≤ (List.replicate 7 (frame .close [])).length + 1 ∧
    (List.replicate 6 (frame .close [])).length + 1 < transmitQueueSize ∧ NoticeKind.jobEnd.enabled unitUp.mask = true ∧
    NoticeKind.jobEnd.enabled .empty = false ∧ (up.ltx.get .p0).serializer = .idle := by decide

theorem test_meets_BoundaryLowersTheTimers : ∀ x ∈ [(false, false), (true, false), (false, true)],
    (behind x.1 x.2).resetLine = .released ∧ (behind x.1 x.2).time.leaseDue = x.1 ∧ (behind x.1 x.2).time.engineDue = x.2 ∧
    (behind x.1 x.2).catchUp.leaseUnit.due = false ∧ (behind x.1 x.2).catchUp.engine.due = false ∧
    (behind x.1 x.2).catchUp.time.leaseDue = false ∧ (behind x.1 x.2).catchUp.time.engineDue = false := by decide +kernel
/-- A lease of one boundary lapses after it, and the next boundary finds it gone (R178). -/
theorem test_lapse_before_next_boundary : (after (.msBoundary .both) (up.modLease (fun u =>
      { u with leases := [{ lease2 with life := 1 }] })) id).bind (fun s => after (.msBoundary .leaseUnit) s
        (fun t => (t.leaseUnit.leases, t.ltx.p0.queue.map Frame.payload, t.time.engineDue))) =
    some ([], [[2]], true) := by decide +kernel

/-! ## The invariants hold in a busy state -/

/-- Leases, a waiter, a settling waiter, a claim, a BUSY engine. -/
def busy : State := { leased with engine := engineOn jobRun true }

theorem test_meets_lease_invariants : busy.LeaseTableFits ∧ busy.LeaseIdsDistinct ∧ busy.QueuesFit ∧ busy.StoreCanonical ∧
    busy.DividerInRange :=
  ⟨(by unfold State.LeaseTableFits; decide), (by unfold State.LeaseIdsDistinct; decide),
    (by intro p; cases p <;> decide), rfl, (by unfold State.DividerInRange; decide)⟩
theorem test_meets_wait_queue : busy.WaitQueueFits ∧ busy.DiscardWhileClosing ∧ busy.HistoriesFit ∧ busy.CountersFit :=
  ⟨⟨by decide, (by intro p; cases p <;> decide)⟩, (by intro p h; cases p <;> cases h), (by intro p; cases p <;> decide),
    (by intro p; cases p <;> decide)⟩
theorem test_meets_holdings : busy.HoldingsFit :=
  fun p => by cases p <;> exact ⟨by decide, fun h => absurd rfl h⟩
theorem test_meets_in_flight : busy.InFlightOrderly :=
  ⟨fun p => by cases p <;> rfl, fun p => by cases p <;> decide, (by intro p x h; cases p <;> cases h),
    fun p => by cases p <;> decide⟩
theorem test_meets_torn_down : busy.TeardownOrderly ∧
    (down.modPu .p0 (fun u => { u with session := .closing, cause := some .brk })).TeardownOrderly ∧
    (down.modPu .p0 (fun u => { u with session := .closing, cause := some .brk })).workDone .p0 = true := by
  refine ⟨⟨?_, ?_, ?_, ?_, ?_⟩, ⟨?_, ?_, ?_, ?_, ?_⟩, by decide⟩ <;> intro p h
  iterate 5 exact absurd h (by cases p <;> decide)
  · intro i
    have none_at : ∀ j, PortUnit.reset.windowNamed j = none := by
      intro j
      match j with
      | 0 | 1 | 2 | 3 | 4 | 5 | 6 | 7 => rfl
      | n + 8 => simp [PortUnit.windowNamed, PortUnit.reset]
    cases p <;> exact none_at i
  · intro _; cases p <;> rfl
  · intro _
    refine ⟨by cases p <;> rfl, by cases p <;> rfl, fun x e => by cases p <;> cases e⟩
  · intro _; cases p <;> rfl
  · refine ⟨by cases p <;> rfl, by cases p <;> rfl, by cases p <;> rfl, by cases p <;> rfl⟩
theorem test_meets_timers : busy.TimersInRange :=
  ⟨by decide, by decide, (by intro p t h; cases p <;> cases h),
    (by
      have a : ∀ j ∈ busy.engine.jobs, j.limit ≤ maxMilliseconds ∧ (match j.state with
          | .blocked _ (some n) => n
          | _ => 0) ≤ maxMilliseconds := by decide
      intro j h
      refine ⟨(a j h).1, fun x n e => ?_⟩
      have b := (a j h).2
      rw [e] at b
      exact b),
    (by intro p x h; cases p <;> cases h), (by intro p i n h; cases p <;> cases h),
    (by intro p w n l h; cases p <;> cases h)⟩
theorem test_meets_JobEngineStaysOrderly : busy.EngineOrderly :=
  orderly_of rfl (by decide) (by intro p w n l k; cases p <;> cases k)
theorem test_meets_LeasesNeverConflict : busy.LeasesOrderly where
  leases := by unfold Range.Disjoint; decide
  waiterLease := by unfold Range.Disjoint; decide
  waiters := by unfold Range.Disjoint; decide
  settlingLease := by decide
  settlingWaiters := by decide
  executingLease := by intro p t h; cases p <;> cases h
  executingWaiter := by intro p t h; cases p <;> cases h
  executing := by intro p q t u _ h; cases p <;> cases h
  phase := by intro p h; exact absurd (by cases p <;> rfl) h
theorem test_meets_NoLeaseForbidsAStandingClaim : busy.ClaimsUnforbidden where
  claims := by decide
  waiters := by
    intro w hw rec h
    have q : busy.leaseUnit.queue = [waiter, settled] := rfl
    have h' : w = waiter ∨ w = settled := by simpa [q] using hw
    rcases h' with rfl | rfl
    · cases h
    · obtain rfl : [Requester.port .p3] = rec := Option.some.inj h
      decide
  executing := by intro p t h; cases p <;> cases h
theorem test_meets_WindowsStayLegal : busy.WindowsLegal := by
  have pu : ∀ p, (busy.pu.get p).windowNamed = unitUp.windowNamed := by intro p; cases p <;> rfl
  have one : ∀ {i : Nat} {v : Window}, unitUp.windowNamed i = some v → i = 0 ∧ v = winA ∨ i = 1 ∧ v = winB ∨ i = 2 ∧ v = winC := by
    intro i v h
    match i with
    | 0 => exact .inl ⟨rfl, (Option.some.inj h).symm⟩
    | 1 => exact .inr (.inl ⟨rfl, (Option.some.inj h).symm⟩)
    | 2 => exact .inr (.inr ⟨rfl, (Option.some.inj h).symm⟩)
    | 3 | 4 | 5 | 6 | 7 => exact absurd h (by simp [unitUp, PortUnit.windowNamed])
    | n + 8 => exact absurd h (by simp [unitUp, PortUnit.windowNamed])
  intro p
  rw [pu p]
  refine ⟨fun i w h => ?_, fun i j v w n h k => ?_⟩
  · rcases one h with ⟨-, rfl⟩ | ⟨-, rfl⟩ | ⟨-, rfl⟩ <;> (unfold Window.Legal; decide)
  · rcases one h with ⟨rfl, rfl⟩ | ⟨rfl, rfl⟩ | ⟨rfl, rfl⟩ <;>
      rcases one k with ⟨rfl, rfl⟩ | ⟨rfl, rfl⟩ | ⟨rfl, rfl⟩ <;> first | exact absurd rfl n | decide
theorem test_meets_Receivers : busy.ReceiversLegal := by
  intro p
  have h : busy.lrx.get p = Receiver.reset := by cases p <;> rfl
  rw [h]
  exact ⟨by decide, by decide, fun f e => (by cases e), by decide, fun b e => (by cases e), fun _ => rfl,
    fun n e => (by cases e)⟩

end Sys2Proof.Tests
end

section
/-! SUPPORT. The window tables (05): what a table says entry by entry, which commands open no window, and the windows
that a WIN-OPEN opens. Settles O58 (R74) and O20 (R86). -/

namespace Sys2Proof.Machine

/-! ## The entries of a window table -/

theorem PortUnit.windowNamed_closed {u : PortUnit} (h : u.windows = Vector.replicate 8 none) (i : Nat) :
    u.windowNamed i = none := by
  rw [PortUnit.windowNamed, h, Vector.getElem?_replicate]
  split <;> rfl

theorem PortUnit.windowNamed_setWindow (u : PortUnit) (i j : Nat) (x : Option Window) :
    (u.setWindow i x).windowNamed j = if i = j ∧ i < 8 then x else u.windowNamed j := by
  simp only [PortUnit.windowNamed, PortUnit.setWindow, Vector.getElem?_setIfInBounds]
  by_cases e : i = j
  · subst e
    by_cases b : i < 8
    · simp only [b, and_self, if_true, Option.join_some]
    · simp only [b, and_false, if_true, if_false, Vector.getElem?_eq_none (Nat.le_of_not_lt b)]
  · simp only [e, false_and, if_false]

/-- The table in index order is the list of its 8 entries. -/
theorem PortUnit.windows_toList (u : PortUnit) : u.windows.toList = (List.range 8).map u.windowNamed := by
  refine List.ext_getElem (by rw [Vector.length_toList, List.length_map, List.length_range]) (fun i h k => ?_)
  have b : i < 8 := by rwa [Vector.length_toList] at h
  rw [Vector.getElem_toList, List.getElem_map, List.getElem_range, PortUnit.windowNamed, Vector.getElem?_eq_getElem b,
    Option.join_some]

/-- The windows that a check of the table goes through are those OPEN at some index. -/
theorem PortUnit.mem_openWindows (u : PortUnit) (v : Window) :
    v ∈ u.windows.toList.filterMap id ↔ ∃ i, u.windowNamed i = some v := by
  rw [PortUnit.windows_toList, List.filterMap_map, List.mem_filterMap]
  constructor
  · rintro ⟨i, -, h⟩
    exact ⟨i, h⟩
  · rintro ⟨i, h⟩
    have b : i < 8 := by
      refine Nat.lt_of_not_le (fun c => ?_)
      rw [PortUnit.windowNamed, Vector.getElem?_eq_none c] at h
      cases h
    exact ⟨i, List.mem_range.mpr b, h⟩

/-- R81, step 4, passed: the span shares no address with that of any OPEN window. -/
theorem PortUnit.spanMeets_eq_false_iff (u : PortUnit) (w : Window) : u.spanMeets w = false ↔
    ∀ i v, u.windowNamed i = some v → v.span.intersects w.span = false := by
  simp only [PortUnit.spanMeets, List.any_eq_false, PortUnit.mem_openWindows, Bool.not_eq_true]
  exact ⟨fun h i v e => h v ⟨i, e⟩, fun h v ⟨i, e⟩ => h i v e⟩

/-- R81, steps 2 and 3, passed: the window is legal (R74). -/
theorem Window.legal_of_checks {w : Window} (range : w.outOfRange = false) (aligned : w.misaligned = false) :
    w.Legal := by
  simp only [Window.outOfRange, decide_eq_false_iff_not, not_or, Nat.not_lt] at range
  simp only [Window.misaligned, decide_eq_false_iff_not, not_or, Decidable.not_not] at aligned
  obtain ⟨size, rep, span, block⟩ := range
  obtain ⟨base, physical⟩ := aligned
  exact ⟨size, rep, base, physical, block, span⟩

/-! ## Opening no window -/

/-- Every window OPEN in the second table is OPEN in the first at the same index. -/
def PortUnit.OpensNone (u v : PortUnit) : Prop := ∀ i w, v.windowNamed i = some w → u.windowNamed i = some w

/-- So at every port: what leads from the first state to the second opens no window. -/
def State.OpensNone (s t : State) : Prop := ∀ q, (s.pu.get q).OpensNone (t.pu.get q)

theorem PortUnit.OpensNone.of_windows {u v : PortUnit} (h : v.windows = u.windows) : u.OpensNone v := by
  intro i w e
  rwa [PortUnit.windowNamed, h] at e

theorem PortUnit.OpensNone.of_closed {u v : PortUnit} (h : v.windows = Vector.replicate 8 none) : u.OpensNone v := by
  intro i w e
  rw [PortUnit.windowNamed_closed h] at e
  cases e

theorem PortUnit.OpensNone.setWindow (u : PortUnit) (i : Nat) : u.OpensNone (u.setWindow i none) := by
  intro j w e
  rw [PortUnit.windowNamed_setWindow] at e
  split at e
  · cases e
  · exact e

theorem State.OpensNone.refl (s : State) : s.OpensNone s := fun _ _ _ e => e

theorem State.OpensNone.trans {s t u : State} (h : s.OpensNone t) (k : t.OpensNone u) : s.OpensNone u :=
  fun q i w e => h q i w (k q i w e)

/-- What leaves the port units leaves the windows. -/
theorem State.OpensNone.of_pu {s t u : State} (h : s.OpensNone t) (e : u.pu = t.pu) : s.OpensNone u := by
  intro q
  rw [e]
  exact h q

/-- What leaves all but in-flight tables and store operations of the port units leaves the windows. -/
theorem State.CoreKept.opensNone {s t : State} (h : s.CoreKept t) : s.OpensNone t :=
  fun q => .of_windows (h.unit q).windows

/-- What the receive line changes leaves the windows. -/
theorem State.LineKept.opensNone {p : Port} {s t : State} (h : State.LineKept p s t) : s.OpensNone t := by
  intro q
  by_cases e : q = p
  · obtain ⟨n, unit⟩ := h.unit
    rw [e, unit]
    exact .of_windows rfl
  · rw [h.others q e]
    exact .of_windows rfl

theorem State.OpensNone.core {s t u : State} (h : s.OpensNone t) (k : t.CoreKept u) : s.OpensNone u :=
  h.trans k.opensNone

theorem State.OpensNone.modPu {s t : State} (h : s.OpensNone t) (p : Port) (f : PortUnit → PortUnit)
    (hf : ∀ u : PortUnit, u.OpensNone (f u)) : s.OpensNone (t.modPu p f) := by
  refine h.trans (fun q => ?_)
  by_cases e : q = p
  · rw [e, State.modPu_pu, PerPort.get_set_self]
    exact hf _
  · rw [State.modPu_pu, PerPort.get_set_ne _ _ e]
    exact .of_windows rfl

/-- A change of a port unit that leaves its window table opens no window. -/
theorem State.OpensNone.keepTable {s t : State} (h : s.OpensNone t) (p : Port) (f : PortUnit → PortUnit)
    (hf : ∀ u, (f u).windows = u.windows := by exact fun _ => rfl) : s.OpensNone (t.modPu p f) :=
  h.modPu p f (fun u => .of_windows (hf u))

theorem State.OpensNone.modLrx {s t : State} (h : s.OpensNone t) (p : Port) (f : Receiver → Receiver) :
    s.OpensNone (t.modLrx p f) := h.of_pu rfl

theorem State.OpensNone.modLtx {s t : State} (h : s.OpensNone t) (p : Port) (f : Transmitter → Transmitter) :
    s.OpensNone (t.modLtx p f) := h.of_pu rfl

theorem State.OpensNone.setTime {s t : State} (h : s.OpensNone t) (x : TimeBase) : s.OpensNone (t.setTime x) :=
  h.of_pu rfl

/-! ## Taking a frame -/

theorem State.OpensNone.emptySlot {s t : State} (h : s.OpensNone t) (p : Port) : s.OpensNone (t.emptySlot p) :=
  h.modLrx p _

theorem State.OpensNone.beginRequest {s t : State} (h : s.OpensNone t) (p : Port) (k : Kind) (tag : Byte) :
    s.OpensNone (t.beginRequest p k tag) :=
  ((h.emptySlot p).modLtx p _).keepTable p _

/-- Taking a frame opens no window, and what follows the taking is at most the decision on the request. -/
theorem State.takeRequest_cases (s : State) (p : Port) (k : Kind) (body : Frame → State → State) :
    ∃ t, s.OpensNone t ∧ (s.takeRequest p k body = t ∨ ∃ f, s.takeRequest p k body = body f t) := by
  have begun : ∀ tag, s.OpensNone (s.beginRequest p k tag) := (State.OpensNone.refl s).beginRequest p k
  have emptied : s.OpensNone (s.emptySlot p) := (State.OpensNone.refl s).emptySlot p
  unfold State.takeRequest
  split
  · exact ⟨s, .refl s, .inl rfl⟩
  · rename_i f _
    split
    · split
      · unfold State.takeUp
        dsimp only
        split
        · exact ⟨_, (begun f.tag).core ((CoreKept.refl _).answer ..), .inl rfl⟩
        · split
          · exact ⟨_, (begun f.tag).core ((CoreKept.refl _).answer ..), .inl rfl⟩
          · split
            · exact ⟨_, (begun f.tag).core ((CoreKept.refl _).answer ..), .inl rfl⟩
            · split
              · exact ⟨_, (begun f.tag).core ((CoreKept.refl _).answer ..), .inl rfl⟩
              · exact ⟨_, begun f.tag, .inr ⟨f, rfl⟩⟩
      · unfold State.takeDown
        dsimp only
        split
        · exact ⟨_, emptied.core ((CoreKept.refl _).answerDirect ..), .inl rfl⟩
        · split
          · exact ⟨_, emptied.core ((CoreKept.refl _).answerDirect ..), .inl rfl⟩
          · exact ⟨_, emptied, .inr ⟨f, rfl⟩⟩
      · exact ⟨s, .refl s, .inl rfl⟩
    · exact ⟨s, .refl s, .inl rfl⟩

/-- A request opens no window where its decision opens none. -/
theorem State.takeRequest_opensNone (s : State) (p : Port) (k : Kind) (body : Frame → State → State)
    (decision : ∀ f (t : State), t.OpensNone (body f t)) : s.OpensNone (s.takeRequest p k body) := by
  obtain ⟨t, taken, e | ⟨f, e⟩⟩ := s.takeRequest_cases p k body
  · rw [e]
    exact taken
  · rw [e]
    exact taken.trans (decision f t)

/-- So where the decision leaves the core of the state. -/
theorem State.takeRequest_core (s : State) (p : Port) (k : Kind) (body : Frame → State → State)
    (decision : ∀ f (t : State), t.CoreKept (body f t)) : s.OpensNone (s.takeRequest p k body) :=
  s.takeRequest_opensNone p k body (fun f t => (decision f t).opensNone)

/-! ## Sessions -/

theorem State.CoreKept.reachExecuting {s t : State} (h : s.CoreKept t) (p : Port) :
    s.CoreKept (t.reachExecuting p) := by
  unfold State.reachExecuting
  split
  · split
    · exact h.dropExecuting p
    · split
      · exact (h.setOperation p _).dropExecuting p
      · exact ((h.withdrawAdmission _).clearOperation p).dropExecuting p
  · exact h.dropExecuting p
  all_goals exact h

/-- R87: a teardown closes the windows of its port and opens none. -/
theorem State.OpensNone.beginTeardown {s t : State} (h : s.OpensNone t) (p : Port) (c : Cause) :
    s.OpensNone (t.beginTeardown p c) :=
  ((h.modLrx p _).modPu p _ (fun _ => .of_closed rfl)).core ((CoreKept.refl _).reachExecuting p)

theorem State.OpensNone.openPort {s t : State} (h : s.OpensNone t) (p : Port) (f : Frame) (m : NoticeMask) :
    s.OpensNone (t.openPort p f m) :=
  (((h.modLrx p _).modLtx p _).keepTable p _).core ((CoreKept.refl _).answerDirect ..)

theorem State.OpensNone.decideOpen {s t : State} (h : s.OpensNone t) (p : Port) (f : Frame) :
    s.OpensNone (t.decideOpen p f) := by
  unfold State.decideOpen
  split
  · exact h.core ((CoreKept.refl _).answerDirect ..)
  · split
    · exact h.core ((CoreKept.refl _).answerDirect ..)
    · exact h.openPort p f _

theorem State.OpensNone.readOn {s t : State} (h : s.OpensNone t) (p : Port) (late : Bool) (g : Gather)
    (readings : List Reading) : s.OpensNone (t.readOn p late g readings) := by
  have read : ∀ rs, s.OpensNone (State.takeReadings rs t g.fields).1 :=
    fun rs => h.core ((CoreKept.refl _).takeReadings rs _)
  unfold State.readOn
  dsimp only
  split
  · exact (read _).keepTable p _
  · have done := (read (readings.drop g.taken)).keepTable p (fun u => { u with gather := none })
    split
    · exact done.core ((CoreKept.refl _).answerIn ..)
    · exact done.core ((CoreKept.refl _).answerDirect ..)
    · exact done.core ((CoreKept.refl _).answerDirect ..)

theorem State.status_opensNone (s : State) (p : Port) (k : Kind) (late : Bool) (readings : List Reading) :
    s.OpensNone (s.status p k late readings) := by
  unfold State.status
  split
  · split
    · exact (State.OpensNone.refl s).readOn p late _ readings
    · exact .refl s
  · exact s.takeRequest_opensNone p k _ (fun _ t => (State.OpensNone.refl t).readOn p late _ readings)

theorem State.OpensNone.orderFlush {s t : State} (h : s.OpensNone t) (p : Port) : s.OpensNone (t.orderFlush p) :=
  (h.modLtx p _).keepTable p _

theorem State.OpensNone.takeBreak {s t : State} (h : s.OpensNone t) (p : Port) : s.OpensNone (t.takeBreak p) := by
  unfold State.takeBreak
  split
  · exact (h.orderFlush p).beginTeardown p _
  · exact (h.orderFlush p).keepTable p _
  · exact h.orderFlush p

theorem State.OpensNone.takeDropOrder {s t : State} (h : s.OpensNone t) (p : Port) (waiting : Bool) :
    s.OpensNone (t.takeDropOrder p waiting) := by
  unfold State.takeDropOrder
  split
  · split
    · exact (h.core ((CoreKept.refl _).offer ..)).beginTeardown p _
    · exact h.beginTeardown p _
  · exact h
  · exact h.keepTable p _

theorem State.OpensNone.dropTarget {s t : State} (h : s.OpensNone t) (p : Port) (late : Bool) (q : Port) :
    s.OpensNone (t.dropTarget p late q) := by
  have cleared : s.OpensNone (t.clearDownReports q) := h.keepTable q _
  unfold State.dropTarget
  dsimp only
  split
  · exact cleared.core ((CoreKept.refl _).answer ..)
  · exact cleared.core ((CoreKept.refl _).setPhase ..)
  · split
    · exact (cleared.keepTable q _).core ((CoreKept.refl _).setPhase ..)
    · exact ((cleared.core ((CoreKept.refl _).offer ..)).keepTable q _).core ((CoreKept.refl _).setPhase ..)

theorem State.OpensNone.finishTeardown {s t : State} (h : s.OpensNone t) (p : Port) :
    s.OpensNone (t.finishTeardown p) :=
  ((h.core ((CoreKept.refl _).answer ..)).keepTable p _).modLtx p _

theorem State.OpensNone.modSteps {s t : State} (h : s.OpensNone t) (p : Port) (f : StepsDue → StepsDue) :
    s.OpensNone (t.modSteps p f) := h.keepTable p _

/-! ## The time base and reset -/

theorem State.OpensNone.expireLeases {s t : State} (h : s.OpensNone t) : s.OpensNone t.expireLeases :=
  h.core (CoreKept.refl _).expireLeases

theorem State.OpensNone.expireJobs {s t : State} (h : s.OpensNone t) : s.OpensNone t.expireJobs :=
  h.core (CoreKept.refl _).expireJobs

theorem State.OpensNone.leaseBoundary {s t : State} (h : s.OpensNone t) : s.OpensNone t.leaseBoundary :=
  h.expireLeases.of_pu rfl

theorem State.OpensNone.engineBoundary {s t : State} (h : s.OpensNone t) : s.OpensNone t.engineBoundary :=
  h.expireJobs.of_pu rfl

theorem State.OpensNone.leaseCatchUp {s t : State} (h : s.OpensNone t) : s.OpensNone t.leaseCatchUp := by
  unfold State.leaseCatchUp
  split
  · exact h.leaseBoundary.setTime _
  · exact h

theorem State.OpensNone.engineCatchUp {s t : State} (h : s.OpensNone t) : s.OpensNone t.engineCatchUp := by
  unfold State.engineCatchUp
  split
  · exact h.engineBoundary.setTime _
  · exact h

theorem State.OpensNone.catchUp {s t : State} (h : s.OpensNone t) : s.OpensNone t.catchUp :=
  h.leaseCatchUp.engineCatchUp.expireLeases.expireJobs

theorem State.OpensNone.markBoundary {s t : State} (h : s.OpensNone t) : s.OpensNone t.markBoundary :=
  h.catchUp.setTime _

theorem State.OpensNone.boundary {s t : State} (h : s.OpensNone t) (b : BoundaryTaker) :
    s.OpensNone (t.boundary b) := by
  unfold State.boundary
  cases b with
  | both => exact h.markBoundary.leaseBoundary.engineBoundary
  | leaseUnit =>
    dsimp only
    split
    · exact h.leaseCatchUp
    · exact (h.markBoundary.setTime _).leaseBoundary
  | jobEngine =>
    dsimp only
    split
    · exact h.engineCatchUp
    · exact (h.markBoundary.setTime _).engineBoundary

/-- One core clock cycle opens no window. -/
theorem State.idleTick_opensNone (s : State) : s.OpensNone s.idleTick := by
  unfold State.idleTick
  split
  · have ticked : s.OpensNone s.catchUp.tickLines :=
      (State.OpensNone.refl s).catchUp.core ((CoreKept.refl _).each _ _ (fun _ _ h => h.modLtx _ _))
    unfold State.tickDivider
    split
    · exact ticked.boundary .both
    · exact ticked.setTime _
  · exact .refl s

/-- R88: in a state whose port units are in reset no window is OPEN. -/
theorem State.OpensNone.of_reset {s t : State} (h : t.pu = .const .reset) : s.OpensNone t := by
  intro q
  rw [h, PerPort.get_const]
  exact .of_closed rfl

/-! ## Windows opened -/

/-- Every window OPEN afterwards was OPEN before at the same port and index, or is legal and shares no logical address
with any other window of its port. -/
def State.OpensLegally (s t : State) : Prop := ∀ q i w, (t.pu.get q).windowNamed i = some w →
  (s.pu.get q).windowNamed i = some w ∨
    w.Legal ∧ ∀ j v, j ≠ i → (t.pu.get q).windowNamed j = some v → v.span.intersects w.span = false

theorem State.OpensNone.opensLegally {s t : State} (h : s.OpensNone t) : s.OpensLegally t :=
  fun q i w e => .inl (h q i w e)

/-- What opens no window before or after may be left out. -/
theorem State.OpensLegally.between {s t u v : State} (before : s.OpensNone t) (h : t.OpensLegally u)
    (after : u.OpensNone v) : s.OpensLegally v := by
  intro q i w e
  rcases h q i w (after q i w e) with old | ⟨legal, apart⟩
  · exact .inl (before q i w old)
  · exact .inr ⟨legal, fun j x n k => apart j x n (after q j x k)⟩

/-- R74: windows stay legal where those opened are legal and apart from the others. -/
theorem State.WindowsLegal.of_opensLegally {s t : State} (h : s.WindowsLegal) (k : s.OpensLegally t) :
    t.WindowsLegal := by
  intro p
  obtain ⟨legal, apart⟩ := h p
  refine ⟨fun i w e => ?_, fun i j v w n hv hw => ?_⟩
  · rcases k p i w e with old | new
    · exact legal i w old
    · exact new.1
  · rcases k p j w hw with oldW | ⟨-, apartW⟩
    · rcases k p i v hv with oldV | ⟨-, apartV⟩
      · exact apart i j v w n oldV oldW
      · rw [Range.intersects_comm]
        exact apartV j w n.symm hw
    · exact apartW i v n hv

/-- R82: a window that is legal and shares no address with an OPEN one may be opened at any index. -/
theorem State.setWindow_opensLegally {s : State} {p : Port} {w : Window} (i : Nat) (legal : w.Legal)
    (apart : ∀ j v, (s.pu.get p).windowNamed j = some v → v.span.intersects w.span = false) :
    s.OpensLegally (s.modPu p (fun u => u.setWindow i (some w))) := by
  intro q j x e
  by_cases c : q = p
  · subst c
    simp only [State.modPu_pu, PerPort.get_set_self, PortUnit.windowNamed_setWindow] at e ⊢
    split at e
    · rename_i here
      obtain rfl : w = x := Option.some.inj e
      refine .inr ⟨legal, fun k v n hk => apart k v ?_⟩
      rwa [if_neg (fun other => n (other.1.symm.trans here.1))] at hk
    · exact .inl e
  · rw [State.modPu_pu, PerPort.get_set_ne _ _ c] at e
    exact .inl e

/-- R81: of a WIN-OPEN nothing is opened unless every check passes. -/
theorem State.decideWinOpen_opensLegally (s : State) (p : Port) (f : Frame) : s.OpensLegally (s.decideWinOpen p f) := by
  have refused : ∀ r, s.OpensLegally (s.answer p r []) :=
    fun r => ((CoreKept.refl s).answer p r []).opensNone.opensLegally
  unfold State.decideWinOpen
  dsimp only
  split
  · exact refused _
  · split
    · exact refused _
    · split
      · exact refused _
      · split
        · exact refused _
        · split
          · exact refused _
          · split
            · exact refused _
            · rename_i range aligned apart
              have legal := Window.legal_of_checks (eq_false_of_ne_true range)
                (eq_false_of_ne_true aligned)
              have disjoint := (PortUnit.spanMeets_eq_false_iff _ _).mp (eq_false_of_ne_true apart)
              exact .between (.refl s) (State.setWindow_opensLegally _ legal disjoint)
                ((CoreKept.refl _).answer ..).opensNone

theorem State.takeWinOpen_opensLegally (s : State) (p : Port) :
    s.OpensLegally (s.takeRequest p .winOpen (fun f t => t.decideWinOpen p f)) := by
  obtain ⟨t, taken, e | ⟨f, e⟩⟩ := s.takeRequest_cases p .winOpen (fun f t => t.decideWinOpen p f)
  · rw [e]
    exact taken.opensLegally
  · rw [e]
    exact .between taken (t.decideWinOpen_opensLegally p f) (.refl _)

theorem State.decideWinClose_opensNone (s : State) (p : Port) (f : Frame) : s.OpensNone (s.decideWinClose p f) := by
  unfold State.decideWinClose
  dsimp only
  split
  · exact ((CoreKept.refl s).answer ..).opensNone
  · split
    · exact ((CoreKept.refl s).answer ..).opensNone
    · exact ((State.OpensNone.refl s).modPu p _ (fun u => .setWindow u _)).core ((CoreKept.refl _).answer ..)

/-! ## Every command -/

theorem State.CoreKept.takeWithdrawal {s t : State} (h : s.CoreKept t) (r : Requester) (late : Bool) :
    s.CoreKept (t.takeWithdrawal r late) := by
  have taken := h.modMail r (fun x => { x with withdrawal := false })
  unfold State.takeWithdrawal
  dsimp only
  split
  · exact taken.modLease _
  · split
    · exact taken.endClaim late r
    · exact taken

/-- R62: a turn end writes the store and goes on with the operation or the chunk; it opens no window. -/
theorem State.turnEnd_opensNone {s t : State} (h : execTurnEnd s = .next t) : s.OpensNone t := by
  unfold execTurnEnd at h
  split at h
  · obtain rfl := Host.Outcome.next.inj h
    exact .refl s
  · rename_i r turn _
    split at h
    · obtain rfl := Host.Outcome.next.inj h
      have moved : s.OpensNone ((s.writeTurn turn).setArbiter s.arbiter.selectNext) :=
        (State.OpensNone.refl s).of_pu rfl
      cases r with
      | port p => exact moved.core ((CoreKept.refl _).portTurnEnd p _)
      | engine => exact moved.core ((CoreKept.refl _).chunkEnd _)
    · cases h

/-- The state that an outcome answers, taken out of the outcome. -/
theorem State.OpensNone.next {s t u : State} (k : s.OpensNone t)
    (h : (.next t : Host.Outcome State Fault Refusal) = .next u) : s.OpensNone u := by
  obtain rfl := Host.Outcome.next.inj h
  exact k

/-- No command but WIN-OPEN opens a window. -/
theorem exec_opensNone {c : Instr} {s t : State} (closed : ∀ p, c ≠ .winOpen p) (h : exec c s = .next t) :
    s.OpensNone t := by
  have r := State.CoreKept.refl s
  have o := State.OpensNone.refl s
  cases c with
  | openSession p => exact .next (s.takeRequest_opensNone _ _ _ (fun f u => (State.OpensNone.refl u).decideOpen p f)) h
  | close p =>
    exact .next (s.takeRequest_opensNone _ _ _ (fun _ u =>
      ((State.CoreKept.refl u).setPhase ..).opensNone.beginTeardown p _)) h
  | portStatus p late => exact .next (s.status_opensNone p _ late _) h
  | winOpen p => exact absurd rfl (closed p)
  | winClose p => exact .next (s.takeRequest_opensNone _ _ _ (fun f u => u.decideWinClose_opensNone p f)) h
  | winList p => exact .next (s.takeRequest_core _ _ _ (fun _ u => (State.CoreKept.refl u).answer ..)) h
  | read p => exact .next (s.takeRequest_core _ _ _ (fun _ u => (State.CoreKept.refl u).decideRead ..)) h
  | write p => exact .next (s.takeRequest_core _ _ _ (fun _ u => (State.CoreKept.refl u).decideWrite ..)) h
  | exchangeIf p => exact .next (s.takeRequest_core _ _ _ (fun _ u => (State.CoreKept.refl u).decideExchangeIf ..)) h
  | lease p late =>
    refine .next ?_ h
    split
    · exact (r.atLeaseUnit _ (fun _ hu => hu.decideLease ..)).opensNone
    · exact s.takeRequest_core _ _ _ (fun _ u => (State.CoreKept.refl u).checkLease ..)
  | renew p late =>
    refine .next ?_ h
    split
    · exact (r.atLeaseUnit _ (fun _ hu => hu.decideRenew ..)).opensNone
    · refine s.takeRequest_core _ _ _ (fun _ u => ?_)
      dsimp only
      split
      · exact (State.CoreKept.refl u).answer ..
      · exact (State.CoreKept.refl u).handOver _ _ _ _ (fun _ hv => hv.atLeaseUnit _ (fun _ hw => hw.decideRenew ..))
  | release p late =>
    refine .next ?_ h
    split
    · exact (r.atLeaseUnit _ (fun _ hu => hu.decideRelease ..)).opensNone
    · refine s.takeRequest_core _ _ _ (fun _ u => ?_)
      dsimp only
      split
      · exact (State.CoreKept.refl u).answer ..
      · exact (State.CoreKept.refl u).handOver _ _ _ _ (fun _ hv => hv.atLeaseUnit _ (fun _ hw => hw.decideRelease ..))
  | withdraw p late =>
    refine .next ?_ h
    split
    · exact (r.atLeaseUnit _ (fun _ hu => hu.decideWithdraw ..)).opensNone
    · exact s.takeRequest_core _ _ _ (fun _ u =>
        (State.CoreKept.refl u).handOver _ _ _ _ (fun _ hv => hv.atLeaseUnit _ (fun _ hw => hw.decideWithdraw ..)))
  | leaseList p late =>
    refine .next ?_ h
    split
    · exact (r.atLeaseUnit _ (fun _ hu => hu.answer ..)).opensNone
    · exact s.takeRequest_core _ _ _ (fun _ u =>
        (State.CoreKept.refl u).handOver _ _ _ _ (fun _ hv => hv.atLeaseUnit _ (fun _ hw => hw.answer ..)))
  | jobCopy p late =>
    refine .next ?_ h
    split
    · exact (r.atEngine _ (fun _ hu => hu.submit ..)).opensNone
    · exact s.takeRequest_core _ _ _ (fun _ u => (State.CoreKept.refl u).checkCopy ..)
  | jobFill p late =>
    refine .next ?_ h
    split
    · exact (r.atEngine _ (fun _ hu => hu.submit ..)).opensNone
    · exact s.takeRequest_core _ _ _ (fun _ u => (State.CoreKept.refl u).checkFill ..)
  | jobSum p late =>
    refine .next ?_ h
    split
    · exact (r.atEngine _ (fun _ hu => hu.submit ..)).opensNone
    · exact s.takeRequest_core _ _ _ (fun _ u => (State.CoreKept.refl u).checkSum ..)
  | jobPause p late =>
    refine .next ?_ h
    split
    · exact (r.atEngine _ (fun _ hu => hu.decidePause ..)).opensNone
    · exact s.takeRequest_core _ _ _ (fun _ _ =>
        (State.CoreKept.refl _).control _ _ _ _ _ (fun _ _ hu => hu.atEngine _ (fun _ hv => hv.decidePause ..)))
  | jobResume p late =>
    refine .next ?_ h
    split
    · exact (r.atEngine _ (fun _ hu => hu.decideResume ..)).opensNone
    · exact s.takeRequest_core _ _ _ (fun _ _ =>
        (State.CoreKept.refl _).control _ _ _ _ _ (fun _ _ hu => hu.atEngine _ (fun _ hv => hv.decideResume ..)))
  | jobCancel p late =>
    refine .next ?_ h
    split
    · exact (r.atEngine _ (fun _ hu => hu.decideCancel ..)).opensNone
    · exact s.takeRequest_core _ _ _ (fun _ _ =>
        (State.CoreKept.refl _).control _ _ _ _ _ (fun _ _ hu => hu.atEngine _ (fun _ hv => hv.decideCancel ..)))
  | jobQuery p late =>
    refine .next ?_ h
    split
    · exact (r.atEngine _ (fun _ hu => hu.decideQuery ..)).opensNone
    · exact s.takeRequest_core _ _ _ (fun _ _ =>
        (State.CoreKept.refl _).control _ _ _ _ _ (fun _ _ hu => hu.atEngine _ (fun _ hv => hv.decideQuery ..)))
  | devStatus p late => exact .next (s.status_opensNone p _ late _) h
  | forceRelease p late =>
    refine .next ?_ h
    split
    · exact (r.atLeaseUnit _ (fun _ hu => hu.decideForceRelease ..)).opensNone
    · exact s.takeRequest_core _ _ _ (fun _ _ =>
        (State.CoreKept.refl _).control _ _ _ _ _
          (fun _ _ hu => hu.atLeaseUnit _ (fun _ hv => hv.decideForceRelease ..)))
  | forceCancel p late =>
    refine .next ?_ h
    split
    · exact (r.atEngine _ (fun _ hu => hu.decideForceCancel ..)).opensNone
    · exact s.takeRequest_core _ _ _ (fun _ _ =>
        (State.CoreKept.refl _).control _ _ _ _ _ (fun _ _ hu => hu.atEngine _ (fun _ hv => hv.decideForceCancel ..)))
  | portDrop p late =>
    refine .next (s.takeRequest_opensNone _ _ _ (fun f u => ?_)) h
    split
    · exact ((State.CoreKept.refl u).answer ..).opensNone
    · exact (State.OpensNone.refl u).dropTarget p late _
  | unknownKind p =>
    refine .next ?_ h
    split
    · exact o
    · split
      · exact o
      · exact (o.emptySlot p).core ((State.CoreKept.refl _).answerDirect ..)
  | frameComplete p idle char => exact .next ((s.line_kept p _).opensNone) h
  | lengthDiscard p idle char => exact .next ((s.line_kept p _).opensNone) h
  | cutDiscard p idle char => exact .next ((s.line_kept p _).opensNone) h
  | framingDiscard p idle char => exact .next ((s.line_kept p _).opensNone) h
  | assemblyBegins p idle char => exact .next ((s.line_kept p _).opensNone) h
  | characterAppended p idle char => exact .next ((s.line_kept p _).opensNone) h
  | lineBreak p bits => exact .next ((s.line_kept p _).opensNone) h
  | breakEnd p bits => exact .next ((s.line_kept p _).opensNone) h
  | breakReport p =>
    refine .next ?_ h
    split
    · exact o
    · exact (o.keepTable p _).takeBreak p
  | dropOrder p =>
    refine .next ?_ h
    split
    · exact o
    · split
      · exact o
      · exact (o.keepTable p _).takeDropOrder p _
  | teardownWaiterStep p late =>
    refine .next ?_ h
    split
    · exact (o.expireLeases.modSteps p _).core ((State.CoreKept.refl _).waiterStep ..)
    · exact o
  | teardownLeaseStep p =>
    refine .next ?_ h
    split
    · exact (o.expireLeases.modSteps p _).core ((State.CoreKept.refl _).leaseStep ..)
    · exact o
  | teardownJobStep p =>
    refine .next ?_ h
    split
    · exact (o.expireJobs.modSteps p _).core ((State.CoreKept.refl _).jobStep ..)
    · exact o
  | teardownHistoryStep p =>
    refine .next ?_ h
    split
    · exact (o.modSteps p _).core ((State.CoreKept.refl _).modEngine _)
    · exact o
  | sessionDown p =>
    refine .next ?_ h
    split
    · exact o.finishTeardown p
    · exact o
  | downReport p =>
    refine .next ?_ h
    split
    · exact o
    · exact (o.keepTable p _).core ((State.CoreKept.refl _).answerIn ..)
  | msBoundary b =>
    refine .next ?_ h
    split
    · exact o.boundary b
    · exact o
  | leaseLapse id => exact .next ((r.takeLapse id).opensNone) h
  | waitExpiry p tag => exact .next ((r.takeWaitExpiry p tag).opensNone) h
  | blockLimitExpiry id => exact .next ((r.takeBlockLimit id).opensNone) h
  | admissionRequest q late => exact .next ((r.admission q late).opensNone) h
  | admissionWithdrawal q late =>
    refine .next ?_ h
    split
    · exact (r.atLeaseUnit _ (fun _ hu => hu.takeWithdrawal q late)).opensNone
    · exact o
  | claimEnd q late =>
    refine .next ?_ h
    split
    · exact (r.atLeaseUnit _ (fun _ hu => (hu.modMail _ _).endClaim ..)).opensNone
    · exact o
  | turnRequest q =>
    refine .next ?_ h
    split
    · exact o
    · exact o.of_pu rfl
  | turnEnd => exact State.turnEnd_opensNone h
  | leaseRemovalReport =>
    refine .next ?_ h
    split
    · exact (r.atEngine _ (fun _ hu => (hu.modEngine _).selectJob)).opensNone
    · exact o
  | frameSent p => exact .next (o.modLtx p _) h
  | powerOn => exact .next (.of_reset rfl) h
  | resetAssert lowCycles =>
    refine .next ?_ h
    split
    · exact o
    · exact .of_reset rfl
  | resetRelease rate supv rx =>
    refine .next ?_ h
    split
    · exact o
    · exact .of_reset rfl

/-- Every command opens only windows that are legal and apart from the others of their port (R74, R81). -/
theorem exec_opensLegally {c : Instr} {s t : State} (h : exec c s = .next t) : s.OpensLegally t := by
  by_cases opening : ∃ p, c = .winOpen p
  · obtain ⟨p, rfl⟩ := opening
    obtain rfl := Host.Outcome.next.inj h
    exact s.takeWinOpen_opensLegally p
  · exact (exec_opensNone (fun p e => opening ⟨p, e⟩) h).opensLegally

/-- So does every step. -/
theorem step_opensLegally {s t : State} (h : step s = .next t) : s.OpensLegally t := by
  unfold step at h
  split at h
  · obtain rfl := Host.Outcome.next.inj h
    exact s.idleTick_opensNone.opensLegally
  · rename_i rest _
    have front : s.OpensNone { s with pending := rest } := (State.OpensNone.refl s).of_pu rfl
    exact .between front (exec_opensLegally h) (.refl t)

/-- Settles O58: a window that is open after a step was open before it or is legal and apart from the others. -/
theorem windowsStayLegal : Obligations.WindowsStayLegal := by
  unfold Obligations.WindowsStayLegal
  refine ⟨fun s t legal h => legal.of_opensLegally (step_opensLegally h), fun w => ⟨rfl, rfl⟩, by decide, by decide, ?_⟩
  exact fun s t p h => exec_opensLegally h p

/-! ## WIN-LIST (R86) -/

/-- The listing is made of the entries in index order. -/
theorem PortUnit.windowListing_eq (u : PortUnit) :
    u.windowListing = (List.range 8).flatMap (fun i => windowEntry (u.windowNamed i)) := by
  rw [PortUnit.windowListing, PortUnit.windows_toList, List.flatMap_map]

/-- The listing reads the window table alone. -/
theorem PortUnit.windowListing_congr {u v : PortUnit} (h : u.windows = v.windows) :
    u.windowListing = v.windowListing := by
  rw [PortUnit.windowListing, h, PortUnit.windowListing]

/-- A taken WIN-LIST leaves the listing of its port's table as its reply, and nothing else. -/
theorem State.Takes.execWinList {s : State} {p : Port} {f : Frame} (h : s.Takes p .winList f) :
    exec (.winList p) s = .next (s.served p (f.reply .winList .ok (s.pu.get p).windowListing)) := by
  have begun : ((s.beginRequest p .winList f.tag).pu.get p).windowListing = (s.pu.get p).windowListing :=
    PortUnit.windowListing_congr (by rw [State.beginRequest_pu, PerPort.get_set_self])
  calc exec (.winList p) s
      = .next (s.takeRequest p .winList (fun _ t => t.answer p .ok (t.pu.get p).windowListing)) := rfl
    _ = .next ((s.beginRequest p .winList f.tag).answer p .ok (s.pu.get p).windowListing) := by
        rw [h.takeRequest, begun]
    _ = .next (s.served p (f.reply .winList .ok (s.pu.get p).windowListing)) := by rw [h.answer]

/-- Settles O20: the reply is the listing, and each entry of it has the layout of 10 TABLE 7. -/
theorem winListReportsEveryEntry : Obligations.WinListReportsEveryEntry := by
  unfold Obligations.WinListReportsEveryEntry
  intro s p f h
  rw [h.execWinList, PortUnit.windowListing_eq]
  refine congrArg (fun entry : Nat → List Byte =>
    Host.Outcome.next (s.served p (f.reply .winList .ok ((List.range 8).flatMap entry)))) (funext fun i => ?_)
  cases (s.pu.get p).windowNamed i with
  | none => rfl
  | some w => rfl

end Sys2Proof.Machine
end

section
/-! SUPPORT. Facts about lists that the core library does not have. -/

namespace Sys2Proof.Machine

/-! ## Lists without repetition -/

/-- Two different elements of a list stand in a symmetric relation that holds pairwise. -/
theorem pairwise_of_mem {α : Type} {R : α → α → Prop} (symm : ∀ a b, R a b → R b a) {xs : List α} (h : xs.Pairwise R)
    {a b : α} (ha : a ∈ xs) (hb : b ∈ xs) (ne : a ≠ b) : R a b := by
  induction h with
  | nil => cases ha
  | cons first _ ih =>
    rcases List.mem_cons.1 ha with rfl | ha'
    · rcases List.mem_cons.1 hb with rfl | hb'
      · exact absurd rfl ne
      · exact first b hb'
    · rcases List.mem_cons.1 hb with rfl | hb'
      · exact symm _ _ (first a ha')
      · exact ih ha' hb'

/-- An element is known by its key where no key repeats. -/
theorem eq_of_nodup_keys {α β : Type} {key : α → β} {xs : List α} (distinct : (xs.map key).Nodup) {a b : α} (ha : a ∈ xs)
    (hb : b ∈ xs) (same : key a = key b) : a = b := by
  have apart : xs.Pairwise (fun a b => key a ≠ key b) := List.pairwise_map.1 distinct
  exact Classical.byContradiction (fun ne => pairwise_of_mem (fun _ _ h => h.symm) apart ha hb ne same)

theorem nodup_one {α : Type} (a : α) : [a].Nodup := List.pairwise_singleton _ a

theorem filterMap_eq_of_mem {α β : Type} {f g : α → Option β} {xs : List α} (same : ∀ a ∈ xs, f a = g a) :
    xs.filterMap f = xs.filterMap g := by
  induction xs with
  | nil => rfl
  | cons a xs ih =>
    rw [List.filterMap_cons, List.filterMap_cons, same a List.mem_cons_self,
      ih (fun b hb => same b (List.mem_cons_of_mem a hb))]

theorem flatMap_eq_of_mem {α β : Type} {f g : α → List β} {xs : List α} (same : ∀ a ∈ xs, f a = g a) :
    xs.flatMap f = xs.flatMap g := by
  rw [List.flatMap_def, List.flatMap_def, List.map_congr_left same]

/-! ## Lists inside other lists -/

/-- The elements of one list stand among those of the other, each as often, in any order. -/
def Among {α : Type} (xs ys : List α) : Prop := ∃ zs : List α, zs.Perm xs ∧ zs.Sublist ys

section
variable {α : Type} {xs ys zs : List α}

theorem Among.of_sublist (h : xs.Sublist ys) : Among xs ys := ⟨xs, .refl xs, h⟩

theorem Among.of_perm (h : xs.Perm ys) : Among xs ys := ⟨ys, h.symm, .refl ys⟩

theorem Among.trans (h : Among xs ys) (k : Among ys zs) : Among xs zs := by
  obtain ⟨us, perm, sub⟩ := h
  obtain ⟨vs, perm', sub'⟩ := k
  obtain ⟨ws, perm'', sub''⟩ := List.exists_perm_sublist sub perm'.symm
  exact ⟨ws, perm''.trans perm, sub''.trans sub'⟩

theorem Among.countP_le (h : Among xs ys) (P : α → Bool) : xs.countP P ≤ ys.countP P := by
  obtain ⟨us, perm, sub⟩ := h
  rw [← perm.countP_eq]
  exact sub.countP_le

end

end Sys2Proof.Machine
end

section
/-! SUPPORT. What a step can do, said once: every step is a chain of changes, each of one part of the state or of parts that
belong together, with the conditions under which it is made. An invariant is then proved change by change. The first part
says which changes there are. -/

namespace Sys2Proof.Machine

/-! ## Transmitters and receivers -/

/-- What a transmitter keeps but for discard mode: the bounds of its queue and of its counter (R136, R153). -/
structure Transmitter.Bounded (t u : Transmitter) : Prop where
  fits : t.queue.length + t.reserved ≤ transmitQueueSize → u.queue.length + u.reserved ≤ transmitQueueSize
  dropped : t.dropped ≤ maxCount → u.dropped ≤ maxCount

/-- A change of a transmitter that does not turn discard mode on. -/
structure Transmitter.Kept (t u : Transmitter) : Prop extends t.Bounded u where
  discard : u.discard = true → t.discard = true

/-- The five counters of a receiver stay within 65,535 (R136). -/
structure Receiver.CountersFit (x : Receiver) : Prop where
  check : x.checkDiscards ≤ maxCount
  length : x.lengthDiscards ≤ maxCount
  cut : x.cutDiscards ≤ maxCount
  framing : x.framingDiscards ≤ maxCount
  overruns : x.overruns ≤ maxCount

/-- A change of a receiver that leaves it legal and its counters within bounds. -/
structure Receiver.Kept (x y : Receiver) : Prop where
  legal : x.Legal → y.Legal
  counters : x.CountersFit → y.CountersFit

theorem countUp_le (n : Nat) : countUp n ≤ maxCount := Nat.min_le_right ..

theorem Transmitter.Kept.append {t : Transmitter} (room : t.hasRoom = true) (f : Frame) : t.Kept (t.append f) := by
  rw [Transmitter.hasRoom_iff] at room
  refine ⟨⟨fun _ => ?_, fun h => ?_⟩, fun h => ?_⟩
  · rw [Transmitter.append_queue, Transmitter.append_reserved, List.length_append, List.length_singleton]
    omega
  · rwa [Transmitter.append_dropped]
  · rwa [Transmitter.append_discard] at h

theorem Transmitter.Kept.queueReply (t : Transmitter) (f : Frame) : t.Kept (t.queueReply f) := by
  refine ⟨⟨fun h => Transmitter.queueReply_fits h f, fun h => ?_⟩, fun h => ?_⟩ <;>
    unfold Transmitter.queueReply at *
  · split
    · exact h
    · rwa [Transmitter.append_dropped]
  · split at h
    · exact h
    · rwa [Transmitter.append_discard] at h

theorem Transmitter.Kept.queueDirect (t : Transmitter) (f : Frame) : t.Kept (t.queueDirect f) := by
  unfold Transmitter.queueDirect
  split
  · exact ⟨⟨id, id⟩, id⟩
  · rename_i e
    exact .append (eq_true_of_ne_false (fun c => e (.inr c))) f

theorem Transmitter.Kept.offer (t : Transmitter) (x : Session) (m : NoticeMask) (n : NoticeKind) (fs : List Byte) :
    t.Kept (t.offer x m n fs) := by
  unfold Transmitter.offer
  split
  · exact ⟨⟨id, id⟩, id⟩
  · split
    · exact ⟨⟨id, id⟩, id⟩
    · split
      · exact ⟨⟨id, fun _ => countUp_le _⟩, id⟩
      · rename_i e
        exact .append (eq_true_of_ne_false e) _

theorem Transmitter.Kept.release (t : Transmitter) : t.Kept t.release := by
  refine ⟨⟨Transmitter.release_fits, fun h => ?_⟩, fun h => ?_⟩ <;> unfold Transmitter.release at *
  · split <;> exact h
  · split at h
    · assumption
    · exact h

theorem Transmitter.Kept.reserve {t : Transmitter} (room : t.hasRoom = true) : t.Kept t.reserve :=
  ⟨⟨fun _ => Transmitter.reserve_fits room, id⟩, id⟩

theorem Transmitter.Kept.trans {t u v : Transmitter} (h : t.Kept u) (k : u.Kept v) : t.Kept v :=
  ⟨⟨fun a => k.fits (h.fits a), fun a => k.dropped (h.dropped a)⟩, fun a => h.discard (k.discard a)⟩

theorem Transmitter.Kept.frameSent (t : Transmitter) : t.Kept t.frameSent := by
  refine ⟨⟨Transmitter.frameSent_fits, fun h => ?_⟩, fun h => ?_⟩ <;> unfold Transmitter.frameSent at *
  · split
    · exact h
    all_goals rwa [Transmitter.start_eq]
  · split at h
    · exact h
    all_goals rwa [Transmitter.start_eq] at h

theorem Transmitter.Kept.tick (t : Transmitter) (n : Nat) : t.Kept (t.tick n) := by
  have same : ∀ x, t.Kept { t with serializer := x } := fun _ => ⟨⟨id, id⟩, id⟩
  unfold Transmitter.tick
  split
  · exact same t.serializer
  · split
    · exact same _
    · split
      · exact same _
      · exact .frameSent t
  all_goals
    split
    · exact same _
    · exact .frameSent t

theorem Transmitter.Kept.discardOff (t : Transmitter) : t.Kept t.discardOff := by
  unfold Transmitter.discardOff
  split
  · exact ⟨⟨fun _ => Nat.zero_le _, id⟩, fun h => absurd h Bool.false_ne_true⟩
  · exact ⟨⟨id, id⟩, id⟩

theorem Transmitter.Bounded.flush (t : Transmitter) (ask : Bool) : t.Bounded (t.flush ask) := by
  refine ⟨fun h => ?_, id⟩
  simp only [Transmitter.flush, List.length_take]
  omega

/-! ## What no invariant reads -/

/-- Both port units are the same in what the invariants speak of. -/
structure PortUnit.SameView (u v : PortUnit) : Prop where
  session : v.session = u.session
  executing : v.executing.map (fun x => (x.tag, x.phase)) = u.executing.map (fun x => (x.tag, x.phase))
  waiting : v.waiting.map Waiting.tag = u.waiting.map Waiting.tag
  windows : v.windows = u.windows
  stepsDue : v.stepsDue = u.stepsDue

/-- Both states are the same in what the invariants speak of: mail, arbiter, held admissions, the job engine's inbox, straps,
the command queue and the rest of the port units may differ. -/
structure State.SameView (s t : State) : Prop where
  lrx : t.lrx = s.lrx
  ltx : t.ltx = s.ltx
  unit : ∀ q, (s.pu.get q).SameView (t.pu.get q)
  leases : t.leaseUnit.leases = s.leaseUnit.leases
  queue : t.leaseUnit.queue = s.leaseUnit.queue
  settling : t.leaseUnit.settling = s.leaseUnit.settling
  claims : t.leaseUnit.claims = s.leaseUnit.claims
  jobs : t.engine.jobs = s.engine.jobs
  running : t.engine.running = s.engine.running
  histories : t.engine.histories = s.engine.histories
  store : t.store = s.store
  time : t.time = s.time

theorem PortUnit.SameView.refl (u : PortUnit) : u.SameView u := ⟨rfl, rfl, rfl, rfl, rfl⟩

theorem State.SameView.of_pu {s t : State} (unit : ∀ q, (s.pu.get q).SameView (t.pu.get q))
    (h : t = { s with pu := t.pu }) : s.SameView t := by
  rw [h]
  exact ⟨rfl, rfl, unit, rfl, rfl, rfl, rfl, rfl, rfl, rfl, rfl, rfl⟩

theorem State.SameView.refl (s : State) : s.SameView s := .of_pu (fun _ => .refl _) rfl

/-- A change of a port unit outside what the invariants speak of. -/
theorem State.SameView.modPu (s : State) (p : Port) (f : PortUnit → PortUnit)
    (h : (s.pu.get p).SameView (f (s.pu.get p))) : s.SameView (s.modPu p f) := by
  refine .of_pu (fun q => ?_) rfl
  by_cases e : q = p
  · subst e
    rwa [State.modPu_pu, PerPort.get_set_self]
  · rw [State.modPu_pu, PerPort.get_set_ne _ _ e]
    exact .refl _

theorem State.SameView.phase {s t : State} (h : s.SameView t) (p : Port) : t.phase p = s.phase p := by
  have e := congrArg (Option.map Prod.snd) (h.unit p).executing
  rwa [Option.map_map, Option.map_map] at e

/-- The request handed over is that of the phase. -/
theorem State.handed_congr_phase {s t : State} {p q : Port} (h : t.phase p = s.phase q) : t.handed p = s.handed q := by
  rw [State.handed, State.handed, h]

theorem State.phase_of_handed {s : State} {p : Port} {h : Handed} (e : s.handed p = some h) :
    s.phase p = some (.handed h) := by
  unfold State.handed at e
  split at e
  · obtain rfl := Option.some.inj e
    assumption
  · cases e

theorem State.handed_of_phase {s : State} {p : Port} {h : Handed} (e : s.phase p = some (.handed h)) :
    s.handed p = some h := by
  rw [State.handed, e]

/-! ## Handing over -/

/-- What the port unit's checks leave of a request that it hands over: times and lengths within their bounds (R5, R15,
R92). -/
def Handed.Fits : Handed → Prop
  | .lease x => 1 ≤ x.life ∧ x.life ≤ maxMilliseconds ∧ x.wait ≤ maxMilliseconds
  | .renew _ life => 1 ≤ life ∧ life ≤ maxMilliseconds
  | .submit _ length limit => 1 ≤ length ∧ limit ≤ maxMilliseconds
  | .release _ | .withdraw _ | .leaseList | .jobPause _ | .jobResume _ | .jobCancel _ | .jobQuery _ | .forceRelease _
  | .forceCancel _ => True

/-! ## The changes -/

/-- The LEASE request `x` of the port stands handed over as entry `e` and has passed the checks for overlap and for the
port's holdings (01 TABLE 4, steps 2 and 3). -/
structure State.Asks (s : State) (p : Port) (x : LeaseRequest) (e : Executing) : Prop where
  executing : (s.pu.get p).executing = some e
  phase : e.phase = .handed (.lease x)
  apart : s.leaseUnit.overlapsOwn p x.range = false
  holdings : s.leaseUnit.holdings p < holdingsLimit

/-- Such a request conflicts with nothing and there is room for its lease (01 TABLE 4, steps 4 and 5). -/
structure State.Clear (s : State) (p : Port) (x : LeaseRequest) : Prop where
  conflict : s.leaseUnit.conflictOf p x = none
  room : s.leaseUnit.full = false

/-- One change of the state outside the job engine's tables. -/
inductive Change : State → State → Prop
  /-- Something changes of which no invariant speaks. -/
  | view {s t : State} (same : s.SameView t) : Change s t
  | receiver {s : State} (p : Port) (f : Receiver → Receiver) (kept : (s.lrx.get p).Kept (f (s.lrx.get p))) :
      Change s (s.modLrx p f)
  | transmitter {s : State} (p : Port) (f : Transmitter → Transmitter) (kept : (s.ltx.get p).Kept (f (s.ltx.get p))) :
      Change s (s.modLtx p f)
  /-- A flush in CLOSING may turn discard mode on. -/
  | flush {s : State} (p : Port) (f : Transmitter → Transmitter) (closing : (s.pu.get p).session = .closing)
      (bounded : (s.ltx.get p).Bounded (f (s.ltx.get p))) : Change s (s.modLtx p f)
  /-- A request becomes the EXECUTING one. -/
  | begin {s : State} (p : Port) (x : Executing) (free : (s.pu.get p).executing = none)
      (up : (s.pu.get p).session = .up) (deciding : x.phase = .deciding) (tag : s.tagInUse p x.tag = false) :
      Change s (s.modPu p (fun u => { u with executing := some x }))
  | phase {s : State} (p : Port) (f : Phase) (old : s.phase p ≠ some .settling) (new : f ≠ .settling)
      (fits : ∀ h, f = .handed h → h.Fits) (up : ∀ x, f = .handed (.lease x) → (s.pu.get p).session = .up) :
      Change s (s.setPhase p f)
  /-- The EXECUTING request leaves; a SETTLING one leaves the lease unit first. -/
  | done {s : State} (p : Port) (gone : s.phase p = some .settling → s.leaseUnit.settling.get p = none) :
      Change s (s.modPu p (fun u => { u with executing := none }))
  | window {s : State} (p : Port) (i : Nat) (w : Option Window) (up : (s.pu.get p).session = .up) :
      Change s (s.modPu p (fun u => u.setWindow i w))
  | opened {s : State} (p : Port) (m : NoticeMask) (label : List Byte) (down : (s.pu.get p).session = .down) :
      Change s (s.modPu p (fun u => u.open m label))
  | close {s : State} (p : Port) (c : Cause) (up : (s.pu.get p).session = .up) :
      Change s (s.modPu p (fun u => u.close c))
  | down {s : State} (p : Port) (closing : (s.pu.get p).session = .closing) (work : s.workDone p = true)
      (free : (s.pu.get p).executing = none) (sends : (s.ltx.get p).discard = false) :
      Change s (s.modPu p PortUnit.toDown)
  | waiterTaken {s : State} (p : Port) (waiters : s.leaseUnit.waitersOf p = [])
      (settling : s.leaseUnit.settling.get p = none) (handed : ∀ x, s.handed p ≠ some (.lease x)) :
      Change s (s.modSteps p (fun d => { d with waiter := false }))
  | leaseTaken {s : State} (p : Port) (waiter : (s.pu.get p).stepsDue.waiter = false)
      (leases : s.leaseUnit.leasesOf p = []) : Change s (s.modSteps p (fun d => { d with lease := false }))
  | engineTaken {s : State} (p : Port) (f : StepsDue → StepsDue) (waiter : ∀ d, (f d).waiter = d.waiter)
      (lease : ∀ d, (f d).lease = d.lease) (none : f .none = .none) : Change s (s.modSteps p f)
  | removal {s : State} (P : Lease → Bool) :
      Change s (s.modLease (fun u => { u with leases := u.leases.filter P }))
  | renew {s : State} (p : Port) (id life : Nat) (handed : s.handed p = some (.renew id life)) :
      Change s (s.modLease (fun u => u.renewLease id life))
  /-- A waiter leaves the queue and the in-flight table. -/
  | dropWaiter {s : State} (p : Port) (tag : Byte) :
      Change s ((s.modLease (fun u => u.removeWaiter p tag)).modPu p
        (fun u => { u with waiting := u.waiting.filter (fun w => w.tag != tag) }))
  /-- A port's waiters and its SETTLING request leave together (R21 step 1). -/
  | waitersLeave {s : State} (p : Port) :
      Change s ((s.modLease (fun u => u.removeWaiting p)).modPu p (fun u => { u with
        waiting := u.waiting.filter (fun e => (s.leaseUnit.waitersOf p).all (fun w => w.tag != e.tag)) }))
  | joinQueue {s : State} (p : Port) (x : LeaseRequest) (e : Executing) (asks : s.Asks p x e)
      (room : s.leaseUnit.queue.length < waitQueueSize) (few : (s.leaseUnit.waitersOf p).length < portWaiterLimit) :
      Change s ((s.modLease (fun u => { u with queue := u.queue ++
          [{ port := p, tag := e.tag, request := x, wait := x.wait, settling := none }] })).modPu p
        (fun u => { u with executing := none, waiting := u.waiting ++ [{ tag := e.tag, reserved := e.reserved }] }))
  | enterSettling {s : State} (p : Port) (x : LeaseRequest) (e : Executing) (asks : s.Asks p x e) (clear : s.Clear p x) :
      Change s (s.enterSettling p x (s.leaseUnit.conflictingClaims x.kind x.range))
  | grantNow {s : State} (p : Port) (x : LeaseRequest) (e : Executing) (asks : s.Asks p x e) (clear : s.Clear p x)
      (claims : s.leaseUnit.conflictingClaims x.kind x.range = []) :
      Change s (s.modLease (fun u => u.grant p x))
  | grantSettling {s : State} (p : Port) (t : Settling) (settling : s.leaseUnit.settling.get p = some t)
      (empty : t.recorded = []) :
      Change s (s.modLease (fun u => { u with settling := u.settling.set p none }.grant p t.request))
  | settleWaiter {s : State} (older rest : List Waiter) (w : Waiter) (claims : List Requester)
      (queue : s.leaseUnit.queue = older ++ w :: rest) (verdict : s.leaseUnit.verdict older w = .settle claims) :
      Change s (s.setQueue (older ++ { w with settling := some claims } :: rest))
  | grantWaiter {s : State} (older rest : List Waiter) (w : Waiter)
      (queue : s.leaseUnit.queue = older ++ w :: rest) (verdict : s.leaseUnit.verdict older w = .grant) :
      Change s (((s.setQueue (older ++ rest)).modLease (fun u => u.grant w.port w.request)).modPu w.port
        (fun u => { u with waiting := u.waiting.filter (fun e => e.tag != w.tag) }))
  | claim {s : State} (a : Access) (admitted : s.leaseUnit.decide a = some .admitted) :
      Change s (s.modLease (fun u => { u with claims := u.claims ++ [a] }))
  | endClaim {s : State} (r : Requester) : Change s (s.modLease (fun u => u.removeClaim r))
  | lowerTimers {s : State} : Change s (s.modLease LeaseUnit.lowerTimers)
  | time {s : State} (x : TimeBase) (divider : s.time.divider < boundaryCycles → x.divider < boundaryCycles)
      (due : (s.time.leaseDue = false ∨ s.time.engineDue = false) → x.leaseDue = false ∨ x.engineDue = false) :
      Change s (s.setTime x)
  | store {s : State} (m : List Host.Cell) (wf : Memory.wf s.store = true → Memory.wf m = true) :
      Change s (s.setStore m)
  /-- Device reset: every block in its reset state, a receiver counting the run of space where its line is at space. -/
  | reset {s t : State} (lrx : ∀ p, ∃ level, t.lrx.get p = .released level) (ltx : t.ltx = .const .reset)
      (pu : t.pu = .const .reset) (lease : t.leaseUnit = .reset) (engine : t.engine = .reset) (time : t.time = .reset)
      (wf : Memory.wf s.store = true → Memory.wf t.store = true) : Change s t

/-- The second state comes from the first by a chain of changes, those of the job engine being of the kind `E`. -/
inductive State.Becomes (E : State → State → Prop) (s : State) : State → Prop
  | stay : State.Becomes E s s
  | tail {t u : State} (h : State.Becomes E s t) (c : Change t u ∨ E t u) : State.Becomes E s u

end Sys2Proof.Machine
end

section
/-! SUPPORT. The chains of changes that the shared operations of replies, notices and phases come to, whatever the job engine
does. -/

namespace Sys2Proof.Machine

variable {E : State → State → Prop}

theorem State.Becomes.refl (s : State) : s.Becomes E s := .stay

theorem State.Becomes.trans {s t u : State} (h : s.Becomes E t) (k : t.Becomes E u) : s.Becomes E u := by
  induction k with
  | stay => exact h
  | tail _ c ih => exact ih.tail c

theorem State.Becomes.step {s t u : State} (h : s.Becomes E t) (c : Change t u) : s.Becomes E u :=
  h.tail (.inl c)

theorem State.Becomes.act {s t u : State} (h : s.Becomes E t) (a : E t u) : s.Becomes E u :=
  h.tail (.inr a)

theorem State.Becomes.view {s t u : State} (h : s.Becomes E t) (v : t.SameView u) : s.Becomes E u := h.step (.view v)

theorem State.Becomes.each {α : Type} {s t : State} (h : s.Becomes E t) (xs : List α) (f : State → α → State)
    (hf : ∀ u x, s.Becomes E u → s.Becomes E (f u x)) : s.Becomes E (t.each xs f) :=
  State.each_induct (fun u => s.Becomes E u) f xs (fun u x _ hu => hf u x hu) t h

/-! ## What no invariant reads -/

theorem State.Becomes.modMail {s t : State} (h : s.Becomes E t) (r : Requester) (f : Mail → Mail) :
    s.Becomes E (t.modMail r f) :=
  h.view ⟨rfl, rfl, fun _ => .refl _, rfl, rfl, rfl, rfl, rfl, rfl, rfl, rfl, rfl⟩

theorem State.Becomes.setArbiter {s t : State} (h : s.Becomes E t) (a : Arbiter) : s.Becomes E (t.setArbiter a) :=
  h.view ⟨rfl, rfl, fun _ => .refl _, rfl, rfl, rfl, rfl, rfl, rfl, rfl, rfl, rfl⟩

theorem State.Becomes.setHeld {s t : State} (h : s.Becomes E t) (f : List Access → List Access) :
    s.Becomes E (t.modLease (fun u => { u with held := f u.held })) :=
  h.view ⟨rfl, rfl, fun _ => .refl _, rfl, rfl, rfl, rfl, rfl, rfl, rfl, rfl, rfl⟩

theorem State.Becomes.setInbox {s t : State} (h : s.Becomes E t) (f : List EngineMessage → List EngineMessage) :
    s.Becomes E (t.modEngine (fun e => { e with inbox := f e.inbox })) :=
  h.view ⟨rfl, rfl, fun _ => .refl _, rfl, rfl, rfl, rfl, rfl, rfl, rfl, rfl, rfl⟩

theorem State.Becomes.setPending {s t : State} (h : s.Becomes E t) (cs : List Instr) :
    s.Becomes E { t with pending := cs } :=
  h.view ⟨rfl, rfl, fun _ => .refl _, rfl, rfl, rfl, rfl, rfl, rfl, rfl, rfl, rfl⟩

/-- A change of a port unit outside what the invariants speak of. -/
theorem State.Becomes.modPu {s t : State} (h : s.Becomes E t) (p : Port) (f : PortUnit → PortUnit)
    (hf : ∀ u : PortUnit, u.SameView (f u) := by exact fun _ => ⟨rfl, rfl, rfl, rfl, rfl⟩) :
    s.Becomes E (t.modPu p f) := h.view (.modPu t p f (hf _))

theorem State.Becomes.setOperation {s t : State} (h : s.Becomes E t) (p : Port) (o : Option PortOperation) :
    s.Becomes E (t.modPu p (fun u => { u with operation := o })) := h.modPu p _

theorem State.Becomes.reportRemoval {s t : State} (h : s.Becomes E t) (id : Nat) : s.Becomes E (t.reportRemoval id) :=
  h.view ⟨rfl, rfl, fun _ => .refl _, rfl, rfl, rfl, rfl, rfl, rfl, rfl, rfl, rfl⟩

theorem State.Becomes.askAdmission {s t : State} (h : s.Becomes E t) (a : Access) : s.Becomes E (t.askAdmission a) :=
  h.modMail _ _

theorem State.Becomes.askTurn {s t : State} (h : s.Becomes E t) (r : Requester) (x : Turn) :
    s.Becomes E (t.askTurn r x) := h.modMail _ _

theorem State.Becomes.reportClaimEnd {s t : State} (h : s.Becomes E t) (r : Requester) :
    s.Becomes E (t.reportClaimEnd r) := h.modMail _ _

theorem State.Becomes.withdrawAdmission {s t : State} (h : s.Becomes E t) (r : Requester) :
    s.Becomes E (t.withdrawAdmission r) := by
  unfold State.withdrawAdmission
  split
  · exact h.modMail _ _
  · cases r with
    | port p => exact h.modMail _ _
    | engine => exact (h.modMail _ _).setInbox _

theorem State.Becomes.clearOperation {s t : State} (h : s.Becomes E t) (p : Port) : s.Becomes E (t.clearOperation p) :=
  h.modPu p _

/-! ## Receivers and transmitters -/

theorem State.Becomes.modLrx {s t : State} (h : s.Becomes E t) (p : Port) (f : Receiver → Receiver)
    (kept : ∀ x : Receiver, x.Kept (f x)) : s.Becomes E (t.modLrx p f) := h.step (.receiver p f (kept _))

theorem State.Becomes.modLtx {s t : State} (h : s.Becomes E t) (p : Port) (f : Transmitter → Transmitter)
    (kept : ∀ x : Transmitter, x.Kept (f x)) : s.Becomes E (t.modLtx p f) := h.step (.transmitter p f (kept _))

theorem State.Becomes.offer {s t : State} (h : s.Becomes E t) (p : Port) (n : NoticeKind) (fs : List Byte) :
    s.Becomes E (t.offer p n fs) := h.modLtx p _ (fun x => .offer x ..)

theorem State.Becomes.answerDirect {s t : State} (h : s.Becomes E t) (p : Port) (k tag : Byte) (r : Result)
    (fs : List Byte) : s.Becomes E (t.answerDirect p k tag r fs) := h.modLtx p _ (fun x => .queueDirect x _)

theorem Receiver.Kept.emptySlot (x : Receiver) : x.Kept { x with held := none } :=
  ⟨fun ⟨a, b, _, d, e, f, g⟩ => ⟨a, b, fun _ h => absurd h (by simp), d, e, f, g⟩, fun ⟨a, b, c, d, e⟩ => ⟨a, b, c, d, e⟩⟩

theorem State.Becomes.emptySlot {s t : State} (h : s.Becomes E t) (p : Port) : s.Becomes E (t.emptySlot p) :=
  h.modLrx p _ .emptySlot

/-! ## The EXECUTING request -/

/-- The EXECUTING request of the port may leave: where it is SETTLING, the lease unit has nothing of it any more. -/
def State.MayLeave (s : State) (p : Port) : Prop := s.phase p = some .settling → s.leaseUnit.settling.get p = none

theorem State.MayLeave.of_phase {s : State} {p : Port} {f : Phase} (h : s.phase p = some f)
    (n : f ≠ .settling := by exact Phase.noConfusion) : s.MayLeave p :=
  fun e => absurd (Option.some.inj (h.symm.trans e)) n

theorem State.MayLeave.of_handed {s : State} {p : Port} {x : Handed} (h : s.handed p = some x) : s.MayLeave p :=
  .of_phase (State.phase_of_handed h)

theorem State.MayLeave.of_settling {s : State} {p : Port} (h : s.leaseUnit.settling.get p = none) : s.MayLeave p :=
  fun _ => h

theorem State.phase_free {s : State} {p : Port} (h : (s.pu.get p).executing = none) : s.phase p = none := by
  rw [State.phase, h, Option.map_none]

theorem State.answer_free {s : State} {p : Port} (h : (s.pu.get p).executing = none) (r : Result) (fs : List Byte) :
    s.answer p r fs = s := by
  unfold State.answer
  rw [h]

theorem State.answer_executing {s : State} {p : Port} {x : Executing} (h : (s.pu.get p).executing = some x) (r : Result)
    (fs : List Byte) : s.answer p r fs =
      (s.modLtx p (fun t => t.queueReply (replyFrame x.kind.code x.tag r fs))).modPu p
        (fun u => { u with executing := none }) := by
  unfold State.answer
  rw [h]

theorem State.Becomes.answer {s t : State} (h : s.Becomes E t) {p : Port} (leave : t.MayLeave p) (r : Result)
    (fs : List Byte) : s.Becomes E (t.answer p r fs) := by
  cases e : (t.pu.get p).executing with
  | none => rwa [State.answer_free e]
  | some x =>
    rw [State.answer_executing e]
    exact (h.modLtx p _ (fun _ => .queueReply ..)).step (.done p leave)

theorem State.Becomes.answerIn {s t : State} (h : s.Becomes E t) (p : Port) (f : Phase) (r : Result) (fs : List Byte)
    (n : f = .settling → t.leaseUnit.settling.get p = none := by exact fun e => by cases e) :
    s.Becomes E (t.answerIn p f r fs) := by
  unfold State.answerIn
  split
  · rename_i e
    exact h.answer (fun k => n (Option.some.inj (e.symm.trans k))) r fs
  · exact h

theorem State.Becomes.dropExecuting {s t : State} (h : s.Becomes E t) {p : Port} (leave : t.MayLeave p) :
    s.Becomes E (t.dropExecuting p) := (h.modLtx p _ .release).step (.done p leave)

theorem State.Becomes.discardHanded {s t : State} (h : s.Becomes E t) (p : Port) (b : TakenBy) :
    s.Becomes E (t.discardHanded p b) := by
  unfold State.discardHanded
  split
  · exact h
  · rename_i e
    split
    · exact h.dropExecuting (.of_handed e)
    · exact h

theorem State.Becomes.dropInPhase {s t : State} (h : s.Becomes E t) (p : Port) (f : Phase)
    (n : f = .settling → t.leaseUnit.settling.get p = none := by exact fun e => by cases e) :
    s.Becomes E (t.dropInPhase p f) := by
  unfold State.dropInPhase
  split
  · rename_i e
    exact h.dropExecuting (fun k => n (Option.some.inj (e.symm.trans k)))
  · exact h

/-- A request that is not SETTLING goes into another phase. -/
theorem State.Becomes.setPhase {s t : State} (h : s.Becomes E t) {p : Port} {old : Phase} (now : t.phase p = some old)
    (f : Phase) (fits : ∀ x, f = .handed x → x.Fits := by exact fun _ e => by cases e)
    (up : ∀ x, f = .handed (.lease x) → (t.pu.get p).session = .up := by exact fun _ e => by cases e)
    (unsettled : old ≠ .settling := by exact Phase.noConfusion)
    (new : f ≠ .settling := by exact Phase.noConfusion) : s.Becomes E (t.setPhase p f) :=
  h.step (.phase p f (fun e => unsettled (Option.some.inj (now.symm.trans e))) new fits up)

/-! ## A port's store operation -/

theorem State.Becomes.portDecision {s t : State} (h : s.Becomes E t) (p : Port) (d : Decision) :
    s.Becomes E (t.portDecision p d) := by
  unfold State.portDecision
  split
  · exact h
  · split
    · exact (h.answerIn p .access _ _).clearOperation p
    · exact (h.setOperation p _).askTurn _ _

theorem State.Becomes.portTurnEnd {s t : State} (h : s.Becomes E t) (p : Port) (bytes : List Byte) :
    s.Becomes E (t.portTurnEnd p bytes) := by
  unfold State.portTurnEnd
  split
  · exact h
  · split
    · exact (h.clearOperation p).reportClaimEnd _
    · split
      · exact ((h.answerIn p .access _ _).clearOperation p).reportClaimEnd _
      · exact (h.setOperation p _).askTurn _ _

/-! ## Phases afterwards -/

theorem State.phase_modPu_self (s : State) (p : Port) (f : PortUnit → PortUnit) :
    (s.modPu p f).phase p = (f (s.pu.get p)).executing.map Executing.phase := by
  rw [State.phase, State.modPu_pu, PerPort.get_set_self]

theorem State.phase_modPu_ne (s : State) {p q : Port} (f : PortUnit → PortUnit) (h : q ≠ p) :
    (s.modPu p f).phase q = s.phase q := by
  rw [State.phase, State.modPu_pu, PerPort.get_set_ne _ _ h]
  rfl

/-- A change of the rest of a port unit leaves every phase. -/
theorem State.phase_modPu (s : State) (p q : Port) (f : PortUnit → PortUnit)
    (hf : ∀ u, (f u).executing = u.executing := by exact fun _ => rfl) : (s.modPu p f).phase q = s.phase q := by
  by_cases e : q = p
  · subst e
    rw [State.phase_modPu_self, hf]
    rfl
  · exact s.phase_modPu_ne f e

/-- A request in some phase stands in the phase it is set to. -/
theorem State.phase_setPhase {s : State} {p : Port} {old : Phase} (h : s.phase p = some old) (f : Phase) :
    (s.setPhase p f).phase p = some f := by
  obtain ⟨x, hx, -⟩ := Option.map_eq_some_iff.mp h
  rw [State.setPhase, State.phase_modPu_self, hx]
  rfl

theorem State.session_modPu (s : State) (p q : Port) (f : PortUnit → PortUnit)
    (hf : ∀ u, (f u).session = u.session := by exact fun _ => rfl) : ((s.modPu p f).pu.get q).session = (s.pu.get q).session := by
  by_cases e : q = p
  · subst e
    rw [State.modPu_pu, PerPort.get_set_self, hf]
  · rw [State.modPu_pu, PerPort.get_set_ne _ _ e]

end Sys2Proof.Machine
end

section
/-! SUPPORT. The changes of the job engine, once as the engine's own acts, each whole, and once as what they come to outside the
engine: changes of its tables between replies, notices and phases. -/

namespace Sys2Proof.Machine

/-! ## The engine's acts -/

/-- One act of the job engine. -/
inductive EngineAct : State → State → Prop
  | decision (s : State) (d : Decision) : EngineAct s (s.engineDecision d)
  | chunkEnd (s : State) (bytes : List Byte) : EngineAct s (s.chunkEnd bytes)
  | submit {s : State} (p : Port) (w : Submission) (length limit : Nat)
      (handed : s.handed p = some (.submit w length limit)) : EngineAct s (s.submit p w length limit)
  | pause {s : State} (p : Port) (id : Nat) (handed : s.handed p = some (.jobPause id)) :
      EngineAct s (s.decidePause p id)
  | resume {s : State} (p : Port) (id : Nat) (handed : s.handed p = some (.jobResume id)) :
      EngineAct s (s.decideResume p id)
  | cancel {s : State} (p : Port) (j : Job) (reason : CancelReason) (handed : ∃ h, s.handed p = some h)
      (live : j ∈ s.engine.jobs) : EngineAct s (s.cancelJob p j reason)
  | jobStep (s : State) (p : Port) : EngineAct s (s.jobStep p)
  | report (s : State) (x : Nat) (rest : List EngineMessage) : EngineAct s
      (s.modEngine (fun e => { e with inbox := rest, jobs := e.jobs.map (Job.unblock x) })).selectJob
  | blockLimit (s : State) (id : Nat) : EngineAct s (s.takeBlockLimit id)
  | history (s : State) (p : Port) : EngineAct s (s.modEngine (fun e => { e with histories := e.histories.set p [] }))
  | lowerTimers (s : State) : EngineAct s (s.modEngine JobEngine.lowerTimers)

/-! ## The engine's tables -/

/-- A job that has its port, its block limit and a block timer, if it has one, from jobs of the table: the timer is at most one
that runs there or a block limit. -/
structure Job.From (k : Job) (e : JobEngine) : Prop where
  port : ∃ j ∈ e.jobs, k.port = j.port
  limit : ∃ j ∈ e.jobs, k.limit = j.limit
  timer : ∀ x n, k.state = .blocked x (some n) →
    ∃ j ∈ e.jobs, n ≤ j.limit ∨ ∃ y m, j.state = .blocked y (some m) ∧ n ≤ m

/-- The job engine's tables go on: no job appears, and only a port with a live job gets an end record. -/
structure JobEngine.GoesOn (e d : JobEngine) : Prop where
  jobs : ∀ k ∈ d.jobs, k.From e
  histories : ∀ q, d.histories.get q = e.histories.get q ∨ d.histories.get q = [] ∨
    (∃ j ∈ e.jobs, j.port = q) ∧ (d.histories.get q).length ≤ historySize

/-- What the acts of the engine come to, one change of its tables at a time. -/
inductive EngineChange : State → State → Prop
  | goesOn {s : State} (f : JobEngine → JobEngine) (h : s.engine.GoesOn (f s.engine)) : EngineChange s (s.modEngine f)
  | accept {s : State} (p : Port) (w : Submission) (length limit : Nat) (j : Job) (last : Nat)
      (handed : s.handed p = some (.submit w length limit)) (port : j.port = p) (bound : j.limit = limit)
      (queued : j.state = .queued) :
      EngineChange s (s.modEngine (fun e => { e with jobs := e.jobs ++ [j], lastId := last }))

theorem Job.From.self {e : JobEngine} {j : Job} (h : j ∈ e.jobs) : j.From e :=
  ⟨⟨j, h, rfl⟩, ⟨j, h, rfl⟩, fun x n k => ⟨j, h, .inr ⟨x, n, k, Nat.le_refl _⟩⟩⟩

/-- A job of the table in a state without a block timer. -/
theorem Job.From.untimed {e : JobEngine} {j k : Job} (h : j ∈ e.jobs) (port : k.port = j.port) (limit : k.limit = j.limit)
    (free : ∀ x n, k.state ≠ .blocked x (some n)) : k.From e :=
  ⟨⟨j, h, port⟩, ⟨j, h, limit⟩, fun x n e => absurd e (free x n)⟩

/-- A job of the table with its state. -/
theorem Job.From.sameState {e : JobEngine} {j k : Job} (h : j ∈ e.jobs) (port : k.port = j.port)
    (limit : k.limit = j.limit) (state : k.state = j.state) : k.From e :=
  ⟨⟨j, h, port⟩, ⟨j, h, limit⟩, fun x n e => ⟨j, h, .inr ⟨x, n, state.symm.trans e, Nat.le_refl _⟩⟩⟩

/-- Jobs changed in the table. -/
theorem JobEngine.GoesOn.of_map {e d : JobEngine} (f : Job → Job) (jobs : d.jobs = e.jobs.map f)
    (same : ∀ j ∈ e.jobs, (f j).From e) (histories : d.histories = e.histories) : e.GoesOn d := by
  refine ⟨fun k hk => ?_, fun q => .inl (by rw [histories])⟩
  rw [jobs] at hk
  obtain ⟨j, hj, rfl⟩ := List.mem_map.mp hk
  exact same j hj

theorem JobEngine.GoesOn.of_subset {e d : JobEngine} (jobs : ∀ j ∈ d.jobs, j ∈ e.jobs)
    (histories : ∀ q, d.histories.get q = e.histories.get q ∨ d.histories.get q = [] ∨
      (∃ j ∈ e.jobs, j.port = q) ∧ (d.histories.get q).length ≤ historySize) : e.GoesOn d :=
  ⟨fun k hk => .self (jobs k hk), histories⟩

theorem JobEngine.GoesOn.modJob (e : JobEngine) (id : Nat) (f : Job → Job) (same : ∀ j ∈ e.jobs, (f j).From e) :
    e.GoesOn (e.modJob id f) := by
  refine .of_map (fun j => if j.id = id then f j else j) rfl (fun j hj => ?_) rfl
  split
  · exact same j hj
  · exact .self hj

/-- Fewer jobs; the records stand. -/
theorem JobEngine.GoesOn.remove (e : JobEngine) (id : Nat) : e.GoesOn (e.remove id) :=
  .of_subset (fun _ h => (List.mem_filter.mp h).1) (fun _ => .inl rfl)

/-- A live job leaves the table with an end record. -/
theorem JobEngine.GoesOn.removeRecord {e : JobEngine} {j : Job} (h : ∃ i ∈ e.jobs, i.port = j.port) (id : Nat)
    (x : EndRecord) : e.GoesOn ((e.remove id).record j.port x) := by
  refine .of_subset (fun _ h => (List.mem_filter.mp h).1) (fun q => ?_)
  by_cases c : q = j.port
  · subst c
    refine .inr (.inr ⟨h, ?_⟩)
    rw [JobEngine.record, PerPort.get_set_self]
    exact List.length_take_le ..
  · exact .inl (PerPort.get_set_ne _ _ c)

/-! ## The shared operations of the engine -/

theorem State.Becomes.goesOn {s t : State} (h : s.Becomes EngineChange t) (f : JobEngine → JobEngine)
    (g : t.engine.GoesOn (f t.engine)) : s.Becomes EngineChange (t.modEngine f) := h.act (.goesOn f g)

theorem State.Becomes.askChunk {s t : State} (h : s.Becomes EngineChange t) (j : Job) :
    s.Becomes EngineChange (t.askChunk j) :=
  (h.goesOn (fun e => { e with running := some { job := j.id, chunk := j.nextChunk, inChunk := false } })
    (.of_subset (fun _ h => h) (fun _ => .inl rfl))).askAdmission _

theorem State.Becomes.selectJob {s t : State} (h : s.Becomes EngineChange t) : s.Becomes EngineChange t.selectJob := by
  unfold State.selectJob
  split
  · exact h
  · split
    · exact h
    · exact (h.goesOn _ (.modJob _ _ _ (fun j hj => by exact .untimed hj rfl rfl (fun _ _ => JobState.noConfusion)))).askChunk _

theorem JobEngine.mem_of_find {e : JobEngine} {id : Nat} {j : Job} (h : e.find id = some j) :
    j ∈ e.jobs ∧ j.id = id :=
  ⟨List.mem_of_find?_eq_some h, beq_iff_eq.mp (List.find?_some (p := fun j : Job => j.id == id) h)⟩

theorem JobEngine.mem_of_findOf {e : JobEngine} {p : Port} {id : Nat} {j : Job} (h : e.findOf p id = some j) :
    j ∈ e.jobs ∧ j.id = id ∧ j.port = p := by
  have := List.find?_some h
  exact ⟨List.mem_of_find?_eq_some h, by simpa using this⟩

theorem State.Becomes.blockJob {s t : State} (h : s.Becomes EngineChange t) {j : Job} (live : j ∈ t.engine.jobs)
    (id : Nat) (q : Port) : s.Becomes EngineChange (t.blockJob j id q) := by
  unfold State.blockJob
  refine ((h.goesOn _ ?_).offer ..).selectJob
  refine .of_map (d := (t.engine.modJob j.id _).leave) _ rfl (fun i hi => ?_) rfl
  split
  · refine ⟨⟨i, hi, rfl⟩, ⟨i, hi, rfl⟩, fun x n e => ⟨j, live, .inl ?_⟩⟩
    injection e with _ timer
    split at timer
    · exact Nat.le_of_eq (Option.some.inj timer).symm
    · cases timer
  · exact .self hi

theorem State.Becomes.engineDecision {s t : State} (h : s.Becomes EngineChange t) (d : Decision) :
    s.Becomes EngineChange (t.engineDecision d) := by
  unfold State.engineDecision
  split
  · exact h
  · split
    · exact h
    · rename_i found
      split
      · exact h.blockJob (JobEngine.mem_of_find found).1 _ _
      · exact (h.goesOn _ (.of_subset (fun _ h => h) (fun _ => .inl rfl))).askTurn _ _

/-! ## The end of a job -/

theorem State.Becomes.answerEnded {E : State → State → Prop} {s t : State} (h : s.Becomes E t) (j : Job) :
    s.Becomes E (t.answerEnded j) := by
  refine h.each _ _ (fun u w hu => ?_)
  split <;> exact hu.answerIn ..

theorem State.Becomes.answerPaused {E : State → State → Prop} {s t : State} (h : s.Becomes E t) (j : Job) :
    s.Becomes E (t.answerPaused j) := h.each _ _ (fun _ _ hu => hu.answerIn ..)

theorem State.Becomes.endJob {s t : State} (h : s.Becomes EngineChange t) {j : Job}
    (live : ∃ i ∈ t.engine.jobs, i.port = j.port) (o : EndOutcome) (r : EndReason) (replies : State → State)
    (hr : ∀ u, s.Becomes EngineChange u → u.pu = t.pu → s.Becomes EngineChange (replies u)) :
    s.Becomes EngineChange (t.endJob j o r replies) :=
  (hr _ (h.goesOn _ (.removeRecord live _ _)) rfl).offer _ _ _

theorem State.Becomes.endJobTorn {s t : State} (h : s.Becomes EngineChange t) (j : Job) (replies : State → State)
    (hr : ∀ u, s.Becomes EngineChange u → u.pu = t.pu → s.Becomes EngineChange (replies u)) :
    s.Becomes EngineChange (t.endJobTorn j replies) := hr _ (h.goesOn _ (.remove _ _)) rfl

theorem State.Becomes.endCancelled {s t : State} (h : s.Becomes EngineChange t) {j : Job}
    (live : ∃ i ∈ t.engine.jobs, i.port = j.port) (c : CancelReason) (replies : State → State)
    (hr : ∀ u, s.Becomes EngineChange u → u.pu = t.pu → s.Becomes EngineChange (replies u)) :
    s.Becomes EngineChange (t.endCancelled j c replies) := by
  unfold State.endCancelled
  split
  · exact h.endJob live _ _ _ hr
  · exact h.endJob live _ _ _ hr
  · exact h.endJobTorn _ _ hr

theorem State.Becomes.resolveChunk {s t : State} (h : s.Becomes EngineChange t) {j : Job}
    (live : ∃ i ∈ t.engine.jobs, i.port = j.port) : s.Becomes EngineChange (t.resolveChunk j) := by
  have done : ∀ o r, s.Becomes EngineChange (t.endJob j o r (fun u => u.answerEnded j)) :=
    fun o r => h.endJob live o r _ (fun _ hu _ => hu.answerEnded j)
  unfold State.resolveChunk
  split
  · exact (h.endCancelled live _ _ (fun _ hu _ => hu.answerEnded j)).selectJob
  · split
    · exact (done _ _).selectJob
    · refine ((h.goesOn _ ?_).answerPaused j).selectJob
      refine .of_map (d := (t.engine.modJob j.id _).leave) _ rfl (fun i hi => ?_) rfl
      split
      · exact .untimed hi rfl rfl (fun _ _ => JobState.noConfusion)
      · exact .self hi
  · split
    · exact (done _ _).selectJob
    · exact h.askChunk j

theorem State.Becomes.chunkEnd {s t : State} (h : s.Becomes EngineChange t) (bytes : List Byte) :
    s.Becomes EngineChange (t.chunkEnd bytes) := by
  unfold State.chunkEnd
  split
  · exact h
  · split
    · exact h
    · rename_i r _ j found
      obtain ⟨live, id⟩ := JobEngine.mem_of_find found
      refine ((h.reportClaimEnd _).goesOn _ (.modJob _ _ _ (fun _ _ => ?_))).resolveChunk ?_
      · exact .sameState live rfl rfl rfl
      · refine ⟨_, List.mem_map.mpr ⟨j, live, rfl⟩, ?_⟩
        rw [if_pos rfl]

/-! ## Decisions on requests -/

theorem State.handed_executing {s : State} {p : Port} {x : Handed} (h : s.handed p = some x) :
    ∃ e, (s.pu.get p).executing = some e ∧ e.phase = .handed x :=
  Option.map_eq_some_iff.mp (State.phase_of_handed h)

theorem State.MayLeave.of_pu {s t : State} {p : Port} {x : Handed} (h : s.handed p = some x) (e : t.pu = s.pu) :
    t.MayLeave p := .of_handed (h := (State.handed_congr (by rw [e])).trans h)

theorem State.Becomes.deferStop {s t : State} (h : s.Becomes EngineChange t) {p : Port} {x : Handed}
    (handed : t.handed p = some x) (j : Job) (stop : StopKind) :
    s.Becomes EngineChange (t.deferStop p j stop) := by
  unfold State.deferStop
  split
  · exact h
  · refine (h.goesOn _ (.modJob _ _ _ (fun i hi => by exact .sameState hi rfl rfl rfl))).setPhase (old := .handed x) ?_ _
    exact State.phase_of_handed handed

theorem State.withdrawAdmission_jobs (s : State) (r : Requester) :
    (s.withdrawAdmission r).engine.jobs = s.engine.jobs := by
  unfold State.withdrawAdmission
  split
  · rfl
  · cases r <;> rfl

theorem State.withdrawAdmission_pu (s : State) (r : Requester) : (s.withdrawAdmission r).pu = s.pu := by
  unfold State.withdrawAdmission
  split
  · rfl
  · cases r <;> rfl

theorem State.Becomes.cancelJob {s t : State} (h : s.Becomes EngineChange t) {p : Port} {j : Job} {x : Handed}
    (handed : t.handed p = some x) (live : j ∈ t.engine.jobs) (c : CancelReason) :
    s.Becomes EngineChange (t.cancelJob p j c) := by
  unfold State.cancelJob
  dsimp only
  split
  · split
    · exact h.deferStop handed ..
    · refine ((h.withdrawAdmission _).endCancelled ?_ _ _ (fun u hu e => hu.answer (.of_pu handed ?_) ..)).selectJob
      · rw [State.withdrawAdmission_jobs]
        exact ⟨j, live, rfl⟩
      · rw [e, State.withdrawAdmission_pu]
  · exact h.endCancelled ⟨j, live, rfl⟩ _ _ (fun u hu e => hu.answer (.of_pu handed e) ..)

theorem State.Becomes.submit {s t : State} (h : s.Becomes EngineChange t) {p : Port} {w : Submission} {length limit : Nat}
    (handed : t.handed p = some (.submit w length limit)) : s.Becomes EngineChange (t.submit p w length limit) := by
  unfold State.submit
  split
  · exact h.answer (.of_handed handed) ..
  · exact ((h.act (.accept p w length limit _ _ handed rfl rfl rfl)).answer (.of_pu handed rfl) ..).selectJob

theorem State.Becomes.decidePause {s t : State} (h : s.Becomes EngineChange t) {p : Port} {id : Nat}
    (handed : t.handed p = some (.jobPause id)) : s.Becomes EngineChange (t.decidePause p id) := by
  have paused : ∀ u : State, u.engine.GoesOn (u.engine.pauseJob id) :=
    fun u => .modJob _ _ _ (fun i hi => by exact .untimed hi rfl rfl (fun _ _ => JobState.noConfusion))
  unfold State.decidePause
  split
  · exact h.answer (.of_handed handed) ..
  · split
    · exact (h.goesOn _ (paused t)).answer (.of_pu handed rfl) ..
    · exact (h.goesOn _ (paused t)).answer (.of_pu handed rfl) ..
    · split
      · exact h.deferStop handed ..
      · refine ((((h.withdrawAdmission _).goesOn _ ?_).answer (.of_pu handed ?_) ..)).selectJob
        · obtain ⟨jobs, histories⟩ := paused (t.withdrawAdmission .engine)
          exact ⟨jobs, histories⟩
        · exact t.withdrawAdmission_pu _
    · exact h.answer (.of_handed handed) ..

theorem State.Becomes.decideResume {s t : State} (h : s.Becomes EngineChange t) {p : Port} {id : Nat}
    (handed : t.handed p = some (.jobResume id)) : s.Becomes EngineChange (t.decideResume p id) := by
  unfold State.decideResume
  split
  · exact h.answer (.of_handed handed) ..
  · split
    · exact ((h.goesOn _ (.modJob _ _ _ (fun i hi => by exact .untimed hi rfl rfl (fun _ _ => JobState.noConfusion)))).answer
        (.of_pu handed rfl) ..).selectJob
    all_goals exact h.answer (.of_handed handed) ..

/-! ## The job step, reports and expiries -/

theorem State.Becomes.tearJob {s t : State} (h : s.Becomes EngineChange t) (j : Job) :
    s.Becomes EngineChange (t.tearJob j) := by
  unfold State.tearJob
  split
  · split
    · exact h.goesOn _ (.modJob _ _ _ (fun i hi => by exact .sameState hi rfl rfl rfl))
    · exact (h.withdrawAdmission _).endJobTorn _ _ (fun _ hu _ => hu)
  · exact h.endJobTorn _ _ (fun _ hu _ => hu)

theorem State.Becomes.jobStep {s t : State} (h : s.Becomes EngineChange t) (p : Port) :
    s.Becomes EngineChange (t.jobStep p) := by
  unfold State.jobStep
  refine ((((h.discardHanded p _).goesOn _ ?_).dropInPhase p .atChunkEnd).each _ _ (fun u j hu => hu.tearJob j)).selectJob
  exact .of_map (d := JobEngine.dropStopWaiters _ p) _ rfl (fun i hi => by exact .sameState hi rfl rfl rfl) rfl

theorem Job.unblock_from {e : JobEngine} {j : Job} (h : j ∈ e.jobs) (x : Nat) : (j.unblock x).From e := by
  unfold Job.unblock
  split
  · split
    · exact .untimed h rfl rfl (fun _ _ => JobState.noConfusion)
    · exact .self h
  all_goals exact .self h

theorem State.Becomes.report {s t : State} (h : s.Becomes EngineChange t) (x : Nat) (rest : List EngineMessage) :
    s.Becomes EngineChange
      (t.modEngine (fun e => { e with inbox := rest, jobs := e.jobs.map (Job.unblock x) })).selectJob :=
  (h.goesOn _ (.of_map _ rfl (fun _ hi => Job.unblock_from hi x) rfl)).selectJob

theorem State.Becomes.takeBlockLimit {s t : State} (h : s.Becomes EngineChange t) (id : Nat) :
    s.Becomes EngineChange (t.takeBlockLimit id) := by
  unfold State.takeBlockLimit
  split
  · exact h
  · rename_i j found
    split
    · exact h.endJob ⟨j, (JobEngine.mem_of_find found).1, rfl⟩ _ _ _ (fun _ hu _ => hu)
    · exact h

theorem Job.lowerTimer_from {e : JobEngine} {j : Job} (h : j ∈ e.jobs) : j.lowerTimer.From e := by
  unfold Job.lowerTimer
  split
  · rename_i x n state
    refine ⟨⟨j, h, rfl⟩, ⟨j, h, rfl⟩, fun y m k => ⟨j, h, .inr ⟨x, n, state, ?_⟩⟩⟩
    injection k with _ timer
    exact (Option.some.inj timer) ▸ Nat.sub_le ..
  · exact .self h

/-- Each act of the engine is a chain of changes of its tables, with replies, notices and phases between them. -/
theorem EngineAct.becomes {s t : State} (h : EngineAct s t) : s.Becomes EngineChange t := by
  have r := State.Becomes.refl (E := EngineChange) s
  cases h with
  | decision d => exact r.engineDecision d
  | chunkEnd bytes => exact r.chunkEnd bytes
  | submit p w length limit handed => exact r.submit handed
  | pause p id handed => exact r.decidePause handed
  | resume p id handed => exact r.decideResume handed
  | cancel p j reason handed live =>
    obtain ⟨x, handed⟩ := handed
    exact r.cancelJob handed live reason
  | jobStep p => exact r.jobStep p
  | report x rest => exact r.report x rest
  | blockLimit id => exact r.takeBlockLimit id
  | history p =>
    refine r.goesOn _ (.of_subset (fun _ h => h) (fun q => ?_))
    by_cases c : q = p
    · subst c
      exact .inr (.inl (PerPort.get_set_self ..))
    · exact .inl (PerPort.get_set_ne _ _ c)
  | lowerTimers => exact r.goesOn _ (.of_map _ rfl (fun _ hi => Job.lowerTimer_from hi) rfl)

/-- So is a chain of changes in which the engine acts. -/
theorem State.Becomes.fine {s t : State} (h : s.Becomes EngineAct t) : s.Becomes EngineChange t := by
  induction h with
  | stay => exact .refl s
  | tail _ change ih =>
    rcases change with change | act
    · exact ih.step change
    · exact ih.trans act.becomes

end Sys2Proof.Machine
end

section
/-! SUPPORT. The chains of changes that admissions, scans, grants, expiries and teardown steps at the lease unit come to. -/

namespace Sys2Proof.Machine

/-! ## Admission -/

theorem State.Becomes.takeEngineDecision {s t : State} (h : s.Becomes EngineAct t) :
    s.Becomes EngineAct t.takeEngineDecision := by
  unfold State.takeEngineDecision
  split
  · rename_i rest _
    exact (h.setInbox (fun _ => rest)).act (.decision _ _)
  · exact h

theorem State.Becomes.deliver {s t : State} (h : s.Becomes EngineAct t) (late : Bool) (r : Requester) (d : Decision) :
    s.Becomes EngineAct (t.deliver late r d) := by
  unfold State.deliver
  split
  · exact h
  · cases r with
    | port p =>
      dsimp only
      split
      · exact h.modMail _ _
      · exact h.portDecision p d
    | engine =>
      have told := h.setInbox (fun xs => xs ++ [EngineMessage.decided d])
      dsimp only
      split
      · exact told
      · exact told.takeEngineDecision

/-- An outcome of the lease unit's own decision: the claim is added only where it is admitted. -/
theorem State.Becomes.concludeAdmission {s t : State} (h : s.Becomes EngineAct t) (late : Bool) (a : Access)
    {d : Decision} (decided : t.leaseUnit.decide a = some d) : s.Becomes EngineAct (t.concludeAdmission late a d) := by
  unfold State.concludeAdmission
  split
  · exact h.deliver ..
  · exact (h.step (.claim a decided)).deliver ..

theorem State.Becomes.decideAdmission {s t : State} (h : s.Becomes EngineAct t) (late : Bool) (a : Access) :
    s.Becomes EngineAct (t.decideAdmission late a) := by
  unfold State.decideAdmission
  split
  · exact h.setHeld (fun xs => xs ++ [a])
  · rename_i decided
    exact h.concludeAdmission late a decided

theorem State.Becomes.retry {s t : State} (h : s.Becomes EngineAct t) (late : Bool) (r : Range) :
    s.Becomes EngineAct (t.retry late r) := by
  refine h.each _ _ (fun u a hu => ?_)
  unfold State.retryOne
  split
  · exact hu
  · rename_i decided
    exact (hu.setHeld (fun xs => xs.filter (fun b => b.requester != a.requester))).concludeAdmission late a decided

/-! ## Grants and the scan -/

theorem State.Becomes.grantExecuting {s t : State} (h : s.Becomes EngineAct t) {p : Port} {x : LeaseRequest}
    {e : Executing} (asks : t.Asks p x e) (clear : t.Clear p x)
    (claims : t.leaseUnit.conflictingClaims x.kind x.range = []) : s.Becomes EngineAct (t.grantExecuting p x) := by
  have phase : t.phase p = some (.handed (.lease x)) := by rw [State.phase, asks.executing, ← asks.phase]; rfl
  exact (h.step (.grantNow p x e asks clear claims)).answer (.of_phase phase) ..

theorem State.Becomes.grantSettling {s t : State} (h : s.Becomes EngineAct t) (late : Bool) (p : Port)
    (empty : ∀ x, t.leaseUnit.settling.get p = some x → x.recorded = []) :
    s.Becomes EngineAct (State.grantSettling late t p) := by
  unfold State.grantSettling
  split
  · exact h
  · rename_i x settling
    exact ((h.step (.grantSettling p x settling (empty x settling))).answerIn p .settling _ _
      (fun _ => PerPort.get_set_self ..)).retry ..

/-- A grant from the settling set leaves the other ports' members of it (R12). -/
theorem State.grantSettling_settling (late : Bool) (s : State) (p q : Port) :
    (State.grantSettling late s p).leaseUnit.settling.get q = s.leaseUnit.settling.get q ∨
    (State.grantSettling late s p).leaseUnit.settling.get q = none := by
  unfold State.grantSettling
  split
  · exact .inl rfl
  · rw [(State.retry_tables _ late _).settling, State.answerIn_leaseUnit]
    by_cases e : q = p
    · subst e
      exact .inr (PerPort.get_set_self ..)
    · exact .inl (PerPort.get_set_ne _ _ e)

theorem State.Becomes.grantWaiter {s t : State} (h : s.Becomes EngineAct t) (late : Bool) (older rest : List Waiter)
    (w : Waiter) (queue : t.leaseUnit.queue = older ++ w :: rest) (verdict : t.leaseUnit.verdict older w = .grant) :
    s.Becomes EngineAct ((t.setQueue (older ++ rest)).grantWaiter late w) := by
  have granted := (h.modLtx w.port (fun x => x.queueReply (replyFrame Kind.lease.code w.tag .ok
    (w.request.grantFields t.leaseUnit.nextLeaseId))) (fun _ => .queueReply ..)).step
    (.grantWaiter older rest w queue verdict)
  unfold State.grantWaiter
  dsimp only
  split
  · exact granted
  · exact State.Becomes.retry granted ..

theorem State.Becomes.scanFrom {s t : State} (late : Bool) (rest older : List Waiter) (h : s.Becomes EngineAct t)
    (queue : t.leaseUnit.queue = older ++ rest) : s.Becomes EngineAct (State.scanFrom late rest older t) := by
  induction rest generalizing older t with
  | nil => exact h
  | cons w rest ih =>
    unfold State.scanFrom
    split
    · exact ih _ h (by rw [queue, List.append_assoc, List.singleton_append])
    · rename_i claims verdict
      exact ih _ (h.step (.settleWaiter older rest w claims queue verdict)) (List.append_cons ..)
    · rename_i verdict
      exact ih _ (h.grantWaiter late older rest w queue verdict)
        (State.grantWaiter_tables (t.setQueue (older ++ rest)) late w).2.2

theorem State.Becomes.scan {s t : State} (h : s.Becomes EngineAct t) (late : Bool) :
    s.Becomes EngineAct (t.scan late) := .scanFrom late _ _ h rfl

/-! ## The end of a claim, the removal of a lease -/

/-- The ports named have empty recorded sets (R55). -/
theorem LeaseUnit.recorded_of_emptied {u : LeaseUnit} {p : Port} {x : Settling} (h : p ∈ u.emptied)
    (settling : u.settling.get p = some x) : x.recorded = [] := by
  obtain ⟨⟨q, y⟩, member, rfl⟩ := List.mem_map.mp h
  obtain ⟨executing, empty⟩ := List.mem_filter.mp member
  rw [LeaseUnit.mem_settlingExecuting, settling] at executing
  obtain rfl := Option.some.inj executing
  exact List.isEmpty_iff.mp empty

theorem State.Becomes.endClaim {s t : State} (h : s.Becomes EngineAct t) (late : Bool) (r : Requester) :
    s.Becomes EngineAct (t.endClaim late r) := by
  unfold State.endClaim
  dsimp only
  have ended := h.step (.endClaim r)
  have granted := State.each_induct
    (fun u => s.Becomes EngineAct u ∧ ∀ p ∈ (t.modLease (fun u => u.removeClaim r)).leaseUnit.emptied,
      ∀ x, u.leaseUnit.settling.get p = some x → x.recorded = [])
    (State.grantSettling late) (t.modLease (fun u => u.removeClaim r)).leaseUnit.emptied
    (fun u p member ⟨reached, empty⟩ => ⟨reached.grantSettling late p (empty p member), fun q other x settling => by
      rcases State.grantSettling_settling late u p q with same | gone
      · exact empty q other x (same.symm.trans settling)
      · rw [gone] at settling
        cases settling⟩)
    _ ⟨ended, fun p member x => LeaseUnit.recorded_of_emptied member⟩
  exact granted.1.scan late

theorem State.Becomes.removal {s t : State} (h : s.Becomes EngineAct t) (P : Lease → Bool) :
    s.Becomes EngineAct (t.modLease (fun u => { u with leases := u.leases.filter P })) := h.step (.removal P)

theorem State.Becomes.afterRemoval {s t : State} (h : s.Becomes EngineAct t) (id : Nat) :
    s.Becomes EngineAct (t.afterRemoval id) := (h.scan false).reportRemoval id

theorem State.Becomes.dropWaiter {s t : State} (h : s.Becomes EngineAct t) (p : Port) (tag : Byte) (r : Result)
    (fs : List Byte) :
    s.Becomes EngineAct ((t.modLease (fun u => u.removeWaiter p tag)).answerWaiter p tag r fs) :=
  (h.modLtx p (fun x => x.queueReply (replyFrame Kind.lease.code tag r fs)) (fun _ => .queueReply ..)).step
    (.dropWaiter p tag)

/-! ## Expiries -/

theorem State.Becomes.takeLapse {s t : State} (h : s.Becomes EngineAct t) (id : Nat) :
    s.Becomes EngineAct (t.takeLapse id) := by
  unfold State.takeLapse
  split
  · exact h
  · exact ((h.removal _).offer ..).afterRemoval _

theorem State.Becomes.takeWaitExpiry {s t : State} (h : s.Becomes EngineAct t) (p : Port) (tag : Byte) :
    s.Becomes EngineAct (t.takeWaitExpiry p tag) := by
  unfold State.takeWaitExpiry
  split
  · exact h
  · split
    · exact (h.dropWaiter p tag _ _).scan false
    · exact h

theorem State.Becomes.expireLeases {s t : State} (h : s.Becomes EngineAct t) : s.Becomes EngineAct t.expireLeases :=
  (h.each _ _ (fun _ _ hu => hu.takeLapse _)).each _ _ (fun _ _ hu => hu.takeWaitExpiry ..)

theorem State.Becomes.expireJobs {s t : State} (h : s.Becomes EngineAct t) : s.Becomes EngineAct t.expireJobs :=
  h.each _ _ (fun _ id hu => hu.act (.blockLimit _ id))

/-! ## Decisions on lease requests -/

theorem State.Becomes.joinQueue {s t : State} (h : s.Becomes EngineAct t) {p : Port} {x : LeaseRequest} {e : Executing}
    (asks : t.Asks p x e) : s.Becomes EngineAct (t.joinQueue p x) := by
  have phase : t.phase p = some (.handed (.lease x)) := by rw [State.phase, asks.executing, ← asks.phase]; rfl
  unfold State.joinQueue
  split
  · exact h.answer (.of_phase phase) ..
  · rename_i room
    rw [asks.executing]
    exact h.step (.joinQueue p x e asks (Nat.lt_of_not_le (fun c => room (.inl c)))
      (Nat.lt_of_not_le (fun c => room (.inr c))))

theorem State.Becomes.decideLease {s t : State} (h : s.Becomes EngineAct t) {p : Port} {x : LeaseRequest}
    (handed : t.handed p = some (.lease x)) : s.Becomes EngineAct (t.decideLease p x) := by
  have leave : t.MayLeave p := .of_handed handed
  obtain ⟨e, executing, phase⟩ := State.handed_executing handed
  unfold State.decideLease
  split
  · exact h.answer leave ..
  · split
    · exact h.answer leave ..
    · rename_i apart few
      have asks : t.Asks p x e := ⟨executing, phase, eq_false_of_ne_true apart, Nat.lt_of_not_le few⟩
      split
      · split
        · exact h.answer leave ..
        · exact h.joinQueue asks
      · rename_i free
        split
        · split
          · exact h.answer leave ..
          · exact h.joinQueue asks
        · rename_i room
          have clear : t.Clear p x := ⟨free, eq_false_of_ne_true room⟩
          split
          · rename_i claims
            exact h.grantExecuting asks clear claims
          · rename_i claims
            rw [← claims]
            exact h.step (.enterSettling p x e asks clear)

theorem State.Becomes.decideRenew {s t : State} (h : s.Becomes EngineAct t) {p : Port} {id life : Nat}
    (handed : t.handed p = some (.renew id life)) :
    s.Becomes EngineAct (t.decideRenew p id life) := by
  unfold State.decideRenew
  split
  · exact h.answer (.of_handed handed) ..
  · exact (h.step (.renew p id life handed)).answer (.of_pu handed rfl) ..

theorem State.Becomes.decideRelease {s t : State} (h : s.Becomes EngineAct t) {p : Port} {id : Nat}
    (handed : t.handed p = some (.release id)) : s.Becomes EngineAct (t.decideRelease p id) := by
  unfold State.decideRelease
  split
  · exact h.answer (.of_handed handed) ..
  · exact ((h.removal _).answer (.of_pu handed rfl) ..).afterRemoval _

theorem State.Becomes.decideWithdraw {s t : State} (h : s.Becomes EngineAct t) {p : Port} {tag : Byte}
    (handed : t.handed p = some (.withdraw tag)) : s.Becomes EngineAct (t.decideWithdraw p tag) := by
  unfold State.decideWithdraw
  split
  · exact h.answer (.of_handed handed) ..
  · split
    · exact h.answer (.of_handed handed) ..
    · refine ((h.dropWaiter p tag _ _).answer (.of_phase (f := .handed (.withdraw tag)) ?_) ..).scan false
      exact (State.phase_modPu ..).trans (State.phase_of_handed handed)

theorem State.Becomes.decideForceRelease {s t : State} (h : s.Becomes EngineAct t) {p : Port} {id : Nat}
    (handed : t.handed p = some (.forceRelease id)) : s.Becomes EngineAct (t.decideForceRelease p id) := by
  unfold State.decideForceRelease
  split
  · exact h.answer (.of_handed handed) ..
  · exact (((h.removal _).answer (.of_pu handed rfl) ..).offer ..).afterRemoval _

/-! ## The two teardown steps -/

theorem State.modPu_comm (s : State) (p : Port) (f g : PortUnit → PortUnit) (h : ∀ u, f (g u) = g (f u) := by exact fun _ => rfl) :
    (s.modPu p f).modPu p g = (s.modPu p g).modPu p f := by
  rw [State.modPu_modPu, State.modPu_modPu]
  exact congrArg _ (funext fun u => (h u).symm)

theorem State.handed_modSteps (s : State) (p q : Port) (f : StepsDue → StepsDue) :
    (s.modSteps p f).handed q = s.handed q := State.handed_congr_phase (s.phase_modPu p q _)

theorem State.dropExecuting_modSteps (s : State) (p : Port) (f : StepsDue → StepsDue) :
    (s.modSteps p f).dropExecuting p = (s.dropExecuting p).modSteps p f :=
  State.modPu_comm (s.modLtx p Transmitter.release) p (fun u => { u with stepsDue := f u.stepsDue })
    (fun u => { u with executing := none })

/-- Discarding the request handed over does not read the steps handed out. -/
theorem State.discardHanded_modSteps (s : State) (p : Port) (f : StepsDue → StepsDue) (b : TakenBy) :
    (s.modSteps p f).discardHanded p b = (s.discardHanded p b).modSteps p f := by
  unfold State.discardHanded
  rw [State.handed_modSteps]
  split
  · rfl
  · split
    · exact s.dropExecuting_modSteps p f
    · rfl

theorem State.dropInPhase_modSteps (s : State) (p : Port) (f : StepsDue → StepsDue) (x : Phase) :
    (s.modSteps p f).dropInPhase p x = (s.dropInPhase p x).modSteps p f := by
  unfold State.dropInPhase
  rw [show (s.modSteps p f).phase p = s.phase p from s.phase_modPu p p _]
  split
  · exact s.dropExecuting_modSteps p f
  · rfl

/-- The release of `n` reservations. -/
def Transmitter.releases : Nat → Transmitter → Transmitter
  | 0, t => t
  | n + 1, t => Transmitter.releases n t.release

/-- Waiters that leave without a reply: their reservations are released and their WAITING entries go (R38). -/
theorem State.each_dropWaiting (s : State) (p : Port) (ws : List Waiter) :
    s.each ws (fun a w => a.dropWaiting p w.tag) =
      (s.modLtx p (Transmitter.releases ws.length)).modPu p
        (fun u => { u with waiting := u.waiting.filter (fun e => ws.all (fun w => w.tag != e.tag)) }) := by
  induction ws generalizing s with
  | nil =>
    have same : s.pu.set p { s.pu.get p with waiting := (s.pu.get p).waiting } = s.pu := PerPort.set_get ..
    have all : (s.pu.get p).waiting.filter (fun _ => true) = (s.pu.get p).waiting :=
      List.filter_eq_self.2 (fun _ _ => rfl)
    simp only [State.each, List.foldl_nil, State.modLtx, State.modPu, List.length_nil, Transmitter.releases,
      PerPort.set_get, List.all_nil, all, same]
  | cons w ws ih =>
    have head : s.each (w :: ws) (fun a w => a.dropWaiting p w.tag) =
        (s.dropWaiting p w.tag).each ws (fun a w => a.dropWaiting p w.tag) := rfl
    rw [head, ih]
    simp only [State.dropWaiting, State.modLtx, State.modPu, PerPort.get_set_self, PerPort.set_set, List.filter_filter,
      List.all_cons, List.length_cons, Transmitter.releases]
    congr 3
    refine congrArg (fun P => List.filter P _) (funext fun e => ?_)
    rw [Bool.and_comm, bne_comm]

theorem Transmitter.Kept.releases (n : Nat) (t : Transmitter) : t.Kept (Transmitter.releases n t) := by
  induction n generalizing t with
  | zero => exact ⟨⟨id, id⟩, id⟩
  | succ n ih => exact (Transmitter.Kept.release t).trans (ih _)

/-- After the waiter step's discarding no LEASE stands handed over (R140). -/
theorem State.discardHanded_waiterStep (s : State) (p : Port) (x : LeaseRequest) :
    (s.discardHanded p .waiterStep).handed p ≠ some (.lease x) := by
  unfold State.discardHanded
  split
  · rename_i e
    rw [e]
    exact fun c => by cases c
  · rename_i h e
    split
    · intro c
      have gone := State.phase_of_handed c
      rw [State.dropExecuting, State.phase_modPu_self] at gone
      cases gone
    · rename_i other
      rw [e]
      intro c
      obtain rfl := Option.some.inj c
      exact other rfl

/-- The waiter step before its retries and its scan: what leaves the port, and the step taken (R21 step 1, R38). -/
def State.waitersGone (s : State) (p : Port) : State :=
  let t := s.discardHanded p .waiterStep
  ((t.modLease (fun l => l.removeWaiting p)).each (t.leaseUnit.waitersOf p)
    (fun a w => a.dropWaiting p w.tag)).dropInPhase p .settling

/-- All waiters of the port leave at once without a reply. -/
def State.waitersLeave (s : State) (p : Port) : State :=
  ((s.modLtx p (Transmitter.releases (s.leaseUnit.waitersOf p).length)).modLease (fun l => l.removeWaiting p)).modPu p
    (fun u => { u with waiting := u.waiting.filter (fun e =>
      (s.leaseUnit.waitersOf p).all (fun w => w.tag != e.tag)) })

theorem State.waitersGone_eq (s : State) (p : Port) :
    s.waitersGone p = ((s.discardHanded p .waiterStep).waitersLeave p).dropInPhase p .settling := by
  unfold State.waitersGone
  dsimp only
  rw [State.each_dropWaiting]
  rfl

theorem State.waitersLeave_modSteps (s : State) (p : Port) (f : StepsDue → StepsDue) :
    (s.modSteps p f).waitersLeave p = (s.waitersLeave p).modSteps p f :=
  State.modPu_comm ((s.modLtx p (Transmitter.releases (s.leaseUnit.waitersOf p).length)).modLease
      (fun l => l.removeWaiting p)) p (fun u => { u with stepsDue := f u.stepsDue })
    (fun u => { u with waiting := u.waiting.filter (fun e =>
      (s.leaseUnit.waitersOf p).all (fun w => w.tag != e.tag)) })

theorem State.dropInPhase_leaseUnit (s : State) (p : Port) (f : Phase) : (s.dropInPhase p f).leaseUnit = s.leaseUnit := by
  unfold State.dropInPhase
  split <;> rfl

theorem State.discardHanded_leaseUnit (s : State) (p : Port) (b : TakenBy) :
    (s.discardHanded p b).leaseUnit = s.leaseUnit := by
  unfold State.discardHanded
  split
  · rfl
  · split <;> rfl

theorem State.waitersGone_leaseUnit (s : State) (p : Port) :
    (s.waitersGone p).leaseUnit = s.leaseUnit.removeWaiting p := by
  rw [State.waitersGone_eq, State.dropInPhase_leaseUnit]
  exact congrArg (fun u : LeaseUnit => u.removeWaiting p) (s.discardHanded_leaseUnit p _)

theorem LeaseUnit.waitersOf_removeWaiting (u : LeaseUnit) (p : Port) : (u.removeWaiting p).waitersOf p = [] := by
  simp [LeaseUnit.waitersOf, LeaseUnit.removeWaiting]

/-- A request that is dropped in one phase does not come to stand handed over. -/
theorem State.handed_of_dropInPhase {s : State} {p : Port} {f : Phase} {h : Handed}
    (e : (s.dropInPhase p f).handed p = some h) : s.handed p = some h := by
  unfold State.dropInPhase at e
  split at e
  · have gone := State.phase_of_handed e
    rw [State.dropExecuting, State.phase_modPu_self] at gone
    cases gone
  · exact e

theorem State.waitersLeave_handed (s : State) (p : Port) : (s.waitersLeave p).handed p = s.handed p :=
  State.handed_congr_phase (State.phase_modPu _ p p (fun u => { u with waiting := u.waiting.filter (fun e =>
    (s.leaseUnit.waitersOf p).all (fun w => w.tag != e.tag)) }))

theorem State.waitersGone_handed (s : State) (p : Port) (x : LeaseRequest) :
    (s.waitersGone p).handed p ≠ some (.lease x) := by
  rw [State.waitersGone_eq]
  intro c
  exact s.discardHanded_waiterStep p x ((State.waitersLeave_handed _ p).symm.trans (State.handed_of_dropInPhase c))

theorem State.Becomes.waitersGone {s t : State} (h : s.Becomes EngineAct t) (p : Port) :
    s.Becomes EngineAct (t.waitersGone p) := by
  rw [State.waitersGone_eq]
  exact (((h.discardHanded p _).modLtx p _ (.releases _)).step (.waitersLeave p)).dropInPhase p .settling
    (fun _ => PerPort.get_set_self ..)

/-- The waiter step is what leaves the port, then the retries, then the scan; the step handed out may go at any point of
the first. -/
theorem State.waiterStep_modSteps (s : State) (p : Port) (late : Bool) (f : StepsDue → StepsDue) :
    (s.modSteps p f).waiterStep p late =
      (((s.waitersGone p).modSteps p f).each (s.leaseUnit.settlingRangesOf p) (fun a r => a.retry late r)).scan late := by
  have gone : (s.modSteps p f).waitersGone p = (s.waitersGone p).modSteps p f := by
    rw [State.waitersGone_eq, State.waitersGone_eq, State.discardHanded_modSteps, State.waitersLeave_modSteps,
      State.dropInPhase_modSteps]
  rw [← gone]
  unfold State.waiterStep State.waitersGone
  dsimp only
  rw [show ((s.modSteps p f).discardHanded p .waiterStep).leaseUnit = s.leaseUnit from State.discardHanded_leaseUnit ..]

theorem State.Becomes.waiterStep {s t : State} (h : s.Becomes EngineAct t) (p : Port) (late : Bool) :
    s.Becomes EngineAct ((t.modSteps p (fun d => { d with waiter := false })).waiterStep p late) := by
  rw [State.waiterStep_modSteps]
  have unit := t.waitersGone_leaseUnit p
  refine (((h.waitersGone p).step (.waiterTaken p ?_ ?_ (t.waitersGone_handed p))).each _ _
    (fun u r hu => hu.retry late r)).scan late
  · rw [unit]
    exact LeaseUnit.waitersOf_removeWaiting ..
  · rw [unit]
    exact PerPort.get_set_self ..

/-- The lease step before its scan and its reports (R21 step 2). -/
def State.leasesGone (s : State) (p : Port) : State :=
  (s.discardHanded p .leaseStep).modLease (fun u => { u with leases := u.leases.filter (fun l => l.port != p) })

theorem State.leaseStep_modSteps (s : State) (p : Port) (f : StepsDue → StepsDue) :
    (s.modSteps p f).leaseStep p =
      (((s.leasesGone p).modSteps p f).scan false).each (sortById (s.leaseUnit.leasesOf p))
        (fun a l => a.reportRemoval l.id) := by
  unfold State.leaseStep State.leasesGone
  dsimp only
  rw [State.discardHanded_modSteps, show ((s.discardHanded p .leaseStep).modSteps p f).leaseUnit = s.leaseUnit from
    State.discardHanded_leaseUnit ..]
  rfl

theorem State.Becomes.leaseStep {s t : State} (h : s.Becomes EngineAct t) (p : Port)
    (waiter : (t.pu.get p).stepsDue.waiter = false) :
    s.Becomes EngineAct ((t.modSteps p (fun d => { d with lease := false })).leaseStep p) := by
  rw [State.leaseStep_modSteps]
  have gone : s.Becomes EngineAct (t.leasesGone p) := (h.discardHanded p _).removal _
  have steps : (t.pu.get p).stepsDue = ((t.leasesGone p).pu.get p).stepsDue :=
    ((((CoreKept.refl t).discardHanded p .leaseStep).modLease _).unit p).stepsDue.symm
  refine ((gone.step (.leaseTaken p (by rwa [← steps]) ?_)).scan false).each _ _ (fun u l hu => hu.reportRemoval _)
  simp [LeaseUnit.leasesOf, State.leasesGone]

end Sys2Proof.Machine
end

section
/-! SUPPORT. The chains of changes that the receive line comes to: every receiver on the way is legal. -/

namespace Sys2Proof.Machine

variable {E : State → State → Prop}

/-! ## Receivers -/

theorem Receiver.Kept.trans {x y z : Receiver} (h : x.Kept y) (k : y.Kept z) : x.Kept z :=
  ⟨fun a => k.legal (h.legal a), fun a => k.counters (h.counters a)⟩

/-- A receiver without a run of mark bits is legal where its assembly, its held frame and its character are. -/
theorem Receiver.Legal.of_unmarked {x : Receiver} (state : x.state = .assembling ↔ x.buffer ≠ [])
    (buffer : 4 ≤ x.buffer.length → lengthField x.buffer ≤ maxPayload ∧ x.buffer.length < 4 + lengthField x.buffer + 2)
    (held : ∀ f, x.held = some f → f.payload.length ≤ maxPayload) (short : x.character.length ≤ 10)
    (start : ∀ b, x.character.head? = some b → b = false) (other : x.state ≠ .brk) (run : ∀ n, x.run ≠ .mark n) :
    x.Legal := ⟨state, buffer, held, short, start, fun h => absurd h other, fun n h => absurd h (run n)⟩

/-- Outside BREAK a legal receiver counts no mark bits. -/
theorem Receiver.Legal.unmarked {x : Receiver} (h : x.Legal) (other : x.state ≠ .brk) (n : Nat) : x.run ≠ .mark n := by
  obtain ⟨-, -, -, -, -, -, run⟩ := h
  exact fun e => other (run n e).1

/-- An assembly that ends leaves the receiver hunting (R146), whatever frame it then holds. -/
theorem Receiver.Kept.ended {x : Receiver} (other : x.state ≠ .brk) (held : Option Frame)
    (short : x.Legal → ∀ f, held = some f → f.payload.length ≤ maxPayload) :
    x.Kept { x with state := .hunting, buffer := [], held := held } := by
  refine ⟨fun legal => ?_, fun ⟨a, b, c, d, e⟩ => ⟨a, b, c, d, e⟩⟩
  have ⟨_, _, _, length, start, _, _⟩ := legal
  exact .of_unmarked (iff_of_false (by simp) (by simp)) (fun h => absurd h (by simp)) (short legal) length start
    (by simp) (legal.unmarked other)

theorem Receiver.Kept.hunt {x : Receiver} (other : x.state ≠ .brk) : x.Kept x.hunt :=
  .ended other x.held (fun ⟨_, _, held, _⟩ => held)

theorem Receiver.Kept.countDiscard (x : Receiver) (r : DiscardReason) : x.Kept (x.countDiscard r) := by
  refine ⟨fun h => ?_, fun ⟨check, length, cut, framing, overruns⟩ => ?_⟩
  · cases r <;> exact h
  · cases r with
    | check => exact ⟨countUp_le _, length, cut, framing, overruns⟩
    | length => exact ⟨check, countUp_le _, cut, framing, overruns⟩
    | cut => exact ⟨check, length, countUp_le _, framing, overruns⟩
    | framing => exact ⟨check, length, cut, countUp_le _, overruns⟩

/-- A character with a mark begins an assembly (R146). -/
theorem Receiver.Kept.begin {x : Receiver} (other : x.state ≠ .brk) (c : Byte) : x.Kept (x.begin c) := by
  refine ⟨fun legal => ?_, fun ⟨a, b, c, d, e⟩ => ⟨a, b, c, d, e⟩⟩
  have ⟨_, _, held, length, start, _, _⟩ := legal
  exact .of_unmarked (iff_of_true rfl (by simp [Receiver.begin])) (fun h => absurd h (by simp [Receiver.begin])) held
    length start (by simp [Receiver.begin]) (legal.unmarked other)

/-- The length field stands when the buffer grows. -/
theorem lengthField_append (b c : List Byte) (h : 4 ≤ b.length) : lengthField (b ++ c) = lengthField b := by
  unfold lengthField fieldAt slice
  rw [List.drop_append_of_le_length (by omega), List.take_append_of_le_length (by rw [List.length_drop]; omega)]

/-- A character without a mark that neither ends the frame nor gives it a length out of range stays in the buffer. -/
theorem Receiver.Kept.grow {x : Receiver} (assembling : x.state = .assembling) (c : Byte)
    (length : ¬ ((x.buffer ++ [c]).length = 4 ∧ maxPayload < lengthField (x.buffer ++ [c])))
    (more : ¬ (4 ≤ (x.buffer ++ [c]).length ∧ (x.buffer ++ [c]).length = 4 + lengthField (x.buffer ++ [c]) + 2)) :
    x.Kept { x with buffer := x.buffer ++ [c] } := by
  refine ⟨fun legal => ?_, fun ⟨a, b, c, d, e⟩ => ⟨a, b, c, d, e⟩⟩
  have other : x.state ≠ .brk := by simp [assembling]
  have ⟨_, buffer, held, short, start, _, _⟩ := legal
  refine .of_unmarked (iff_of_true assembling (by simp)) (fun four => ?_) held short start other (legal.unmarked other)
  rw [List.length_append, List.length_singleton] at *
  by_cases old : 4 ≤ x.buffer.length
  · have := buffer old
    have := lengthField_append x.buffer [c] old
    dsimp only
    omega
  · dsimp only
    omega

/-- A complete frame is placed with at most 1,040 bytes of payload (R150, R151). -/
theorem Receiver.Legal.assembled_fits {x : Receiver} (legal : x.Legal) (c : Byte)
    (full : 4 ≤ (x.buffer ++ [c]).length ∧ (x.buffer ++ [c]).length = 4 + lengthField (x.buffer ++ [c]) + 2) :
    (assembled (x.buffer ++ [c])).payload.length ≤ maxPayload := by
  obtain ⟨-, buffer, -⟩ := legal
  rw [List.length_append, List.length_singleton] at full
  have old : 4 ≤ x.buffer.length := by omega
  have fits := (buffer old).1
  rw [← lengthField_append x.buffer [c] old] at fits
  exact Nat.le_trans (List.length_take_le ..) fits

theorem Receiver.Kept.countRun (x : Receiver) (level : Bool) : x.Kept (x.countRun level) := by
  refine ⟨fun ⟨state, buffer, held, short, start, idle, _⟩ => ?_, fun ⟨a, b, c, d, e⟩ => ⟨a, b, c, d, e⟩⟩
  refine ⟨state, buffer, held, short, start, idle, fun n e => absurd e ?_⟩
  cases level <;> simp [Receiver.countRun]

theorem Receiver.Kept.countOverrun (x : Receiver) : x.Kept { x with overruns := countUp x.overruns } :=
  ⟨id, fun ⟨a, b, c, d, _⟩ => ⟨a, b, c, d, countUp_le _⟩⟩

/-- The levels of a character, the start bit first (R143). -/
theorem Receiver.Kept.character {x : Receiver} (other : x.state ≠ .brk) (bits : List Bool) (short : bits.length ≤ 10)
    (start : x.Legal → ∀ b, bits.head? = some b → b = false) : x.Kept { x with character := bits } := by
  refine ⟨fun legal => ?_, fun ⟨a, b, c, d, e⟩ => ⟨a, b, c, d, e⟩⟩
  have ⟨state, buffer, held, _, _, _, _⟩ := legal
  exact .of_unmarked state buffer held short (start legal) other (legal.unmarked other)

/-- Break detection (R147). -/
theorem Receiver.Kept.enterBreak (x : Receiver) :
    x.Kept { x with buffer := [], held := none, state := .brk, character := [] } := by
  refine ⟨fun ⟨_, _, _, _, _, _, run⟩ => ?_, fun ⟨a, b, c, d, e⟩ => ⟨a, b, c, d, e⟩⟩
  exact ⟨iff_of_false (by simp) (by simp), fun h => absurd h (by simp), fun _ h => absurd h (by simp), Nat.zero_le _,
    fun _ h => absurd h (by simp), fun _ => rfl, fun n e => ⟨rfl, (run n e).2⟩⟩

theorem Receiver.Kept.breakBit {x : Receiver} (brk : x.state = .brk) (level : Bool) : x.Kept (Receiver.breakBit level x) := by
  have counters : x.CountersFit → (Receiver.breakBit level x).CountersFit := by
    rintro ⟨a, b, c, d, e⟩
    unfold Receiver.breakBit
    split
    · split <;> exact ⟨a, b, c, d, e⟩
    · exact ⟨a, b, c, d, e⟩
  refine ⟨fun ⟨state, buffer, held, short, start, idle, run⟩ => ?_, counters⟩
  have empty : x.buffer = [] := by
    refine Classical.byContradiction (fun c => ?_)
    rw [brk] at state
    exact absurd (state.mpr c) (by simp)
  unfold Receiver.breakBit
  split
  · split
    · exact ⟨iff_of_false (by simp) (by simp [empty]), buffer, held, Nat.zero_le _, fun _ h => absurd h (by simp),
        fun h => absurd h (by simp), fun n h => absurd h (by simp)⟩
    · rename_i ends
      refine ⟨state, buffer, held, short, start, idle, fun n e => ⟨brk, ?_⟩⟩
      obtain rfl := LineRun.mark.inj e
      unfold breakEndBits at ends
      omega
  · exact ⟨state, buffer, held, short, start, idle, fun n e => absurd e (by simp)⟩

/-! ## The receive line -/

theorem State.Becomes.discardFrame {s t : State} (h : s.Becomes E t) {p : Port} (other : (t.lrx.get p).state ≠ .brk)
    (r : DiscardReason) : s.Becomes E (t.discardFrame p r) :=
  (h.step (.receiver p _ ((Receiver.Kept.hunt other).trans (.countDiscard _ r)))).offer ..

theorem State.Becomes.discardAssembly {s t : State} (h : s.Becomes E t) (p : Port) :
    s.Becomes E (t.discardAssembly p) := by
  unfold State.discardAssembly
  split
  · rename_i assembling
    exact h.discardFrame (by simp [assembling]) _
  · exact h

/-- A good frame: the assembly ends and the frame is placed, one change of the receiver. -/
theorem State.Becomes.placeFrame {s t : State} (h : s.Becomes E t) {p : Port} (other : (t.lrx.get p).state ≠ .brk)
    (f : Frame) (short : (t.lrx.get p).Legal → f.payload.length ≤ maxPayload) :
    s.Becomes E ((t.modLrx p Receiver.hunt).placeFrame p f) := by
  have hunts : s.Becomes E (t.modLrx p Receiver.hunt) := h.step (.receiver p _ (.hunt other))
  unfold State.placeFrame
  split
  · exact hunts
  · split
    · rw [State.modLrx_modLrx]
      refine h.step (.receiver p _ (.ended other (some f) (fun legal g e => ?_)))
      obtain rfl := Option.some.inj e
      exact short legal
    · exact (hunts.modLrx p _ .countOverrun).offer ..

theorem State.Becomes.assemble {s t : State} (h : s.Becomes E t) {p : Port}
    (assembling : (t.lrx.get p).state = .assembling) (c : Byte) :
    s.Becomes E (t.assemble p ((t.lrx.get p).buffer ++ [c])) := by
  have other : (t.lrx.get p).state ≠ .brk := by simp [assembling]
  unfold State.assemble
  split
  · exact h.discardFrame other _
  · rename_i length
    split
    · rename_i full
      unfold State.completeFrame
      split
      · exact h.placeFrame other _ (fun legal => legal.assembled_fits c full)
      · exact h.discardFrame other _
    · rename_i more
      exact h.step (.receiver p _ (.grow assembling c length more))

theorem State.Becomes.takeMarked {s t : State} (h : s.Becomes E t) {p : Port} (other : (t.lrx.get p).state ≠ .brk)
    (c : Byte) : s.Becomes E (t.takeMarked p c) := by
  unfold State.takeMarked
  split
  · refine (h.discardFrame other .cut).step (.receiver p _ (.begin ?_ c))
    rw [State.discardFrame, State.offer, State.modLtx_lrx, State.modLrx_lrx, PerPort.get_set_self]
    exact fun e => by cases e
  · exact h.step (.receiver p _ (.begin other c))
  · exact h.step (.receiver p _ (.begin other c))

theorem State.Becomes.takeUnmarked {s t : State} (h : s.Becomes E t) (p : Port) (c : Byte) :
    s.Becomes E (t.takeUnmarked p c) := by
  unfold State.takeUnmarked
  split
  · rename_i assembling
    exact h.assemble assembling c
  all_goals exact h

theorem State.Becomes.takeCharacter {s t : State} (h : s.Becomes E t) {p : Port} (other : (t.lrx.get p).state ≠ .brk)
    (levels : List Bool) (stop : Bool) : s.Becomes E (t.takeCharacter p levels stop) := by
  unfold State.takeCharacter
  split
  · split
    · exact h.takeMarked other _
    · exact h.takeUnmarked p _
  · exact h.discardAssembly p

/-- The first bit of a character is its start bit, at space (R143). -/
theorem Receiver.character_head {x : Receiver} {level : Bool} (inside : x.inCharacter level = true)
    (start : ∀ b, x.character.head? = some b → b = false) (b : Bool)
    (e : (x.character ++ [level]).head? = some b) : b = false := by
  cases empty : x.character with
  | nil =>
    rw [empty, List.nil_append, List.head?_cons] at e
    obtain rfl := Option.some.inj e
    rw [Receiver.inCharacter, empty] at inside
    simp at inside
    exact inside.1
  | cons a rest =>
    rw [empty, List.cons_append, List.head?_cons] at e
    exact start b (by rw [empty, List.head?_cons, e])

theorem State.Becomes.characterBit {s t : State} (h : s.Becomes E t) {p : Port} (other : (t.lrx.get p).state ≠ .brk)
    (level : Bool) : s.Becomes E (t.characterBit p level) := by
  unfold State.characterBit
  dsimp only
  split
  · exact h
  · rename_i inside
    have inside : (t.lrx.get p).inCharacter level = true := by simpa using inside
    split
    · rename_i more
      refine h.step (.receiver p _ (.character other _ ?_ ?_))
      · rw [List.length_append, List.length_singleton]
        unfold characterBits at more
        omega
      · exact fun ⟨_, _, _, _, start, _, _⟩ => Receiver.character_head inside start
    · refine (h.step (.receiver p _ (.character other [] (Nat.zero_le _)
        (fun _ _ e => absurd e (by simp))))).takeCharacter ?_ _ _
      rw [State.modLrx_lrx, PerPort.get_set_self]
      exact other

theorem State.Becomes.detectBreak {s t : State} (h : s.Becomes E t) (p : Port) : s.Becomes E (t.detectBreak p) :=
  (h.modLrx p _ .enterBreak).modPu p _

theorem State.Becomes.lineBit {s t : State} (h : s.Becomes E t) (p : Port) (level : Bool) :
    s.Becomes E (t.lineBit p level) := by
  unfold State.lineBit
  split
  · rename_i brk
    exact h.step (.receiver p _ (.breakBit brk level))
  · rename_i other
    have counted := (h.characterBit other level).modLrx p _ (fun x => .countRun x level)
    dsimp only
    split
    · exact counted
    · exact (counted.discardAssembly p).detectBreak p

theorem State.Becomes.line {s t : State} (h : s.Becomes E t) (p : Port) (levels : List Bool) :
    s.Becomes E (t.line p levels) := by
  unfold State.line
  split
  · exact h
  · exact h.each _ _ (fun _ level hu => hu.lineBit p level)

end Sys2Proof.Machine
end

section
/-! SUPPORT. The chains of changes that sessions, their teardown and the taking of a request come to. -/

namespace Sys2Proof.Machine

variable {E : State → State → Prop}

/-! ## The begin of teardown -/

theorem State.Becomes.reachExecuting {s t : State} (h : s.Becomes E t) (p : Port) :
    s.Becomes E (t.reachExecuting p) := by
  unfold State.reachExecuting
  split
  · rename_i access
    split
    · exact h.dropExecuting (.of_phase access)
    · split
      · refine (h.setOperation p _).dropExecuting (.of_phase (f := .access) ?_)
        exact (t.phase_modPu p p _).trans access
      · refine ((h.withdrawAdmission _).clearOperation p).dropExecuting (.of_phase (f := .access) ?_)
        refine (State.phase_modPu _ p p _).trans ?_
        rwa [State.phase, State.withdrawAdmission_pu]
  · rename_i untilDown
    exact h.dropExecuting (.of_phase untilDown)
  all_goals exact h

/-- The receive slot and the assembly buffer are emptied (R19). -/
theorem Receiver.Kept.emptied (x : Receiver) (c : Cause) : x.Kept (x.emptied c) := by
  unfold Receiver.emptied
  split
  · rename_i brk
    refine ⟨fun ⟨_, _, _, short, start, idle, run⟩ => ?_, fun ⟨a, b, c, d, e⟩ => ⟨a, b, c, d, e⟩⟩
    exact ⟨iff_of_false (by simp [brk.2]) (by simp), fun h => absurd h (by simp), fun _ h => absurd h (by simp), short,
      start, idle, run⟩
  · refine ⟨fun ⟨_, _, _, short, start, _, _⟩ => ?_, fun ⟨a, b, c, d, e⟩ => ⟨a, b, c, d, e⟩⟩
    refine .of_unmarked (iff_of_false (by simp) (by simp)) (fun h => absurd h (by simp))
      (fun _ h => absurd h (by simp)) short start (by simp) (fun n => ?_)
    cases run : x.run <;> simp [LineRun.hunting]

theorem State.Becomes.close {s t : State} (h : s.Becomes E t) {p : Port} (up : (t.pu.get p).session = .up)
    (c : Cause) : s.Becomes E ((t.modLrx p (fun x => x.emptied c)).modPu p (fun u => u.close c)) :=
  (h.modLrx p _ (.emptied · c)).step (.close p c up)

theorem State.Becomes.beginTeardown {s t : State} (h : s.Becomes E t) {p : Port} (up : (t.pu.get p).session = .up)
    (c : Cause) : s.Becomes E (t.beginTeardown p c) := (h.close up c).reachExecuting p

theorem PortUnit.SameView.clearReservations (u : PortUnit) : u.SameView u.clearReservations := by
  refine ⟨rfl, ?_, ?_, rfl, rfl⟩
  · rw [PortUnit.clearReservations, Option.map_map]
    rfl
  · rw [PortUnit.clearReservations, List.map_map]
    rfl

/-- A flush in CLOSING (R155). -/
theorem State.Becomes.flush {s t : State} (h : s.Becomes E t) {p : Port} (closing : (t.pu.get p).session = .closing)
    (ask : Bool) : s.Becomes E ((t.modLtx p (fun x => x.flush ask)).modPu p PortUnit.clearReservations) :=
  (h.step (.flush p _ closing (.flush _ ask))).modPu p _ .clearReservations

/-- The flush that a break orders in UP and the begin of teardown touch different parts (R114). -/
theorem State.orderFlush_beginTeardown (s : State) {p : Port} (up : (s.pu.get p).session = .up) (c : Cause) :
    (s.orderFlush p).beginTeardown p c =
      ((((s.modLrx p (fun x => x.emptied c)).modPu p (fun u => u.close c)).modLtx p (fun t => t.flush true)).modPu p
        PortUnit.clearReservations).reachExecuting p := by
  unfold State.beginTeardown State.orderFlush
  rw [up]
  refine congrArg (fun t : State => t.reachExecuting p) ?_
  exact State.modPu_comm ((s.modLtx p (fun t => t.flush true)).modLrx p (fun x => x.emptied c)) p
    PortUnit.clearReservations (fun u => u.close c)

theorem State.Becomes.takeBreak {s t : State} (h : s.Becomes E t) (p : Port) : s.Becomes E (t.takeBreak p) := by
  unfold State.takeBreak
  split
  · rename_i up
    rw [t.orderFlush_beginTeardown up]
    refine ((h.close up .brk).flush ?_ true).reachExecuting p
    rw [State.modPu_pu, PerPort.get_set_self]
    rfl
  · rename_i closing
    exact (h.flush closing _).modPu p _
  · rename_i down
    unfold State.orderFlush
    rw [down]
    exact (h.modLtx p _ (fun x => ⟨.flush x _, id⟩)).modPu p _ .clearReservations

theorem State.Becomes.takeDropOrder {s t : State} (h : s.Becomes E t) (p : Port) (waiting : Bool) :
    s.Becomes E (t.takeDropOrder p waiting) := by
  unfold State.takeDropOrder
  split
  · rename_i up
    split
    · exact (h.offer ..).beginTeardown up _
    · exact h.beginTeardown up _
  · exact h
  · exact h.modPu p _

/-! ## Open and down -/

theorem State.Becomes.decideOpen {s t : State} (h : s.Becomes E t) {p : Port} (down : (t.pu.get p).session = .down)
    (f : Frame) : s.Becomes E (t.decideOpen p f) := by
  unfold State.decideOpen
  split
  · exact h.answerDirect ..
  · split
    · exact h.answerDirect ..
    · have cleared := (h.modLrx p Receiver.clearCounters
        (fun x => ⟨id, fun _ => ⟨Nat.zero_le _, Nat.zero_le _, Nat.zero_le _, Nat.zero_le _, Nat.zero_le _⟩⟩)).modLtx p
        (fun t => { t with dropped := 0 }) (fun x => ⟨⟨id, fun _ => Nat.zero_le _⟩, id⟩)
      exact (cleared.step (.opened p _ _ down)).answerDirect ..

/-- What the end of teardown waits for (R22). -/
theorem State.workDone_iff (s : State) (p : Port) : s.workDone p = true ↔
    (s.pu.get p).stepsDue = .none ∧ s.engine.jobsOf p = [] ∧ s.engine.histories.get p = [] ∧
    (∀ x, (s.pu.get p).executing = some x → x.phase = .closing) ∧
    s.leaseUnit.claims.filter (fun c => c.owner == p) = [] ∧ s.leaseUnit.held.filter (fun a => a.owner == p) = [] := by
  cases e : (s.pu.get p).executing <;> simp [State.workDone, e, and_assoc]

theorem State.answer_engine (s : State) (p : Port) (r : Result) (fs : List Byte) :
    (s.answer p r fs).engine = s.engine := by
  unfold State.answer
  split <;> rfl

theorem State.Becomes.finishTeardown {s t : State} (h : s.Becomes E t) {p : Port}
    (closing : (t.pu.get p).session = .closing) (work : t.workDone p = true) : s.Becomes E (t.finishTeardown p) := by
  obtain ⟨steps, jobs, histories, executing, claims, held⟩ := (t.workDone_iff p).mp work
  have leave : t.MayLeave p := by
    intro e
    obtain ⟨x, hx, settling⟩ := Option.map_eq_some_iff.mp e
    have := executing x hx
    rw [settling] at this
    cases this
  have free : ((t.answer p .ok []).pu.get p).executing = none := by
    cases e : (t.pu.get p).executing with
    | none => rwa [State.answer_free e]
    | some x => rw [State.answer_executing e, State.modPu_pu, PerPort.get_set_self]
  have kept := ((CoreKept.refl t).answer p .ok []).unit p
  have sends : (((t.answer p .ok []).modLtx p Transmitter.discardOff).ltx.get p).discard = false := by
    rw [State.modLtx_ltx, PerPort.get_set_self, Transmitter.discardOff]
    split
    · rfl
    · rename_i off
      exact eq_false_of_ne_true off
  refine ((h.answer leave .ok []).modLtx p _ .discardOff).step (.down p (kept.session.trans closing) ?_ free sends)
  refine (State.workDone_iff _ p).mpr ⟨kept.stepsDue.trans steps, ?_, ?_, fun x e => ?_, ?_, ?_⟩
  · rwa [State.modLtx_engine, State.answer_engine]
  · rwa [State.modLtx_engine, State.answer_engine]
  · rw [State.modLtx_pu, free] at e
    cases e
  · rwa [State.modLtx_leaseUnit, State.answer_leaseUnit]
  · rwa [State.modLtx_leaseUnit, State.answer_leaseUnit]

end Sys2Proof.Machine
end

section
/-! SUPPORT. The chains of changes that the taking of a frame, the checks of each request and the decisions on it come to. -/

namespace Sys2Proof.Machine

/-! ## The taking of a frame (01 TABLE 3) -/

theorem State.takeable_iff (s : State) (p : Port) (f : Frame) : s.takeable p = some f ↔
    (s.lrx.get p).held = some f ∧ (s.pu.get p).session ≠ .closing ∧ (s.pu.get p).executing = none ∧
    (s.pu.get p).gather = none ∧ (s.ltx.get p).hasRoom = true := by
  unfold State.takeable
  split
  · rename_i h
    exact ⟨fun e => ⟨e, h⟩, fun e => e.1⟩
  · rename_i h
    exact ⟨fun e => absurd e (by simp), fun e => absurd e.2 h⟩

/-- A request that is refused at once leaves its reply in the place it reserved. -/
theorem State.beginRequest_answered {s : State} {p : Port} (free : (s.pu.get p).executing = none) (k : Kind) (tag : Byte)
    (r : Result) (fs : List Byte) : (s.beginRequest p k tag).answer p r fs =
      (s.emptySlot p).modLtx p (fun t => t.reserve.queueReply (replyFrame k.code tag r fs)) := by
  have e : { s.pu.get p with executing := none } = s.pu.get p := PortUnit.executing_none free
  simp [State.answer, State.beginRequest, State.modLtx, State.modPu, State.emptySlot, State.modLrx, e]

/-- A request is taken, refused on the way or decided. -/
theorem State.Becomes.takeRequest (s : State) (p : Port) (k : Kind) (body : Frame → State → State)
    (up : k ≠ .openSession → ∀ f t, s.Becomes EngineAct t → t.phase p = some .deciding → (t.pu.get p).session = .up →
      s.Becomes EngineAct (body f t))
    (down : k = .openSession ∨ k = .portStatus → ∀ f t, s.Becomes EngineAct t → (t.pu.get p).session = .down →
      s.Becomes EngineAct (body f t)) : s.Becomes EngineAct (s.takeRequest p k body) := by
  have r := State.Becomes.refl (E := EngineAct) s
  unfold State.takeRequest
  split
  · exact r
  · rename_i f taken
    obtain ⟨-, -, free, -, room⟩ := (s.takeable_iff p f).mp taken
    have refused : ∀ x fs, s.Becomes EngineAct ((s.beginRequest p k f.tag).answer p x fs) := by
      intro x fs
      rw [State.beginRequest_answered free]
      exact (r.emptySlot p).step (.transmitter p _ ((Transmitter.Kept.reserve room).trans (.queueReply ..)))
    split
    · split
      · rename_i isUp
        unfold State.takeUp
        dsimp only
        split
        · exact refused ..
        · rename_i other
          split
          · exact refused ..
          · split
            · exact refused ..
            · rename_i fresh
              split
              · exact refused ..
              · refine up other f _ (((r.emptySlot p).step (.transmitter p _ (.reserve room))).step
                  (.begin p _ free isUp rfl (eq_false_of_ne_true fresh))) ?_ ?_
                · rw [State.beginRequest, State.phase_modPu_self]
                  rfl
                · rw [State.beginRequest_pu, PerPort.get_set_self]
                  exact isUp
      · rename_i isDown
        unfold State.takeDown
        dsimp only
        split
        · exact (r.emptySlot p).answerDirect ..
        · rename_i admitted
          split
          · exact (r.emptySlot p).answerDirect ..
          · exact down (Decidable.or_iff_not_not_and_not.2 admitted) f _ (r.emptySlot p) isDown
      · exact r
    · exact r

/-- A request that needs a session. -/
theorem State.Becomes.takeSessionRequest (s : State) (p : Port) (k : Kind) (body : Frame → State → State)
    (up : ∀ f t, s.Becomes EngineAct t → t.phase p = some .deciding → (t.pu.get p).session = .up →
      s.Becomes EngineAct (body f t))
    (needs : ¬ (k = .openSession ∨ k = .portStatus) := by exact fun h => by cases h with | inl e => cases e | inr e => cases e) :
    s.Becomes EngineAct (s.takeRequest p k body) :=
  .takeRequest s p k body (fun _ => up) (fun h => absurd h needs)

/-! ## Windows and store access -/

theorem State.Becomes.decideWinOpen {E : State → State → Prop} {s t : State} (h : s.Becomes E t) {p : Port}
    (now : t.phase p = some .deciding) (up : (t.pu.get p).session = .up) (f : Frame) :
    s.Becomes E (t.decideWinOpen p f) := by
  have leave : t.MayLeave p := .of_phase now
  unfold State.decideWinOpen
  dsimp only
  split
  · exact h.answer leave ..
  · split
    · exact h.answer leave ..
    · split
      · exact h.answer leave ..
      · split
        · exact h.answer leave ..
        · split
          · exact h.answer leave ..
          · split
            · exact h.answer leave ..
            · exact (h.step (.window p _ _ up)).answer (.of_phase ((t.phase_modPu p p _).trans now)) ..

theorem State.Becomes.decideWinClose {E : State → State → Prop} {s t : State} (h : s.Becomes E t) {p : Port}
    (now : t.phase p = some .deciding) (up : (t.pu.get p).session = .up) (f : Frame) :
    s.Becomes E (t.decideWinClose p f) := by
  unfold State.decideWinClose
  dsimp only
  split
  · exact h.answer (.of_phase now) ..
  · split
    · exact h.answer (.of_phase now) ..
    · exact (h.step (.window p _ _ up)).answer (.of_phase ((t.phase_modPu p p _).trans now)) ..

theorem State.Becomes.beginAccess {E : State → State → Prop} {s t : State} (h : s.Becomes E t) {p : Port}
    (now : t.phase p = some .deciding) (o : PortOperation) (a : Access) : s.Becomes E (t.beginAccess p o a) :=
  ((h.setOperation p _).setPhase ((t.phase_modPu p p _).trans now) .access).askAdmission a

theorem State.Becomes.decideRead {E : State → State → Prop} {s t : State} (h : s.Becomes E t) {p : Port}
    (now : t.phase p = some .deciding) (f : Frame) : s.Becomes E (t.decideRead p f) := by
  unfold State.decideRead
  dsimp only
  split
  · exact h.answer (.of_phase now) ..
  · split
    · exact h.answer (.of_phase now) ..
    · split
      · exact h.answer (.of_phase now) ..
      · exact h.beginAccess now ..

theorem State.Becomes.decideWrite {E : State → State → Prop} {s t : State} (h : s.Becomes E t) {p : Port}
    (now : t.phase p = some .deciding) (f : Frame) : s.Becomes E (t.decideWrite p f) := by
  unfold State.decideWrite
  dsimp only
  split
  · exact h.answer (.of_phase now) ..
  · split
    · exact h.answer (.of_phase now) ..
    · split
      · exact h.answer (.of_phase now) ..
      · exact h.beginAccess now ..

theorem State.Becomes.decideExchangeIf {E : State → State → Prop} {s t : State} (h : s.Becomes E t) {p : Port}
    (now : t.phase p = some .deciding) (f : Frame) : s.Becomes E (t.decideExchangeIf p f) := by
  unfold State.decideExchangeIf
  dsimp only
  split
  · exact h.answer (.of_phase now) ..
  · split
    · exact h.answer (.of_phase now) ..
    · split
      · exact h.answer (.of_phase now) ..
      · split
        · exact h.answer (.of_phase now) ..
        · exact h.beginAccess now ..

/-! ## Status -/

theorem State.Becomes.takeReadings {s t : State} (h : s.Becomes EngineAct t) (rs : List Reading) (fs : List Byte) :
    s.Becomes EngineAct (State.takeReadings rs t fs).1 := by
  induction rs generalizing t fs with
  | nil => exact h
  | cons r rest ih =>
    refine ih ?_ _
    unfold State.settle
    split
    · exact h
    · exact h.expireLeases
    · exact h.expireJobs

theorem State.Becomes.readOn {s t : State} (h : s.Becomes EngineAct t) (p : Port) (late : Bool) (g : Gather)
    (rs : List Reading) : s.Becomes EngineAct (t.readOn p late g rs) := by
  unfold State.readOn
  split
  · exact (h.takeReadings ..).modPu p _
  · have read := (h.takeReadings (rs.drop g.taken) g.fields).modPu p (fun u => { u with gather := none })
    dsimp only
    split
    · exact read.answerIn ..
    · exact read.answerDirect ..
    · exact read.answerDirect ..

theorem State.Becomes.status (s : State) (p : Port) (k : Kind) (late : Bool) (rs : List Reading) :
    s.Becomes EngineAct (s.status p k late rs) := by
  have r := State.Becomes.refl (E := EngineAct) s
  unfold State.status
  split
  · split
    · exact r.readOn ..
    · exact r
  · exact .takeRequest s p k _ (fun _ _ _ h _ _ => h.readOn ..) (fun _ _ _ h _ => h.readOn ..)

/-! ## Handing over -/

/-- A request is handed over, and decided at once or left handed over. -/
theorem State.Becomes.handOver {s t : State} (h : s.Becomes EngineAct t) {p : Port} (now : t.phase p = some .deciding)
    (up : (t.pu.get p).session = .up) (late : Bool) {x : Handed} (fits : x.Fits) (decide : State → State)
    (decided : ∀ u, s.Becomes EngineAct u → u.handed p = some x → s.Becomes EngineAct (decide u)) :
    s.Becomes EngineAct (t.handOver p late x decide) := by
  have handed := h.setPhase now (.handed x) (fun y e => by
    obtain rfl := Phase.handed.inj e
    exact fits) (fun _ _ => up)
  unfold State.handOver
  split
  · exact handed
  · exact decided _ handed (State.handed_of_phase (State.phase_setPhase now _))

/-- The lease unit decides a request that stands handed over, due expiries first (R40). -/
theorem State.Becomes.atLeaseUnit {s t : State} (h : s.Becomes EngineAct t) {p : Port} {x : Handed}
    (handed : t.handed p = some x) (event : State → State)
    (decided : ∀ u, s.Becomes EngineAct u → u.handed p = some x → s.Becomes EngineAct (event u)) :
    s.Becomes EngineAct (t.atLeaseUnit event) := decided _ h.expireLeases (State.expireLeases_handed handed)

/-- So does the job engine (R101). -/
theorem State.Becomes.atEngine {s t : State} (h : s.Becomes EngineAct t) {p : Port} {x : Handed}
    (handed : t.handed p = some x) (event : State → State)
    (decided : ∀ u, s.Becomes EngineAct u → u.handed p = some x → s.Becomes EngineAct (event u)) :
    s.Becomes EngineAct (t.atEngine event) := decided _ h.expireJobs ((t.expireJobs_handed p).trans handed)

theorem State.Becomes.handToLeaseUnit {s t : State} (h : s.Becomes EngineAct t) {p : Port}
    (now : t.phase p = some .deciding) (up : (t.pu.get p).session = .up) (late : Bool) {x : Handed} (fits : x.Fits)
    (event : State → State)
    (decided : ∀ u, s.Becomes EngineAct u → u.handed p = some x → s.Becomes EngineAct (event u)) :
    s.Becomes EngineAct (t.handOver p late x (fun u => u.atLeaseUnit event)) :=
  h.handOver now up late fits _ (fun _ hu handed => hu.atLeaseUnit handed event decided)

theorem State.Becomes.handToEngine {s t : State} (h : s.Becomes EngineAct t) {p : Port}
    (now : t.phase p = some .deciding) (up : (t.pu.get p).session = .up) (late : Bool) {x : Handed} (fits : x.Fits)
    (event : State → State)
    (decided : ∀ u, s.Becomes EngineAct u → u.handed p = some x → s.Becomes EngineAct (event u)) :
    s.Becomes EngineAct (t.handOver p late x (fun u => u.atEngine event)) :=
  h.handOver now up late fits _ (fun _ hu handed => hu.atEngine handed event decided)

/-- A request that names an id, 0 being none. -/
theorem State.Becomes.control {s t : State} (h : s.Becomes EngineAct t) {p : Port} (now : t.phase p = some .deciding)
    (up : (t.pu.get p).session = .up) (late : Bool) (f : Frame) (x : Nat → Handed) (fits : ∀ id, (x id).Fits)
    (decide : Nat → State → State)
    (decided : ∀ id u, s.Becomes EngineAct u → u.handed p = some (x id) → s.Becomes EngineAct (decide id u)) :
    s.Becomes EngineAct (t.control p late f x decide) := by
  unfold State.control
  split
  · exact h.answer (.of_phase now) ..
  · exact h.handOver now up late (fits _) _ (decided _)

theorem badLeaseFields_eq_false {index length life wait : Nat} (h : badLeaseFields index length life wait = false) :
    1 ≤ life ∧ life ≤ maxMilliseconds ∧ wait ≤ maxMilliseconds := by
  have := of_decide_eq_false h
  omega

theorem badJobFields_eq_false {length limit : Nat} (h : badJobFields length limit = false) :
    1 ≤ length ∧ limit ≤ maxMilliseconds := by
  have := of_decide_eq_false h
  omega

theorem State.Becomes.checkLease {s t : State} (h : s.Becomes EngineAct t) {p : Port}
    (now : t.phase p = some .deciding) (up : (t.pu.get p).session = .up) (late : Bool) (f : Frame) :
    s.Becomes EngineAct (t.checkLease p late f) := by
  have leave : t.MayLeave p := .of_phase now
  unfold State.checkLease
  dsimp only
  split
  · exact h.answer leave ..
  · split
    · exact h.answer leave ..
    · rename_i good
      split
      · exact h.answer leave ..
      · split
        · exact h.answer leave ..
        · split
          · exact h.answer leave ..
          · exact h.handToLeaseUnit now up late (by exact badLeaseFields_eq_false (eq_false_of_ne_true good)) _
              (fun _ hu handed => hu.decideLease handed)

theorem State.Becomes.handSubmission {s t : State} (h : s.Becomes EngineAct t) {p : Port}
    (now : t.phase p = some .deciding) (up : (t.pu.get p).session = .up) (late : Bool) (w : Submission)
    {length limit : Nat} (good : ¬ badJobFields length limit = true) :
    s.Becomes EngineAct (t.handSubmission p late w length limit) :=
  h.handToEngine now up late (by exact badJobFields_eq_false (eq_false_of_ne_true good)) _
    (fun _ hu handed => hu.act (.submit p w length limit handed))

theorem State.Becomes.checkCopy {s t : State} (h : s.Becomes EngineAct t) {p : Port}
    (now : t.phase p = some .deciding) (up : (t.pu.get p).session = .up) (late : Bool) (f : Frame) :
    s.Becomes EngineAct (t.checkCopy p late f) := by
  have leave : t.MayLeave p := .of_phase now
  unfold State.checkCopy
  dsimp only
  split
  · exact h.answer leave ..
  · rename_i good
    split
    · exact h.answer leave ..
    · split
      · exact h.answer leave ..
      · split
        · exact h.answer leave ..
        · split
          · exact h.answer leave ..
          · exact h.handSubmission now up late _ good

theorem State.Becomes.checkFill {s t : State} (h : s.Becomes EngineAct t) {p : Port}
    (now : t.phase p = some .deciding) (up : (t.pu.get p).session = .up) (late : Bool) (f : Frame) :
    s.Becomes EngineAct (t.checkFill p late f) := by
  unfold State.checkFill
  dsimp only
  split
  · exact h.answer (.of_phase now) ..
  · rename_i good
    split
    · exact h.answer (.of_phase now) ..
    · split
      · exact h.answer (.of_phase now) ..
      · exact h.handSubmission now up late _ good

theorem State.Becomes.checkSum {s t : State} (h : s.Becomes EngineAct t) {p : Port}
    (now : t.phase p = some .deciding) (up : (t.pu.get p).session = .up) (late : Bool) (f : Frame) :
    s.Becomes EngineAct (t.checkSum p late f) := by
  unfold State.checkSum
  dsimp only
  split
  · exact h.answer (.of_phase now) ..
  · rename_i good
    split
    · exact h.answer (.of_phase now) ..
    · split
      · exact h.answer (.of_phase now) ..
      · exact h.handSubmission now up late _ good

/-! ## Decisions of the job engine on requests -/

theorem State.Becomes.decideCancel {s t : State} (h : s.Becomes EngineAct t) {p : Port} {id : Nat}
    (handed : t.handed p = some (.jobCancel id)) : s.Becomes EngineAct (t.decideCancel p id) := by
  unfold State.decideCancel
  split
  · exact h.answer (.of_handed handed) ..
  · rename_i found
    exact h.act (.cancel p _ _ ⟨_, handed⟩ (JobEngine.mem_of_findOf found).1)

theorem State.Becomes.decideForceCancel {s t : State} (h : s.Becomes EngineAct t) {p : Port} {id : Nat}
    (handed : t.handed p = some (.forceCancel id)) : s.Becomes EngineAct (t.decideForceCancel p id) := by
  unfold State.decideForceCancel
  split
  · exact h.answer (.of_handed handed) ..
  · rename_i found
    exact h.act (.cancel p _ _ ⟨_, handed⟩ (JobEngine.mem_of_find found).1)

theorem State.Becomes.decideQuery {E : State → State → Prop} {s t : State} (h : s.Becomes E t) {p : Port} {id : Nat}
    (handed : t.handed p = some (.jobQuery id)) : s.Becomes E (t.decideQuery p id) := by
  unfold State.decideQuery
  split
  · exact h.answer (.of_handed handed) ..
  · split
    · exact h.answer (.of_handed handed) ..
    · exact h.answer (.of_handed handed) ..

/-! ## The supervisor -/

theorem State.Becomes.dropTarget {E : State → State → Prop} {s t : State} (h : s.Becomes E t) {p : Port}
    (now : t.phase p = some .deciding) (late : Bool) (q : Port) : s.Becomes E (t.dropTarget p late q) := by
  have cleared : s.Becomes E (t.clearDownReports q) := h.modPu q _
  have still : (t.clearDownReports q).phase p = some .deciding := (t.phase_modPu q p _).trans now
  unfold State.dropTarget
  dsimp only
  split
  · exact cleared.answer (.of_phase still) ..
  · exact cleared.setPhase still _
  · have told : s.Becomes E (if late = true then t.clearDownReports q else (t.clearDownReports q).offer q .sessionEnded []) ∧
        (if late = true then t.clearDownReports q else (t.clearDownReports q).offer q .sessionEnded []).phase p =
          some .deciding := by
      split
      · exact ⟨cleared, still⟩
      · exact ⟨cleared.offer .., still⟩
    exact (told.1.modPu q _).setPhase ((State.phase_modPu _ q p _).trans told.2) _

end Sys2Proof.Machine
end

section
/-! SUPPORT. Time, turns and reset, and with them every command and every step as a chain of changes. -/

namespace Sys2Proof.Machine

/-! ## Time (R5) -/

theorem State.Becomes.setDue {E : State → State → Prop} {s t : State} (h : s.Becomes E t) (x : TimeBase)
    (divider : x.divider = t.time.divider) (due : x.leaseDue = false ∨ x.engineDue = false) :
    s.Becomes E (t.setTime x) := h.step (.time x (fun k => divider ▸ k) (fun _ => due))

theorem State.leaseBoundary_time (s : State) : s.leaseBoundary.time = s.time :=
  (CoreKept.refl s).expireLeases.time

theorem State.engineBoundary_time (s : State) : s.engineBoundary.time = s.time :=
  (CoreKept.refl s).expireJobs.time

theorem State.leaseCatchUp_time (s : State) : s.leaseCatchUp.time = { s.time with leaseDue := false } := by
  unfold State.leaseCatchUp
  split
  · rfl
  · rename_i off
    rw [Bool.not_eq_true] at off
    rw [← off]

theorem State.engineCatchUp_time (s : State) : s.engineCatchUp.time = { s.time with engineDue := false } := by
  unfold State.engineCatchUp
  split
  · rfl
  · rename_i off
    rw [Bool.not_eq_true] at off
    rw [← off]

theorem State.catchUp_time (s : State) : s.catchUp.time = { s.time with leaseDue := false, engineDue := false } := by
  calc s.catchUp.time
      = s.leaseCatchUp.engineCatchUp.time := (CoreKept.refl _).expireLeases.expireJobs.time
    _ = { s.time with leaseDue := false, engineDue := false } := by
        rw [State.engineCatchUp_time, State.leaseCatchUp_time]

theorem State.Becomes.leaseBoundary {s t : State} (h : s.Becomes EngineAct t) : s.Becomes EngineAct t.leaseBoundary :=
  h.expireLeases.step .lowerTimers

theorem State.Becomes.engineBoundary {s t : State} (h : s.Becomes EngineAct t) :
    s.Becomes EngineAct t.engineBoundary := h.expireJobs.act (.lowerTimers _)

theorem State.Becomes.leaseCatchUp {s t : State} (h : s.Becomes EngineAct t) : s.Becomes EngineAct t.leaseCatchUp := by
  unfold State.leaseCatchUp
  split
  · exact h.leaseBoundary.setDue _ (by rw [State.leaseBoundary_time]) (.inl rfl)
  · exact h

theorem State.Becomes.engineCatchUp {s t : State} (h : s.Becomes EngineAct t) :
    s.Becomes EngineAct t.engineCatchUp := by
  unfold State.engineCatchUp
  split
  · exact h.engineBoundary.setDue _ (by rw [State.engineBoundary_time]) (.inr rfl)
  · exact h

theorem State.Becomes.catchUp {s t : State} (h : s.Becomes EngineAct t) : s.Becomes EngineAct t.catchUp :=
  h.leaseCatchUp.engineCatchUp.expireLeases.expireJobs

theorem State.markBoundary_time (s : State) :
    s.markBoundary.time = { divider := 0, leaseDue := false, engineDue := false } := by
  rw [State.markBoundary, State.setTime_time, State.catchUp_time]

theorem State.Becomes.markBoundary {s t : State} (h : s.Becomes EngineAct t) : s.Becomes EngineAct t.markBoundary :=
  h.catchUp.step (.time _ (fun _ => show 0 < boundaryCycles by decide) id)

theorem State.Becomes.boundary {s t : State} (h : s.Becomes EngineAct t) (b : BoundaryTaker) :
    s.Becomes EngineAct (t.boundary b) := by
  cases b with
  | both => exact h.markBoundary.leaseBoundary.engineBoundary
  | leaseUnit =>
    unfold State.boundary
    dsimp only
    split
    · exact h.leaseCatchUp
    · exact (h.markBoundary.setDue { t.markBoundary.time with engineDue := true } rfl
        (.inl (by rw [State.markBoundary_time]))).leaseBoundary
  | jobEngine =>
    unfold State.boundary
    dsimp only
    split
    · exact h.engineCatchUp
    · exact (h.markBoundary.setDue { t.markBoundary.time with leaseDue := true } rfl
        (.inr (by rw [State.markBoundary_time]))).engineBoundary

theorem State.Becomes.idleTick {s t : State} (h : s.Becomes EngineAct t) : s.Becomes EngineAct t.idleTick := by
  unfold State.idleTick
  split
  · have ticked : s.Becomes EngineAct t.catchUp.tickLines :=
      h.catchUp.each _ _ (fun _ _ hu => hu.modLtx _ _ (fun x => .tick x _))
    unfold State.tickDivider
    split
    · exact ticked.boundary _
    · rename_i more
      exact ticked.step (.time _ (fun _ => Nat.lt_of_not_le more) id)
  · exact h

/-! ## Admissions, turns and reset -/

theorem State.Becomes.takeAdmission {s t : State} (h : s.Becomes EngineAct t) (r : Requester) (late : Bool) :
    s.Becomes EngineAct (t.takeAdmission r late) := by
  unfold State.takeAdmission
  dsimp only
  split
  · exact h
  · split
    · exact h
    · exact (h.expireLeases.modMail _ _).decideAdmission ..

theorem State.Becomes.admission {s t : State} (h : s.Becomes EngineAct t) (r : Requester) (late : Bool) :
    s.Becomes EngineAct (t.admission r late) := by
  unfold State.admission
  split
  · split
    · exact (h.modMail _ _).portDecision ..
    · exact h.takeAdmission ..
  · split
    · exact h.takeEngineDecision
    · exact h.takeAdmission ..

theorem State.Becomes.takeWithdrawal {s t : State} (h : s.Becomes EngineAct t) (r : Requester) (late : Bool) :
    s.Becomes EngineAct (t.takeWithdrawal r late) := by
  have told := h.modMail r (fun x => { x with withdrawal := false })
  unfold State.takeWithdrawal
  dsimp only
  split
  · exact told.setHeld (fun xs => xs.filter (fun a => a.requester != r))
  · split
    · exact told.endClaim late r
    · exact told

theorem State.Becomes.endTurn {s t : State} (h : s.Becomes EngineAct t) (r : Requester) {x : Turn}
    (inStore : x.inStore = true) : s.Becomes EngineAct (t.endTurn r x) := by
  have written := (h.step (.store _ (fun wf => t.wf_writeTurn x wf inStore))).setArbiter t.arbiter.selectNext
  cases r with
  | port p => exact written.portTurnEnd p _
  | engine => exact written.act (.chunkEnd _ _)

theorem State.interruptedCells_inStore (s : State) : ∀ c ∈ s.interruptedCells, c.1 < storeSize := by
  unfold State.interruptedCells
  split
  · exact fun c h => absurd h List.not_mem_nil
  · intro c h
    obtain ⟨-, kept⟩ := List.mem_filter.mp h
    exact of_decide_eq_true (Bool.and_eq_true_iff.mp kept).1

/-- The state that an outcome answers, taken out of the outcome. -/
theorem State.Becomes.next {E : State → State → Prop} {s t u : State} (h : s.Becomes E t)
    (e : (.next t : Host.Outcome State Fault Refusal) = .next u) : s.Becomes E u := by
  obtain rfl := Host.Outcome.next.inj e
  exact h

/-- R62. -/
theorem State.Becomes.turnEnd {s t : State} (h : execTurnEnd s = .next t) : s.Becomes EngineAct t := by
  have r := State.Becomes.refl (E := EngineAct) s
  unfold execTurnEnd at h
  split at h
  · exact r.next h
  · split at h
    · rename_i inStore
      exact (r.endTurn _ inStore).next h
    · cases h

/-- Every command is a chain of changes. -/
theorem exec_becomes {c : Instr} {s t : State} (h : exec c s = .next t) : s.Becomes EngineAct t := by
  have r := State.Becomes.refl (E := EngineAct) s
  cases c with
  | openSession p =>
    exact .next (.takeRequest s p _ _ (fun other => absurd rfl other) (fun _ f _ hu down => hu.decideOpen down f)) h
  | close p =>
    refine .next (.takeSessionRequest s p _ _ (fun _ u hu now up => ?_)) h
    exact (hu.setPhase now .closing).beginTeardown ((State.session_modPu ..).trans up) _
  | portStatus p late => exact .next (.status s p _ late _) h
  | winOpen p => exact .next (.takeSessionRequest s p _ _ (fun f _ hu now up => hu.decideWinOpen now up f)) h
  | winClose p => exact .next (.takeSessionRequest s p _ _ (fun f _ hu now up => hu.decideWinClose now up f)) h
  | winList p => exact .next (.takeSessionRequest s p _ _ (fun _ _ hu now _ => hu.answer (.of_phase now) ..)) h
  | read p => exact .next (.takeSessionRequest s p _ _ (fun f _ hu now _ => hu.decideRead now f)) h
  | write p => exact .next (.takeSessionRequest s p _ _ (fun f _ hu now _ => hu.decideWrite now f)) h
  | exchangeIf p => exact .next (.takeSessionRequest s p _ _ (fun f _ hu now _ => hu.decideExchangeIf now f)) h
  | lease p late =>
    refine .next ?_ h
    split
    · rename_i handed
      exact r.atLeaseUnit handed _ (fun _ hu k => hu.decideLease k)
    · exact .takeSessionRequest s p _ _ (fun f _ hu now up => hu.checkLease now up late f)
  | renew p late =>
    refine .next ?_ h
    split
    · rename_i handed
      exact r.atLeaseUnit handed _ (fun _ hu k => hu.decideRenew k)
    · refine .takeSessionRequest s p _ _ (fun f u hu now up => ?_)
      dsimp only
      split
      · exact hu.answer (.of_phase now) ..
      · rename_i good
        refine hu.handToLeaseUnit now up late ?_ _ (fun _ hv k => hv.decideRenew k)
        show 1 ≤ _ ∧ _
        omega
  | release p late =>
    refine .next ?_ h
    split
    · rename_i handed
      exact r.atLeaseUnit handed _ (fun _ hu k => hu.decideRelease k)
    · refine .takeSessionRequest s p _ _ (fun f u hu now up => ?_)
      dsimp only
      split
      · exact hu.answer (.of_phase now) ..
      · exact hu.handToLeaseUnit now up late (by exact trivial) _ (fun _ hv k => hv.decideRelease k)
  | withdraw p late =>
    refine .next ?_ h
    split
    · rename_i handed
      exact r.atLeaseUnit handed _ (fun _ hu k => hu.decideWithdraw k)
    · exact .takeSessionRequest s p _ _ (fun f u hu now up =>
        hu.handToLeaseUnit now up late (by exact trivial) _ (fun _ hv k => hv.decideWithdraw k))
  | leaseList p late =>
    refine .next ?_ h
    split
    · rename_i handed
      exact r.atLeaseUnit handed _ (fun _ hu k => hu.answer (.of_handed k) ..)
    · exact .takeSessionRequest s p _ _ (fun f u hu now up =>
        hu.handToLeaseUnit now up late (by exact trivial) _ (fun _ hv k => hv.answer (.of_handed k) ..))
  | jobCopy p late =>
    refine .next ?_ h
    split
    · rename_i handed
      exact r.atEngine handed _ (fun _ hu k => hu.act (.submit p _ _ _ k))
    · exact .takeSessionRequest s p _ _ (fun f _ hu now up => hu.checkCopy now up late f)
  | jobFill p late =>
    refine .next ?_ h
    split
    · rename_i handed
      exact r.atEngine handed _ (fun _ hu k => hu.act (.submit p _ _ _ k))
    · exact .takeSessionRequest s p _ _ (fun f _ hu now up => hu.checkFill now up late f)
  | jobSum p late =>
    refine .next ?_ h
    split
    · rename_i handed
      exact r.atEngine handed _ (fun _ hu k => hu.act (.submit p _ _ _ k))
    · exact .takeSessionRequest s p _ _ (fun f _ hu now up => hu.checkSum now up late f)
  | jobPause p late =>
    refine .next ?_ h
    split
    · rename_i handed
      exact r.atEngine handed _ (fun _ hu k => hu.act (.pause p _ k))
    · exact .takeSessionRequest s p _ _ (fun f _ hu now up => hu.control now up late f _ (fun _ => by exact trivial) _
        (fun _ _ hv k => hv.atEngine k _ (fun _ hw k => hw.act (.pause p _ k))))
  | jobResume p late =>
    refine .next ?_ h
    split
    · rename_i handed
      exact r.atEngine handed _ (fun _ hu k => hu.act (.resume p _ k))
    · exact .takeSessionRequest s p _ _ (fun f _ hu now up => hu.control now up late f _ (fun _ => by exact trivial) _
        (fun _ _ hv k => hv.atEngine k _ (fun _ hw k => hw.act (.resume p _ k))))
  | jobCancel p late =>
    refine .next ?_ h
    split
    · rename_i handed
      exact r.atEngine handed _ (fun _ hu k => hu.decideCancel k)
    · exact .takeSessionRequest s p _ _ (fun f _ hu now up => hu.control now up late f _ (fun _ => by exact trivial) _
        (fun _ _ hv k => hv.atEngine k _ (fun _ hw k => hw.decideCancel k)))
  | jobQuery p late =>
    refine .next ?_ h
    split
    · rename_i handed
      exact r.atEngine handed _ (fun _ hu k => hu.decideQuery k)
    · exact .takeSessionRequest s p _ _ (fun f _ hu now up => hu.control now up late f _ (fun _ => by exact trivial) _
        (fun _ _ hv k => hv.atEngine k _ (fun _ hw k => hw.decideQuery k)))
  | devStatus p late => exact .next (.status s p _ late _) h
  | forceRelease p late =>
    refine .next ?_ h
    split
    · rename_i handed
      exact r.atLeaseUnit handed _ (fun _ hu k => hu.decideForceRelease k)
    · exact .takeSessionRequest s p _ _ (fun f _ hu now up => hu.control now up late f _ (fun _ => by exact trivial) _
        (fun _ _ hv k => hv.atLeaseUnit k _ (fun _ hw k => hw.decideForceRelease k)))
  | forceCancel p late =>
    refine .next ?_ h
    split
    · rename_i handed
      exact r.atEngine handed _ (fun _ hu k => hu.decideForceCancel k)
    · exact .takeSessionRequest s p _ _ (fun f _ hu now up => hu.control now up late f _ (fun _ => by exact trivial) _
        (fun _ _ hv k => hv.atEngine k _ (fun _ hw k => hw.decideForceCancel k)))
  | portDrop p late =>
    refine .next (.takeSessionRequest s p _ _ (fun f u hu now up => ?_)) h
    split
    · exact hu.answer (.of_phase now) ..
    · exact hu.dropTarget now late _
  | unknownKind p =>
    refine .next ?_ h
    split
    · exact r
    · split
      · exact r
      · exact (r.emptySlot p).answerDirect ..
  | frameComplete p idle char => exact .next (r.line p _) h
  | lengthDiscard p idle char => exact .next (r.line p _) h
  | cutDiscard p idle char => exact .next (r.line p _) h
  | framingDiscard p idle char => exact .next (r.line p _) h
  | assemblyBegins p idle char => exact .next (r.line p _) h
  | characterAppended p idle char => exact .next (r.line p _) h
  | lineBreak p bits => exact .next (r.line p _) h
  | breakEnd p bits => exact .next (r.line p _) h
  | breakReport p =>
    refine .next ?_ h
    split
    · exact r
    · exact (r.modPu p _).takeBreak p
  | dropOrder p =>
    refine .next ?_ h
    split
    · exact r
    · split
      · exact r
      · exact (r.modPu p _).takeDropOrder p _
  | teardownWaiterStep p late =>
    refine .next ?_ h
    split
    · exact r.expireLeases.waiterStep p late
    · exact r
  | teardownLeaseStep p =>
    refine .next ?_ h
    split
    · rename_i due
      exact r.expireLeases.leaseStep p
        ((congrArg StepsDue.waiter ((State.CoreKept.refl s).expireLeases.unit p).stepsDue).trans due.2)
    · exact r
  | teardownJobStep p =>
    refine .next ?_ h
    split
    · exact (r.expireJobs.step (.engineTaken p (fun d => { d with job := false }) (fun _ => rfl) (fun _ => rfl) rfl)).act
        (.jobStep _ p)
    · exact r
  | teardownHistoryStep p =>
    refine .next ?_ h
    split
    · exact (r.step (.engineTaken p (fun d => { d with history := false }) (fun _ => rfl) (fun _ => rfl) rfl)).act
        (.history _ p)
    · exact r
  | sessionDown p =>
    refine .next ?_ h
    split
    · rename_i ends
      exact r.finishTeardown ends.1 ends.2
    · exact r
  | downReport p =>
    refine .next ?_ h
    split
    · exact r
    · exact (r.modPu p _).answerIn ..
  | msBoundary b =>
    refine .next ?_ h
    split
    · exact r.boundary b
    · exact r
  | leaseLapse id => exact .next (r.takeLapse id) h
  | waitExpiry p tag => exact .next (r.takeWaitExpiry p tag) h
  | blockLimitExpiry id => exact .next (r.act (.blockLimit s id)) h
  | admissionRequest q late => exact .next (r.admission q late) h
  | admissionWithdrawal q late =>
    refine .next ?_ h
    split
    · exact r.expireLeases.takeWithdrawal q late
    · exact r
  | claimEnd q late =>
    refine .next ?_ h
    split
    · exact (r.expireLeases.modMail _ _).endClaim late q
    · exact r
  | turnRequest q =>
    refine .next ?_ h
    split
    · exact r
    · exact (r.modMail _ _).setArbiter _
  | turnEnd => exact .turnEnd h
  | leaseRemovalReport =>
    refine .next ?_ h
    split
    · exact r.expireJobs.act (.report _ _ _)
    · exact r
  | frameSent p => exact .next (r.modLtx p _ .frameSent) h
  | powerOn =>
    refine .next (r.step (.reset (fun p => ⟨true, ?_⟩) rfl rfl rfl rfl rfl (fun _ => rfl))) h
    exact PerPort.get_const ..
  | resetAssert lowCycles =>
    refine .next ?_ h
    split
    · exact r
    · exact r.step (.reset (fun p => ⟨true, PerPort.get_const ..⟩) rfl rfl rfl rfl rfl
        (fun wf => Memory.wf_writeAll wf s.interruptedCells_inStore))
  | resetRelease rate supv rx =>
    refine .next ?_ h
    split
    · exact r
    · refine r.step (.reset (fun p => ?_) rfl rfl rfl rfl rfl id)
      cases p
      · exact ⟨rx.rx0, rfl⟩
      · exact ⟨rx.rx1, rfl⟩
      · exact ⟨rx.rx2, rfl⟩
      · exact ⟨rx.rx3, rfl⟩

/-- Every step is a chain of changes. -/
theorem step_becomes {s t : State} (h : step s = .next t) : s.Becomes EngineAct t := by
  have r := State.Becomes.refl (E := EngineAct) s
  unfold step at h
  split at h
  · exact r.idleTick.next h
  · exact (r.setPending _).trans (exec_becomes h)

/-- What every change and every act of the engine keeps, every step keeps. -/
theorem stepKeeps_of_acts {P : State → Prop} (change : ∀ s t, P s → Change s t → P t)
    (act : ∀ s t, P s → EngineAct s t → P t) : StepKeeps P := by
  intro s t hs h
  have chain := step_becomes h
  clear h
  induction chain with
  | stay => exact hs
  | tail _ c ih =>
    rcases c with c | a
    · exact change _ _ ih c
    · exact act _ _ ih a

/-- So with the engine's acts taken apart into changes of its tables. -/
theorem stepKeeps_of_changes {P : State → Prop} (change : ∀ s t, P s → Change s t → P t)
    (engine : ∀ s t, P s → EngineChange s t → P t) : StepKeeps P := by
  intro s t hs h
  have chain := (step_becomes h).fine
  clear h
  induction chain with
  | stay => exact hs
  | tail _ c ih =>
    rcases c with c | a
    · exact change _ _ ih c
    · exact engine _ _ ih a

end Sys2Proof.Machine
end

section
/-! SUPPORT. The invariants of the store, the transmit queues, the receivers, the counters, the divider and the timers, change by
change. -/

namespace Sys2Proof.Machine

/-- Settles O52: only the end of a turn inside the store and reset change the store, and both keep it sorted and inside
its addresses. -/
theorem storeStaysCanonical : Obligations.StoreStaysCanonical := by
  unfold Obligations.StoreStaysCanonical
  refine stepKeeps_of_changes (fun s t wf c => ?_) (fun s t wf c => ?_)
  · unfold State.StoreCanonical at *
    cases c with
    | view same => rwa [same.store]
    | store m keeps => exact keeps wf
    | reset _ _ _ _ _ _ keeps => exact keeps wf
    | _ => exact wf
  · cases c <;> exact wf

/-! ## The transmit queues -/

theorem State.QueuesFit.set {s t : State} (h : s.QueuesFit) {p : Port} {x : Transmitter}
    (ltx : t.ltx = s.ltx.set p x) (bounded : (s.ltx.get p).Bounded x) : t.QueuesFit := by
  intro q
  rw [ltx]
  by_cases e : q = p
  · subst e
    rw [PerPort.get_set_self]
    exact bounded.fits (h q)
  · rw [PerPort.get_set_ne _ _ e]
    exact h q

theorem Change.queuesFit {s t : State} (h : s.QueuesFit) (c : Change s t) : t.QueuesFit := by
  cases c with
  | view same => exact fun q => same.ltx ▸ h q
  | transmitter p f kept => exact h.set rfl kept.toBounded
  | flush p f closing bounded => exact h.set rfl bounded
  | reset _ ltx _ _ _ _ _ =>
    intro q
    rw [ltx, PerPort.get_const]
    decide
  | _ => exact h

/-- A session that is not CLOSING afterwards was not CLOSING before, but where teardown ends. -/
theorem State.DiscardWhileClosing.of_session {s t : State} (h : s.DiscardWhileClosing) (ltx : t.ltx = s.ltx)
    (session : ∀ q, (s.pu.get q).session = .closing → (s.ltx.get q).discard = true → (t.pu.get q).session = .closing) :
    t.DiscardWhileClosing := by
  intro q discard
  rw [ltx] at discard
  exact session q (h q discard) discard

theorem State.DiscardWhileClosing.set {s t : State} (h : s.DiscardWhileClosing) {p : Port} {u : PortUnit}
    (ltx : t.ltx = s.ltx) (pu : t.pu = s.pu.set p u)
    (closing : (s.pu.get p).session = .closing → (s.ltx.get p).discard = true → u.session = .closing) :
    t.DiscardWhileClosing := by
  refine h.of_session ltx (fun q e discard => ?_)
  rw [pu]
  by_cases c : q = p
  · subst c
    rw [PerPort.get_set_self]
    exact closing e discard
  · rwa [PerPort.get_set_ne _ _ c]

theorem Change.discardWhileClosing {s t : State} (h : s.DiscardWhileClosing) (c : Change s t) :
    t.DiscardWhileClosing := by
  cases c with
  | view same => exact h.of_session same.ltx (fun q e _ => (same.unit q).session.trans e)
  | transmitter p f kept =>
    intro q discard
    rw [State.modLtx_ltx] at discard
    by_cases c : q = p
    · subst c
      rw [PerPort.get_set_self] at discard
      exact h q (kept.discard discard)
    · rw [PerPort.get_set_ne _ _ c] at discard
      exact h q discard
  | flush p f closing bounded =>
    intro q discard
    by_cases c : q = p
    · subst c
      exact closing
    · rw [State.modLtx_ltx, PerPort.get_set_ne _ _ c] at discard
      exact h q discard
  | begin p x => exact h.set rfl rfl (fun e _ => e)
  | phase p x => exact h.set rfl rfl (fun e _ => e)
  | done p => exact h.set rfl rfl (fun e _ => e)
  | window p => exact h.set rfl rfl (fun e _ => e)
  | opened p m label down =>
    refine h.set rfl rfl (fun e _ => ?_)
    rw [down] at e
    cases e
  | close p c up => exact h.set rfl rfl (fun _ _ => rfl)
  | down p closing work free sends =>
    refine h.set rfl rfl (fun _ discard => ?_)
    rw [sends] at discard
    cases discard
  | waiterTaken p => exact h.set rfl rfl (fun e _ => e)
  | leaseTaken p => exact h.set rfl rfl (fun e _ => e)
  | engineTaken p => exact h.set rfl rfl (fun e _ => e)
  | dropWaiter p tag => exact h.set rfl rfl (fun e _ => e)
  | waitersLeave p => exact h.set rfl rfl (fun e _ => e)
  | joinQueue p => exact h.set rfl rfl (fun e _ => e)
  | enterSettling p => exact h.set rfl rfl (fun e _ => e)
  | grantWaiter older rest w => exact h.set rfl rfl (fun e _ => e)
  | reset _ ltx _ _ _ _ _ =>
    intro q discard
    rw [ltx, PerPort.get_const] at discard
    cases discard
  | _ => exact h

/-- Settles O53: a frame is queued only where there is room, a reply in the place it reserved; discard mode is turned on in
CLOSING and off before it ends. -/
theorem transmitQueuesNeverOverfill : Obligations.TransmitQueuesNeverOverfill := by
  unfold Obligations.TransmitQueuesNeverOverfill
  refine stepKeeps_of_changes (fun s t ⟨fit, closing⟩ c => ⟨c.queuesFit fit, c.discardWhileClosing closing⟩)
    (fun s t h c => ?_)
  cases c <;> exact h

/-! ## Receivers, counters and the divider -/

theorem Receiver.released_legal (level : Bool) : (Receiver.released level).Legal := by
  refine .of_unmarked (iff_of_false ?_ ?_) ?_ ?_ ?_ ?_ ?_ (fun n => ?_)
  case refine_8 => cases level <;> simp [Receiver.released]
  all_goals simp [Receiver.released, Receiver.reset]

theorem Change.receiversLegal {s t : State} (h : s.ReceiversLegal) (c : Change s t) : t.ReceiversLegal := by
  cases c with
  | view same => exact fun q => same.lrx ▸ h q
  | receiver p f kept =>
    intro q
    rw [State.modLrx_lrx]
    by_cases e : q = p
    · subst e
      rw [PerPort.get_set_self]
      exact kept.legal (h q)
    · rw [PerPort.get_set_ne _ _ e]
      exact h q
  | reset lrx _ _ _ _ _ _ =>
    intro q
    obtain ⟨level, e⟩ := lrx q
    rw [e]
    exact Receiver.released_legal level
  | _ => exact h

theorem State.countersFit_iff (s : State) :
    s.CountersFit ↔ ∀ p, (s.lrx.get p).CountersFit ∧ (s.ltx.get p).dropped ≤ maxCount :=
  forall_congr' fun _ => ⟨fun ⟨a, b, c, d, e, f⟩ => ⟨⟨a, b, c, d, e⟩, f⟩, fun ⟨⟨a, b, c, d, e⟩, f⟩ => ⟨a, b, c, d, e, f⟩⟩

theorem State.CountersFit.setDropped {s t : State} (h : s.CountersFit) {p : Port} {x : Transmitter} (lrx : t.lrx = s.lrx)
    (ltx : t.ltx = s.ltx.set p x) (bounded : (s.ltx.get p).Bounded x) : t.CountersFit := by
  rw [State.countersFit_iff] at *
  intro q
  refine ⟨lrx ▸ (h q).1, ?_⟩
  rw [ltx]
  by_cases e : q = p
  · subst e
    rw [PerPort.get_set_self]
    exact bounded.dropped (h q).2
  · rw [PerPort.get_set_ne _ _ e]
    exact (h q).2

theorem Change.countersFit {s t : State} (h : s.CountersFit) (c : Change s t) : t.CountersFit := by
  cases c with
  | view same =>
    intro q
    rw [same.lrx, same.ltx]
    exact h q
  | receiver p f kept =>
    rw [State.countersFit_iff] at *
    intro q
    refine ⟨?_, (h q).2⟩
    rw [State.modLrx_lrx]
    by_cases e : q = p
    · subst e
      rw [PerPort.get_set_self]
      exact kept.counters (h q).1
    · rw [PerPort.get_set_ne _ _ e]
      exact (h q).1
  | transmitter p f kept => exact h.setDropped rfl rfl kept.toBounded
  | flush p f closing bounded => exact h.setDropped rfl rfl bounded
  | reset lrx ltx _ _ _ _ _ =>
    intro q
    obtain ⟨level, e⟩ := lrx q
    rw [e, ltx, PerPort.get_const]
    exact ⟨Nat.zero_le _, Nat.zero_le _, Nat.zero_le _, Nat.zero_le _, Nat.zero_le _, Nat.zero_le _⟩
  | _ => exact h

theorem Change.dividerInRange {s t : State} (h : s.DividerInRange) (c : Change s t) : t.DividerInRange := by
  cases c with
  | view same =>
    unfold State.DividerInRange
    rw [same.time]
    exact h
  | time x divider due => exact ⟨divider h.1, due h.2⟩
  | reset _ _ _ _ _ time _ =>
    unfold State.DividerInRange
    rw [time]
    exact ⟨by decide, .inl rfl⟩
  | _ => exact h

/-! ## Requests handed over -/

/-- A change of one port unit lets a request stand handed over only at that port. -/
theorem State.handed_of_set {s t : State} {p q : Port} {u : PortUnit} (pu : t.pu = s.pu.set p u) {h : Handed}
    (e : t.handed q = some h) :
    s.handed q = some h ∨ q = p ∧ u.executing.map Executing.phase = some (.handed h) := by
  have phase := State.phase_of_handed e
  rw [State.phase, pu] at phase
  by_cases c : q = p
  · subst c
    rw [PerPort.get_set_self] at phase
    exact .inr ⟨rfl, phase⟩
  · rw [PerPort.get_set_ne _ _ c] at phase
    exact .inl (State.handed_of_phase phase)

/-- So where the change leaves the EXECUTING request or takes it out of the port unit. -/
theorem State.handed_before {s t : State} {p q : Port} {u : PortUnit} (pu : t.pu = s.pu.set p u) {h : Handed}
    (e : t.handed q = some h) (same : u.executing = (s.pu.get p).executing ∨ u.executing = none) :
    s.handed q = some h := by
  rcases State.handed_of_set pu e with before | ⟨rfl, phase⟩
  · exact before
  · rcases same with stands | gone
    · rw [stands] at phase
      exact State.handed_of_phase phase
    · rw [gone] at phase
      cases phase

/-- A request comes to stand handed over with its times and lengths within their bounds, a LEASE in UP. -/
theorem Change.handed {s t : State} (c : Change s t) {p : Port} {h : Handed} (e : t.handed p = some h) :
    s.handed p = some h ∨ h.Fits ∧ ∀ x, h = .lease x → (s.pu.get p).session = .up := by
  cases c with
  | view same => exact .inl ((State.handed_congr_phase (same.phase p)).symm.trans e)
  | begin q x free up deciding =>
    rcases State.handed_of_set rfl e with before | ⟨rfl, phase⟩
    · exact .inl before
    · rw [Option.map_some, deciding] at phase
      cases phase
  | phase q f old new fits up =>
    rcases State.handed_of_set rfl e with before | ⟨rfl, phase⟩
    · exact .inl before
    · rw [Option.map_map] at phase
      obtain ⟨x, -, handed⟩ := Option.map_eq_some_iff.mp phase
      exact .inr ⟨fits h handed, fun y hy => up y (hy ▸ handed)⟩
  | done q => exact .inl (State.handed_before rfl e (.inr (by rfl)))
  | window q => exact .inl (State.handed_before rfl e (.inl (by rfl)))
  | opened q => exact .inl (State.handed_before rfl e (.inl (by rfl)))
  | close q => exact .inl (State.handed_before rfl e (.inl (by rfl)))
  | down q => exact .inl (State.handed_before rfl e (.inl (by rfl)))
  | waiterTaken q => exact .inl (State.handed_before rfl e (.inl (by rfl)))
  | leaseTaken q => exact .inl (State.handed_before rfl e (.inl (by rfl)))
  | engineTaken q => exact .inl (State.handed_before rfl e (.inl (by rfl)))
  | dropWaiter q => exact .inl (State.handed_before rfl e (.inl (by rfl)))
  | waitersLeave q => exact .inl (State.handed_before rfl e (.inl (by rfl)))
  | joinQueue q => exact .inl (State.handed_before rfl e (.inr (by rfl)))
  | enterSettling q =>
    rcases State.handed_of_set rfl e with before | ⟨rfl, phase⟩
    · exact .inl before
    · rw [Option.map_map] at phase
      obtain ⟨x, -, handed⟩ := Option.map_eq_some_iff.mp phase
      cases handed
  | grantWaiter older rest w => exact .inl (State.handed_before rfl e (.inl (by rfl)))
  | reset _ _ pu =>
    have phase := State.phase_of_handed e
    rw [State.phase, pu, PerPort.get_const] at phase
    cases phase
  | _ => exact .inl e

/-! ## Timers -/

/-- The timers and times that the lease unit holds. -/
structure LeaseUnit.TimersInRange (u : LeaseUnit) : Prop where
  leases : ∀ l ∈ u.leases, l.life ≤ maxMilliseconds
  waiters : ∀ w ∈ u.queue, w.wait ≤ maxMilliseconds ∧ 1 ≤ w.request.life ∧ w.request.life ≤ maxMilliseconds
  settling : ∀ p t, u.settling.get p = some t → 1 ≤ t.request.life ∧ t.request.life ≤ maxMilliseconds

/-- The block limits and block timers of the job table. -/
def JobEngine.TimersInRange (e : JobEngine) : Prop :=
  ∀ j ∈ e.jobs, j.limit ≤ maxMilliseconds ∧ ∀ x n, j.state = .blocked x (some n) → n ≤ maxMilliseconds

/-- The times of a request that stands handed over. -/
def Handed.Timed : Handed → Prop
  | .lease x => 1 ≤ x.life ∧ x.life ≤ maxMilliseconds ∧ x.wait ≤ maxMilliseconds
  | .renew _ life => 1 ≤ life ∧ life ≤ maxMilliseconds
  | .submit _ _ limit => limit ≤ maxMilliseconds
  | .release _ | .withdraw _ | .leaseList | .jobPause _ | .jobResume _ | .jobCancel _ | .jobQuery _ | .forceRelease _
  | .forceCancel _ => True

theorem Handed.Fits.timed {h : Handed} (k : h.Fits) : h.Timed := by
  cases h with
  | submit w length limit => exact k.2
  | _ => exact k

theorem State.timersInRange_iff (s : State) : s.TimersInRange ↔
    s.leaseUnit.TimersInRange ∧ s.engine.TimersInRange ∧ ∀ p h, s.handed p = some h → h.Timed := by
  constructor
  · rintro ⟨leases, waiters, settling, jobs, lease, renew, submit⟩
    refine ⟨⟨leases, waiters, settling⟩, jobs, fun p h e => ?_⟩
    cases h with
    | lease x => exact lease p x e
    | renew id life => exact renew p id life e
    | submit w length limit => exact submit p w length limit e
    | _ => trivial
  · rintro ⟨⟨leases, waiters, settling⟩, jobs, handed⟩
    exact ⟨leases, waiters, settling, jobs, fun p x e => handed p _ e, fun p id life e => handed p _ e,
      fun p w length limit e => handed p _ e⟩

/-- The end of a claim takes its requester out of the recorded sets. -/
theorem LeaseUnit.removeClaim_settling (u : LeaseUnit) (r : Requester) (p : Port) :
    (u.removeClaim r).settling.get p =
      (u.settling.get p).map (fun t => { t with recorded := dropClaim r t.recorded }) := by
  cases p <;> rfl

theorem LeaseUnit.TimersInRange.grant {u : LeaseUnit} (h : u.TimersInRange) (p : Port) {x : LeaseRequest}
    (life : x.life ≤ maxMilliseconds) : (u.grant p x).TimersInRange := by
  refine ⟨fun l hl => ?_, h.waiters, h.settling⟩
  rcases List.mem_append.mp hl with old | new
  · exact h.leases l old
  · obtain rfl := List.mem_singleton.mp new
    exact life

theorem LeaseUnit.TimersInRange.fewer {u v : LeaseUnit} (h : u.TimersInRange) (leases : v.leases ⊆ u.leases)
    (queue : v.queue ⊆ u.queue) (settling : ∀ p t, v.settling.get p = some t → u.settling.get p = some t) :
    v.TimersInRange :=
  ⟨fun l hl => h.leases l (leases hl), fun w hw => h.waiters w (queue hw),
    fun p t e => h.settling p t (settling p t e)⟩

/-- Emptying one port's place in the settling set leaves the others. -/
theorem PerPort.get_of_set_none {α : Type} {v : PerPort (Option α)} {p q : Port} {a : α}
    (h : (v.set p none).get q = some a) : q ≠ p ∧ v.get q = some a := by
  by_cases e : q = p
  · subst e
    rw [PerPort.get_set_self] at h
    cases h
  · rw [PerPort.get_set_ne _ _ e] at h
    exact ⟨e, h⟩

theorem LeaseUnit.TimersInRange.lowerTimers {u : LeaseUnit} (h : u.TimersInRange) : u.lowerTimers.TimersInRange := by
  refine ⟨fun l hl => ?_, fun w hw => ?_, h.settling⟩
  · obtain ⟨m, hm, rfl⟩ := List.mem_map.mp hl
    exact Nat.le_trans (Nat.sub_le ..) (h.leases m hm)
  · obtain ⟨v, hv, rfl⟩ := List.mem_map.mp hw
    obtain ⟨wait, life⟩ := h.waiters v hv
    split
    · exact ⟨Nat.le_trans (Nat.sub_le ..) wait, life⟩
    · exact ⟨wait, life⟩

theorem LeaseUnit.TimersInRange.removeClaim {u : LeaseUnit} (h : u.TimersInRange) (r : Requester) :
    (u.removeClaim r).TimersInRange := by
  refine ⟨h.leases, fun w hw => ?_, fun p t e => ?_⟩
  · obtain ⟨v, hv, rfl⟩ := List.mem_map.mp hw
    exact h.waiters v hv
  · rw [LeaseUnit.removeClaim_settling] at e
    obtain ⟨x, hx, rfl⟩ := Option.map_eq_some_iff.mp e
    exact h.settling p x hx

theorem LeaseUnit.TimersInRange.renewLease {u : LeaseUnit} (h : u.TimersInRange) (id : Nat) {life : Nat}
    (range : life ≤ maxMilliseconds) : (u.renewLease id life).TimersInRange := by
  refine ⟨fun l hl => ?_, h.waiters, h.settling⟩
  obtain ⟨m, hm, rfl⟩ := List.mem_map.mp hl
  split
  · exact range
  · exact h.leases m hm

/-- The request that stands handed over for a lease. -/
theorem State.Asks.handed {s : State} {p : Port} {x : LeaseRequest} {e : Executing} (h : s.Asks p x e) :
    s.handed p = some (.lease x) := by
  refine State.handed_of_phase ?_
  rw [State.phase, h.executing, Option.map_some, h.phase]

theorem Change.leaseTimers {s t : State} (h : s.leaseUnit.TimersInRange)
    (handed : ∀ p x, s.handed p = some x → x.Timed) (c : Change s t) : t.leaseUnit.TimersInRange := by
  cases c with
  | view same =>
    exact ⟨same.leases ▸ h.leases, same.queue ▸ h.waiters, same.settling ▸ h.settling⟩
  | removal P => exact h.fewer List.filter_sublist.subset (fun _ k => k) (fun _ _ e => e)
  | renew p id life before => exact h.renewLease id (handed p _ before).2
  | dropWaiter p tag => exact h.fewer (fun _ k => k) List.filter_sublist.subset (fun _ _ e => e)
  | waitersLeave p =>
    exact h.fewer (fun _ k => k) List.filter_sublist.subset (fun _ _ e => (PerPort.get_of_set_none e).2)
  | joinQueue p x e asks =>
    obtain ⟨low, high, wait⟩ := handed p _ asks.handed
    refine ⟨h.leases, fun w hw => ?_, h.settling⟩
    rcases List.mem_append.mp hw with old | new
    · exact h.waiters w old
    · obtain rfl := List.mem_singleton.mp new
      exact ⟨wait, low, high⟩
  | enterSettling p x e asks =>
    obtain ⟨low, high, -⟩ := handed p _ asks.handed
    refine ⟨h.leases, h.waiters, fun q y k => ?_⟩
    replace k : (s.leaseUnit.settling.set p _).get q = some y := k
    by_cases c : q = p
    · subst c
      rw [PerPort.get_set_self] at k
      obtain rfl := Option.some.inj k
      exact ⟨low, high⟩
    · rw [PerPort.get_set_ne _ _ c] at k
      exact h.settling q y k
  | grantNow p x e asks =>
    obtain ⟨low, high, -⟩ := handed p _ asks.handed
    exact h.grant p high
  | grantSettling p x settling =>
    exact (h.fewer (v := { s.leaseUnit with settling := s.leaseUnit.settling.set p none }) (fun _ k => k) (fun _ k => k)
      (fun _ _ e => (PerPort.get_of_set_none e).2)).grant p (h.settling p x settling).2
  | settleWaiter older rest w claims queue =>
    refine ⟨h.leases, fun v hv => ?_, h.settling⟩
    have waiters := queue ▸ h.waiters
    rcases List.mem_append.mp hv with old | new
    · exact waiters v (List.mem_append_left _ old)
    · rcases List.mem_cons.mp new with rfl | young
      · exact waiters w (List.mem_append_right _ List.mem_cons_self)
      · exact waiters v (List.mem_append_right _ (List.mem_cons_of_mem _ young))
  | grantWaiter older rest w queue =>
    have here : w ∈ s.leaseUnit.queue := queue ▸ List.mem_append_right _ List.mem_cons_self
    refine (h.fewer (v := { s.leaseUnit with queue := older ++ rest }) (fun _ k => k) ?_
      (fun _ _ e => e)).grant w.port (h.waiters w here).2.2
    rw [queue]
    exact ((List.sublist_cons_self w rest).append_left older).subset
  | endClaim r => exact h.removeClaim r
  | claim a => exact ⟨h.leases, h.waiters, h.settling⟩
  | lowerTimers => exact h.lowerTimers
  | reset _ _ _ lease _ _ _ =>
    rw [lease]
    exact ⟨fun _ k => absurd k List.not_mem_nil, fun _ k => absurd k List.not_mem_nil, fun p _ e => by cases p <;> cases e⟩
  | _ => exact h

theorem Change.timersInRange {s t : State} (h : s.TimersInRange) (c : Change s t) : t.TimersInRange := by
  rw [State.timersInRange_iff] at *
  obtain ⟨lease, jobs, handed⟩ := h
  refine ⟨c.leaseTimers lease handed, ?_, fun p x e => ?_⟩
  · cases c with
    | view same =>
      unfold JobEngine.TimersInRange
      rwa [same.jobs]
    | reset _ _ _ _ engine _ _ =>
      rw [engine]
      exact fun _ k => absurd k List.not_mem_nil
    | _ => exact jobs
  · rcases c.handed e with before | ⟨fits, -⟩
    · exact handed p x before
    · exact fits.timed

theorem EngineChange.timersInRange {s t : State} (h : s.TimersInRange) (c : EngineChange s t) : t.TimersInRange := by
  rw [State.timersInRange_iff] at *
  obtain ⟨lease, jobs, handed⟩ := h
  cases c with
  | goesOn f goes =>
    refine ⟨lease, fun k hk => ?_, handed⟩
    obtain ⟨-, ⟨j, hj, limit⟩, timer⟩ := goes.jobs k hk
    refine ⟨limit ▸ (jobs j hj).1, fun x n e => ?_⟩
    obtain ⟨i, hi, bound | ⟨y, m, state, bound⟩⟩ := timer x n e
    · exact Nat.le_trans bound (jobs i hi).1
    · exact Nat.le_trans bound ((jobs i hi).2 y m state)
  | accept p w length limit j last submitted port bound queued =>
    refine ⟨lease, fun k hk => ?_, handed⟩
    rcases List.mem_append.mp hk with old | new
    · exact jobs k old
    · obtain rfl := List.mem_singleton.mp new
      refine ⟨bound ▸ handed p _ submitted, fun x n e => ?_⟩
      rw [queued] at e
      cases e

/-- Settles O59, change by change. -/
theorem receiversCountersAndDividerStayInRange : Obligations.ReceiversCountersAndDividerStayInRange := by
  unfold Obligations.ReceiversCountersAndDividerStayInRange
  refine stepKeeps_of_changes (fun s t ⟨legal, counters, divider, timers⟩ c => ?_)
    (fun s t ⟨legal, counters, divider, timers⟩ c => ?_)
  · exact ⟨c.receiversLegal legal, c.countersFit counters, c.dividerInRange divider, c.timersInRange timers⟩
  · refine ⟨?_, ?_, ?_, c.timersInRange timers⟩
    · cases c <;> exact legal
    · cases c <;> exact counters
    · cases c <;> exact divider

end Sys2Proof.Machine
end

section
/-! SUPPORT. The ids that the lease unit and the job engine give (R48, R94), and the stakes that ports have in ranges of the store:
leases, waiters and SETTLING requests as one list. -/

namespace Sys2Proof.Machine

/-! ## Ids -/

/-- The id that comes `k` steps after the one that follows `last`, 1 following 255. -/
def idFrom (last k : Nat) : Nat := (last + k) % 255 + 1

theorem idAfter_of_le {last : Nat} (h : last ≤ 255) : idAfter last = idFrom last 0 := by
  unfold idAfter idFrom
  split <;> omega

theorem idAfter_idFrom (last k : Nat) : idAfter (idFrom last k) = idFrom last (k + 1) := by
  unfold idAfter idFrom
  split <;> omega

theorem idFrom_range (last k : Nat) : 1 ≤ idFrom last k ∧ idFrom last k ≤ 255 := by
  unfold idFrom
  omega

/-- The search takes the first id in the order that is not in use, if it comes upon one in time. -/
theorem firstUnused_spec (last : Nat) (used : List Nat) (fuel k : Nat) :
    (∀ j, j < fuel → idFrom last (k + j) ∈ used) ∨
    ∃ i, i < fuel ∧ firstUnused fuel (idFrom last k) used = idFrom last (k + i) ∧ idFrom last (k + i) ∉ used ∧
      ∀ j, j < i → idFrom last (k + j) ∈ used := by
  induction fuel generalizing k with
  | zero => exact .inl (fun j h => absurd h (Nat.not_lt_zero j))
  | succ fuel ih =>
    by_cases taken : idFrom last k ∈ used
    · have later : ∀ {n}, (∀ j, j < n → idFrom last (k + 1 + j) ∈ used) → ∀ j, j < n + 1 → idFrom last (k + j) ∈ used := by
        intro n all j h
        cases j with
        | zero => exact taken
        | succ j =>
          rw [Nat.add_comm j, ← Nat.add_assoc]
          exact all j (by omega)
      rcases ih (k + 1) with all | ⟨i, bound, found, fresh, before⟩
      · exact .inl (later all)
      · refine .inr ⟨i + 1, by omega, ?_, ?_, later before⟩
        · rw [firstUnused, List.contains_eq_mem, decide_eq_true taken, if_pos rfl, idAfter_idFrom, found]
          congr 1
          omega
        · rwa [Nat.add_comm i, ← Nat.add_assoc]
    · refine .inr ⟨0, by omega, ?_, taken, fun j h => absurd h (Nat.not_lt_zero j)⟩
      rw [firstUnused, List.contains_eq_mem, decide_eq_false taken, if_neg Bool.false_ne_true]
      rfl

/-- With an id free, the next id is the first free one in the order (R48, R94). -/
theorem nextId_spec {last : Nat} (h : last ≤ 255) {used : List Nat} (free : ∃ i, 1 ≤ i ∧ i ≤ 255 ∧ i ∉ used) :
    ∃ k, k < 255 ∧ nextId last used = idFrom last k ∧ nextId last used ∉ used ∧
      ∀ j, j < k → idFrom last j ∈ used := by
  obtain ⟨i, low, high, unused⟩ := free
  have reached : idFrom last ((i + 509 - last) % 255) = i := by
    unfold idFrom
    omega
  unfold nextId
  rw [idAfter_of_le h]
  rcases firstUnused_spec last used 255 0 with all | ⟨k, bound, found, fresh, before⟩
  · have := all ((i + 509 - last) % 255) (Nat.mod_lt _ (by decide))
    rw [Nat.zero_add, reached] at this
    exact absurd this unused
  · rw [Nat.zero_add] at found fresh
    refine ⟨k, bound, found, by rwa [found], fun j h => ?_⟩
    have := before j h
    rwa [Nat.zero_add] at this

/-- Fewer than 255 ids in use leave one free. -/
theorem exists_free_id {used : List Nat} (h : used.length < 255) : ∃ i, 1 ≤ i ∧ i ≤ 255 ∧ i ∉ used := by
  refine Classical.byContradiction (fun none => ?_)
  have all : List.range' 1 255 ⊆ used := by
    intro i hi
    rw [List.mem_range'_1] at hi
    refine Classical.byContradiction (fun free => ?_)
    exact none ⟨i, hi.1, by omega, free⟩
  have := (List.nodup_range' (s := 1) (n := 255)).length_le_of_subset all
  rw [List.length_range'] at this
  omega

theorem nextId_min (last : Nat) (used : List Nat) : nextId last used = nextId (min last 255) used := by
  unfold nextId idAfter
  congr 1
  split <;> split <;> omega

/-- So a new id is unlike those in use and within 1 to 255 (R48, R94). -/
theorem nextId_fresh (last : Nat) {used : List Nat} (h : used.length < 255) :
    nextId last used ∉ used ∧ 1 ≤ nextId last used ∧ nextId last used ≤ 255 := by
  rw [nextId_min]
  obtain ⟨k, -, next, fresh, -⟩ := nextId_spec (Nat.min_le_right last 255) (exists_free_id h)
  exact ⟨fresh, next ▸ idFrom_range ..⟩

/-! ## Stakes -/

/-- What a lease, a waiter or a SETTLING request holds or asks for; it is firm where it is granted or its place is reserved. -/
structure Stake where
  port : Port
  kind : LeaseKind
  range : Range
  firm : Bool

/-- Stakes of one port are apart; firm stakes do not conflict (R35, R39). -/
def Stake.Agrees (a b : Stake) : Prop :=
  (a.port = b.port → a.range.Disjoint b.range) ∧
  (a.firm = true → b.firm = true → conflicting a.port a.kind a.range b.port b.kind b.range = false)

theorem Stake.Agrees.symm {a b : Stake} (h : a.Agrees b) : b.Agrees a := by
  refine ⟨fun e => ?_, fun x y => ?_⟩
  · rw [Range.Disjoint, Range.intersects_comm]
    exact h.1 e.symm
  · rw [conflicting_comm]
    exact h.2 y x

def LeaseRequest.stake (x : LeaseRequest) (p : Port) (firm : Bool) : Stake :=
  { port := p, kind := x.kind, range := x.range, firm := firm }

def Lease.stake (l : Lease) : Stake := { port := l.port, kind := l.kind, range := l.range, firm := true }

def Waiter.stake (w : Waiter) : Stake := w.request.stake w.port w.settling.isSome

/-- The stakes in the lease unit: of its leases, of its waiters, of its SETTLING requests. -/
def LeaseUnit.stakes (u : LeaseUnit) : List Stake :=
  u.leases.map Lease.stake ++ (u.queue.map Waiter.stake ++ u.settlingExecuting.map (fun t => t.2.request.stake t.1 true))

theorem LeaseUnit.mem_stakes (u : LeaseUnit) (a : Stake) : a ∈ u.stakes ↔
    (∃ l ∈ u.leases, l.stake = a) ∨ (∃ w ∈ u.queue, w.stake = a) ∨
    ∃ p t, u.settling.get p = some t ∧ t.request.stake p true = a := by
  simp [LeaseUnit.stakes, LeaseUnit.mem_settlingExecuting]

theorem LeaseUnit.grant_stakes (u : LeaseUnit) (p : Port) (x : LeaseRequest) :
    (u.grant p x).stakes.Perm (x.stake p true :: u.stakes) := by
  have e : (u.grant p x).stakes = u.leases.map Lease.stake ++ (x.stake p true ::
      (u.queue.map Waiter.stake ++ u.settlingExecuting.map (fun t => t.2.request.stake t.1 true))) := by
    simp [LeaseUnit.stakes, LeaseUnit.grant, LeaseUnit.settlingExecuting, Lease.stake, LeaseRequest.stake]
  rw [e]
  exact List.perm_middle

/-- A waiter's stake beside the others. -/
theorem LeaseUnit.stakes_queue (u : LeaseUnit) (older rest : List Waiter) (w : Waiter) :
    ({ u with queue := older ++ w :: rest } : LeaseUnit).stakes.Perm
      (w.stake :: ({ u with queue := older ++ rest } : LeaseUnit).stakes) := by
  simp only [LeaseUnit.stakes, List.map_append, List.map_cons, List.append_assoc, List.cons_append]
  rw [← List.append_assoc, ← List.append_assoc (u.leases.map Lease.stake) (older.map Waiter.stake)]
  exact List.perm_middle

theorem allPorts_nodup : allPorts.Nodup := by decide

/-- One port's place in the settling set beside the others. -/
theorem LeaseUnit.settlingExecuting_perm {u : LeaseUnit} {p : Port} {t : Settling} (h : u.settling.get p = some t) :
    u.settlingExecuting.Perm
      ((p, t) :: ({ u with settling := u.settling.set p none } : LeaseUnit).settlingExecuting) := by
  have ports := List.perm_cons_erase (mem_allPorts p)
  have others : ∀ q ∈ allPorts.erase p, (u.settling.get q).map (fun t => (q, t)) =
      ((u.settling.set p none).get q).map (fun t => (q, t)) := by
    intro q hq
    rw [PerPort.get_set_ne _ _ ((allPorts_nodup.mem_erase_iff).mp hq).1]
  have before := ports.filterMap (fun q => (u.settling.get q).map (fun t => (q, t)))
  have after := ports.filterMap (fun q => ((u.settling.set p none).get q).map (fun t => (q, t)))
  rw [List.filterMap_cons_some (by rw [h, Option.map_some]), filterMap_eq_of_mem others] at before
  rw [List.filterMap_cons_none (by rw [PerPort.get_set_self, Option.map_none])] at after
  exact before.trans (after.symm.cons _)

/-- A SETTLING request's stake beside the others. -/
theorem LeaseUnit.stakes_settling {u : LeaseUnit} {p : Port} {t : Settling} (h : u.settling.get p = some t) :
    u.stakes.Perm (t.request.stake p true :: ({ u with settling := u.settling.set p none } : LeaseUnit).stakes) := by
  have := ((LeaseUnit.settlingExecuting_perm h).map (fun t => t.2.request.stake t.1 true)).append_left
    (u.leases.map Lease.stake ++ u.queue.map Waiter.stake)
  simp only [LeaseUnit.stakes, ← List.append_assoc]
  exact this.trans List.perm_middle

end Sys2Proof.Machine
end

section
/-! SUPPORT. What every change does to the stakes, and with it that leases never conflict (R35, R39, R50). -/

namespace Sys2Proof.Machine

/-- A port with a place in the settling set has its EXECUTING request SETTLING. -/
def State.SettlingStands (s : State) : Prop :=
  ∀ p, s.leaseUnit.settling.get p ≠ none → s.phase p = some .settling

theorem Waiter.firm_iff (w : Waiter) : w.stake.firm = true ↔ w.settling ≠ none := Option.isSome_iff_ne_none

/-- The members of the settling set agree exactly when those of different ports do not conflict: a port has one place. -/
theorem LeaseUnit.executing_agree_iff (u : LeaseUnit) :
    (u.settlingExecuting.map (fun t => t.2.request.stake t.1 true)).Pairwise Stake.Agrees ↔
    ∀ p q t v, p ≠ q → u.settling.get p = some t → u.settling.get q = some v →
      t.request.conflictsSettling p q v = false := by
  rw [List.pairwise_map]
  constructor
  · intro h p q t v ne hp hq
    have agrees := pairwise_of_mem (fun _ _ => Stake.Agrees.symm) h ((u.mem_settlingExecuting p t).mpr hp) ((u.mem_settlingExecuting q v).mpr hq)
      (fun e => ne (congrArg Prod.fst e))
    exact agrees.2 rfl rfl
  · intro h
    rw [LeaseUnit.settlingExecuting, List.pairwise_filterMap]
    refine allPorts_nodup.imp (fun {p q} ne x hx y hy => ?_)
    obtain ⟨t, hp, rfl⟩ := Option.map_eq_some_iff.mp hx
    obtain ⟨v, hq, rfl⟩ := Option.map_eq_some_iff.mp hy
    exact ⟨fun e => absurd e ne, fun _ _ => h p q t v ne hp hq⟩

/-- The lease unit is orderly exactly when all stakes agree. -/
theorem State.leasesOrderly_iff (s : State) :
    s.LeasesOrderly ↔ s.leaseUnit.stakes.Pairwise Stake.Agrees ∧ s.SettlingStands := by
  have executing := s.leaseUnit.executing_agree_iff
  simp only [LeaseUnit.stakes, List.pairwise_append, executing, List.pairwise_map, List.mem_append, List.mem_map]
  constructor
  · intro h
    refine ⟨⟨h.leases.imp (fun k => ⟨k.2, fun _ _ => k.1⟩), ⟨?_, h.executing, ?_⟩, ?_⟩, h.phase⟩
    · refine (h.waiters.and h.settlingWaiters).imp (fun {v w} k => ⟨k.1, fun a b => ?_⟩)
      exact k.2 ((Waiter.firm_iff v).mp a) ((Waiter.firm_iff w).mp b)
    · rintro a ⟨w, hw, rfl⟩ b ⟨⟨p, t⟩, ht, rfl⟩
      rw [LeaseUnit.mem_settlingExecuting] at ht
      obtain ⟨own, other⟩ := h.executingWaiter p t ht w hw
      exact Stake.Agrees.symm ⟨fun e => own e.symm, fun _ b => other ((Waiter.firm_iff w).mp b)⟩
    · rintro a ⟨l, hl, rfl⟩ b (⟨w, hw, rfl⟩ | ⟨⟨p, t⟩, ht, rfl⟩)
      · exact Stake.Agrees.symm ⟨fun e => h.waiterLease w hw l hl e, fun a _ =>
          h.settlingLease w hw ((Waiter.firm_iff w).mp a) l hl⟩
      · rw [LeaseUnit.mem_settlingExecuting] at ht
        obtain ⟨other, own⟩ := h.executingLease p t ht l hl
        exact Stake.Agrees.symm ⟨fun e => own e.symm, fun _ _ => other⟩
  · rintro ⟨⟨leases, ⟨waiters, executing, waiterExecuting⟩, leaseOther⟩, phase⟩
    have leaseWaiter : ∀ w ∈ s.leaseUnit.queue, ∀ l ∈ s.leaseUnit.leases, w.stake.Agrees l.stake := fun w hw l hl =>
      (leaseOther _ ⟨l, hl, rfl⟩ _ (.inl ⟨w, hw, rfl⟩)).symm
    have leaseExecuting : ∀ p t, s.leaseUnit.settling.get p = some t → ∀ l ∈ s.leaseUnit.leases,
        (t.request.stake p true).Agrees l.stake := fun p t ht l hl =>
      (leaseOther _ ⟨l, hl, rfl⟩ _ (.inr ⟨(p, t), (LeaseUnit.mem_settlingExecuting ..).mpr ht, rfl⟩)).symm
    have executingWaiter : ∀ p t, s.leaseUnit.settling.get p = some t → ∀ w ∈ s.leaseUnit.queue,
        (t.request.stake p true).Agrees w.stake := fun p t ht w hw =>
      (waiterExecuting _ ⟨w, hw, rfl⟩ _ ⟨(p, t), (LeaseUnit.mem_settlingExecuting ..).mpr ht, rfl⟩).symm
    exact {
      leases := leases.imp (fun k => ⟨k.2 rfl rfl, k.1⟩)
      waiterLease := fun w hw l hl e => (leaseWaiter w hw l hl).1 e
      waiters := waiters.imp (fun k => k.1)
      settlingLease := fun w hw settling l hl => (leaseWaiter w hw l hl).2 ((Waiter.firm_iff w).mpr settling) rfl
      settlingWaiters := waiters.imp (fun {v w} k a b => k.2 ((Waiter.firm_iff v).mpr a) ((Waiter.firm_iff w).mpr b))
      executingLease := fun p t ht l hl => ⟨(leaseExecuting p t ht l hl).2 rfl rfl, fun e =>
        (leaseExecuting p t ht l hl).1 e.symm⟩
      executingWaiter := fun p t ht w hw => ⟨fun e => (executingWaiter p t ht w hw).1 e.symm, fun settling =>
        (executingWaiter p t ht w hw).2 rfl ((Waiter.firm_iff w).mpr settling)⟩
      executing := executing
      phase := phase }

/-! ## The place in the settling set -/

theorem State.SettlingStands.of_lease {s t : State} (h : s.SettlingStands) (pu : t.pu = s.pu)
    (settling : ∀ q, t.leaseUnit.settling.get q ≠ none → s.leaseUnit.settling.get q ≠ none) : t.SettlingStands := by
  intro q e
  rw [State.phase, pu]
  exact h q (settling q e)

theorem State.SettlingStands.set {s t : State} (h : s.SettlingStands) {p : Port} {u : PortUnit} (pu : t.pu = s.pu.set p u)
    (settling : ∀ q, t.leaseUnit.settling.get q ≠ none → s.leaseUnit.settling.get q ≠ none)
    (phase : s.phase p = some .settling → t.leaseUnit.settling.get p ≠ none → u.executing.map Executing.phase = s.phase p) :
    t.SettlingStands := by
  intro q e
  rw [State.phase, pu]
  by_cases c : q = p
  · subst c
    have before := h q (settling q e)
    rw [PerPort.get_set_self, phase before e, before]
  · rw [PerPort.get_set_ne _ _ c]
    exact h q (settling q e)

theorem PerPort.get_set_none_ne {α : Type} {v : PerPort (Option α)} {p q : Port} (h : (v.set p none).get q ≠ none) :
    v.get q ≠ none := by
  obtain ⟨a, e⟩ := Option.ne_none_iff_exists'.mp h
  rw [(PerPort.get_of_set_none e).2]
  exact Option.some_ne_none a

theorem Change.settlingStands {s t : State} (h : s.SettlingStands) (c : Change s t) : t.SettlingStands := by
  cases c with
  | view same =>
    intro q e
    rw [same.settling] at e
    rw [same.phase]
    exact h q e
  | begin p x free =>
    refine h.set rfl (fun _ e => e) (fun e _ => ?_)
    rw [State.phase_free free] at e
    cases e
  | phase p f old new => exact h.set rfl (fun _ e => e) (fun e _ => absurd e old)
  | done p gone => exact h.set rfl (fun _ e => e) (fun e k => absurd (gone e) k)
  | window p => exact h.set rfl (fun _ e => e) (fun _ _ => rfl)
  | opened p => exact h.set rfl (fun _ e => e) (fun _ _ => rfl)
  | close p => exact h.set rfl (fun _ e => e) (fun _ _ => rfl)
  | down p => exact h.set rfl (fun _ e => e) (fun _ _ => rfl)
  | waiterTaken p => exact h.set rfl (fun _ e => e) (fun _ _ => rfl)
  | leaseTaken p => exact h.set rfl (fun _ e => e) (fun _ _ => rfl)
  | engineTaken p => exact h.set rfl (fun _ e => e) (fun _ _ => rfl)
  | dropWaiter p => exact h.set rfl (fun _ e => e) (fun _ _ => rfl)
  | waitersLeave p => exact h.set rfl (fun _ e => PerPort.get_set_none_ne e) (fun _ _ => rfl)
  | joinQueue p x e asks =>
    refine h.set rfl (fun _ e => e) (fun settling _ => ?_)
    rw [State.phase_of_handed asks.handed] at settling
    cases settling
  | enterSettling p x e asks clear =>
    intro q k
    have phase := State.phase_of_handed asks.handed
    by_cases c : q = p
    · subst c
      exact State.phase_setPhase (s := s.modLease _) phase .settling
    · replace k : (s.leaseUnit.settling.set p _).get q ≠ none := k
      rw [PerPort.get_set_ne _ _ c] at k
      exact (State.phase_modPu_ne (s.modLease _) _ c).trans (h q k)
  | grantSettling p => exact h.of_lease rfl (fun _ e => PerPort.get_set_none_ne e)
  | grantWaiter older rest w => exact h.set rfl (fun _ e => e) (fun _ _ => rfl)
  | endClaim r =>
    refine h.of_lease rfl (fun q e => ?_)
    rw [State.modLease_leaseUnit, LeaseUnit.removeClaim_settling] at e
    exact fun none => e (by rw [none, Option.map_none])
  | reset _ _ _ lease =>
    intro q e
    rw [lease] at e
    cases q <;> exact absurd rfl e
  | removal | renew | settleWaiter | grantNow | claim | lowerTimers => exact h.of_lease rfl (fun _ e => e)
  | _ => exact h

theorem EngineChange.settlingStands {s t : State} (h : s.SettlingStands) (c : EngineChange s t) : t.SettlingStands := by
  cases c <;> exact h

/-! ## What changes do to the stakes -/

/-- The lease unit's tables have the same stakes. -/
theorem LeaseUnit.stakes_congr {u v : LeaseUnit} (leases : v.leases.map Lease.stake = u.leases.map Lease.stake)
    (queue : v.queue.map Waiter.stake = u.queue.map Waiter.stake)
    (settling : ∀ p, (v.settling.get p).map Settling.request = (u.settling.get p).map Settling.request) :
    v.stakes = u.stakes := by
  have executing : v.settlingExecuting.map (fun t => t.2.request.stake t.1 true) =
      u.settlingExecuting.map (fun t => t.2.request.stake t.1 true) := by
    rw [LeaseUnit.settlingExecuting, LeaseUnit.settlingExecuting, List.map_filterMap, List.map_filterMap]
    refine filterMap_eq_of_mem (fun p _ => ?_)
    have := congrArg (Option.map (fun x : LeaseRequest => x.stake p true)) (settling p)
    simpa [Option.map_map, Function.comp_def] using this
  rw [LeaseUnit.stakes, leases, queue, executing, LeaseUnit.stakes]

theorem LeaseUnit.stakes_sublist {u v : LeaseUnit} (leases : v.leases.Sublist u.leases) (queue : v.queue.Sublist u.queue)
    (settling : v.settling = u.settling) : v.stakes.Sublist u.stakes := by
  rw [LeaseUnit.stakes, LeaseUnit.stakes, LeaseUnit.settlingExecuting, LeaseUnit.settlingExecuting, settling]
  exact (leases.map _).append ((queue.map _).append (.refl _))

theorem LeaseUnit.stakes_emptied (u : LeaseUnit) (p : Port) :
    Among ({ u with settling := u.settling.set p none } : LeaseUnit).stakes u.stakes := by
  cases h : u.settling.get p with
  | none =>
    rw [← h, PerPort.set_get]
    exact .of_perm (.refl _)
  | some t => exact (Among.of_sublist (List.sublist_cons_self ..)).trans (.of_perm (LeaseUnit.stakes_settling h).symm)

/-- A place in the settling set, empty before, is one stake more. -/
theorem LeaseUnit.stakes_enter {u : LeaseUnit} {p : Port} (h : u.settling.get p = none) (t : Settling) :
    ({ u with settling := u.settling.set p (some t) } : LeaseUnit).stakes.Perm (t.request.stake p true :: u.stakes) := by
  have entered := LeaseUnit.stakes_settling (u := { u with settling := u.settling.set p (some t) })
    (PerPort.get_set_self u.settling p (some t))
  rw [PerPort.set_set, ← h, PerPort.set_get] at entered
  exact entered

/-- Nothing stands against the waiter becoming firm: no conflict, and room for its lease (R39, R50). -/
structure LeaseUnit.Unopposed (u : LeaseUnit) (older : List Waiter) (w : Waiter) : Prop where
  leases : ∀ l ∈ u.leases, w.request.conflictsLease w.port l = false
  older : ∀ v ∈ older, w.request.conflictsWaiter w.port v = false
  executing : ∀ p t, u.settling.get p = some t → w.request.conflictsSettling w.port p t = false
  waiters : ∀ v ∈ u.queue, v.settling ≠ none → w.request.conflictsWaiter w.port v = false
  room : u.full = false

theorem LeaseUnit.unopposed_iff (u : LeaseUnit) (older : List Waiter) (w : Waiter) : u.Unopposed older w ↔
    u.leases.any (w.request.conflictsLease w.port) = false ∧ older.any (w.request.conflictsWaiter w.port) = false ∧
    u.settlingExecuting.any (fun t => w.request.conflictsSettling w.port t.1 t.2) = false ∧
    u.settlingWaiters.any (w.request.conflictsWaiter w.port) = false ∧ u.full = false := by
  simp only [List.any_eq_false, Bool.not_eq_true, LeaseUnit.mem_settlingWaiters, Prod.forall,
    LeaseUnit.mem_settlingExecuting]
  constructor
  · rintro ⟨leases, older, executing, waiters, room⟩
    exact ⟨leases, older, executing, fun v hv => waiters v hv.1 hv.2, room⟩
  · rintro ⟨leases, older, executing, waiters, room⟩
    exact ⟨leases, older, executing, fun v hv settling => waiters v ⟨hv, settling⟩, room⟩

/-- A waiter that is not SETTLING is passed over exactly where something stands against it (R39, R50). -/
theorem LeaseUnit.verdict_unsettled {u : LeaseUnit} {older : List Waiter} {w : Waiter} (h : w.settling = none) :
    ¬ u.Unopposed older w ∧ u.verdict older w = .pass ∨
    u.Unopposed older w ∧ u.verdict older w = if u.conflictingClaims w.request.kind w.request.range = [] then .grant
      else .settle (u.conflictingClaims w.request.kind w.request.range) := by
  rw [LeaseUnit.unopposed_iff, LeaseUnit.verdict, h]
  dsimp only
  split
  · exact .inl ⟨fun k => by simp_all, rfl⟩
  · split
    · exact .inl ⟨fun k => by simp_all, rfl⟩
    · split
      · exact .inl ⟨fun k => by simp_all, rfl⟩
      · split
        · exact .inl ⟨fun k => by simp_all, rfl⟩
        · split
          · exact .inl ⟨fun k => by simp_all, rfl⟩
          · refine .inr ⟨by simp_all, ?_⟩
            cases u.conflictingClaims w.request.kind w.request.range <;> simp

/-- A grant of the scan is of a SETTLING waiter without recorded claims, or of one that nothing stands against. -/
theorem LeaseUnit.verdict_grant {u : LeaseUnit} {older : List Waiter} {w : Waiter} (v : u.verdict older w = .grant) :
    w.settling = some [] ∨
    w.settling = none ∧ u.Unopposed older w ∧ u.conflictingClaims w.request.kind w.request.range = [] := by
  cases h : w.settling with
  | some recorded =>
    simp only [LeaseUnit.verdict, h] at v
    cases recorded with
    | nil => exact .inl rfl
    | cons c cs => cases v
  | none =>
    rcases LeaseUnit.verdict_unsettled (u := u) (older := older) h with ⟨-, e⟩ | ⟨free, e⟩
    · rw [e] at v
      cases v
    · refine .inr ⟨rfl, free, ?_⟩
      cases claims : u.conflictingClaims w.request.kind w.request.range with
      | nil => rfl
      | cons c cs =>
        rw [e, claims, if_neg (List.cons_ne_nil c cs)] at v
        cases v

theorem LeaseUnit.verdict_settle {u : LeaseUnit} {older : List Waiter} {w : Waiter} {claims : List Requester}
    (v : u.verdict older w = .settle claims) :
    w.settling = none ∧ u.Unopposed older w ∧ u.conflictingClaims w.request.kind w.request.range = claims := by
  cases h : w.settling with
  | some recorded =>
    simp only [LeaseUnit.verdict, h] at v
    cases recorded <;> cases v
  | none =>
    rcases LeaseUnit.verdict_unsettled (u := u) (older := older) h with ⟨-, e⟩ | ⟨free, e⟩
    · rw [e] at v
      cases v
    · refine ⟨rfl, free, ?_⟩
      cases found : u.conflictingClaims w.request.kind w.request.range with
      | nil =>
        rw [e, found, if_pos rfl] at v
        cases v
      | cons c cs =>
        rw [e, found, if_neg (List.cons_ne_nil c cs)] at v
        exact Verdict.settle.inj v

end Sys2Proof.Machine
end

section
/-! SUPPORT. What every change does to the stakes; leases never conflict, and no lease forbids a standing claim (R35, R39, R50, R52,
R53). -/

namespace Sys2Proof.Machine

/-- What a change does to the stakes: none is new, or the one asked for is, or one of them becomes firm. -/
inductive State.StakesBecome (s : State) (new : List Stake) : Prop
  | fewer (h : Among new s.leaseUnit.stakes)
  | asked (p : Port) (x : LeaseRequest) (e : Executing) (asks : s.Asks p x e) (firm : Bool)
      (clear : firm = true → s.Clear p x) (h : new.Perm (x.stake p firm :: s.leaseUnit.stakes))
  | firmed (a : Stake) (rest : List Stake) (old : s.leaseUnit.stakes.Perm (a :: rest))
      (h : new.Perm ({ a with firm := true } :: rest))
      (free : a.firm = false → s.leaseUnit.full = false ∧
        ∀ b ∈ rest, b.firm = true → conflicting a.port a.kind a.range b.port b.kind b.range = false)

theorem State.StakesBecome.of_eq {s : State} {new : List Stake} (h : new = s.leaseUnit.stakes) : s.StakesBecome new :=
  .fewer (h ▸ .of_perm (.refl _))

theorem State.Asks.settling_none {s : State} {p : Port} {x : LeaseRequest} {e : Executing} (asks : s.Asks p x e)
    (stands : s.SettlingStands) : s.leaseUnit.settling.get p = none := by
  refine Classical.byContradiction (fun settling => ?_)
  have := stands p settling
  rw [State.phase_of_handed asks.handed] at this
  cases this

/-- The firm stakes beside that of a waiter which nothing stands against do not conflict with it. -/
theorem LeaseUnit.Unopposed.apart {u : LeaseUnit} {older rest : List Waiter} {w : Waiter} (h : u.Unopposed older w)
    (queue : u.queue = older ++ w :: rest) (b : Stake)
    (hb : b ∈ ({ u with queue := older ++ rest } : LeaseUnit).stakes) (firm : b.firm = true) :
    conflicting w.port w.request.kind w.request.range b.port b.kind b.range = false := by
  rcases (LeaseUnit.mem_stakes ..).mp hb with ⟨l, hl, rfl⟩ | ⟨v, hv, rfl⟩ | ⟨p, t, ht, rfl⟩
  · exact h.leases l hl
  · refine h.waiters v ?_ ((Waiter.firm_iff v).mp firm)
    rw [queue]
    exact ((List.sublist_cons_self w rest).append_left older).subset hv
  · exact h.executing p t ht

/-- A waiter that the scan grants or marks becomes firm. -/
theorem State.StakesBecome.of_waiter {s : State} {older rest : List Waiter} {w : Waiter} {new : List Stake}
    (queue : s.leaseUnit.queue = older ++ w :: rest)
    (h : new.Perm (w.request.stake w.port true :: ({ s.leaseUnit with queue := older ++ rest } : LeaseUnit).stakes))
    (free : w.settling = none → s.leaseUnit.Unopposed older w) : s.StakesBecome new := by
  have same : s.leaseUnit.stakes = ({ s.leaseUnit with queue := older ++ w :: rest } : LeaseUnit).stakes := by rw [← queue]
  refine .firmed w.stake _ (same ▸ LeaseUnit.stakes_queue s.leaseUnit older rest w) h (fun loose => ?_)
  have unopposed := free (by
    refine Classical.byContradiction (fun c => ?_)
    rw [(Waiter.firm_iff w).mpr c] at loose
    cases loose)
  exact ⟨unopposed.room, unopposed.apart queue⟩

theorem Change.stakes {s t : State} (stands : s.SettlingStands) (c : Change s t) :
    s.StakesBecome t.leaseUnit.stakes := by
  cases c with
  | view same =>
    exact .of_eq (LeaseUnit.stakes_congr (by rw [same.leases]) (by rw [same.queue]) (fun _ => by rw [same.settling]))
  | removal P => exact .fewer (.of_sublist (LeaseUnit.stakes_sublist (by exact List.filter_sublist) (by exact .refl _) (by rfl)))
  | renew p id life =>
    refine .of_eq (LeaseUnit.stakes_congr ?_ rfl (fun _ => rfl))
    rw [State.modLease_leaseUnit, LeaseUnit.renewLease, List.map_map]
    refine List.map_congr_left (fun l _ => ?_)
    rw [Function.comp_apply]
    split <;> rfl
  | dropWaiter p tag =>
    exact .fewer (.of_sublist (LeaseUnit.stakes_sublist (by exact .refl _) (by exact List.filter_sublist) (by rfl)))
  | waitersLeave p =>
    refine .fewer (Among.trans ?_ (s.leaseUnit.stakes_emptied p))
    exact .of_sublist (LeaseUnit.stakes_sublist (by exact .refl _) (by exact List.filter_sublist) (by rfl))
  | joinQueue p x e asks =>
    refine .asked p x e asks false (fun k => by cases k) ?_
    have := LeaseUnit.stakes_queue s.leaseUnit s.leaseUnit.queue []
      { port := p, tag := e.tag, request := x, wait := x.wait, settling := none }
    rwa [List.append_nil] at this
  | enterSettling p x e asks clear =>
    exact .asked p x e asks true (fun _ => clear) (LeaseUnit.stakes_enter (asks.settling_none stands) _)
  | grantNow p x e asks clear => exact .asked p x e asks true (fun _ => clear) (LeaseUnit.grant_stakes ..)
  | grantSettling p x settling =>
    exact .fewer (.of_perm ((LeaseUnit.grant_stakes ..).trans (LeaseUnit.stakes_settling settling).symm))
  | settleWaiter older rest w claims queue verdict =>
    exact .of_waiter queue (LeaseUnit.stakes_queue s.leaseUnit older rest { w with settling := some claims })
      (fun _ => (LeaseUnit.verdict_settle verdict).2.1)
  | grantWaiter older rest w queue verdict =>
    refine .of_waiter queue (LeaseUnit.grant_stakes { s.leaseUnit with queue := older ++ rest } w.port w.request)
      (fun none => ?_)
    rcases LeaseUnit.verdict_grant verdict with settled | ⟨-, free, -⟩
    · rw [none] at settled
      cases settled
    · exact free
  | endClaim r =>
    refine .of_eq (LeaseUnit.stakes_congr rfl ?_ (fun p => ?_))
    · rw [State.modLease_leaseUnit, LeaseUnit.removeClaim, List.map_map]
      refine List.map_congr_left (fun w _ => ?_)
      rw [Function.comp_apply, Waiter.stake, Option.isSome_map]
      rfl
    · rw [State.modLease_leaseUnit, LeaseUnit.removeClaim_settling, Option.map_map]
      rfl
  | lowerTimers =>
    refine .of_eq (LeaseUnit.stakes_congr ?_ ?_ (fun _ => rfl))
    · rw [State.modLease_leaseUnit, LeaseUnit.lowerTimers, List.map_map]
      rfl
    · rw [State.modLease_leaseUnit, LeaseUnit.lowerTimers, List.map_map]
      refine List.map_congr_left (fun w _ => ?_)
      rw [Function.comp_apply]
      split <;> rfl
  | reset _ _ _ lease =>
    rw [lease]
    exact .fewer (.of_sublist (List.nil_sublist _))
  | _ => exact .of_eq rfl

/-! ## Leases never conflict -/

theorem LeaseUnit.conflictOf_eq_none {u : LeaseUnit} {p : Port} {x : LeaseRequest} (h : u.conflictOf p x = none) :
    (∀ l ∈ u.leases, x.conflictsLease p l = false) ∧ (∀ w ∈ u.queue, x.conflictsWaiter p w = false) ∧
    ∀ q t, u.settling.get q = some t → x.conflictsSettling p q t = false := by
  unfold LeaseUnit.conflictOf at h
  rcases lowestLease_spec (u.leases.filter (x.conflictsLease p)) with ⟨none, empty⟩ | ⟨l, -, some, -⟩
  · rw [none] at h
    dsimp only at h
    cases waiter : u.queue.find? (x.conflictsWaiter p) with
    | some w =>
      rw [waiter] at h
      cases h
    | none =>
      rw [waiter] at h
      dsimp only at h
      rw [Option.map_eq_none_iff, List.find?_eq_none] at h
      refine ⟨fun l hl => ?_, fun w hw => ?_, fun q t ht => ?_⟩
      · exact eq_false_of_ne_true (List.filter_eq_nil_iff.mp empty l hl)
      · exact eq_false_of_ne_true (List.find?_eq_none.mp waiter w hw)
      · exact eq_false_of_ne_true (h (q, t) ((u.mem_settlingExecuting q t).mpr ht))
  · rw [some] at h
    cases h

/-- What a port asks for is apart from its own stakes and, where it is clear, conflicts with no stake. -/
theorem State.Asks.agrees {s : State} {p : Port} {x : LeaseRequest} {e : Executing} (asks : s.Asks p x e)
    (stands : s.SettlingStands) {firm : Bool} (clear : firm = true → s.Clear p x) (b : Stake)
    (hb : b ∈ s.leaseUnit.stakes) : (x.stake p firm).Agrees b := by
  have apart := asks.apart
  simp only [LeaseUnit.overlapsOwn, LeaseUnit.leasesOf, LeaseUnit.waitersOf, Bool.or_eq_false_iff, List.any_eq_false,
    List.mem_filter, beq_iff_eq, Bool.not_eq_true] at apart
  have conflict := fun f => LeaseUnit.conflictOf_eq_none (clear f).conflict
  rcases (LeaseUnit.mem_stakes ..).mp hb with ⟨l, hl, rfl⟩ | ⟨w, hw, rfl⟩ | ⟨q, t, ht, rfl⟩
  · refine ⟨fun own => ?_, fun f _ => (conflict f).1 l hl⟩
    rw [Range.Disjoint, Range.intersects_comm]
    exact apart.1 l ⟨hl, own.symm⟩
  · refine ⟨fun own => ?_, fun f _ => (conflict f).2.1 w hw⟩
    rw [Range.Disjoint, Range.intersects_comm]
    exact apart.2 w ⟨hw, own.symm⟩
  · refine ⟨fun own => ?_, fun f _ => (conflict f).2.2 q t ht⟩
    obtain rfl : p = q := own
    rw [asks.settling_none stands] at ht
    cases ht

theorem pairwise_agrees_perm {l m : List Stake} (h : l.Perm m) : l.Pairwise Stake.Agrees ↔ m.Pairwise Stake.Agrees :=
  h.pairwise_iff Stake.Agrees.symm

theorem State.StakesBecome.agree {s : State} {new : List Stake} (h : s.StakesBecome new) (stands : s.SettlingStands)
    (agree : s.leaseUnit.stakes.Pairwise Stake.Agrees) : new.Pairwise Stake.Agrees := by
  cases h with
  | fewer h =>
    obtain ⟨l, perm, sub⟩ := h
    exact (pairwise_agrees_perm perm).mp (agree.sublist sub)
  | asked p x e asks firm clear h =>
    rw [pairwise_agrees_perm h, List.pairwise_cons]
    exact ⟨asks.agrees stands clear, agree⟩
  | firmed a rest old h free =>
    rw [pairwise_agrees_perm old, List.pairwise_cons] at agree
    rw [pairwise_agrees_perm h, List.pairwise_cons]
    refine ⟨fun b hb => ⟨(agree.1 b hb).1, fun _ firm => ?_⟩, agree.2⟩
    cases loose : a.firm with
    | true => exact (agree.1 b hb).2 loose firm
    | false => exact (free loose).2 b hb firm

/-- Settles O55: all stakes of the lease unit agree after every change. -/
theorem leasesNeverConflict : Obligations.LeasesNeverConflict := by
  unfold Obligations.LeasesNeverConflict
  refine stepKeeps_of_changes (fun s t h c => ?_) (fun s t h c => ?_)
  · rw [State.leasesOrderly_iff] at *
    obtain ⟨agree, stands⟩ := h
    exact ⟨(c.stakes stands).agree stands agree, c.settlingStands stands⟩
  · rw [State.leasesOrderly_iff] at *
    obtain ⟨agree, stands⟩ := h
    refine ⟨?_, c.settlingStands stands⟩
    cases c <;> exact agree

end Sys2Proof.Machine
end

section
/-! SUPPORT. No lease forbids a standing claim, change by change (R52, R53, R55). -/

namespace Sys2Proof.Machine

/-- A lease forbids only what conflicts with its request (R43, R53). -/
theorem Access.forbids_of_not_conflicts {c : Access} {l : Lease} (h : c.conflictsRequest l.kind l.range = false) :
    l.forbids c = false := by
  simp only [Access.conflictsRequest, Bool.or_eq_false_iff, Bool.and_eq_false_iff] at h
  obtain ⟨writes, reads⟩ := h
  simp only [Lease.forbids, Lease.forbidsRead, writes, Bool.and_false, Bool.or_false, Bool.and_eq_false_iff]
  rcases reads with shared | apart
  · exact .inl (.inl shared)
  · exact .inr apart

/-- What conflicts with a request meets its range. -/
theorem Access.meets_of_conflicts {c : Access} {k : LeaseKind} {r : Range} (h : c.conflictsRequest k r = true) :
    c.meets r = true := by
  simp only [Access.conflictsRequest, Access.meets, Bool.or_eq_true, Bool.and_eq_true] at *
  rcases h with writes | ⟨-, reads⟩
  · exact .inr writes
  · exact .inl reads

theorem LeaseUnit.mem_conflictingClaims {u : LeaseUnit} {k : LeaseKind} {r : Range} {c : Access} (h : c ∈ u.claims)
    (conflicts : c.conflictsRequest k r = true) : c.requester ∈ u.conflictingClaims k r :=
  List.mem_map_of_mem (List.mem_filter.mpr ⟨h, conflicts⟩)

/-- What the lease unit admits is forbidden by no lease and meets no range that is to be leased (R52). -/
theorem LeaseUnit.decide_admitted {u : LeaseUnit} {a : Access} (h : u.decide a = some .admitted) :
    (∀ l ∈ u.leases, l.forbids a = false) ∧ ∀ r ∈ u.settlingRanges, a.meets r = false := by
  unfold LeaseUnit.decide at h
  rcases lowestLease_spec (u.leases.filter (fun l => l.forbids a)) with ⟨none, empty⟩ | ⟨l, -, some, -⟩
  · rw [none] at h
    dsimp only at h
    split at h
    · cases h
    · rename_i apart
      exact ⟨fun l hl => eq_false_of_ne_true (List.filter_eq_nil_iff.mp empty l hl),
        fun r hr => eq_false_of_ne_true (List.any_eq_false.mp (eq_false_of_ne_true apart) r hr)⟩
  · rw [some] at h
    cases h

/-- The claims, the leases and the recorded claims of the lease unit, as one statement about it. -/
structure LeaseUnit.ClaimsUnforbidden (u : LeaseUnit) : Prop where
  claims : ∀ c ∈ u.claims, ∀ l ∈ u.leases, l.forbids c = false
  waiters : ∀ w ∈ u.queue, ∀ recorded, w.settling = some recorded → ∀ c ∈ u.claims,
    c.conflictsRequest w.request.kind w.request.range = true → c.requester ∈ recorded
  executing : ∀ p t, u.settling.get p = some t → ∀ c ∈ u.claims,
    c.conflictsRequest t.request.kind t.request.range = true → c.requester ∈ t.recorded

theorem State.claimsUnforbidden_iff (s : State) : s.ClaimsUnforbidden ↔ s.leaseUnit.ClaimsUnforbidden :=
  ⟨fun ⟨a, b, c⟩ => ⟨a, b, c⟩, fun ⟨a, b, c⟩ => ⟨a, b, c⟩⟩

/-- A grant with which no standing claim conflicts. -/
theorem LeaseUnit.ClaimsUnforbidden.grant {u : LeaseUnit} (h : u.ClaimsUnforbidden) (p : Port) (x : LeaseRequest)
    (free : ∀ c ∈ u.claims, c.conflictsRequest x.kind x.range = false) : (u.grant p x).ClaimsUnforbidden := by
  refine ⟨fun c hc l hl => ?_, h.waiters, h.executing⟩
  rcases List.mem_append.mp hl with old | new
  · exact h.claims c hc l old
  · obtain rfl := List.mem_singleton.mp new
    exact Access.forbids_of_not_conflicts (free c hc)

theorem LeaseUnit.ClaimsUnforbidden.fewer {u v : LeaseUnit} (h : u.ClaimsUnforbidden) (leases : v.leases ⊆ u.leases)
    (queue : v.queue ⊆ u.queue) (settling : ∀ p t, v.settling.get p = some t → u.settling.get p = some t)
    (claims : v.claims = u.claims) : v.ClaimsUnforbidden := by
  refine ⟨?_, ?_, ?_⟩ <;> rw [claims]
  · exact fun c hc l hl => h.claims c hc l (leases hl)
  · exact fun w hw => h.waiters w (queue hw)
  · exact fun p t ht => h.executing p t (settling p t ht)

/-- No claim conflicts where no requester of a conflicting claim is listed. -/
theorem LeaseUnit.no_conflict_of_nil {u : LeaseUnit} {k : LeaseKind} {r : Range} (h : u.conflictingClaims k r = []) :
    ∀ c ∈ u.claims, c.conflictsRequest k r = false := by
  intro c hc
  refine Classical.byContradiction (fun conflicts => ?_)
  have := LeaseUnit.mem_conflictingClaims hc (eq_true_of_ne_false conflicts)
  rw [h] at this
  exact absurd this List.not_mem_nil

/-- The end of a claim removes it and every record of it (R55). -/
theorem LeaseUnit.ClaimsUnforbidden.removeClaim {u : LeaseUnit} (h : u.ClaimsUnforbidden) (r : Requester) :
    (u.removeClaim r).ClaimsUnforbidden := by
  have kept : ∀ recorded, ∀ c ∈ (u.removeClaim r).claims, c.requester ∈ recorded → c.requester ∈ dropClaim r recorded :=
    fun recorded c hc member => List.mem_filter.mpr ⟨member, (List.mem_filter.mp hc).2⟩
  refine ⟨fun c hc => h.claims c (List.mem_filter.mp hc).1, fun w hw recorded settling c hc conflicts => ?_,
    fun p t ht c hc conflicts => ?_⟩
  · obtain ⟨v, hv, rfl⟩ := List.mem_map.mp hw
    obtain ⟨old, before, rfl⟩ := Option.map_eq_some_iff.mp settling
    exact kept old c hc (h.waiters v hv old before c (List.mem_filter.mp hc).1 conflicts)
  · rw [LeaseUnit.removeClaim_settling] at ht
    obtain ⟨x, hx, rfl⟩ := Option.map_eq_some_iff.mp ht
    exact kept x.recorded c hc (h.executing p x hx c (List.mem_filter.mp hc).1 conflicts)

/-- An admitted access becomes a claim: it meets no range of a SETTLING request (R52, R54). -/
theorem LeaseUnit.ClaimsUnforbidden.addClaim {u : LeaseUnit} (h : u.ClaimsUnforbidden) {a : Access}
    (admitted : u.decide a = some .admitted) :
    ({ u with claims := u.claims ++ [a] } : LeaseUnit).ClaimsUnforbidden := by
  obtain ⟨allowed, apart⟩ := LeaseUnit.decide_admitted admitted
  have excluded : ∀ k r, r ∈ u.settlingRanges → a.conflictsRequest k r ≠ true := by
    intro k r hr conflicts
    have := Access.meets_of_conflicts conflicts
    rw [apart r hr] at this
    cases this
  refine ⟨fun c hc => ?_, fun w hw recorded settling c hc conflicts => ?_, fun p t ht c hc conflicts => ?_⟩
  all_goals rcases List.mem_append.mp hc with old | new
  · exact h.claims c old
  · obtain rfl := List.mem_singleton.mp new
    exact allowed
  · exact h.waiters w hw recorded settling c old conflicts
  · obtain rfl := List.mem_singleton.mp new
    refine absurd conflicts (excluded _ _ (List.mem_append_right _ (List.mem_map_of_mem ?_)))
    exact (u.mem_settlingWaiters w).mpr ⟨hw, by rw [settling]; exact Option.some_ne_none _⟩
  · exact h.executing p t ht c old conflicts
  · obtain rfl := List.mem_singleton.mp new
    refine absurd conflicts (excluded _ _ (List.mem_append_left _ ?_))
    exact List.mem_map.mpr ⟨(p, t), (u.mem_settlingExecuting p t).mpr ht, rfl⟩

theorem Change.claimsUnforbidden {s t : State} (h : s.leaseUnit.ClaimsUnforbidden) (c : Change s t) :
    t.leaseUnit.ClaimsUnforbidden := by
  cases c with
  | view same =>
    refine ⟨?_, ?_, ?_⟩ <;> rw [same.claims]
    · rw [same.leases]
      exact h.claims
    · rw [same.queue]
      exact h.waiters
    · rw [same.settling]
      exact h.executing
  | removal P => exact h.fewer List.filter_sublist.subset (fun _ k => k) (fun _ _ e => e) rfl
  | dropWaiter p tag => exact h.fewer (fun _ k => k) List.filter_sublist.subset (fun _ _ e => e) rfl
  | waitersLeave p =>
    exact h.fewer (fun _ k => k) List.filter_sublist.subset (fun _ _ e => (PerPort.get_of_set_none e).2) rfl
  | renew p id life =>
    refine ⟨fun c hc l hl => ?_, h.waiters, h.executing⟩
    obtain ⟨m, hm, rfl⟩ := List.mem_map.mp hl
    have old := h.claims c hc m hm
    split <;> exact old
  | joinQueue p x e asks =>
    refine ⟨h.claims, fun w hw recorded settling => ?_, h.executing⟩
    rcases List.mem_append.mp hw with old | new
    · exact h.waiters w old recorded settling
    · obtain rfl := List.mem_singleton.mp new
      cases settling
  | enterSettling p x e asks clear =>
    refine ⟨h.claims, h.waiters, fun q t ht c hc conflicts => ?_⟩
    replace ht : (s.leaseUnit.settling.set p _).get q = some t := ht
    by_cases same : q = p
    · subst same
      rw [PerPort.get_set_self] at ht
      obtain rfl := Option.some.inj ht
      exact LeaseUnit.mem_conflictingClaims hc conflicts
    · rw [PerPort.get_set_ne _ _ same] at ht
      exact h.executing q t ht c hc conflicts
  | grantNow p x e asks clear claims => exact h.grant p x (LeaseUnit.no_conflict_of_nil claims)
  | grantSettling p t settling empty =>
    have free : ∀ c ∈ s.leaseUnit.claims, c.conflictsRequest t.request.kind t.request.range = false := by
      intro c hc
      refine Classical.byContradiction (fun conflicts => ?_)
      have := h.executing p t settling c hc (eq_true_of_ne_false conflicts)
      rw [empty] at this
      exact absurd this List.not_mem_nil
    exact (h.fewer (v := { s.leaseUnit with settling := s.leaseUnit.settling.set p none }) (fun _ k => k) (fun _ k => k)
      (fun _ _ e => (PerPort.get_of_set_none e).2) rfl).grant p t.request free
  | settleWaiter older rest w claims queue verdict =>
    obtain ⟨-, -, listed⟩ := LeaseUnit.verdict_settle verdict
    have waiters := queue ▸ h.waiters
    refine ⟨h.claims, fun v hv recorded settling c hc conflicts => ?_, h.executing⟩
    rcases List.mem_append.mp hv with old | new
    · exact waiters v (List.mem_append_left _ old) recorded settling c hc conflicts
    · rcases List.mem_cons.mp new with rfl | young
      · obtain rfl := Option.some.inj settling
        exact listed ▸ LeaseUnit.mem_conflictingClaims hc conflicts
      · exact waiters v (List.mem_append_right _ (List.mem_cons_of_mem _ young)) recorded settling c hc conflicts
  | grantWaiter older rest w queue verdict =>
    have here : w ∈ s.leaseUnit.queue := queue ▸ List.mem_append_right _ List.mem_cons_self
    refine (h.fewer (v := { s.leaseUnit with queue := older ++ rest }) (fun _ k => k) ?_ (fun _ _ e => e) rfl).grant
      w.port w.request ?_
    · rw [queue]
      exact ((List.sublist_cons_self w rest).append_left older).subset
    · rcases LeaseUnit.verdict_grant verdict with settled | ⟨-, -, none⟩
      · intro c hc
        refine Classical.byContradiction (fun conflicts => ?_)
        exact absurd (h.waiters w here [] settled c hc (eq_true_of_ne_false conflicts)) List.not_mem_nil
      · exact LeaseUnit.no_conflict_of_nil none
  | claim a admitted => exact h.addClaim admitted
  | endClaim r => exact h.removeClaim r
  | lowerTimers =>
    refine ⟨fun c hc l hl => ?_, fun w hw => ?_, h.executing⟩
    · obtain ⟨m, hm, rfl⟩ := List.mem_map.mp hl
      exact h.claims c hc m hm
    · obtain ⟨v, hv, rfl⟩ := List.mem_map.mp hw
      have old := h.waiters v hv
      split <;> exact old
  | reset _ _ _ lease =>
    rw [lease]
    exact ⟨fun _ k => absurd k List.not_mem_nil, fun _ k => absurd k List.not_mem_nil,
      fun p _ e => by cases p <;> cases e⟩
  | _ => exact h

/-- Settles O56: a claim is added only where no lease forbids it and no range to be leased meets it, and a lease is granted
only where no claim conflicts with it. -/
theorem noLeaseForbidsAStandingClaim : Obligations.NoLeaseForbidsAStandingClaim := by
  unfold Obligations.NoLeaseForbidsAStandingClaim
  refine stepKeeps_of_changes (fun s t h c => ?_) (fun s t h c => ?_)
  · rw [State.claimsUnforbidden_iff] at *
    exact c.claimsUnforbidden h
  · rw [State.claimsUnforbidden_iff] at *
    cases c <;> exact h

end Sys2Proof.Machine
end

section
/-! SUPPORT. The bounds of the lease table, of the wait queue and of a port's holdings, the ids of leases (R48 to R50, 02 TABLE 1). -/

namespace Sys2Proof.Machine

/-! ## Counts of stakes -/

theorem LeaseUnit.count_firm (u : LeaseUnit) : u.stakes.countP Stake.firm = u.leases.length + u.reservedEntries := by
  have leases : (u.leases.map Lease.stake).countP Stake.firm = u.leases.length := by
    rw [List.countP_map]
    exact List.countP_eq_length.mpr (fun _ _ => rfl)
  have executing : (u.settlingExecuting.map (fun t => t.2.request.stake t.1 true)).countP Stake.firm =
      u.settlingExecuting.length := by
    rw [List.countP_map]
    exact List.countP_eq_length.mpr (fun _ _ => rfl)
  have waiters : (u.queue.map Waiter.stake).countP Stake.firm = u.settlingWaiters.length := by
    rw [List.countP_map, LeaseUnit.settlingWaiters, ← List.countP_eq_length_filter]
    rfl
  rw [LeaseUnit.stakes, List.countP_append, List.countP_append, leases, executing, waiters, LeaseUnit.reservedEntries,
    Nat.add_comm u.settlingWaiters.length]

theorem LeaseUnit.count_executing_of_none {u : LeaseUnit} {p : Port} (h : u.settling.get p = none) :
    u.settlingExecuting.countP (fun t => t.1 == p) = 0 := by
  rw [List.countP_eq_zero]
  rintro ⟨q, t⟩ member here
  obtain rfl : q = p := beq_iff_eq.mp here
  rw [LeaseUnit.mem_settlingExecuting, h] at member
  cases member

theorem LeaseUnit.count_executing (u : LeaseUnit) (p : Port) :
    u.settlingExecuting.countP (fun t => t.1 == p) = (u.settling.get p).toList.length := by
  cases h : u.settling.get p with
  | none => exact LeaseUnit.count_executing_of_none h
  | some t =>
    rw [(LeaseUnit.settlingExecuting_perm h).countP_eq, List.countP_cons_of_pos (by exact beq_self_eq_true p),
      LeaseUnit.count_executing_of_none (PerPort.get_set_self ..)]
    rfl

/-- A port's stakes are its holdings and its SETTLING request. -/
theorem LeaseUnit.count_port (u : LeaseUnit) (p : Port) : u.stakes.countP (fun a => a.port == p) =
    u.holdings p + (u.settling.get p).toList.length := by
  have executing := u.count_executing p
  rw [LeaseUnit.stakes, List.countP_append, List.countP_append, List.countP_map, List.countP_map, List.countP_map,
    LeaseUnit.holdings, LeaseUnit.leasesOf, LeaseUnit.waitersOf, ← List.countP_eq_length_filter,
    ← List.countP_eq_length_filter, ← executing, Nat.add_assoc]
  rfl

theorem State.leaseTableFits_iff (s : State) : s.LeaseTableFits ↔ s.leaseUnit.stakes.countP Stake.firm ≤ leaseTableSize := by
  rw [LeaseUnit.count_firm]
  rfl

theorem State.holdingsFit_iff (s : State) : s.HoldingsFit ↔
    (∀ p, s.leaseUnit.stakes.countP (fun a => a.port == p) ≤ holdingsLimit) ∧ s.SettlingStands := by
  simp only [LeaseUnit.count_port]
  constructor
  · refine fun h => ⟨fun p => ?_, fun p settling => ((h p).2 settling).2⟩
    cases e : s.leaseUnit.settling.get p with
    | none => exact (h p).1
    | some t => exact ((h p).2 (by rw [e]; exact Option.some_ne_none t)).1
  · rintro ⟨count, stands⟩ p
    refine ⟨Nat.le_trans (Nat.le_add_right ..) (count p), fun settling => ⟨?_, stands p settling⟩⟩
    obtain ⟨t, e⟩ := Option.ne_none_iff_exists'.mp settling
    have := count p
    rw [e] at this
    exact this

theorem LeaseUnit.not_full {u : LeaseUnit} (h : u.full = false) : u.stakes.countP Stake.firm < leaseTableSize := by
  rw [LeaseUnit.count_firm]
  exact Nat.lt_of_not_le (fun c => by rw [(LeaseUnit.full_iff u).mpr c] at h; cases h)

/-- A stake becomes firm only where there is room (R50). -/
theorem State.StakesBecome.firm_count {s : State} {new : List Stake} (h : s.StakesBecome new)
    (fits : s.leaseUnit.stakes.countP Stake.firm ≤ leaseTableSize) : new.countP Stake.firm ≤ leaseTableSize := by
  cases h with
  | fewer h => exact Nat.le_trans (h.countP_le _) fits
  | asked p x e asks firm clear h =>
    rw [h.countP_eq]
    cases firm with
    | true =>
      rw [List.countP_cons_of_pos (by rfl)]
      exact LeaseUnit.not_full (clear rfl).room
    | false => rwa [List.countP_cons_of_neg (by exact Bool.false_ne_true)]
  | firmed a rest old h free =>
    rw [h.countP_eq, List.countP_cons_of_pos rfl]
    rw [old.countP_eq] at fits
    cases loose : a.firm with
    | true => rwa [List.countP_cons_of_pos loose] at fits
    | false =>
      have room := LeaseUnit.not_full (free loose).1
      rwa [old.countP_eq, List.countP_cons_of_neg (by rw [loose]; exact Bool.false_ne_true)] at room

/-- A port's stake is added only while it holds fewer than four (R47). -/
theorem State.StakesBecome.port_count {s : State} {new : List Stake} (h : s.StakesBecome new) (stands : s.SettlingStands)
    {p : Port} (fits : s.leaseUnit.stakes.countP (fun a => a.port == p) ≤ holdingsLimit) :
    new.countP (fun a => a.port == p) ≤ holdingsLimit := by
  cases h with
  | fewer h => exact Nat.le_trans (h.countP_le _) fits
  | asked q x e asks firm clear h =>
    rw [h.countP_eq]
    by_cases own : q = p
    · subst own
      rw [List.countP_cons_of_pos (by exact beq_self_eq_true q), LeaseUnit.count_port, asks.settling_none stands]
      exact asks.holdings
    · rwa [List.countP_cons_of_neg (by exact fun c => own (beq_iff_eq.mp c))]
  | firmed a rest old h free =>
    rw [h.countP_eq, List.countP_cons]
    rwa [old.countP_eq, List.countP_cons] at fits

/-! ## The ids of leases -/

theorem LeaseUnit.grant_ids {u : LeaseUnit} (p : Port) (x : LeaseRequest) (few : u.leases.length < 255)
    (h : (u.leases.map Lease.id).Nodup ∧ ∀ l ∈ u.leases, 1 ≤ l.id ∧ l.id ≤ 255) :
    ((u.grant p x).leases.map Lease.id).Nodup ∧ ∀ l ∈ (u.grant p x).leases, 1 ≤ l.id ∧ l.id ≤ 255 := by
  obtain ⟨fresh, range⟩ := nextId_fresh u.lastId (used := u.leases.map Lease.id) (by rwa [List.length_map])
  refine ⟨?_, fun l hl => ?_⟩
  · rw [LeaseUnit.grant, List.map_append, List.nodup_append]
    refine ⟨h.1, nodup_one _, ?_⟩
    intro i hi j hj same
    obtain rfl := same.trans (List.mem_singleton.mp hj)
    exact fresh hi
  · rcases List.mem_append.mp hl with old | new
    · exact h.2 l old
    · obtain rfl := List.mem_singleton.mp new
      exact range

/-- Leases that are changed but for their ids. -/
theorem LeaseUnit.map_ids {ls : List Lease} (f : Lease → Lease) (same : ∀ l, (f l).id = l.id)
    (h : (ls.map Lease.id).Nodup ∧ ∀ l ∈ ls, 1 ≤ l.id ∧ l.id ≤ 255) :
    ((ls.map f).map Lease.id).Nodup ∧ ∀ l ∈ ls.map f, 1 ≤ l.id ∧ l.id ≤ 255 := by
  refine ⟨?_, fun l hl => ?_⟩
  · rw [List.map_map, List.map_congr_left (f := Lease.id ∘ f) (g := Lease.id) (fun l _ => same l)]
    exact h.1
  · obtain ⟨m, hm, rfl⟩ := List.mem_map.mp hl
    rw [same]
    exact h.2 m hm

theorem Change.leaseIdsDistinct {s t : State} (h : s.LeaseIdsDistinct) (fits : s.LeaseTableFits) (c : Change s t) :
    t.LeaseIdsDistinct := by
  have few : s.leaseUnit.leases.length < 255 := by
    unfold State.LeaseTableFits leaseTableSize at fits
    omega
  unfold State.LeaseIdsDistinct at *
  cases c with
  | view same => rwa [same.leases]
  | removal P =>
    exact ⟨h.1.sublist (List.filter_sublist.map _), fun l hl => h.2 l (List.mem_filter.mp hl).1⟩
  | renew p id life => exact LeaseUnit.map_ids _ (fun l => by split <;> rfl) h
  | grantNow p x => exact LeaseUnit.grant_ids p x few h
  | grantSettling p x => exact LeaseUnit.grant_ids (u := { s.leaseUnit with settling := _ }) p x.request few h
  | grantWaiter older rest w => exact LeaseUnit.grant_ids (u := { s.leaseUnit with queue := _ }) w.port w.request few h
  | lowerTimers => exact LeaseUnit.map_ids _ (fun _ => rfl) h
  | reset _ _ _ lease =>
    rw [lease]
    exact ⟨List.nodup_nil, fun l hl => absurd hl List.not_mem_nil⟩
  | _ => exact h

end Sys2Proof.Machine
end

section
/-! SUPPORT. The in-flight table beside the wait queue, and what teardown leaves of a port (R17, R19 to R22). -/

namespace Sys2Proof.Machine

/-! ## The tags of a port's waiters -/

/-- The tags of a port's waiters, oldest first. -/
def LeaseUnit.tagsOf (u : LeaseUnit) (p : Port) : List Byte := (u.waitersOf p).map Waiter.tag

theorem LeaseUnit.waitersOf_nil_iff (u : LeaseUnit) (p : Port) : u.waitersOf p = [] ↔ u.tagsOf p = [] :=
  List.map_eq_nil_iff.symm

/-- The tags of a port read from the queue's ports and tags alone. -/
theorem LeaseUnit.tagsOf_eq (u : LeaseUnit) (p : Port) : u.tagsOf p =
    ((u.queue.map (fun w => (w.port, w.tag))).filter (fun k => k.1 == p)).map Prod.snd := by
  rw [List.filter_map, List.map_map]
  rfl

theorem LeaseUnit.tagsOf_congr {u v : LeaseUnit}
    (h : v.queue.map (fun w => (w.port, w.tag)) = u.queue.map (fun w => (w.port, w.tag))) (p : Port) :
    v.tagsOf p = u.tagsOf p := by
  rw [LeaseUnit.tagsOf_eq, h, LeaseUnit.tagsOf_eq]

theorem LeaseUnit.tagsOf_removeWaiter (u : LeaseUnit) (p : Port) (tag : Byte) (q : Port) :
    (u.removeWaiter p tag).tagsOf q = if q = p then (u.tagsOf p).filter (fun t => t != tag) else u.tagsOf q := by
  simp only [LeaseUnit.tagsOf, LeaseUnit.waitersOf, LeaseUnit.removeWaiter, List.filter_filter]
  split
  · rename_i e
    subst e
    rw [List.filter_map, List.filter_filter]
    refine congrArg _ (List.filter_congr (fun w _ => ?_))
    cases w.port == q <;> simp [bne]
  · rename_i e
    refine congrArg _ (List.filter_congr (fun w _ => ?_))
    by_cases own : w.port = q
    · simp [own, e]
    · simp [own]

theorem LeaseUnit.tagsOf_removeWaiting (u : LeaseUnit) (p q : Port) :
    (u.removeWaiting p).tagsOf q = if q = p then [] else u.tagsOf q := by
  split
  · rename_i e
    subst e
    rw [LeaseUnit.tagsOf, LeaseUnit.waitersOf_removeWaiting, List.map_nil]
  · rename_i e
    simp only [LeaseUnit.tagsOf, LeaseUnit.waitersOf, LeaseUnit.removeWaiting, List.filter_filter]
    refine congrArg _ (List.filter_congr (fun w _ => ?_))
    by_cases own : w.port = q
    · simp [own, e]
    · simp [own]

theorem LeaseUnit.tagsOf_join (u : LeaseUnit) (w : Waiter) (q : Port) :
    ({ u with queue := u.queue ++ [w] } : LeaseUnit).tagsOf q =
      if q = w.port then u.tagsOf q ++ [w.tag] else u.tagsOf q := by
  simp only [LeaseUnit.tagsOf, LeaseUnit.waitersOf, List.filter_append, List.map_append]
  split
  · rename_i e
    simp [e]
  · rename_i e
    have other : (w.port == q) = false := beq_eq_false_iff_ne.mpr (fun c => e c.symm)
    simp [other]

/-- A waiter that leaves the queue takes its tag, which is once in its port's list. -/
theorem LeaseUnit.tagsOf_leave {u : LeaseUnit} {older rest : List Waiter} {w : Waiter}
    (queue : u.queue = older ++ w :: rest) (q : Port) (distinct : (u.tagsOf q).Nodup) :
    ({ u with queue := older ++ rest } : LeaseUnit).tagsOf q =
      if q = w.port then (u.tagsOf q).filter (fun t => t != w.tag) else u.tagsOf q := by
  simp only [LeaseUnit.tagsOf, LeaseUnit.waitersOf, queue, List.filter_append, List.map_append, List.filter_cons] at *
  split
  · rename_i e
    have own : (w.port == q) = true := beq_iff_eq.mpr e.symm
    rw [if_pos own, List.map_cons] at distinct ⊢
    have fresh := (List.perm_middle.nodup_iff.mp distinct)
    rw [List.nodup_cons] at fresh
    rw [List.filter_cons_of_neg (by simp), ← List.filter_append]
    refine (List.filter_eq_self.mpr (fun t ht => bne_iff_ne.mpr (fun c => ?_))).symm
    obtain rfl : t = w.tag := c
    exact fresh.1 ht
  · rename_i e
    rw [if_neg (by simpa using fun c => e c.symm)]

/-! ## One port's requests in flight -/

/-- One port's waiters, WAITING entries and EXECUTING request (R17, R47). -/
structure State.PortInFlight (s : State) (p : Port) : Prop where
  waiting : (s.pu.get p).waiting.map Waiting.tag = s.leaseUnit.tagsOf p
  distinct : (s.leaseUnit.tagsOf p).Nodup
  few : (s.leaseUnit.tagsOf p).length ≤ portWaiterLimit
  executing : ∀ tag, (s.pu.get p).executing.map Executing.tag = some tag → tag ∉ s.leaseUnit.tagsOf p

theorem State.inFlightOrderly_iff (s : State) :
    s.InFlightOrderly ∧ (∀ p, (s.leaseUnit.waitersOf p).length ≤ portWaiterLimit) ↔ ∀ p, s.PortInFlight p := by
  constructor
  · rintro ⟨⟨waiting, distinct, executing, -⟩, few⟩ p
    refine ⟨waiting p, distinct p, ?_, fun tag e => ?_⟩
    · rw [LeaseUnit.tagsOf, List.length_map]
      exact few p
    · obtain ⟨x, hx, rfl⟩ := Option.map_eq_some_iff.mp e
      have := executing p x hx
      rwa [waiting p] at this
  · intro h
    have few : ∀ p, (s.leaseUnit.waitersOf p).length ≤ portWaiterLimit := by
      intro p
      have := (h p).few
      rwa [LeaseUnit.tagsOf, List.length_map] at this
    refine ⟨⟨fun p => (h p).waiting, fun p => (h p).distinct, fun p x e => ?_, fun p => ?_⟩, few⟩
    · rw [(h p).waiting]
      exact (h p).executing x.tag (by rw [e, Option.map_some])
    · have waiting := congrArg List.length (h p).waiting
      rw [List.length_map] at waiting
      have executing : (s.pu.get p).executing.toList.length ≤ 1 := by
        cases (s.pu.get p).executing <;> simp
      have := (h p).few
      unfold portWaiterLimit at this
      omega

/-- Nothing of the port's requests in flight changes but that its EXECUTING request may leave or go into another phase. -/
theorem State.PortInFlight.congr {s t : State} {p : Port} (h : s.PortInFlight p)
    (waiting : (t.pu.get p).waiting.map Waiting.tag = (s.pu.get p).waiting.map Waiting.tag)
    (tags : t.leaseUnit.tagsOf p = s.leaseUnit.tagsOf p)
    (executing : (t.pu.get p).executing.map Executing.tag = (s.pu.get p).executing.map Executing.tag ∨
      (t.pu.get p).executing = none) : t.PortInFlight p := by
  refine ⟨by rw [waiting, tags, h.waiting], tags ▸ h.distinct, tags ▸ h.few, fun tag e => ?_⟩
  rw [tags]
  rcases executing with same | gone
  · exact h.executing tag (same ▸ e)
  · rw [gone] at e
    cases e

/-- A change of one port unit and of that port's tags. -/
theorem State.inFlight_set {s t : State} (h : ∀ q, s.PortInFlight q) {p : Port} {u : PortUnit}
    (pu : t.pu = s.pu.set p u) (tags : ∀ q, q ≠ p → t.leaseUnit.tagsOf q = s.leaseUnit.tagsOf q)
    (here : t.pu.get p = u → t.PortInFlight p) (q : Port) : t.PortInFlight q := by
  by_cases c : q = p
  · subst c
    exact here (by rw [pu, PerPort.get_set_self])
  · have same : t.pu.get q = s.pu.get q := by rw [pu, PerPort.get_set_ne _ _ c]
    exact (h q).congr (by rw [same]) (tags q c) (.inl (by rw [same]))

/-- A change of one port unit that leaves its WAITING entries and, but for its phase, its EXECUTING request, unless that
leaves. -/
theorem State.inFlight_modPu {s : State} (h : ∀ q, s.PortInFlight q) (p : Port) (f : PortUnit → PortUnit)
    (waiting : (f (s.pu.get p)).waiting = (s.pu.get p).waiting)
    (executing : (f (s.pu.get p)).executing.map Executing.tag = (s.pu.get p).executing.map Executing.tag ∨
      (f (s.pu.get p)).executing = none) (q : Port) : (s.modPu p f).PortInFlight q :=
  State.inFlight_set (t := s.modPu p f) h rfl (fun _ _ => rfl)
    (fun e => (h p).congr (by rw [e, waiting]) rfl (by rwa [e])) q

/-- A change of the lease unit that leaves the tags. -/
theorem State.inFlight_lease {s t : State} (h : ∀ q, s.PortInFlight q) (pu : t.pu = s.pu)
    (tags : t.leaseUnit.queue.map (fun w => (w.port, w.tag)) = s.leaseUnit.queue.map (fun w => (w.port, w.tag))) (q : Port) :
    t.PortInFlight q := (h q).congr (by rw [pu]) (LeaseUnit.tagsOf_congr tags q) (.inl (by rw [pu]))

/-- Tags that leave the queue and the in-flight table together. -/
theorem State.PortInFlight.filter {s t : State} {p : Port} (h : s.PortInFlight p) (keep : Byte → Bool)
    (waiting : (t.pu.get p).waiting = (s.pu.get p).waiting.filter (fun e => keep e.tag))
    (tags : t.leaseUnit.tagsOf p = (s.leaseUnit.tagsOf p).filter keep)
    (executing : (t.pu.get p).executing = (s.pu.get p).executing) : t.PortInFlight p := by
  refine ⟨?_, ?_, ?_, fun tag e member => ?_⟩
  · rw [waiting, tags, ← h.waiting, List.filter_map]
    rfl
  · rw [tags]
    exact h.distinct.filter _
  · rw [tags]
    exact Nat.le_trans (List.length_filter_le ..) h.few
  · rw [tags] at member
    rw [executing] at e
    exact h.executing tag e (List.mem_filter.mp member).1

theorem Change.portInFlight {s t : State} (h : ∀ p, s.PortInFlight p) (c : Change s t) : ∀ p, t.PortInFlight p := by
  cases c with
  | view same =>
    intro p
    obtain ⟨-, executing, waiting, -, -⟩ := same.unit p
    refine (h p).congr waiting (LeaseUnit.tagsOf_congr (by rw [same.queue]) p) (.inl ?_)
    have tags := congrArg (Option.map Prod.fst) executing
    rwa [Option.map_map, Option.map_map] at tags
  | begin p x free up deciding fresh =>
    refine State.inFlight_set h rfl (fun _ _ => rfl) (fun e => ?_)
    refine ⟨by rw [e]; exact (h p).waiting, (h p).distinct, (h p).few, fun tag own member => ?_⟩
    rw [e] at own
    obtain rfl := Option.some.inj own
    replace member : x.tag ∈ s.leaseUnit.tagsOf p := member
    rw [← (h p).waiting] at member
    obtain ⟨w, hw, same⟩ := List.mem_map.mp member
    exact absurd (beq_iff_eq.mpr same) (List.any_eq_false.mp fresh w hw)
  | phase p f =>
    refine State.inFlight_modPu h p _ rfl (.inl ?_)
    rw [Option.map_map]
    rfl
  | done p => exact State.inFlight_modPu h p _ rfl (.inr rfl)
  | window p => exact State.inFlight_modPu h p _ rfl (.inl rfl)
  | opened p => exact State.inFlight_modPu h p _ rfl (.inl rfl)
  | close p => exact State.inFlight_modPu h p _ rfl (.inl rfl)
  | down p => exact State.inFlight_modPu h p _ rfl (.inl rfl)
  | waiterTaken p => exact State.inFlight_modPu h p _ rfl (.inl rfl)
  | leaseTaken p => exact State.inFlight_modPu h p _ rfl (.inl rfl)
  | engineTaken p => exact State.inFlight_modPu h p _ rfl (.inl rfl)
  | dropWaiter p tag =>
    refine State.inFlight_set h rfl (fun q c => ?_) (fun e => ?_)
    · exact (s.leaseUnit.tagsOf_removeWaiter p tag q).trans (if_neg c)
    · exact (h p).filter (fun x => x != tag) (by rw [e]; rfl)
        ((s.leaseUnit.tagsOf_removeWaiter p tag p).trans (if_pos rfl)) (by rw [e]; rfl)
  | waitersLeave p =>
    refine State.inFlight_set h rfl (fun q c => ?_) (fun e => ?_)
    · exact (s.leaseUnit.tagsOf_removeWaiting p q).trans (if_neg c)
    · have all : (s.leaseUnit.tagsOf p).filter (fun x => (s.leaseUnit.waitersOf p).all (fun w => w.tag != x)) = [] := by
        rw [List.filter_eq_nil_iff]
        intro x hx every
        obtain ⟨w, hw, rfl⟩ := List.mem_map.mp hx
        exact absurd (List.all_eq_true.mp every w hw) (by simp)
      exact (h p).filter (fun x => (s.leaseUnit.waitersOf p).all (fun w => w.tag != x)) (by rw [e]; rfl)
        (((s.leaseUnit.tagsOf_removeWaiting p p).trans (if_pos rfl)).trans all.symm) (by rw [e]; rfl)
  | joinQueue p x e asks room few =>
    have tags := s.leaseUnit.tagsOf_join { port := p, tag := e.tag, request := x, wait := x.wait, settling := none }
    have fresh : e.tag ∉ s.leaseUnit.tagsOf p := (h p).executing _ (by rw [asks.executing, Option.map_some])
    refine State.inFlight_set h rfl (fun q c => (tags q).trans (if_neg c)) (fun unit => ?_)
    have own := (tags p).trans (if_pos rfl)
    refine ⟨?_, ?_, ?_, fun tag executing => ?_⟩
    · rw [unit]
      refine Eq.trans ?_ own.symm
      rw [List.map_append, ← (h p).waiting]
      rfl
    · refine own ▸ List.nodup_append.mpr ⟨(h p).distinct, nodup_one _, ?_⟩
      intro a ha b hb same
      obtain rfl := same.trans (List.mem_singleton.mp hb)
      exact fresh ha
    · refine own ▸ ?_
      rw [List.length_append, List.length_singleton, LeaseUnit.tagsOf, List.length_map]
      exact few
    · rw [unit] at executing
      cases executing
  | enterSettling p x e =>
    refine State.inFlight_set h rfl (fun _ _ => rfl) (fun unit => (h p).congr (by rw [unit]; rfl) rfl (.inl ?_))
    rw [unit]
    exact Option.map_map ..
  | settleWaiter older rest w claims queue =>
    refine State.inFlight_lease h rfl ?_
    rw [queue]
    show (older ++ { w with settling := some claims } :: rest).map _ = _
    simp only [List.map_append, List.map_cons]
  | grantWaiter older rest w queue =>
    have tags := fun q => LeaseUnit.tagsOf_leave queue q (h q).distinct
    refine State.inFlight_set h rfl (fun q c => (tags q).trans (if_neg c)) (fun unit => ?_)
    exact (h w.port).filter (fun x => x != w.tag) (by rw [unit]; rfl) ((tags w.port).trans (if_pos rfl)) (by rw [unit]; rfl)
  | endClaim r => exact State.inFlight_lease h rfl (List.map_map.trans rfl)
  | lowerTimers =>
    refine State.inFlight_lease h rfl (List.map_map.trans (List.map_congr_left (fun w _ => ?_)))
    rw [Function.comp_apply]
    split <;> rfl
  | reset _ _ pu lease =>
    intro p
    have waiters : t.leaseUnit.tagsOf p = [] := by rw [lease]; rfl
    refine ⟨by rw [waiters, pu, PerPort.get_const]; rfl, by rw [waiters]; exact List.nodup_nil, by rw [waiters]; decide,
      fun tag e => ?_⟩
    rw [pu, PerPort.get_const] at e
    cases e
  | removal | renew | grantNow | grantSettling | claim => exact State.inFlight_lease h rfl rfl
  | _ => exact fun p => (h p).congr rfl rfl (.inl rfl)

/-- The wait queue grows only while it has room (R49). -/
theorem Change.queueFits {s t : State} (h : s.leaseUnit.queue.length ≤ waitQueueSize) (c : Change s t) :
    t.leaseUnit.queue.length ≤ waitQueueSize := by
  cases c with
  | view same => rwa [same.queue]
  | dropWaiter p tag => exact Nat.le_trans (List.length_filter_le ..) h
  | waitersLeave p => exact Nat.le_trans (List.length_filter_le ..) h
  | joinQueue p x e asks room => exact Nat.le_trans (Nat.le_of_eq List.length_append) room
  | settleWaiter older rest w claims queue =>
    rw [queue] at h
    refine Nat.le_trans (Nat.le_of_eq (?_ : (older ++ { w with settling := some claims } :: rest).length = _)) h
    simp only [List.length_append, List.length_cons]
  | grantWaiter older rest w queue =>
    rw [queue] at h
    exact Nat.le_trans ((List.sublist_cons_self w rest).append_left older).length_le h
  | endClaim r => exact Nat.le_trans (Nat.le_of_eq (List.length_map ..)) h
  | lowerTimers => exact Nat.le_trans (Nat.le_of_eq (List.length_map ..)) h
  | reset _ _ _ lease =>
    rw [lease]
    exact Nat.zero_le _
  | _ => exact h

end Sys2Proof.Machine
end

section
/-! SUPPORT. What teardown leaves of a port, change by change, and the invariants of the lease table and the wait queue together
(R21, R22, R47 to R50). -/

namespace Sys2Proof.Machine

/-- The port waits for no lease: it has no waiter, no SETTLING request and no LEASE handed over (R21 step 1). -/
structure State.WaitsForNothing (s : State) (p : Port) : Prop where
  waiters : ∀ w ∈ s.leaseUnit.queue, w.port ≠ p
  settling : s.leaseUnit.settling.get p = none
  handed : ∀ x, s.handed p ≠ some (.lease x)

theorem LeaseUnit.waitersOf_eq_nil (u : LeaseUnit) (p : Port) : u.waitersOf p = [] ↔ ∀ w ∈ u.queue, w.port ≠ p := by
  simp [LeaseUnit.waitersOf, List.filter_eq_nil_iff]

theorem LeaseUnit.leasesOf_eq_nil (u : LeaseUnit) (p : Port) : u.leasesOf p = [] ↔ ∀ l ∈ u.leases, l.port ≠ p := by
  simp [LeaseUnit.leasesOf, List.filter_eq_nil_iff]

/-- Only a LEASE that stands handed over brings its port a waiter. -/
theorem Change.noWaiters {s t : State} {p : Port} (h : s.WaitsForNothing p) (c : Change s t) :
    ∀ w ∈ t.leaseUnit.queue, w.port ≠ p := by
  have waiters := h.waiters
  cases c with
  | view same => rwa [same.queue]
  | dropWaiter q tag => exact fun w hw => waiters w (List.mem_filter.mp hw).1
  | waitersLeave q => exact fun w hw => waiters w (List.mem_filter.mp hw).1
  | joinQueue q x e asks =>
    intro w hw
    rcases List.mem_append.mp hw with old | new
    · exact waiters w old
    · obtain rfl := List.mem_singleton.mp new
      rintro rfl
      exact h.handed x asks.handed
  | settleWaiter older rest w claims queue =>
    rw [queue] at waiters
    intro v hv
    rcases List.mem_append.mp hv with old | new
    · exact waiters v (List.mem_append_left _ old)
    · rcases List.mem_cons.mp new with rfl | young
      · exact waiters w (List.mem_append_right _ List.mem_cons_self)
      · exact waiters v (List.mem_append_right _ (List.mem_cons_of_mem _ young))
  | grantWaiter older rest w queue =>
    rw [queue] at waiters
    exact fun v hv => waiters v (((List.sublist_cons_self w rest).append_left older).subset hv)
  | endClaim r =>
    intro w hw
    obtain ⟨v, hv, rfl⟩ := List.mem_map.mp hw
    exact waiters v hv
  | lowerTimers =>
    intro w hw
    obtain ⟨v, hv, rfl⟩ := List.mem_map.mp hw
    have := waiters v hv
    split <;> exact this
  | reset _ _ _ lease =>
    rw [lease]
    exact fun _ k => absurd k List.not_mem_nil
  | _ => exact waiters

theorem Change.noSettling {s t : State} {p : Port} (h : s.WaitsForNothing p) (c : Change s t) :
    t.leaseUnit.settling.get p = none := by
  have settling := h.settling
  have emptied : ∀ q, (s.leaseUnit.settling.set q none).get p = none := by
    intro q
    rw [PerPort.get_set]
    split
    · rfl
    · exact settling
  cases c with
  | view same => rwa [same.settling]
  | waitersLeave q => exact emptied q
  | grantSettling q => exact emptied q
  | enterSettling q x e asks =>
    by_cases own : p = q
    · subst own
      exact absurd asks.handed (h.handed x)
    · exact (PerPort.get_set_ne _ _ own).trans settling
  | endClaim r => rw [State.modLease_leaseUnit, LeaseUnit.removeClaim_settling, settling, Option.map_none]
  | reset _ _ _ lease =>
    rw [lease]
    cases p <;> rfl
  | _ => exact settling

/-- Out of UP a port that waits for nothing goes on so. -/
theorem Change.waitsForNothing {s t : State} {p : Port} (h : s.WaitsForNothing p) (torn : (s.pu.get p).session ≠ .up)
    (c : Change s t) : t.WaitsForNothing p := by
  refine ⟨c.noWaiters h, c.noSettling h, fun x e => ?_⟩
  rcases c.handed e with before | ⟨-, up⟩
  · exact h.handed x before
  · exact torn (up x rfl)

/-- A port that waits for nothing gets no lease. -/
theorem Change.noLeases {s t : State} {p : Port} (h : s.WaitsForNothing p) (leases : ∀ l ∈ s.leaseUnit.leases, l.port ≠ p)
    (c : Change s t) : ∀ l ∈ t.leaseUnit.leases, l.port ≠ p := by
  have granted : ∀ (u : LeaseUnit) (q : Port) (x : LeaseRequest), u.leases = s.leaseUnit.leases → q ≠ p →
      ∀ l ∈ (u.grant q x).leases, l.port ≠ p := by
    intro u q x same other l hl
    rcases List.mem_append.mp hl with old | new
    · exact leases l (same ▸ old)
    · obtain rfl := List.mem_singleton.mp new
      exact other
  cases c with
  | view same => rwa [same.leases]
  | removal P => exact fun l hl => leases l (List.mem_filter.mp hl).1
  | renew q id life =>
    intro l hl
    obtain ⟨m, hm, rfl⟩ := List.mem_map.mp hl
    have := leases m hm
    split <;> exact this
  | grantNow q x e asks =>
    refine granted _ q x rfl (fun own => ?_)
    subst own
    exact h.handed x asks.handed
  | grantSettling q x settling =>
    refine granted { s.leaseUnit with settling := _ } q x.request rfl (fun own => ?_)
    subst own
    rw [h.settling] at settling
    cases settling
  | grantWaiter older rest w queue =>
    exact granted { s.leaseUnit with queue := _ } w.port w.request rfl
      (h.waiters w (queue ▸ List.mem_append_right _ List.mem_cons_self))
  | lowerTimers =>
    intro l hl
    obtain ⟨m, hm, rfl⟩ := List.mem_map.mp hl
    exact leases m hm
  | reset _ _ _ lease =>
    rw [lease]
    exact fun _ k => absurd k List.not_mem_nil
  | _ => exact leases

/-! ## One port's teardown -/

/-- What holds of one port out of UP (R19 to R22). -/
structure State.PortTorn (s : State) (p : Port) : Prop where
  windows : (s.pu.get p).session ≠ .up → ∀ i, (s.pu.get p).windowNamed i = none
  steps : (s.pu.get p).session ≠ .up → (s.pu.get p).stepsDue.lease = false → (s.pu.get p).stepsDue.waiter = false
  waiters : (s.pu.get p).session ≠ .up → (s.pu.get p).stepsDue.waiter = false → s.WaitsForNothing p
  leases : (s.pu.get p).session ≠ .up → (s.pu.get p).stepsDue.lease = false → ∀ l ∈ s.leaseUnit.leases, l.port ≠ p
  down : (s.pu.get p).session = .down → (s.pu.get p).stepsDue = .none ∧ (s.pu.get p).executing = none ∧
    s.engine.jobsOf p = [] ∧ s.engine.histories.get p = []

theorem State.teardownOrderly_iff (s : State) : s.TeardownOrderly ↔ ∀ p, s.PortTorn p := by
  constructor
  · rintro ⟨windows, steps, waiters, leases, down⟩ p
    refine ⟨windows p, steps p, fun torn due => ?_, fun torn due => ?_, down p⟩
    · obtain ⟨none, settling, handed⟩ := waiters p torn due
      exact ⟨(LeaseUnit.waitersOf_eq_nil ..).mp none, settling, handed⟩
    · exact (LeaseUnit.leasesOf_eq_nil ..).mp (leases p torn due)
  · intro h
    refine ⟨fun p => (h p).windows, fun p => (h p).steps, fun p torn due => ?_, fun p torn due => ?_, fun p => (h p).down⟩
    · obtain ⟨waiters, settling, handed⟩ := (h p).waiters torn due
      exact ⟨(LeaseUnit.waitersOf_eq_nil ..).mpr waiters, settling, handed⟩
    · exact (LeaseUnit.leasesOf_eq_nil ..).mpr ((h p).leases torn due)

/-- What of a port unit and of the job engine's tables teardown speaks of stands as it was. -/
structure State.Stands (s t : State) (p : Port) : Prop where
  session : (t.pu.get p).session = (s.pu.get p).session
  windows : (t.pu.get p).windows = (s.pu.get p).windows
  steps : (t.pu.get p).stepsDue = (s.pu.get p).stepsDue
  idle : (s.pu.get p).session = .down → (s.pu.get p).executing = none → (t.pu.get p).executing = none
  jobs : t.engine.jobs = s.engine.jobs
  histories : t.engine.histories = s.engine.histories

theorem State.Stands.of_pu {s t : State} {p : Port} (pu : t.pu.get p = s.pu.get p) (engine : t.engine = s.engine) :
    s.Stands t p := by
  refine ⟨?_, ?_, ?_, fun _ => ?_, ?_, ?_⟩ <;> simp [pu, engine]

theorem State.Stands.other {s t : State} {p q : Port} {u : PortUnit} (pu : t.pu = s.pu.set q u) (c : p ≠ q)
    (engine : t.engine = s.engine) : s.Stands t p := .of_pu (by rw [pu, PerPort.get_set_ne _ _ c]) engine

/-- A change of another part of a port unit. -/
theorem State.Stands.set {s t : State} {q : Port} {u : PortUnit} (pu : t.pu = s.pu.set q u) (p : Port)
    (idle : (s.pu.get q).session = .down → (s.pu.get q).executing = none → u.executing = none)
    (session : u.session = (s.pu.get q).session := by rfl) (windows : u.windows = (s.pu.get q).windows := by rfl)
    (steps : u.stepsDue = (s.pu.get q).stepsDue := by rfl) (engine : t.engine = s.engine := by rfl) : s.Stands t p := by
  by_cases c : p = q
  · subst c
    have unit : t.pu.get p = u := by rw [pu, PerPort.get_set_self]
    refine ⟨?_, ?_, ?_, ?_, by rw [engine], by rw [engine]⟩ <;> rwa [unit]
  · exact .other pu c engine

theorem PortUnit.windowNamed_congr {u v : PortUnit} (h : v.windows = u.windows) (i : Nat) :
    v.windowNamed i = u.windowNamed i := by rw [PortUnit.windowNamed, h, PortUnit.windowNamed]

theorem Change.portTorn_of_stands {s t : State} {p : Port} (h : s.PortTorn p) (c : Change s t) (same : s.Stands t p) :
    t.PortTorn p := by
  refine ⟨fun torn i => ?_, fun torn lease => ?_, fun torn waiter => ?_, fun torn lease => ?_, fun down => ?_⟩
  · rw [PortUnit.windowNamed_congr same.windows]
    exact h.windows (same.session ▸ torn) i
  · rw [same.steps] at *
    exact h.steps (same.session ▸ torn) lease
  · rw [same.session] at torn
    rw [same.steps] at waiter
    exact c.waitsForNothing (h.waiters torn waiter) torn
  · rw [same.session] at torn
    rw [same.steps] at lease
    exact c.noLeases (h.waiters torn (h.steps torn lease)) (h.leases torn lease)
  · rw [same.session] at down
    obtain ⟨steps, idle, jobs, histories⟩ := h.down down
    refine ⟨same.steps.trans steps, same.idle down idle, ?_, by rw [same.histories, histories]⟩
    rwa [JobEngine.jobsOf, same.jobs]

/-- In UP nothing is asked of a port. -/
theorem State.PortTorn.of_up {s : State} {p : Port} (up : (s.pu.get p).session = .up) : s.PortTorn p :=
  ⟨fun torn => absurd up torn, fun torn => absurd up torn, fun torn => absurd up torn, fun torn => absurd up torn,
    fun down => by rw [up] at down; cases down⟩

theorem Change.portTorn {s t : State} (h : ∀ p, s.PortTorn p) (c : Change s t) (p : Port) : t.PortTorn p := by
  have stands : s.Stands t p → t.PortTorn p := c.portTorn_of_stands (h p)
  cases c with
  | view same =>
    have unit := same.unit p
    refine stands ⟨unit.session, unit.windows, unit.stepsDue, fun _ free => ?_, same.jobs, same.histories⟩
    have none := unit.executing
    rw [free, Option.map_none, Option.map_eq_none_iff] at none
    exact none
  | begin q x free up =>
    exact stands (.set rfl p (by exact fun down _ => by rw [up] at down; cases down))
  | phase q f =>
    exact stands (.set rfl p (by exact fun _ free => Option.map_eq_none_iff.mpr free))
  | done q => exact stands (.set rfl p (by exact fun _ _ => rfl))
  | window q i w up =>
    by_cases own : p = q
    · subst own
      exact .of_up (by rw [State.modPu_pu, PerPort.get_set_self]; exact up)
    · exact stands (.other rfl own rfl)
  | opened q m label down =>
    by_cases own : p = q
    · subst own
      exact .of_up (by rw [State.modPu_pu, PerPort.get_set_self]; rfl)
    · exact stands (.other rfl own rfl)
  | close q cause up =>
    by_cases own : p = q
    · subst own
      have unit : ((s.modPu p (fun u => u.close cause)).pu.get p) = (s.pu.get p).close cause := PerPort.get_set_self ..
      refine ⟨fun _ i => ?_, fun _ due => ?_, fun _ due => ?_, fun _ due => ?_, fun down => ?_⟩
      · exact PortUnit.windowNamed_closed (by rw [unit]; rfl) i
      all_goals rw [unit] at *
      · cases due
      · cases due
      · cases due
      · cases down
    · exact stands (.other rfl own rfl)
  | down q closing work free sends =>
    by_cases own : p = q
    · subst own
      have unit : ((s.modPu p PortUnit.toDown).pu.get p) = (s.pu.get p).toDown := PerPort.get_set_self ..
      have torn : (s.pu.get p).session ≠ .up := by rw [closing]; exact Session.noConfusion
      obtain ⟨steps, jobs, histories, -⟩ := (s.workDone_iff p).mp work
      have waits := (h p).waiters torn (by rw [steps]; rfl)
      refine ⟨fun _ i => ?_, fun _ _ => ?_, fun _ _ => ?_, fun _ _ => ?_, fun _ => ?_⟩
      · exact (PortUnit.windowNamed_congr (by rw [unit]; rfl) i).trans ((h p).windows torn i)
      · rw [unit]
        exact congrArg StepsDue.waiter steps
      · refine ⟨waits.waiters, waits.settling, fun x e => waits.handed x ?_⟩
        exact State.handed_before rfl e (.inl (by rfl))
      · exact (h p).leases torn (by rw [steps]; rfl)
      · rw [unit]
        exact ⟨steps, free, jobs, histories⟩
    · exact stands (.other rfl own rfl)
  | waiterTaken q waiters settling handed =>
    by_cases own : p = q
    · subst own
      have unit : ((s.modSteps p (fun d => { d with waiter := false })).pu.get p) =
        { s.pu.get p with stepsDue := { (s.pu.get p).stepsDue with waiter := false } } := PerPort.get_set_self ..
      have old := h p
      refine ⟨fun torn i => ?_, fun _ _ => by rw [unit], fun _ _ => ?_, fun torn due => ?_, fun down => ?_⟩
      · rw [unit] at torn
        exact (PortUnit.windowNamed_congr (by rw [unit]) i).trans (old.windows torn i)
      · exact ⟨(LeaseUnit.waitersOf_eq_nil ..).mp waiters, settling, fun x e =>
          handed x (State.handed_before rfl e (.inl (by rfl)))⟩
      · rw [unit] at torn due
        exact old.leases torn due
      · rw [unit] at down ⊢
        obtain ⟨steps, rest⟩ := old.down down
        exact ⟨by simp [steps, StepsDue.none], rest⟩
    · exact stands (.other rfl own rfl)
  | leaseTaken q waiter leases =>
    by_cases own : p = q
    · subst own
      have unit : ((s.modSteps p (fun d => { d with lease := false })).pu.get p) =
        { s.pu.get p with stepsDue := { (s.pu.get p).stepsDue with lease := false } } := PerPort.get_set_self ..
      have old := h p
      refine ⟨fun torn i => ?_, fun _ _ => by rwa [unit], fun torn due => ?_, fun torn _ => ?_, fun down => ?_⟩
      · rw [unit] at torn
        exact (PortUnit.windowNamed_congr (by rw [unit]) i).trans (old.windows torn i)
      · rw [unit] at torn
        obtain ⟨waiters, settling, handed⟩ := old.waiters torn waiter
        exact ⟨waiters, settling, fun x e => handed x (State.handed_before rfl e (.inl (by rfl)))⟩
      · exact (LeaseUnit.leasesOf_eq_nil ..).mp leases
      · rw [unit] at down ⊢
        obtain ⟨steps, rest⟩ := old.down down
        exact ⟨by simp [steps, StepsDue.none], rest⟩
    · exact stands (.other rfl own rfl)
  | engineTaken q f waiter lease none =>
    by_cases own : p = q
    · subst own
      have unit : ((s.modSteps p f).pu.get p) = { s.pu.get p with stepsDue := f (s.pu.get p).stepsDue } :=
        PerPort.get_set_self ..
      have old := h p
      refine ⟨fun torn i => ?_, fun torn due => ?_, fun torn due => ?_, fun torn due => ?_, fun down => ?_⟩
      · rw [unit] at torn
        exact (PortUnit.windowNamed_congr (by rw [unit]) i).trans (old.windows torn i)
      all_goals rw [unit] at *
      · rw [waiter]
        exact old.steps torn (lease _ ▸ due)
      · obtain ⟨waiters, settling, handed⟩ := old.waiters torn (waiter _ ▸ due)
        exact ⟨waiters, settling, fun x e => handed x (State.handed_before rfl e (.inl (by rfl)))⟩
      · exact old.leases torn (lease _ ▸ due)
      · obtain ⟨steps, rest⟩ := old.down down
        exact ⟨by rw [steps, none], rest⟩
    · exact stands (.other rfl own rfl)
  | dropWaiter q => exact stands (.set rfl p (by exact fun _ free => free))
  | waitersLeave q => exact stands (.set rfl p (by exact fun _ free => free))
  | joinQueue q => exact stands (.set rfl p (by exact fun _ _ => rfl))
  | enterSettling q =>
    exact stands (.set rfl p (by exact fun _ free => Option.map_eq_none_iff.mpr free))
  | grantWaiter older rest w => exact stands (.set rfl p (by exact fun _ free => free))
  | reset _ _ pu lease engine =>
    have unit : t.pu.get p = .reset := by rw [pu, PerPort.get_const]
    refine ⟨fun _ i => PortUnit.windowNamed_closed (by rw [unit]; rfl) i, fun _ _ => by rw [unit]; rfl, fun _ _ => ?_,
      fun _ _ => by rw [lease]; exact fun _ k => absurd k List.not_mem_nil, fun _ => ?_⟩
    · refine ⟨by rw [lease]; exact fun _ k => absurd k List.not_mem_nil, by rw [lease]; cases p <;> rfl, fun x e => ?_⟩
      rw [State.handed_of_free (by rw [unit]; rfl)] at e
      cases e
    · rw [unit, engine]
      exact ⟨rfl, rfl, rfl, by cases p <;> rfl⟩
  | _ => exact stands (.of_pu rfl rfl)

theorem EngineChange.portTorn {s t : State} (h : ∀ p, s.PortTorn p) (c : EngineChange s t) (p : Port) : t.PortTorn p := by
  obtain ⟨windows, steps, waiters, leases, down⟩ := h p
  cases c with
  | goesOn f goes =>
    refine ⟨windows, steps, fun torn due => ?_, leases, fun isDown => ?_⟩
    · obtain ⟨waiters, settling, handed⟩ := waiters torn due
      exact ⟨waiters, settling, handed⟩
    · obtain ⟨steps, free, jobs, histories⟩ := down isDown
      have none : ∀ j ∈ s.engine.jobs, j.port ≠ p := by
        intro j hj own
        exact absurd own (by simpa using List.filter_eq_nil_iff.mp jobs j hj)
      refine ⟨steps, free, List.filter_eq_nil_iff.mpr (fun k hk own => ?_), ?_⟩
      · obtain ⟨⟨j, hj, port⟩, -, -⟩ := goes.jobs k hk
        exact none j hj (port ▸ beq_iff_eq.mp own)
      · rcases goes.histories p with same | empty | ⟨⟨j, hj, own⟩, -⟩
        · exact same.trans histories
        · exact empty
        · exact absurd own (none j hj)
  | accept q w length limit j last handed port =>
    refine ⟨windows, steps, fun torn due => ?_, leases, fun isDown => ?_⟩
    · obtain ⟨waiters, settling, handed⟩ := waiters torn due
      exact ⟨waiters, settling, handed⟩
    · obtain ⟨steps, free, jobs, histories⟩ := down isDown
      refine ⟨steps, free, ?_, histories⟩
      refine (List.filter_append ..).trans (List.append_eq_nil_iff.mpr ⟨jobs, List.filter_eq_nil_iff.mpr (fun k hk own => ?_)⟩)
      obtain rfl := List.mem_singleton.mp hk
      obtain rfl : q = p := port.symm.trans (beq_iff_eq.mp own)
      rw [State.handed_of_free free] at handed
      cases handed

/-! ## The lease table and the wait queue -/

theorem State.waitQueueFits_iff (s : State) : s.WaitQueueFits ∧ s.InFlightOrderly ↔
    s.leaseUnit.queue.length ≤ waitQueueSize ∧ ∀ p, s.PortInFlight p := by
  rw [← State.inFlightOrderly_iff]
  exact ⟨fun ⟨⟨queue, few⟩, orderly⟩ => ⟨queue, orderly, few⟩, fun ⟨queue, orderly, few⟩ => ⟨⟨queue, few⟩, orderly⟩⟩

theorem Change.leaseTableFits {s t : State} (fits : s.LeaseTableFits) (stands : s.SettlingStands) (c : Change s t) :
    t.LeaseTableFits := by
  rw [State.leaseTableFits_iff] at *
  exact (c.stakes stands).firm_count fits

theorem Change.holdingsFit {s t : State} (h : s.HoldingsFit) (c : Change s t) : t.HoldingsFit := by
  rw [State.holdingsFit_iff] at *
  obtain ⟨count, stands⟩ := h
  exact ⟨fun p => (c.stakes stands).port_count stands (count p), c.settlingStands stands⟩

/-- Settles O54: stakes become firm only where there is room and are added only within a port's limit, the in-flight table
follows the wait queue, and teardown leaves nothing of a port. -/
theorem leaseTableAndWaitQueueNeverOverfill : Obligations.LeaseTableAndWaitQueueNeverOverfill := by
  unfold Obligations.LeaseTableAndWaitQueueNeverOverfill
  refine stepKeeps_of_changes (fun s t ⟨table, ids, queue, holdings, flight, teardown⟩ c => ?_)
    (fun s t ⟨table, ids, queue, holdings, flight, teardown⟩ c => ?_)
  · obtain ⟨-, stands⟩ := s.holdingsFit_iff.mp holdings
    obtain ⟨length, ports⟩ := s.waitQueueFits_iff.mp ⟨queue, flight⟩
    obtain ⟨queue, flight⟩ := t.waitQueueFits_iff.mpr ⟨c.queueFits length, c.portInFlight ports⟩
    exact ⟨c.leaseTableFits table stands, c.leaseIdsDistinct ids table, queue, c.holdingsFit holdings, flight,
      t.teardownOrderly_iff.mpr (c.portTorn (s.teardownOrderly_iff.mp teardown))⟩
  · have torn := t.teardownOrderly_iff.mpr (c.portTorn (s.teardownOrderly_iff.mp teardown))
    obtain ⟨waiting, distinct, executing, entries⟩ := flight
    cases c <;> exact ⟨table, ids, queue, holdings, ⟨waiting, distinct, executing, entries⟩, torn⟩

end Sys2Proof.Machine
end

section
/-! SUPPORT. The job engine's tables as a value of their own: what each operation on them keeps (R92 to R99). -/

namespace Sys2Proof.Machine

/-- The job table and the running job, but for the selection of a queued job. -/
structure JobEngine.Tidy (e : JobEngine) : Prop where
  fits : e.jobs.length ≤ jobTableSize
  portFits : ∀ p, (e.jobsOf p).length ≤ portJobLimit
  ids : (e.jobs.map Job.id).Nodup
  idRange : ∀ j ∈ e.jobs, 1 ≤ j.id ∧ j.id ≤ 255
  progress : ∀ j ∈ e.jobs, j.done < j.length
  still : e.running = none → ∀ j ∈ e.jobs, j.state ≠ .running
  busy : ∀ r, e.running = some r → ∃ j ∈ e.jobs, j.id = r.job ∧ j.state = .running ∧ r.chunk = j.nextChunk
  one : ∀ r, e.running = some r → ∀ j ∈ e.jobs, j.state = .running → j.id = r.job

/-- With the selection: while none runs, none is queued (R97). -/
structure JobEngine.Orderly (e : JobEngine) : Prop extends e.Tidy where
  waiting : e.running = none → ∀ j ∈ e.jobs, j.state ≠ .queued

theorem State.engineOrderly_iff (s : State) : s.EngineOrderly ↔
    s.engine.Orderly ∧ ∀ p w length limit, s.handed p = some (.submit w length limit) → 1 ≤ length := by
  constructor
  · rintro ⟨fits, portFits, ids, idRange, progress, idle, busy, one, handed⟩
    exact ⟨⟨⟨fits, portFits, ids, idRange, progress, fun e j hj => (idle e j hj).1, busy, one⟩,
      fun e j hj => (idle e j hj).2⟩, handed⟩
  · rintro ⟨⟨⟨fits, portFits, ids, idRange, progress, still, busy, one⟩, waiting⟩, handed⟩
    exact ⟨fits, portFits, ids, idRange, progress, fun e j hj => ⟨still e j hj, waiting e j hj⟩, busy, one, handed⟩

theorem JobEngine.Tidy.congr {e d : JobEngine} (h : e.Tidy) (jobs : d.jobs = e.jobs) (running : d.running = e.running) :
    d.Tidy := by
  obtain ⟨fits, portFits, ids, idRange, progress, still, busy, one⟩ := h
  constructor <;> simp only [JobEngine.jobsOf, jobs, running] <;> assumption

theorem JobEngine.Orderly.congr {e d : JobEngine} (h : e.Orderly) (jobs : d.jobs = e.jobs)
    (running : d.running = e.running) : d.Orderly :=
  ⟨h.toTidy.congr jobs running, by rw [jobs, running]; exact h.waiting⟩

/-- Jobs of distinct ids: one that has the id of another is that other. -/
theorem JobEngine.Tidy.eq_of_id {e : JobEngine} (h : e.Tidy) {i j : Job} (hi : i ∈ e.jobs) (hj : j ∈ e.jobs)
    (same : i.id = j.id) : i = j := eq_of_nodup_keys h.ids hi hj same

/-- The job that runs is the one the engine runs. -/
theorem JobEngine.Tidy.running_of {e : JobEngine} (h : e.Tidy) {j : Job} (hj : j ∈ e.jobs) (state : j.state = .running) :
    ∃ r, e.running = some r ∧ r.job = j.id := by
  cases running : e.running with
  | none => exact absurd state (h.still running j hj)
  | some r => exact ⟨r, rfl, (h.one r running j hj state).symm⟩

/-- What a change of the jobs one by one keeps when it leaves their ids, ports and progress. -/
theorem JobEngine.Tidy.counts_map {e d : JobEngine} (h : e.Tidy) (f : Job → Job) (jobs : d.jobs = e.jobs.map f)
    (id : ∀ j, (f j).id = j.id) (port : ∀ j, (f j).port = j.port) :
    d.jobs.length ≤ jobTableSize ∧ (∀ p, (d.jobsOf p).length ≤ portJobLimit) ∧ (d.jobs.map Job.id).Nodup ∧
    ∀ j ∈ d.jobs, 1 ≤ j.id ∧ j.id ≤ 255 := by
  refine ⟨?_, fun p => ?_, ?_, fun j hj => ?_⟩
  · rw [jobs, List.length_map]
    exact h.fits
  · rw [JobEngine.jobsOf, jobs, List.filter_map, List.length_map,
      List.filter_congr (q := fun j => j.port == p) (fun j _ => by rw [Function.comp_apply, port])]
    exact h.portFits p
  · rw [jobs, List.map_map, List.map_congr_left (f := Job.id ∘ f) (g := Job.id) (fun j _ => id j)]
    exact h.ids
  · rw [jobs] at hj
    obtain ⟨i, hi, rfl⟩ := List.mem_map.mp hj
    rw [id]
    exact h.idRange i hi

/-- A change of the jobs that leaves who runs, and what of. -/
theorem JobEngine.Tidy.map {e d : JobEngine} (h : e.Tidy) (f : Job → Job) (jobs : d.jobs = e.jobs.map f)
    (running : d.running = e.running) (id : ∀ j, (f j).id = j.id) (port : ∀ j, (f j).port = j.port)
    (progress : ∀ j, (f j).done = j.done ∧ (f j).length = j.length)
    (state : ∀ j ∈ e.jobs, (f j).state = .running ↔ j.state = .running)
    (chunk : ∀ j, (f j).nextChunk = j.nextChunk) : d.Tidy := by
  obtain ⟨fits, portFits, ids, idRange⟩ := h.counts_map f jobs id port
  refine ⟨fits, portFits, ids, idRange, ?_, ?_, ?_, ?_⟩ <;> simp only [jobs, running, List.forall_mem_map]
  · intro j hj
    obtain ⟨done, length⟩ := progress j
    rw [done, length]
    exact h.progress j hj
  · exact fun idle j hj => (not_congr (state j hj)).mpr (h.still idle j hj)
  · intro r hr
    obtain ⟨j, hj, own, runs, next⟩ := h.busy r hr
    exact ⟨f j, List.mem_map_of_mem hj, (id j).trans own, (state j hj).mpr runs, next.trans (chunk j).symm⟩
  · exact fun r hr j hj runs => (id j).trans (h.one r hr j hj ((state j hj).mp runs))

theorem JobEngine.Orderly.map {e d : JobEngine} (h : e.Orderly) (f : Job → Job) (jobs : d.jobs = e.jobs.map f)
    (running : d.running = e.running) (id : ∀ j, (f j).id = j.id) (port : ∀ j, (f j).port = j.port)
    (progress : ∀ j, (f j).done = j.done ∧ (f j).length = j.length)
    (state : ∀ j ∈ e.jobs, (f j).state = .running ↔ j.state = .running) (chunk : ∀ j, (f j).nextChunk = j.nextChunk)
    (queued : ∀ j ∈ e.jobs, (f j).state = .queued → j.state = .queued) : d.Orderly := by
  refine ⟨h.toTidy.map f jobs running id port progress state chunk, ?_⟩
  simp only [jobs, running, List.forall_mem_map]
  exact fun idle j hj now => h.waiting idle j hj (queued j hj now)

/-- The engine leaves its job, which runs no more. -/
theorem JobEngine.Tidy.leave {e d : JobEngine} (h : e.Tidy) (f : Job → Job) (jobs : d.jobs = e.jobs.map f)
    (running : d.running = none) (id : ∀ j, (f j).id = j.id) (port : ∀ j, (f j).port = j.port)
    (progress : ∀ j ∈ e.jobs, (f j).done < (f j).length) (state : ∀ j ∈ e.jobs, (f j).state ≠ .running) : d.Tidy := by
  obtain ⟨fits, portFits, ids, idRange⟩ := h.counts_map f jobs id port
  refine ⟨fits, portFits, ids, idRange, ?_, ?_, ?_, ?_⟩ <;> simp only [jobs, running, List.forall_mem_map]
  · exact progress
  · exact fun _ => state
  · exact fun r hr => absurd hr (by simp)
  · exact fun r hr => absurd hr (by simp)

/-- The engine runs a job, its next chunk before it. -/
theorem JobEngine.Tidy.run {e d : JobEngine} (h : e.Tidy) (f : Job → Job) (jobs : d.jobs = e.jobs.map f)
    (id : ∀ j, (f j).id = j.id) (port : ∀ j, (f j).port = j.port)
    (progress : ∀ j ∈ e.jobs, (f j).done < (f j).length) {j : Job} (hj : j ∈ e.jobs) {r : RunningJob}
    (running : d.running = some r) (own : r.job = j.id) (chunk : r.chunk = (f j).nextChunk)
    (state : (f j).state = .running) (only : ∀ i ∈ e.jobs, (f i).state = .running → i.id = j.id) : d.Tidy := by
  obtain ⟨fits, portFits, ids, idRange⟩ := h.counts_map f jobs id port
  refine ⟨fits, portFits, ids, idRange, ?_, ?_, ?_, ?_⟩ <;>
    simp only [jobs, running, List.forall_mem_map, Option.some.injEq, forall_eq', reduceCtorEq, false_implies]
  · exact progress
  · exact ⟨f j, List.mem_map_of_mem hj, (id j).trans own.symm, state, chunk⟩
  · exact fun i hi runs => ((id i).trans (only i hi runs)).trans own.symm

/-- A job leaves the table; the engine leaves it if it ran (R98). -/
theorem JobEngine.Tidy.remove {e : JobEngine} (h : e.Tidy) (id : Nat) : (e.remove id).Tidy := by
  have member : ∀ j ∈ (e.remove id).jobs, j ∈ e.jobs ∧ j.id ≠ id := by
    intro j hj
    obtain ⟨old, other⟩ := List.mem_filter.mp hj
    exact ⟨old, bne_iff_ne.mp other⟩
  have runs : ∀ r, e.running = some r → (e.isRunning id = true ↔ r.job = id) := by
    intro r hr
    rw [JobEngine.isRunning, hr]
    exact beq_iff_eq
  have kept : ∀ r, (e.remove id).running = some r → e.running = some r ∧ r.job ≠ id := by
    intro r hr
    replace hr : (if e.isRunning id then none else e.running) = some r := hr
    split at hr
    · cases hr
    · rename_i other
      exact ⟨hr, (not_congr (runs r hr)).mp other⟩
  refine ⟨Nat.le_trans (List.length_filter_le ..) h.fits, fun p => ?_, h.ids.sublist (List.filter_sublist.map _),
    fun j hj => h.idRange j (member j hj).1, fun j hj => h.progress j (member j hj).1, fun gone j hj state => ?_,
    fun r hr => ?_, fun r hr j hj => h.one r (kept r hr).1 j (member j hj).1⟩
  · exact Nat.le_trans (List.filter_sublist.filter _).length_le (h.portFits p)
  · obtain ⟨old, other⟩ := member j hj
    obtain ⟨r, running, own⟩ := h.running_of old state
    replace gone : (if e.isRunning id then none else e.running) = none := gone
    split at gone
    · rename_i isRunning
      exact other (own.symm.trans ((runs r running).mp isRunning))
    · rw [running] at gone
      cases gone
  · obtain ⟨running, other⟩ := kept r hr
    obtain ⟨j, hj, own, state, chunk⟩ := h.busy r running
    exact ⟨j, List.mem_filter.mpr ⟨hj, bne_iff_ne.mpr (own ▸ other)⟩, own, state, chunk⟩

/-- A job that does not run leaves the table. -/
theorem JobEngine.Orderly.remove {e : JobEngine} (h : e.Orderly) {j : Job} (hj : j ∈ e.jobs) (state : j.state ≠ .running) :
    (e.remove j.id).Orderly := by
  have other : e.isRunning j.id = false := by
    rw [JobEngine.isRunning]
    split
    · rename_i r running
      obtain ⟨i, hi, own, runs, -⟩ := h.busy r running
      refine beq_eq_false_iff_ne.mpr (fun same => state ?_)
      rwa [← h.eq_of_id hi hj (own.trans same)]
    · rfl
  refine ⟨h.toTidy.remove j.id, fun gone i hi => ?_⟩
  replace gone : (if e.isRunning j.id then none else e.running) = none := gone
  rw [other] at gone
  exact h.waiting gone i (List.mem_filter.mp hi).1

/-- A job is accepted where there is room (R92, R93, R94). -/
theorem JobEngine.Tidy.append {e d : JobEngine} (h : e.Tidy) {j : Job} (jobs : d.jobs = e.jobs ++ [j])
    (running : d.running = e.running) (room : e.jobs.length < jobTableSize)
    (portRoom : (e.jobsOf j.port).length < portJobLimit) (id : j.id = e.nextJobId) (progress : j.done < j.length)
    (state : j.state = .queued) : d.Tidy := by
  obtain ⟨fresh, range⟩ := nextId_fresh e.lastId (used := e.jobs.map Job.id) (by
    rw [List.length_map]
    unfold jobTableSize at room
    omega)
  have all : ∀ (P : Job → Prop), (∀ i ∈ e.jobs, P i) → P j → ∀ i ∈ e.jobs ++ [j], P i := by
    intro P old new i hi
    rcases List.mem_append.mp hi with before | here
    · exact old i before
    · exact List.mem_singleton.mp here ▸ new
  refine ⟨?_, fun p => ?_, ?_, ?_, ?_, ?_, ?_, ?_⟩
  · rw [jobs, List.length_append, List.length_singleton]
    exact room
  · rw [JobEngine.jobsOf, jobs, List.filter_append, List.length_append]
    by_cases own : j.port = p
    · subst own
      rw [List.filter_cons_of_pos (by exact beq_self_eq_true _), List.filter_nil, List.length_singleton]
      exact portRoom
    · rw [List.filter_cons_of_neg (by simpa using own), List.filter_nil]
      exact h.portFits p
  · rw [jobs, List.map_append, List.nodup_append]
    refine ⟨h.ids, nodup_one _, ?_⟩
    intro a ha b hb same
    obtain rfl := (same.trans (List.mem_singleton.mp hb)).trans id
    exact fresh ha
  · rw [jobs]
    exact all _ h.idRange (by rw [id]; exact range)
  · rw [jobs]
    exact all _ h.progress progress
  · rw [running, jobs]
    exact fun idle => all _ (h.still idle) (by rw [state]; exact JobState.noConfusion)
  · rw [running, jobs]
    intro r hr
    obtain ⟨i, hi, rest⟩ := h.busy r hr
    exact ⟨i, List.mem_append_left _ hi, rest⟩
  · rw [running, jobs]
    exact fun r hr => all _ (h.one r hr) (fun runs => by rw [state] at runs; cases runs)

/-! ## The selection of a job (R97) -/

/-- The tables after the selection of the next job. -/
def JobEngine.select (e : JobEngine) : JobEngine :=
  match e.running with
  | some _ => e
  | none =>
    match e.jobs.find? (fun j => j.state == .queued) with
    | none => e
    | some j => { e.modJob j.id (fun k => { k with state := .running }) with
        running := some { job := j.id, chunk := j.nextChunk, inChunk := false } }

theorem State.selectJob_engine (s : State) : s.selectJob.engine = s.engine.select := by
  cases running : s.engine.running with
  | some r => simp only [State.selectJob, JobEngine.select, running]
  | none =>
    cases found : s.engine.jobs.find? (fun j => j.state == .queued) with
    | none => simp only [State.selectJob, JobEngine.select, running, found]
    | some j =>
      simp only [State.selectJob, JobEngine.select, running, found]
      rfl

theorem JobEngine.Tidy.select {e : JobEngine} (h : e.Tidy) : e.select.Orderly := by
  unfold JobEngine.select
  split
  · rename_i r running
    exact ⟨h, fun idle => by rw [running] at idle; cases idle⟩
  · rename_i idle
    split
    · rename_i none
      refine ⟨h, fun _ j hj queued => ?_⟩
      exact List.find?_eq_none.mp none j hj (beq_iff_eq.mpr queued)
    · rename_i j found
      have hj := List.mem_of_find?_eq_some found
      refine ⟨h.run (fun k => if k.id = j.id then { k with state := .running } else k) rfl (fun k => by split <;> rfl)
        (fun k => by split <;> rfl) (fun k hk => ?_) hj rfl rfl (by rw [if_pos rfl]; rfl) (by rw [if_pos rfl])
        (fun i hi runs => ?_), fun none => by cases none⟩
      · have := h.progress k hk
        split <;> exact this
      · split at runs
        · assumption
        · exact absurd runs (h.still idle i hi)

end Sys2Proof.Machine
end

section
/-! SUPPORT. The job engine stays orderly through each of its acts (R92 to R100). -/

namespace Sys2Proof.Machine

/-! ## What does not touch the engine's tables -/

theorem State.answerIn_engine (s : State) (p : Port) (f : Phase) (r : Result) (fs : List Byte) :
    (s.answerIn p f r fs).engine = s.engine := by
  unfold State.answerIn
  split
  · exact s.answer_engine p r fs
  · rfl

theorem State.discardHanded_engine (s : State) (p : Port) (b : TakenBy) : (s.discardHanded p b).engine = s.engine := by
  unfold State.discardHanded
  split
  · rfl
  · split <;> rfl

theorem State.dropInPhase_engine (s : State) (p : Port) (f : Phase) : (s.dropInPhase p f).engine = s.engine := by
  unfold State.dropInPhase
  split <;> rfl

theorem State.each_engine {α : Type} (s : State) (xs : List α) (f : State → α → State)
    (h : ∀ t x, (f t x).engine = t.engine) : (s.each xs f).engine = s.engine :=
  State.each_induct (fun t => t.engine = s.engine) f xs (fun t x _ ht => (h t x).trans ht) s rfl

theorem State.answerEnded_engine (s : State) (j : Job) : (s.answerEnded j).engine = s.engine :=
  s.each_engine _ _ (fun t w => by
    split
    · exact t.answerIn_engine ..
    · exact t.answerIn_engine ..)

theorem State.answerPaused_engine (s : State) (j : Job) : (s.answerPaused j).engine = s.engine :=
  s.each_engine _ _ (fun t _ => t.answerIn_engine ..)

theorem State.withdrawAdmission_running (s : State) (r : Requester) :
    (s.withdrawAdmission r).engine.running = s.engine.running := by
  unfold State.withdrawAdmission
  split
  · rfl
  · cases r <;> rfl

theorem State.offer_engine (s : State) (p : Port) (n : NoticeKind) (fs : List Byte) :
    (s.offer p n fs).engine = s.engine := rfl

/-! ## The end of a job -/

theorem JobEngine.Tidy.record {e : JobEngine} (h : e.Tidy) (p : Port) (x : EndRecord) : (e.record p x).Tidy :=
  h.congr rfl rfl

theorem JobEngine.Orderly.record {e : JobEngine} (h : e.Orderly) (p : Port) (x : EndRecord) : (e.record p x).Orderly :=
  h.congr rfl rfl

theorem State.endJob_engine (s : State) (j : Job) (o : EndOutcome) (r : EndReason) (replies : State → State)
    (hr : ∀ t, (replies t).engine = t.engine) :
    (s.endJob j o r replies).engine = (s.engine.remove j.id).record j.port (j.endRecord o r) := hr _

/-- A cancelled job leaves the table, with an end record but for teardown (R99, R103). -/
theorem State.endCancelled_engine (s : State) (j : Job) (c : CancelReason) (replies : State → State)
    (hr : ∀ t, (replies t).engine = t.engine) :
    (s.endCancelled j c replies).engine.jobs = (s.engine.remove j.id).jobs ∧
    (s.endCancelled j c replies).engine.running = (s.engine.remove j.id).running := by
  cases c with
  | owner =>
    have ended := hr (s.modEngine (fun e => (e.remove j.id).record j.port (j.endRecord .cancelled .owner)))
    exact ⟨(congrArg JobEngine.jobs ended :), (congrArg JobEngine.running ended :)⟩
  | supervisor =>
    have ended := hr (s.modEngine (fun e => (e.remove j.id).record j.port (j.endRecord .cancelled .supervisor)))
    exact ⟨(congrArg JobEngine.jobs ended :), (congrArg JobEngine.running ended :)⟩
  | teardown => exact ⟨congrArg JobEngine.jobs (hr _), congrArg JobEngine.running (hr _)⟩

theorem State.orderly_select {s : State} (h : s.engine.Tidy) : s.selectJob.engine.Orderly := by
  rw [State.selectJob_engine]
  exact h.select

/-! ## The acts -/

/-- R97: a chunk is refused or becomes the running one. -/
theorem State.engineDecision_orderly {s : State} (h : s.engine.Orderly) (d : Decision) :
    (s.engineDecision d).engine.Orderly := by
  unfold State.engineDecision
  split
  · exact h
  · rename_i r running
    split
    · exact h
    · rename_i j found
      obtain ⟨hj, own⟩ := JobEngine.mem_of_find found
      split
      · refine State.orderly_select ?_
        rw [State.offer_engine]
        refine h.leave _ rfl rfl (fun k => by split <;> rfl) (fun k => by split <;> rfl) (fun k hk => ?_)
          (fun k hk state => ?_)
        · have := h.progress k hk
          split <;> exact this
        · split at state
          · cases state
          · rename_i other
            exact other ((h.one r running k hk state).trans own.symm)
      · refine JobEngine.Orderly.mk (h.run id (List.map_id _).symm (fun _ => rfl) (fun _ => rfl) h.progress ?_ rfl own.symm ?_ ?_ ?_)
          (fun none => by cases none)
        · exact hj
        all_goals obtain ⟨i, hi, same, state, chunk⟩ := h.busy r running
        all_goals obtain rfl := h.eq_of_id hi hj (same.trans own.symm)
        · exact chunk
        · exact state
        · exact fun k hk runs => (h.one r running k hk runs).trans own.symm

/-- R94: a submission is accepted where there is room. -/
theorem State.submit_orderly {s : State} (h : s.engine.Orderly) (p : Port) (w : Submission) {length : Nat}
    (some : 1 ≤ length) (limit : Nat) : (s.submit p w length limit).engine.Orderly := by
  unfold State.submit
  split
  · rwa [State.answer_engine]
  · rename_i room
    refine State.orderly_select ?_
    rw [State.answer_engine]
    exact h.append rfl rfl (Nat.lt_of_not_le (fun c => room (.inl c))) (Nat.lt_of_not_le (fun c => room (.inr c))) rfl some
      rfl

/-- A stop that is deferred to the end of the chunk (R99, R100). -/
theorem State.deferStop_orderly {s : State} (h : s.engine.Orderly) (p : Port) (j : Job) (stop : StopKind) :
    (s.deferStop p j stop).engine.Orderly := by
  unfold State.deferStop
  split
  · exact h
  · exact h.map _ rfl rfl (fun k => by split <;> rfl) (fun k => by split <;> rfl)
      (fun k => by split <;> exact ⟨rfl, rfl⟩) (fun k _ => by split <;> rfl) (fun k => by split <;> rfl)
      (fun k _ state => by split at state <;> exact state)

/-- The job that the engine runs leaves it for another state (R97, R100). -/
theorem JobEngine.Tidy.setState {e d : JobEngine} (h : e.Tidy) {j : Job} (hj : j ∈ e.jobs) (runs : j.state = .running)
    (x : JobState) (other : x ≠ .running)
    (jobs : d.jobs = e.jobs.map (fun k => if k.id = j.id then { k with state := x } else k)) (running : d.running = none) :
    d.Tidy := by
  obtain ⟨r, hr, own⟩ := h.running_of hj runs
  refine h.leave _ jobs running (fun k => by split <;> rfl) (fun k => by split <;> rfl) (fun k hk => ?_)
    (fun k hk state => ?_)
  · have := h.progress k hk
    split <;> exact this
  · split at state
    · exact other state
    · rename_i c
      exact c ((h.one r hr k hk state).trans own)

/-- A job that does not run goes into another state but running. -/
theorem JobEngine.Tidy.setIdle {e d : JobEngine} (h : e.Tidy) {j : Job} (hj : j ∈ e.jobs) (idle : j.state ≠ .running)
    (x : JobState) (other : x ≠ .running)
    (jobs : d.jobs = e.jobs.map (fun k => if k.id = j.id then { k with state := x } else k))
    (running : d.running = e.running) : d.Tidy := by
  refine h.map _ jobs running (fun k => by split <;> rfl) (fun k => by split <;> rfl)
    (fun k => by split <;> exact ⟨rfl, rfl⟩) (fun k hk => ?_) (fun k => by split <;> rfl)
  split
  · rename_i same
    obtain rfl := h.eq_of_id hk hj same
    exact iff_of_false other idle
  · exact Iff.rfl

theorem State.decidePause_orderly {s : State} (h : s.engine.Orderly) (p : Port) (id : Nat) :
    (s.decidePause p id).engine.Orderly := by
  unfold State.decidePause
  split
  · rwa [State.answer_engine]
  · rename_i j found
    obtain ⟨hj, own, -⟩ := JobEngine.mem_of_findOf found
    subst own
    have paused : j.state ≠ .running → (s.engine.pauseJob j.id).Orderly := by
      intro idle
      refine ⟨h.setIdle hj idle .paused (by simp) rfl rfl, fun none k hk queued => ?_⟩
      obtain ⟨i, hi, rfl⟩ := List.mem_map.mp hk
      split at queued
      · cases queued
      · exact h.waiting none i hi queued
    split
    · rename_i state
      rw [State.answer_engine]
      exact paused (by rw [state]; exact JobState.noConfusion)
    · rename_i state
      rw [State.answer_engine]
      exact paused (by rw [state]; exact JobState.noConfusion)
    · rename_i state
      split
      · exact State.deferStop_orderly h ..
      · refine State.orderly_select ?_
        rw [State.answer_engine]
        refine h.setState hj state .paused (by simp) ?_ rfl
        exact congrArg (List.map (fun k : Job => if k.id = j.id then { k with state := .paused } else k))
          (s.withdrawAdmission_jobs _)
    · rwa [State.answer_engine]

theorem State.decideResume_orderly {s : State} (h : s.engine.Orderly) (p : Port) (id : Nat) :
    (s.decideResume p id).engine.Orderly := by
  unfold State.decideResume
  split
  · rwa [State.answer_engine]
  · rename_i j found
    obtain ⟨hj, own, -⟩ := JobEngine.mem_of_findOf found
    subst own
    split
    · rename_i state
      refine State.orderly_select ?_
      rw [State.answer_engine]
      exact h.setIdle hj (by rw [state]; exact JobState.noConfusion) .queued (by simp) rfl rfl
    all_goals rwa [State.answer_engine]

theorem State.cancelJob_orderly {s : State} (h : s.engine.Orderly) (p : Port) {j : Job} (hj : j ∈ s.engine.jobs)
    (c : CancelReason) : (s.cancelJob p j c).engine.Orderly := by
  have replies : ∀ t : State, (t.answer p .ok j.stopFields).engine = t.engine := fun t => t.answer_engine ..
  unfold State.cancelJob
  dsimp only
  split
  · split
    · exact State.deferStop_orderly h ..
    · refine State.orderly_select ?_
      obtain ⟨jobs, running⟩ := (s.withdrawAdmission .engine).endCancelled_engine j c _ replies
      have withdrawn := h.toTidy.congr (s.withdrawAdmission_jobs .engine) (s.withdrawAdmission_running .engine)
      exact (withdrawn.remove j.id).congr jobs running
  · rename_i idle
    obtain ⟨jobs, running⟩ := s.endCancelled_engine j c _ replies
    exact (h.remove hj idle).congr jobs running

theorem JobEngine.Tidy.tear {s : State} (h : s.engine.Tidy) (j : Job) : (s.tearJob j).engine.Tidy := by
  unfold State.tearJob
  split
  · split
    · exact h.map _ rfl rfl (fun k => by split <;> rfl) (fun k => by split <;> rfl)
        (fun k => by split <;> exact ⟨rfl, rfl⟩) (fun k _ => by split <;> rfl) (fun k => by split <;> rfl)
    · exact (h.congr (s.withdrawAdmission_jobs .engine) (s.withdrawAdmission_running .engine)).remove j.id
  · exact h.remove j.id

theorem State.jobStep_orderly {s : State} (h : s.engine.Orderly) (p : Port) : (s.jobStep p).engine.Orderly := by
  unfold State.jobStep
  refine State.orderly_select ?_
  refine State.each_induct (fun t => t.engine.Tidy) State.tearJob _ (fun t j _ ht => ht.tear j) _ ?_
  rw [State.dropInPhase_engine, State.modEngine_engine, State.discardHanded_engine]
  exact h.toTidy.map _ rfl rfl (fun _ => rfl) (fun _ => rfl) (fun _ => ⟨rfl, rfl⟩) (fun _ _ => Iff.rfl) (fun _ => rfl)

theorem State.takeBlockLimit_orderly {s : State} (h : s.engine.Orderly) (id : Nat) :
    (s.takeBlockLimit id).engine.Orderly := by
  unfold State.takeBlockLimit
  split
  · exact h
  · rename_i j found
    split
    · rename_i reached
      obtain ⟨x, state⟩ := (Job.limitReached_iff j).mp reached
      rw [s.endJob_engine j _ _ _ (fun _ => rfl)]
      exact (h.remove (JobEngine.mem_of_find found).1 (by rw [state]; exact JobState.noConfusion)).record ..
    · exact h

/-- A job after its chunk: more of it is done. -/
def Job.advance (j : Job) (n : Nat) (bytes : List Byte) : Job := { j with done := j.done + n, work := j.work.fold bytes }

/-- A chunk is at most what is left of its job (R97). -/
theorem Job.nextChunk_size (j : Job) (h : j.done < j.length) : j.done + j.nextChunk.size ≤ j.length := by
  unfold Job.nextChunk
  dsimp only
  omega

/-- A job that leaves the table leaves it the same whatever it was changed to before. -/
theorem JobEngine.remove_map {e d : JobEngine} {id : Nat} (f : Job → Job) (jobs : d.jobs = e.jobs.map f)
    (running : d.running = e.running) (own : ∀ j, (f j).id = j.id) (other : ∀ j, j.id ≠ id → f j = j) :
    (d.remove id).jobs = (e.remove id).jobs ∧ (d.remove id).running = (e.remove id).running := by
  constructor
  · unfold JobEngine.remove
    dsimp only
    rw [jobs, List.filter_map, List.filter_congr (q := fun j => j.id != id) (fun j _ => by rw [Function.comp_apply, own])]
    refine (List.map_congr_left (fun j hj => ?_)).trans (List.map_id _)
    exact other j (bne_iff_ne.mp (List.mem_filter.mp hj).2)
  · show (if d.isRunning id then none else d.running) = if e.isRunning id then none else e.running
    rw [JobEngine.isRunning, JobEngine.isRunning, running]

/-- R99, R100: after a chunk its job ends, leaves the engine or goes on. -/
theorem State.resolveChunk_orderly {s : State} {e : JobEngine} (h : e.Tidy) {j : Job} (hj : j ∈ e.jobs) {r : RunningJob}
    (hr : e.running = some r) (own : j.id = r.job) (bytes : List Byte)
    (jobs : s.engine.jobs = e.jobs.map (fun k => if k.id = j.id then k.advance j.nextChunk.size bytes else k))
    (running : s.engine.running = e.running) :
    (s.resolveChunk (j.advance j.nextChunk.size bytes)).engine.Orderly := by
  have replies : ∀ t : State, (t.answerEnded (j.advance j.nextChunk.size bytes)).engine = t.engine :=
    fun t => t.answerEnded_engine _
  have others : ∀ k ∈ e.jobs, k.state = .running → k.id = j.id := fun k hk runs =>
    (h.one r hr k hk runs).trans own.symm
  have removed : (s.engine.remove j.id).Tidy := by
    obtain ⟨same, idle⟩ := JobEngine.remove_map (id := j.id) _ jobs running (fun k => by split <;> rfl)
      (fun k c => if_neg c)
    exact (h.remove j.id).congr same idle
  have ended : ∀ o x, (s.endJob (j.advance j.nextChunk.size bytes) o x
      (fun t => t.answerEnded (j.advance j.nextChunk.size bytes))).engine.Tidy := by
    intro o x
    rw [s.endJob_engine _ _ _ _ replies]
    exact removed.record ..
  have more : (j.advance j.nextChunk.size bytes).done ≠ (j.advance j.nextChunk.size bytes).length →
      ∀ k ∈ e.jobs, (if k.id = j.id then k.advance j.nextChunk.size bytes else k).done <
        (if k.id = j.id then k.advance j.nextChunk.size bytes else k).length := by
    intro left k hk
    split
    · rename_i same
      obtain rfl := h.eq_of_id hk hj same
      exact Nat.lt_of_le_of_ne (k.nextChunk_size (h.progress k hk)) left
    · exact h.progress k hk
  unfold State.resolveChunk
  split
  · refine State.orderly_select ?_
    obtain ⟨same, idle⟩ := s.endCancelled_engine (j.advance j.nextChunk.size bytes) _ _ replies
    exact removed.congr same idle
  · split
    · exact State.orderly_select (ended _ _)
    · rename_i left
      refine State.orderly_select ?_
      rw [State.answerPaused_engine]
      refine h.leave (fun k => if k.id = j.id then
          { k.advance j.nextChunk.size bytes with state := .paused, stop := .none, stopWaiters := [] } else k) ?_ rfl
        (fun k => by split <;> rfl) (fun k => by split <;> rfl) (fun k hk => ?_) (fun k hk => ?_)
      · refine (congrArg (List.map _) jobs).trans ((List.map_map ..).trans (List.map_congr_left (fun k _ => ?_)))
        by_cases own : k.id = j.id
        · simp [own, Job.advance]
        · simp [own, Job.advance]
      · have := more left k hk
        by_cases own : k.id = j.id
        · rw [if_pos own] at this ⊢
          exact this
        · rw [if_neg own] at this ⊢
          exact this
      · split
        · exact JobState.noConfusion
        · rename_i other
          exact fun runs => other (others k hk runs)
  · split
    · exact State.orderly_select (ended _ _)
    · rename_i left
      obtain ⟨i, hi, same, runs, -⟩ := h.busy r hr
      obtain rfl := h.eq_of_id hi hj (same.trans own.symm)
      refine JobEngine.Orderly.mk (h.run _ jobs (fun k => by split <;> rfl) (fun k => by split <;> rfl) (more left) hj
        rfl rfl (by rw [if_pos rfl]) (by rw [if_pos rfl]; exact runs) (fun k hk state => ?_)) (fun none => by cases none)
      split at state
      · assumption
      · exact others k hk state

theorem State.chunkEnd_orderly {s : State} (h : s.engine.Orderly) (bytes : List Byte) :
    (s.chunkEnd bytes).engine.Orderly := by
  unfold State.chunkEnd
  split
  · exact h
  · rename_i r running
    split
    · exact h
    · rename_i j found
      obtain ⟨hj, own⟩ := JobEngine.mem_of_find found
      obtain ⟨i, hi, same, -, chunk⟩ := h.busy r running
      obtain rfl := h.eq_of_id hi hj (same.trans own.symm)
      rw [chunk]
      refine State.resolveChunk_orderly h.toTidy hj running own bytes (List.map_congr_left (fun k hk => ?_)) rfl
      split
      · rename_i c
        rw [h.eq_of_id hk hj c]
        rfl
      · rfl

/-! ## The engine stays orderly -/

theorem Job.unblock_cases (x : Nat) (j : Job) : j.unblock x = j ∨
    j.state ≠ .running ∧ j.unblock x = { j with state := .queued } := by
  unfold Job.unblock
  split
  · rename_i state
    split
    · exact .inr ⟨by rw [state]; exact JobState.noConfusion, rfl⟩
    · exact .inl rfl
  all_goals exact .inl rfl

theorem Job.lowerTimer_cases (j : Job) : j.lowerTimer = j ∨
    (∃ x n, j.state = .blocked x n) ∧ ∃ x n, j.lowerTimer = { j with state := .blocked x n } := by
  unfold Job.lowerTimer
  split
  · rename_i x n state
    exact .inr ⟨⟨x, _, state⟩, x, _, rfl⟩
  · exact .inl rfl

theorem EngineAct.orderly {s t : State} (h : s.engine.Orderly)
    (submitted : ∀ p w length limit, s.handed p = some (.submit w length limit) → 1 ≤ length) (a : EngineAct s t) :
    t.engine.Orderly := by
  cases a with
  | decision d => exact State.engineDecision_orderly h d
  | chunkEnd bytes => exact State.chunkEnd_orderly h bytes
  | submit p w length limit handed => exact State.submit_orderly h p w (submitted p w length limit handed) limit
  | pause p id => exact State.decidePause_orderly h p id
  | resume p id => exact State.decideResume_orderly h p id
  | cancel p j reason handed live => exact State.cancelJob_orderly h p live reason
  | jobStep p => exact State.jobStep_orderly h p
  | report x rest =>
    refine State.orderly_select (h.toTidy.map (Job.unblock x) (by rfl) (by rfl) (fun j => ?_) (fun j => ?_) (fun j => ?_) (fun j _ => ?_)
      (fun j => ?_))
    all_goals rcases j.unblock_cases x with e | ⟨idle, e⟩ <;> rw [e]
    · exact ⟨rfl, rfl⟩
    · exact ⟨rfl, rfl⟩
    · exact iff_of_false JobState.noConfusion idle
    · rfl
  | blockLimit id => exact State.takeBlockLimit_orderly h id
  | history p => exact h.congr rfl rfl
  | lowerTimers =>
    refine h.map Job.lowerTimer rfl rfl (fun j => ?_) (fun j => ?_) (fun j => ?_) (fun j _ => ?_) (fun j => ?_)
      (fun j _ state => ?queued)
    case queued =>
      rcases j.lowerTimer_cases with e | ⟨-, y, m, e⟩ <;> rw [e] at state
      · exact state
      · cases state
    all_goals rcases j.lowerTimer_cases with e | ⟨⟨x, n, old⟩, y, m, e⟩ <;> rw [e]
    · exact ⟨rfl, rfl⟩
    · exact ⟨rfl, rfl⟩
    · exact iff_of_false JobState.noConfusion (by rw [old]; exact JobState.noConfusion)
    · rfl

/-- A request comes to stand handed over only with its length within its bounds. -/
theorem State.Becomes.handed {s t : State} (h : s.Becomes EngineChange t) {p : Port} {x : Handed}
    (e : t.handed p = some x) : s.handed p = some x ∨ x.Fits := by
  induction h with
  | stay => exact .inl e
  | tail _ change ih =>
    rcases change with change | change
    · rcases change.handed e with before | ⟨fits, -⟩
      · exact ih before
      · exact .inr fits
    · cases change <;> exact ih e

theorem Change.engineOrderly {s t : State} (h : s.EngineOrderly) (c : Change s t) : t.EngineOrderly := by
  rw [State.engineOrderly_iff] at *
  obtain ⟨orderly, submitted⟩ := h
  refine ⟨?_, fun p w length limit e => ?_⟩
  · cases c with
    | view same => exact orderly.congr same.jobs same.running
    | reset _ _ _ _ engine =>
      rw [engine]
      have noJob : ∀ {P : Job → Prop}, ∀ j ∈ JobEngine.reset.jobs, P j := fun _ k => absurd k List.not_mem_nil
      exact ⟨⟨Nat.zero_le _, fun _ => Nat.zero_le _, List.nodup_nil, noJob, noJob, fun _ => noJob,
        fun r e => (by cases e), fun _ _ => noJob⟩, fun _ => noJob⟩
    | _ => exact orderly
  · rcases c.handed e with before | ⟨fits, -⟩
    · exact submitted p w length limit before
    · exact fits.1

theorem EngineAct.engineOrderly {s t : State} (h : s.EngineOrderly) (a : EngineAct s t) : t.EngineOrderly := by
  rw [State.engineOrderly_iff] at *
  obtain ⟨orderly, submitted⟩ := h
  refine ⟨a.orderly orderly submitted, fun p w length limit e => ?_⟩
  rcases a.becomes.handed e with before | fits
  · exact submitted p w length limit before
  · exact fits.1

theorem Change.historiesFit {s t : State} (h : s.HistoriesFit) (c : Change s t) : t.HistoriesFit := by
  cases c with
  | view same => exact fun p => same.histories ▸ h p
  | reset _ _ _ _ engine =>
    intro p
    rw [engine]
    cases p <;> exact Nat.zero_le _
  | _ => exact h

theorem EngineChange.historiesFit {s t : State} (h : s.HistoriesFit) (c : EngineChange s t) : t.HistoriesFit := by
  cases c with
  | goesOn f goes =>
    intro p
    rw [State.modEngine_engine]
    rcases goes.histories p with same | empty | ⟨-, fits⟩
    · exact same ▸ h p
    · exact empty ▸ Nat.zero_le _
    · exact fits
  | accept => exact h

/-- Settles O57: each act of the engine leaves its tables orderly, and an end record enters a history of at most four. -/
theorem jobEngineStaysOrderly : Obligations.JobEngineStaysOrderly := by
  unfold Obligations.JobEngineStaysOrderly
  have orderly : StepKeeps State.EngineOrderly :=
    stepKeeps_of_acts (fun _ _ h c => c.engineOrderly h) (fun _ _ h a => a.engineOrderly h)
  have histories : StepKeeps State.HistoriesFit :=
    stepKeeps_of_changes (fun _ _ h c => c.historiesFit h) (fun _ _ h c => c.historiesFit h)
  exact fun s t ⟨h, k⟩ e => ⟨orderly s t h e, histories s t k e⟩

end Sys2Proof.Machine
end

section
/-! SUPPORT. The state after device reset has the invariants; reset, power-on and the front of the command queue (R1 to R9). -/

namespace Sys2Proof.Machine

/-- Settles O60: in the reset state every table is empty, every session DOWN and every counter 0. -/
theorem resetHasTheInvariants : Obligations.ResetHasTheInvariants := by
  unfold Obligations.ResetHasTheInvariants
  have settling : ∀ p, State.reset.leaseUnit.settling.get p = none := fun p => PerPort.get_const ..
  have executing : ∀ p, (State.reset.pu.get p).executing = none := fun p => by cases p <;> rfl
  have handed : ∀ p x, State.reset.handed p ≠ some x := fun p x e => by
    rw [State.handed_of_free (executing p)] at e
    cases e
  have windows : ∀ p i, (State.reset.pu.get p).windowNamed i = none := fun p i =>
    PortUnit.windowNamed_closed (by cases p <;> rfl) i
  have noLease : ∀ {P : Lease → Prop}, ∀ l ∈ State.reset.leaseUnit.leases, P l := fun _ k => absurd k List.not_mem_nil
  have noWaiter : ∀ {P : Waiter → Prop}, ∀ w ∈ State.reset.leaseUnit.queue, P w := fun _ k => absurd k List.not_mem_nil
  have noJob : ∀ {P : Job → Prop}, ∀ j ∈ State.reset.engine.jobs, P j := fun _ k => absurd k List.not_mem_nil
  have noSettling : ∀ {P : Settling → Prop} p t, State.reset.leaseUnit.settling.get p = some t → P t := fun p t e => by
    rw [settling p] at e
    cases e
  refine ⟨rfl, ?queues, ?discard, Nat.zero_le _, ⟨List.nodup_nil, noLease⟩, ⟨Nat.zero_le _, fun _ => Nat.zero_le _⟩,
    fun p => ⟨Nat.zero_le _, fun c => absurd (settling p) c⟩, ?flight, ?teardown, ?leases,
    ⟨fun _ k => absurd k List.not_mem_nil, noWaiter, fun p => noSettling p⟩, ?engine, ?histories,
    fun p => ⟨fun i w e => ?_, fun i j v w _ e => ?_⟩, ?receivers, ?counters, ⟨by decide, .inl rfl⟩, ?timers⟩
  case queues => exact fun p => by cases p <;> decide
  case discard => exact fun p discard => by cases p <;> cases discard
  case flight =>
    exact ⟨fun p => by cases p <;> rfl, fun _ => List.nodup_nil,
      fun p x e => absurd (e.symm.trans (executing p)) (Option.some_ne_none x), fun p => by cases p <;> decide⟩
  case teardown =>
    exact ⟨fun p _ => windows p, fun p _ _ => by cases p <;> rfl, fun p _ _ => ⟨rfl, settling p, fun x => handed p _⟩,
      fun _ _ _ => rfl, fun p _ => by cases p <;> exact ⟨rfl, rfl, rfl, rfl⟩⟩
  case leases =>
    exact ⟨.nil, noWaiter, .nil, noWaiter, .nil, fun p => noSettling p, fun p => noSettling p,
      fun p _ t _ _ e => noSettling (P := fun _ => _ → _) p t e, fun p c => absurd (settling p) c⟩
  case engine =>
    exact ⟨Nat.zero_le _, fun _ => Nat.zero_le _, List.nodup_nil, noJob, noJob, fun _ => noJob, fun r e => (by cases e),
      fun _ _ => noJob, fun p _ _ _ e => absurd e (handed p _)⟩
  case histories => exact fun p => by cases p <;> exact Nat.zero_le _
  case receivers => exact fun p => by cases p <;> exact Receiver.released_legal true
  case counters => exact fun p => by cases p <;> decide
  case timers =>
    exact ⟨noLease, noWaiter, fun p => noSettling p, noJob, fun p _ e => absurd e (handed p _),
      fun p _ _ e => absurd e (handed p _), fun p _ _ _ e => absurd e (handed p _)⟩
  · rw [windows] at e
    cases e
  · rw [windows] at e
    cases e

/-- Settles O1: a step runs the command at the front. -/
theorem stepRunsFrontCommand : Obligations.StepRunsFrontCommand := by
  unfold Obligations.StepRunsFrontCommand
  exact fun c rest s => rfl

/-- Settles O35: a turn request is granted while no turn runs and none is pending, and joins the pending ones while one runs
(R62). -/
theorem turnRequestGrantedOrPending : Obligations.TurnRequestGrantedOrPending := by
  unfold Obligations.TurnRequestGrantedOrPending
  intro s r t asked
  have taken : exec (.turnRequest r) s =
      .next ((s.modMail r (fun m => { m with turn := none })).setArbiter (s.arbiter.take r t)) := by
    simp only [exec, execTurnRequest, asked]
  refine ⟨fun idle none => ?_, fun c busy => ?_⟩
  · rw [taken, Arbiter.take, idle]
    simp [Arbiter.grant, none]
  · rw [taken, Arbiter.take, busy]

/-! ## Reset (R8, R9) -/

/-- A receiver released with its line at space goes into BREAK after 22 bits of space and not before (R147). -/
theorem State.line_space_released {s : State} {p : Port} (h : s.resetLine = .released)
    (released : s.lrx.get p = .released false) (n : Nat) :
    ((s.line p (List.replicate n false)).lrx.get p).state = (if n < 22 then .hunting else .brk) ∧
    ((s.line p (List.replicate n false)).pu.get p).breakReports =
      (s.pu.get p).breakReports + if n < 22 then 0 else 1 := by
  have state : (s.lrx.get p).state = .hunting := by rw [released]; rfl
  have other : (s.lrx.get p).state ≠ .brk := by rw [state]; exact RxState.noConfusion
  have counted := s.line_space_idle h other (by rw [released]; rfl) (m := 0) (by rw [released]; rfl)
  split
  · rename_i few
    rw [counted n (by rw [Nat.zero_add]; exact few), State.setRun_pu, State.setRun_lrx]
    exact ⟨state, rfl⟩
  · rename_i many
    have full : ((s.setRun p (.space (0 + 21))).lrx.get p).run = .space 21 := by rw [State.setRun_lrx]
    have idle : ((s.setRun p (.space (0 + 21))).lrx.get p).state ≠ .assembling := by
      rw [State.setRun_lrx, state]
      exact RxState.noConfusion
    have first : s.line p (List.replicate (21 + 1) false) = ((s.setRun p (.space (0 + 21))).modLrx p (fun x => { x with
        state := .brk, buffer := [], held := none, run := .space (x.run.spaces + 1), character := [] })).modPu p
          (fun u => { u with breakReports := u.breakReports + 1 }) := by
      rw [State.line_replicate_add, counted 21 (by decide)]
      refine (State.line_bit (s := s.setRun p _) h p false).trans ?_
      rw [State.lineBit_break (by rw [State.setRun_lrx]; exact other) (by rw [full]; decide),
        State.discardAssembly_other idle]
    obtain ⟨m, rfl⟩ : ∃ m, n = 21 + 1 + m := ⟨n - 22, by omega⟩
    rw [State.line_replicate_add, first]
    cases m with
    | zero => simp [State.setRun]
    | succ m =>
      rw [State.line_space_brk (by exact h) (by simp)]
      simp [State.setRun]

theorem State.interruptedCells_written {s : State} {c : Host.Cell} (h : c ∈ s.interruptedCells) :
    ∃ r t, s.arbiter.current = some (r, t) ∧ c ∈ t.written s := by
  unfold State.interruptedCells at h
  split at h
  · exact absurd h List.not_mem_nil
  · rename_i r t current
    exact ⟨r, t, current, (List.mem_filter.mp h).1⟩

/-- Settles O6: the blocks are reset, the store keeps its bytes but those of an interrupted write, and the straps and the line
levels are taken when reset is released. -/
theorem resetCommandsResetTheBlocks : Obligations.ResetCommandsResetTheBlocks := by
  unfold Obligations.ResetCommandsResetTheBlocks
  refine ⟨fun s => ⟨_, rfl, rfl, fun a => rfl⟩, ?release, fun rate supv rx s h => ?_, ?assert, fun n s h => ?_,
    fun n s h => ?_⟩
  case release =>
    intro lr1 lr0 supv rx0 rx1 rx2 rx3 level s t held levels after
    refine ⟨?_, fun p n space => ⟨_, rfl, ?_⟩⟩
    · simp only [exec, execResetRelease, if_neg held]
      rw [after]
      rfl
    · have line : t.resetLine = .released := by rw [after]; rfl
      have released : t.lrx.get p = .released false := by
        rw [levels] at space
        rw [after]
        cases p <;> simp_all [PerPort.get, Receiver.released]
      have reports : (t.pu.get p).breakReports = 0 := by
        rw [after]
        cases p <;> rfl
      obtain ⟨state, count⟩ := State.line_space_released line released n
      exact ⟨state, count.trans (by rw [reports, Nat.zero_add])⟩
  case assert =>
    intro n s long running
    have taken : exec (.resetAssert n) s = .next { s.resetBlocks with
        store := Memory.writeAll s.store s.interruptedCells, resets := s.resets + 1, resetLine := .resetLow } := by
      simp only [exec, execResetAssert]
      rw [if_neg (by simp [running, resetFilter, long])]
    refine ⟨_, taken, rfl, fun a => ?_, fun nothing => ?_⟩
    · rcases Memory.lookup_writeAll s.interruptedCells s.store a with same | ⟨b, cell, read⟩
      · exact .inl (by simp only [State.storeByte, same]; rfl)
      · obtain ⟨r, u, current, written⟩ := State.interruptedCells_written cell
        refine .inr ⟨r, u, b, current, written, ?_⟩
        simp only [State.storeByte, read]
    · have none : s.interruptedCells = [] := by
        rw [List.eq_nil_iff_forall_not_mem]
        intro c hc
        obtain ⟨r, u, current, written⟩ := State.interruptedCells_written hc
        rw [nothing r u current] at written
        exact List.not_mem_nil written
      simp only [none]
      rfl
  · simp only [exec, execResetRelease, if_pos h]
  · simp only [exec, execResetAssert]
    rw [if_pos (.inl h)]
  · simp only [exec, execResetAssert]
    rw [if_pos (.inr h)]

end Sys2Proof.Machine
end

section
/-! SUPPORT. Frames are taken and checked (01 TABLE 3, 10 TABLE 2). -/

namespace Sys2Proof.Machine

/-- A request's command takes the frame of its kind where nothing of the kind stands handed over or half read. -/
theorem exec_request {c : Instr} {p : Port} {k : Kind} {s : State} (h : requestOf c = some (p, k))
    (handed : s.handed p = none) (gather : (s.pu.get p).gather = none) :
    ∃ body, exec c s = .next (s.takeRequest p k body) := by
  cases c <;> cases h
  case portStatus late =>
    refine ⟨fun f t => t.readOn p late { kind := .portStatus, tag := f.tag, taken := 0, fields := [] } (portStatusReadings p), ?_⟩
    simp only [exec, execPortStatus, State.status, gather]
  case devStatus late =>
    refine ⟨fun f t => t.readOn p late { kind := .devStatus, tag := f.tag, taken := 0, fields := [] } devStatusReadings, ?_⟩
    simp only [exec, execDevStatus, State.status, gather]
  case lease | renew | release | withdraw | leaseList | jobCopy | jobFill | jobSum | jobPause | jobResume | jobCancel
      | jobQuery | forceRelease | forceCancel =>
    simp only [exec, execLease, execRenew, execRelease, execWithdraw, execLeaseList, execJobCopy, execJobFill, execJobSum,
      execJobPause, execJobResume, execJobCancel, execJobQuery, execForceRelease, execForceCancel, handed]
    exact ⟨_, rfl⟩
  all_goals exact ⟨_, rfl⟩

theorem State.takeRequest_of_none {s : State} {p : Port} (h : s.takeable p = none) (k : Kind)
    (body : Frame → State → State) : s.takeRequest p k body = s := by
  simp only [State.takeRequest, h]

theorem State.CanTake.takeRequest_up {s : State} {p : Port} {f : Frame} (h : s.CanTake p .up f) {k : Kind}
    (kind : f.kind = k.code) (body : Frame → State → State) : s.takeRequest p k body = s.takeUp p k f (body f) := by
  simp only [State.takeRequest, h.takeable (by simp), kind, h.session, if_true]

theorem State.CanTake.takeRequest_down {s : State} {p : Port} {f : Frame} (h : s.CanTake p .down f) {k : Kind}
    (kind : f.kind = k.code) (body : Frame → State → State) : s.takeRequest p k body = s.takeDown p k f (body f) := by
  simp only [State.takeRequest, h.takeable (by simp), kind, h.session, if_true]

/-- A refusal in UP leaves only its reply. -/
theorem State.CanTake.refused {s : State} {p : Port} {x : Session} {f : Frame} (h : s.CanTake p x f) (k : Kind)
    (r : Result) : (s.beginRequest p k f.tag).answer p r [] = s.served p (f.reply k r []) :=
  State.beginRequest_answer h.free h.sends k f.tag r []

/-- Settles O7: the conditions of 01 TABLE 3, and that nothing happens without a frame to take. -/
theorem frameTakenExactlyUnderItsConditions : Obligations.FrameTakenExactlyUnderItsConditions := by
  unfold Obligations.FrameTakenExactlyUnderItsConditions
  refine ⟨fun s p f => ?_, fun c p k s request none handed gather => ?_⟩
  · have session : (s.pu.get p).session ≠ .closing ↔ (s.pu.get p).session = .down ∨ (s.pu.get p).session = .up := by
      cases (s.pu.get p).session <;> simp
    have room : (s.ltx.get p).hasRoom = true ↔
        (s.ltx.get p).reserved < transmitQueueSize - (s.ltx.get p).queue.length := decide_eq_true_iff
    rw [State.takeable_iff, session, room]
    grind
  · obtain ⟨body, e⟩ := exec_request request handed gather
    rw [e, State.takeRequest_of_none none]

/-- Settles O8: the checks in their order, each refusal leaving its reply alone. -/
theorem checksOnATakenFrame : Obligations.ChecksOnATakenFrame := by
  unfold Obligations.ChecksOnATakenFrame
  refine ⟨fun c p k s f request kind => ⟨fun up => ?_, fun down => ?_⟩, fun s p f unknown can => ?_⟩
  · obtain ⟨body, e⟩ := exec_request request (State.handed_of_free up.free) up.quiet
    rw [e, up.takeRequest_up kind, State.takeUp]
    refine ⟨fun isOpen => ?_, fun other length => ?_, fun other length tag => ?_, fun other length tag supervisor port => ?_⟩
    · rw [if_pos isOpen, up.refused]
    · rw [if_neg other, if_pos length, up.refused]
    · rw [if_neg other, if_neg (by simp [length]), if_pos tag, up.refused]
    · rw [if_neg other, if_neg (by simp [length]), if_neg (by simp [tag]), if_pos ⟨supervisor, port⟩, up.refused]
  · obtain ⟨body, e⟩ := exec_request request (State.handed_of_free down.free) down.quiet
    rw [e, down.takeRequest_down kind, State.takeDown]
    refine ⟨fun notOpen notStatus => ?_, fun admitted length => ?_⟩
    · rw [if_pos ⟨notOpen, notStatus⟩, down.answerDirect, kind]
      rfl
    · rw [if_neg (Decidable.or_iff_not_not_and_not.1 admitted), if_pos length, down.answerDirect, kind]
      rfl
  · have refused : ∀ x, x ≠ .closing → s.CanTake p x f → exec (.unknownKind p) s =
        .next (s.served p (replyFrame f.kind f.tag .unknownKind [])) := by
      intro x open_ h
      simp only [exec, execUnknownKind, h.takeable open_, unknown, Bool.false_eq_true, if_false, h.answerDirect]
    rcases can with up | down
    · exact refused .up (by simp) up
    · exact refused .down (by simp) down

/-! ## OPEN (R13, R14) -/

theorem NoticeMask.ofCode_eq (n : Nat) : NoticeMask.ofCode n = if 8 ≤ n then none
    else some { lease := n.testBit 0, job := n.testBit 1, line := n.testBit 2 } := rfl

theorem Transmitter.append_dropped_zero (t : Transmitter) (f : Frame) :
    ({ t with dropped := 0 } : Transmitter).append f = { t.append f with dropped := 0 } := by
  rw [Transmitter.append_eq, Transmitter.append_eq]

/-- Settles O9: the checks of the fields, then the opening with its reply. -/
theorem openOpensTheSession : Obligations.OpenOpensTheSession := by
  unfold Obligations.OpenOpensTheSession
  intro s p f can kind length
  have taken : exec (.openSession p) s = .next ((s.emptySlot p).decideOpen p f) := by
    have e := can.takeRequest_down kind (fun f t => t.decideOpen p f)
    rw [State.takeDown, if_neg (by simp), if_neg (by simp [length])] at e
    exact congrArg Host.Outcome.next e
  have bad : (s.emptySlot p).answerDirect p f.kind f.tag .badField [] = s.served p (f.reply .openSession .badField []) := by
    rw [can.answerDirect, kind]
    rfl
  refine ⟨fun wrong => ?_, fun version mask label => ?_⟩
  · rw [taken, State.decideOpen, NoticeMask.ofCode_eq]
    by_cases mask : 8 ≤ fieldAt f.payload 1 1
    · rw [if_pos mask]
      exact congrArg Host.Outcome.next bad
    · rw [if_neg mask]
      refine (congrArg Host.Outcome.next (if_pos ?_)).trans (congrArg Host.Outcome.next bad)
      omega
  · rw [taken, State.decideOpen, NoticeMask.ofCode_eq, if_neg (by omega)]
    refine congrArg Host.Outcome.next ((if_neg (by omega)).trans ?_)
    have room : ({ s.ltx.get p with dropped := 0 } : Transmitter).hasRoom = true := can.room
    simp [State.openPort, State.answerDirect, State.emptySlot, State.served, State.modLrx, State.modLtx, State.modPu,
      State.isSupervisor, flagByte, Transmitter.queueDirect_room (t := { s.ltx.get p with dropped := 0 }) can.sends room,
      Transmitter.append_dropped_zero, PortUnit.open, Receiver.clearCounters, Frame.reply, kind]

end Sys2Proof.Machine
end

section
/-! SUPPORT. The status requests: what a reading gives, at once or one at a time (13 §1). -/

namespace Sys2Proof.Machine

/-- Two states in which every status reading gives the same bytes. -/
structure State.ReadsSame (s t : State) : Prop where
  session : ∀ q, (t.pu.get q).session = (s.pu.get q).session
  label : ∀ q, (t.pu.get q).label = (s.pu.get q).label
  windows : ∀ q, (t.pu.get q).windows = (s.pu.get q).windows
  counters : ∀ q, (t.lrx.get q).checkDiscards = (s.lrx.get q).checkDiscards ∧
    (t.lrx.get q).lengthDiscards = (s.lrx.get q).lengthDiscards ∧ (t.lrx.get q).cutDiscards = (s.lrx.get q).cutDiscards ∧
    (t.lrx.get q).framingDiscards = (s.lrx.get q).framingDiscards ∧ (t.lrx.get q).overruns = (s.lrx.get q).overruns
  dropped : ∀ q, (t.ltx.get q).dropped = (s.ltx.get q).dropped
  leaseUnit : t.leaseUnit = s.leaseUnit
  engine : t.engine = s.engine

theorem PerPort.get_set_proj {α β : Type} (v : PerPort α) (p q : Port) {a : α} (f : α → β) (h : f a = f (v.get p)) :
    f ((v.set p a).get q) = f (v.get q) := by
  by_cases e : q = p
  · rw [e, PerPort.get_set_self, h]
  · rw [PerPort.get_set_ne _ _ e]

theorem State.ReadsSame.emptySlot (s : State) (p : Port) : s.ReadsSame (s.emptySlot p) where
  session _ := rfl
  label _ := rfl
  windows _ := rfl
  counters q := ⟨s.lrx.get_set_proj p q (·.checkDiscards) rfl, s.lrx.get_set_proj p q (·.lengthDiscards) rfl,
    s.lrx.get_set_proj p q (·.cutDiscards) rfl, s.lrx.get_set_proj p q (·.framingDiscards) rfl,
    s.lrx.get_set_proj p q (·.overruns) rfl⟩
  dropped _ := rfl
  leaseUnit := rfl
  engine := rfl

theorem State.ReadsSame.beginRequest (s : State) (p : Port) (k : Kind) (tag : Byte) :
    s.ReadsSame (s.beginRequest p k tag) where
  session q := s.pu.get_set_proj p q (·.session) rfl
  label q := s.pu.get_set_proj p q (·.label) rfl
  windows q := s.pu.get_set_proj p q (·.windows) rfl
  counters := (State.ReadsSame.emptySlot s p).counters
  dropped q := s.ltx.get_set_proj p q (·.dropped) rfl
  leaseUnit := rfl
  engine := rfl

theorem State.ReadsSame.setGather (s : State) (p : Port) (g : Option Gather) :
    s.ReadsSame (s.modPu p (fun u => { u with gather := g })) where
  session q := s.pu.get_set_proj p q (·.session) rfl
  label q := s.pu.get_set_proj p q (·.label) rfl
  windows q := s.pu.get_set_proj p q (·.windows) rfl
  counters _ := ⟨rfl, rfl, rfl, rfl, rfl⟩
  dropped _ := rfl
  leaseUnit := rfl
  engine := rfl

theorem State.ReadsSame.openWindows {s t : State} (h : s.ReadsSame t) (q : Port) :
    (t.pu.get q).openWindows = (s.pu.get q).openWindows := by
  simp only [PortUnit.openWindows, h.windows q]

theorem State.ReadsSame.portStatus {s t : State} (h : s.ReadsSame t) (p : Port) :
    ∀ r ∈ portStatusReadings p, r.value t = r.value s := by
  obtain ⟨check, length, cut, framing, overruns⟩ := h.counters p
  simp [portStatusReadings, check, length, cut, framing, overruns, h.session p, h.dropped p, h.openWindows p,
    h.leaseUnit, h.engine]

theorem State.ReadsSame.portBlock {s t : State} (h : s.ReadsSame t) (p : Port) :
    ∀ r ∈ portBlockReadings p, r.value t = r.value s := by
  simp [portBlockReadings, h.session p, h.label p, h.leaseUnit, h.engine]

theorem State.ReadsSame.devStatus {s t : State} (h : s.ReadsSame t) :
    ∀ r ∈ devStatusReadings, r.value t = r.value s := by
  refine List.forall_mem_append.2 ⟨fun r block => ?_, by simp [h.leaseUnit, h.engine]⟩
  obtain ⟨q, _, inBlock⟩ := List.mem_flatMap.1 block
  exact h.portBlock q r inBlock

/-- Every reading of the list gives the same in states of the same status. -/
def Steady (readings : List Reading) : Prop :=
  ∀ s t : State, s.ReadsSame t → ∀ r ∈ readings, r.value t = r.value s

theorem portStatusReadings_steady (p : Port) : Steady (portStatusReadings p) := fun _ _ h => h.portStatus p

theorem devStatusReadings_steady : Steady devStatusReadings := fun _ _ h => h.devStatus

theorem Steady.flatMap {readings rs : List Reading} (h : Steady readings) (sub : ∀ r ∈ rs, r ∈ readings) {s t : State}
    (k : s.ReadsSame t) : rs.flatMap (fun r => r.value t) = rs.flatMap (fun r => r.value s) :=
  flatMap_eq_of_mem (fun r hr => h s t k r (sub r hr))

/-! ### Where nothing is due, a status request reads its fields off the state -/

theorem State.readOn_late {s : State} (quiet : s.Quiet) (p : Port) (g : Gather) (rs : List Reading) :
    s.readOn p true g rs = s.modPu p (fun u => { u with gather := some { g with
      taken := g.taken + 1, fields := g.fields ++ ((rs.drop g.taken).take 1).flatMap (fun r => r.value s) } }) := by
  rw [State.readOn, if_pos rfl, State.takeReadings_quiet quiet.1 quiet.2]

theorem State.readOn_up {s : State} (quiet : s.Quiet) {p : Port} (up : (s.pu.get p).session = .up) (g : Gather)
    (rs : List Reading) : s.readOn p false g rs = (s.modPu p (fun u => { u with gather := none })).answerIn p .deciding .ok
      (g.fields ++ (rs.drop g.taken).flatMap (fun r => r.value s)) := by
  rw [State.readOn, if_neg (by simp), State.takeReadings_quiet quiet.1 quiet.2]
  simp only [up]

theorem State.readOn_notUp {s : State} (quiet : s.Quiet) {p : Port} (notUp : (s.pu.get p).session ≠ .up) (g : Gather)
    (rs : List Reading) : s.readOn p false g rs =
      (s.modPu p (fun u => { u with gather := none })).answerDirect p g.kind.code g.tag .ok
      (g.fields ++ (rs.drop g.taken).flatMap (fun r => r.value s)) := by
  rw [State.readOn, if_neg (by simp), State.takeReadings_quiet quiet.1 quiet.2]
  cases session : (s.pu.get p).session with
  | up => exact absurd session notUp
  | down | closing => rfl

/-- A field read first and the others at once give what all of them read at once give. -/
theorem State.readOn_late_now {s : State} (quiet : s.Quiet) (p : Port) (g : Gather) {rs : List Reading}
    (steady : Steady rs) : (s.readOn p true g rs).status p g.kind false rs = s.readOn p false g rs := by
  have same := State.ReadsSame.setGather s p (some { g with
    taken := g.taken + 1, fields := g.fields ++ ((rs.drop g.taken).take 1).flatMap (fun r => r.value s) })
  rw [State.readOn_late quiet]
  generalize late : s.modPu p _ = t at same ⊢
  have gather : (t.pu.get p).gather = some { g with
      taken := g.taken + 1, fields := g.fields ++ ((rs.drop g.taken).take 1).flatMap (fun r => r.value s) } := by
    rw [← late, State.modPu_pu, PerPort.get_set_self]
  have cleared : t.modPu p (fun u => { u with gather := none }) = s.modPu p (fun u => { u with gather := none }) := by
    rw [← late, State.modPu_modPu]
  have still : t.Quiet := ⟨same.leaseUnit ▸ quiet.1, same.engine ▸ quiet.2⟩
  have fields : (g.fields ++ ((rs.drop g.taken).take 1).flatMap (fun r => r.value s)) ++
      (rs.drop (g.taken + 1)).flatMap (fun r => r.value t) = g.fields ++ (rs.drop g.taken).flatMap (fun r => r.value s) := by
    rw [steady.flatMap (fun r hr => List.mem_of_mem_drop hr) same, List.append_assoc, ← List.flatMap_append,
      ← List.drop_drop, List.take_append_drop]
  simp only [State.status, gather, if_true]
  by_cases up : (s.pu.get p).session = .up
  · rw [State.readOn_up still (same.session p ▸ up), State.readOn_up quiet up, cleared, fields]
  · rw [State.readOn_notUp still (same.session p ▸ up), State.readOn_notUp quiet up, cleared, fields]

theorem State.readOn_late_gather {s : State} (quiet : s.Quiet) (p : Port) (g : Gather) (rs : List Reading) :
    ((s.readOn p true g rs).pu.get p).gather ≠ none := by
  rw [State.readOn_late quiet, State.modPu_pu, PerPort.get_set_self]
  simp

/-- The state in which a status request that is taken reads its fields. -/
def State.asking (s : State) (p : Port) (k : Kind) (f : Frame) : State :=
  match (s.pu.get p).session with
  | .up => s.beginRequest p k f.tag
  | .down | .closing => s.emptySlot p

theorem State.asking_readsSame (s : State) (p : Port) (k : Kind) (f : Frame) : s.ReadsSame (s.asking p k f) := by
  cases session : (s.pu.get p).session with
  | up => simp only [State.asking, session, State.ReadsSame.beginRequest]
  | down | closing => simp only [State.asking, session, State.ReadsSame.emptySlot]

/-- A status request that can be taken, in UP or in DOWN. -/
def State.AsksStatus (s : State) (p : Port) (k : Kind) (f : Frame) : Prop :=
  s.Takes p k f ∨ k = .portStatus ∧ s.CanTake p .down f ∧ f.kind = Kind.portStatus.code ∧ f.payload = []

theorem State.AsksStatus.status {s : State} {p : Port} {k : Kind} {f : Frame} (h : s.AsksStatus p k f) (late : Bool)
    (rs : List Reading) : s.status p k late rs =
      (s.asking p k f).readOn p late { kind := k, tag := f.tag, taken := 0, fields := [] } rs := by
  rcases h with takes | ⟨rfl, can, kind, payload⟩
  · simp only [State.status, takes.quiet, takes.takeRequest, State.asking, takes.up]
  · simp only [State.status, can.quiet, can.takeRequest_down kind, State.asking, can.session, State.takeDown]
    rw [if_neg (by simp), if_neg (by simp [lengthMatches, payload])]

theorem State.AsksStatus.quiet_asking {s : State} {p : Port} {k : Kind} {f : Frame} (quiet : s.Quiet) :
    (s.asking p k f).Quiet := by
  have same := s.asking_readsSame p k f
  exact ⟨same.leaseUnit ▸ quiet.1, same.engine ▸ quiet.2⟩

theorem State.modPu_id {s : State} {p : Port} {f : PortUnit → PortUnit} (h : f (s.pu.get p) = s.pu.get p) :
    s.modPu p f = s := by
  simp [State.modPu, h]

theorem State.AsksStatus.now {s : State} {p : Port} {k : Kind} {f : Frame} (h : s.AsksStatus p k f) (quiet : s.Quiet)
    {rs : List Reading} (steady : Steady rs) :
    s.status p k false rs = s.served p (f.reply k .ok (rs.flatMap (fun r => r.value s))) := by
  have same := s.asking_readsSame p k f
  have fields := steady.flatMap (fun _ hr => hr) same
  rw [h.status]
  rcases h with takes | ⟨rfl, can, kind, payload⟩
  · have asking : s.asking p k f = s.beginRequest p k f.tag := by simp only [State.asking, takes.up]
    have noGather : ((s.beginRequest p k f.tag).pu.get p).gather = none := by simp [takes.quiet]
    rw [State.readOn_up (State.AsksStatus.quiet_asking quiet) (by rw [same.session, takes.up]), List.drop_zero, List.nil_append,
      fields, asking, State.modPu_id (by rw [← noGather]), State.answerIn, if_pos (by simp [State.phase]), takes.answer]
  · have asking : s.asking p .portStatus f = s.emptySlot p := by simp only [State.asking, can.session]
    rw [State.readOn_notUp (State.AsksStatus.quiet_asking quiet) (by simp [same.session, can.session]), List.drop_zero,
      List.nil_append, fields, asking, State.modPu_id (s := s.emptySlot p) (by rw [← can.quiet]; rfl), can.answerDirect]
    rfl

theorem State.AsksStatus.late {s : State} {p : Port} {k : Kind} {f : Frame} (h : s.AsksStatus p k f) (quiet : s.Quiet)
    {rs : List Reading} (steady : Steady rs) : ((s.status p k true rs).pu.get p).gather ≠ none ∧
      (s.status p k true rs).status p k false rs = s.status p k false rs := by
  rw [h.status, h.status]
  refine ⟨State.readOn_late_gather (s := s.asking p k f) (State.AsksStatus.quiet_asking quiet) p _ rs, ?_⟩
  exact State.readOn_late_now (State.AsksStatus.quiet_asking quiet) p _ steady

theorem State.status_further {s : State} (quiet : s.Quiet) {p : Port} {g : Gather} (h : (s.pu.get p).gather = some g)
    {rs : List Reading} (steady : Steady rs) :
    (s.status p g.kind true rs).status p g.kind false rs = s.status p g.kind false rs := by
  have now : ∀ late, s.status p g.kind late rs = s.readOn p late g rs := fun late => by
    simp only [State.status, h, if_true]
  rw [now, now, State.readOn_late_now quiet p g steady]

/-- Settles O10. -/
theorem statusRequestsReport : Obligations.StatusRequestsReport := by
  unfold Obligations.StatusRequestsReport
  have port := portStatusReadings_steady
  have dev := devStatusReadings_steady
  have asks : ∀ {s : State} {p : Port} {f : Frame},
      s.Takes p .portStatus f ∨ (s.CanTake p .down f ∧ f.kind = Kind.portStatus.code ∧ f.payload = []) →
      s.AsksStatus p .portStatus f := fun h => h.imp_right (fun h => ⟨rfl, h⟩)
  refine ⟨fun s p f quiet can => ?_, fun s p f quiet takes => ?_, fun s p f quiet can => ?_, fun s p f quiet takes => ?_,
    fun s p g quiet gather => ⟨fun kind _ => ?_, fun kind _ => ?_⟩⟩
  · refine (congrArg Host.Outcome.next ((asks can).now quiet (port p))).trans ?_
    simp [portStatusReadings]
  · refine (congrArg Host.Outcome.next (State.AsksStatus.now (.inl takes) quiet dev)).trans ?_
    simp [devStatusReadings, allPorts, portBlockReadings, labelField]
  · obtain ⟨gathers, ends⟩ := (asks can).late quiet (port p)
    exact ⟨_, rfl, gathers, congrArg Host.Outcome.next ends⟩
  · obtain ⟨gathers, ends⟩ := State.AsksStatus.late (.inl takes) quiet dev
    exact ⟨_, rfl, gathers, congrArg Host.Outcome.next ends⟩
  · have further := State.status_further quiet gather (port p)
    rw [kind] at further
    exact ⟨_, rfl, congrArg Host.Outcome.next further⟩
  · have further := State.status_further quiet gather dev
    rw [kind] at further
    exact ⟨_, rfl, congrArg Host.Outcome.next further⟩

end Sys2Proof.Machine
end

section
/-! SUPPORT. Windows: opening and closing them (R81, R84), translation (R75-R79). -/

namespace Sys2Proof.Machine

/-! ### A request that is taken changes only its executing entry in the port unit -/

theorem State.beginRequest_unit (s : State) (p : Port) (k : Kind) (tag : Byte) :
    (s.beginRequest p k tag).pu.get p = { s.pu.get p with
      executing := some { tag := tag, kind := k, reserved := true, phase := .deciding } } :=
  PerPort.get_set_self _ _ _

@[simp] theorem State.beginRequest_windowNamed (s : State) (p : Port) (k : Kind) (tag : Byte) (i : Nat) :
    ((s.beginRequest p k tag).pu.get p).windowNamed i = (s.pu.get p).windowNamed i := by
  rw [State.beginRequest_unit]
  rfl

@[simp] theorem State.beginRequest_spanMeets (s : State) (p : Port) (k : Kind) (tag : Byte) (w : Window) :
    ((s.beginRequest p k tag).pu.get p).spanMeets w = (s.pu.get p).spanMeets w := by
  rw [State.beginRequest_unit]
  rfl

@[simp] theorem State.beginRequest_located (s : State) (p : Port) (k : Kind) (tag : Byte) (a n : Nat) :
    ((s.beginRequest p k tag).pu.get p).located a n = (s.pu.get p).located a n := by
  rw [State.beginRequest_unit]
  rfl

@[simp] theorem State.beginRequest_named (s : State) (p : Port) (k : Kind) (tag : Byte) (i a n : Nat) :
    ((s.beginRequest p k tag).pu.get p).named i a n = (s.pu.get p).named i a n := by
  rw [State.beginRequest_unit]
  rfl

@[simp] theorem State.beginRequest_jobRange (s : State) (p : Port) (k : Kind) (tag : Byte) (a n : Nat) :
    ((s.beginRequest p k tag).pu.get p).jobRange a n = (s.pu.get p).jobRange a n := by
  rw [State.beginRequest_unit]
  rfl

/-- A window set in the table with the reply OK. -/
theorem State.Takes.answer_setWindow {s : State} {p : Port} {k : Kind} {f : Frame} (h : s.Takes p k f) (i : Nat)
    (w : Option Window) (r : Result) (fs : List Byte) :
    ((s.beginRequest p k f.tag).modPu p (fun u => u.setWindow i w)).answer p r fs =
      (s.served p (f.reply k r fs)).modPu p (fun u => u.setWindow i w) := by
  rw [State.answer_modPu _ (fun u => u.setWindow i w) _ _ _ (fun _ => rfl) (fun _ => rfl), h.answer]

/-! ## WINOPEN and WINCLOSE -/

theorem PortUnit.spanMeets_iff (u : PortUnit) (w : Window) : u.spanMeets w = true ↔
    ∃ i v, u.windowNamed i = some v ∧ v.span.intersects w.span = true := by
  have none := u.spanMeets_eq_false_iff w
  rw [← Bool.not_eq_false, none]
  simp

theorem Window.outOfRange_iff (w : Window) : w.outOfRange = true ↔ 3 < w.sizeCode ∨ 3 < w.repeatCode ∨
    0x1000000 < w.base + w.size * repeatFactor w.repeatCode ∨ 0x40000 < w.physical + w.size := decide_eq_true_iff

theorem Window.misaligned_iff (w : Window) : w.misaligned = true ↔ w.base % w.size ≠ 0 ∨ w.physical % w.size ≠ 0 :=
  decide_eq_true_iff

/-- Settles O18: the checks of R81 in their order, then the window set with its reply. -/
theorem winOpenDecision : Obligations.WinOpenDecision := by
  unfold Obligations.WinOpenDecision
  intro s p f takes
  have taken : exec (.winOpen p) s = .next ((s.beginRequest p .winOpen f.tag).decideWinOpen p f) :=
    congrArg Host.Outcome.next (takes.takeRequest _)
  refine ⟨fun index => ?_, fun w opened index => ?_, fun index closed rights => ?_,
    fun w index closed rights base size rep physical => ?_⟩
  · simp only [taken, State.decideWinOpen, if_pos index, takes.answer]
  · simp only [taken, State.decideWinOpen, if_neg (Nat.not_lt.2 index), State.beginRequest_windowNamed, opened, takes.answer]
  · simp only [taken, State.decideWinOpen, if_neg (Nat.not_lt.2 index), State.beginRequest_windowNamed, closed, rights,
      takes.answer]
  · have asked : askedWindow f.payload w.rights = w := by
      cases w
      simp_all [askedWindow]
    have checks : exec (.winOpen p) s = .next (if w.outOfRange then s.served p (f.reply .winOpen .badField [])
        else if w.misaligned then s.served p (f.reply .winOpen .misaligned [])
        else if (s.pu.get p).spanMeets w then s.served p (f.reply .winOpen .overlap [])
        else (s.served p (f.reply .winOpen .ok (fieldOf 1 (fieldAt f.payload 0 1)))).modPu p
          (fun u => u.setWindow (fieldAt f.payload 0 1) (some w))) := by
      simp only [taken, State.decideWinOpen, if_neg (Nat.not_lt.2 index), State.beginRequest_windowNamed, closed, rights,
        asked, takes.answer, takes.answer_setWindow, State.beginRequest_spanMeets]
    rw [checks]
    refine ⟨fun out => ?_, fun sizes repeats span block => ?_⟩
    · rw [if_pos (w.outOfRange_iff.2 out)]
    · rw [if_neg (fun out => by have := w.outOfRange_iff.1 out; omega)]
      refine ⟨fun off => ?_, fun baseOn physicalOn => ⟨fun meets => ?_, fun free => ?_⟩⟩
      · rw [if_pos (w.misaligned_iff.2 off)]
      · rw [if_neg (fun off => by have := w.misaligned_iff.1 off; omega),
          if_pos ((PortUnit.spanMeets_iff _ w).2 meets)]
      · rw [if_neg (fun off => by have := w.misaligned_iff.1 off; omega),
          (PortUnit.spanMeets_eq_false_iff _ w).2 free, if_neg (by simp)]

theorem PortUnit.windowNamed_lt {u : PortUnit} {i : Nat} {w : Window} (h : u.windowNamed i = some w) : i < 8 := by
  refine Nat.lt_of_not_le (fun out => ?_)
  rw [PortUnit.windowNamed, Vector.getElem?_eq_none out] at h
  cases h

/-- Settles O19. -/
theorem winCloseDecision : Obligations.WinCloseDecision := by
  unfold Obligations.WinCloseDecision
  intro s p f takes
  have taken : exec (.winClose p) s = .next ((s.beginRequest p .winClose f.tag).decideWinClose p f) :=
    congrArg Host.Outcome.next (takes.takeRequest _)
  refine ⟨fun index => ?_, fun index closed => ?_, fun w opened => ⟨?_, fun i => ?_⟩⟩
  · simp only [taken, State.decideWinClose, if_pos index, takes.answer]
  · simp only [taken, State.decideWinClose, if_neg (Nat.not_lt.2 index), State.beginRequest_windowNamed, closed, takes.answer]
  · have index : ¬ 7 < fieldAt f.payload 0 1 := by
      have := PortUnit.windowNamed_lt opened
      omega
    simp only [taken, State.decideWinClose, if_neg index, State.beginRequest_windowNamed, opened, takes.answer_setWindow]
  · simp only [PortUnit.windowNamed_setWindow, PortUnit.windowNamed_lt opened, and_true, eq_comm]

/-! ## Translation (R75, R76) -/

theorem Window.size_pos (w : Window) : 0 < w.size := by
  simp only [Window.size, blockSize]
  split <;> omega

theorem Window.span_length (w : Window) : w.span.length = w.size * repeatFactor w.repeatCode := rfl

theorem Window.covers_span (w : Window) (l : Nat) :
    w.span.covers l = true ↔ w.base ≤ l ∧ l < w.base + w.size * repeatFactor w.repeatCode := Range.covers_iff _ _

theorem Window.maps_covers {w : Window} {a n : Nat} (h : w.maps a n = true) (some : 1 ≤ n) : w.span.covers a = true := by
  obtain ⟨low, high⟩ := (w.maps_iff a n).1 h
  exact (w.covers_span a).2 ⟨low, by rw [Window.span_length] at high; omega⟩

theorem PortUnit.windowAt_some {u : PortUnit} {a : Nat} {w : Window} (h : u.windowAt a = some w) :
    (∃ i, u.windowNamed i = some w) ∧ w.span.covers a = true :=
  ⟨(u.mem_openWindows w).1 (List.mem_of_find?_eq_some h), by simpa using List.find?_some h⟩

/-- No two windows of a legal table cover one address, so the window at an address is the one that covers it. -/
theorem State.WindowsLegal.windowAt {s : State} (legal : s.WindowsLegal) {p : Port} {i a : Nat} {w : Window}
    (named : (s.pu.get p).windowNamed i = some w) (covers : w.span.covers a = true) :
    (s.pu.get p).windowAt a = some w := by
  cases found : (s.pu.get p).windowAt a with
  | none =>
    have none := List.find?_eq_none.1 found w ((PortUnit.mem_openWindows _ w).2 ⟨i, named⟩)
    exact absurd covers none
  | some v =>
    obtain ⟨⟨j, atJ⟩, coversV⟩ := PortUnit.windowAt_some found
    by_cases same : i = j
    · subst same
      rw [← atJ, named]
    · have apart := (legal p).2 i j w v same named atJ
      have meet : w.span.intersects v.span = true := by
        rw [Range.covers_iff] at covers coversV
        rw [Range.intersects_iff]
        omega
      rw [apart] at meet
      cases meet

/-- Settles O21. -/
theorem translationFollowsTheWindow : Obligations.TranslationFollowsTheWindow := by
  unfold Obligations.TranslationFollowsTheWindow
  refine ⟨fun w legal => ?_, fun s p a n w legal some => ?_, fun u i a n w => ?_⟩
  · obtain ⟨-, -, -, -, block, -⟩ := legal
    refine ⟨fun l _ => ⟨rfl, ?_⟩, fun once l covers => ?_, fun k o copy inside => ⟨?_, ?_⟩⟩
    · exact Nat.lt_of_lt_of_le (Nat.add_lt_add_left (Nat.mod_lt _ w.size_pos) _) block
    · obtain ⟨low, high⟩ := (w.covers_span l).1 covers
      rw [once, repeatFactor, Nat.mul_one] at high
      rw [Window.translate, Nat.mod_eq_of_lt (by omega)]
    · have fits : (k + 1) * w.size ≤ repeatFactor w.repeatCode * w.size := Nat.mul_le_mul_right _ copy
      rw [Nat.add_mul, Nat.one_mul, Nat.mul_comm (repeatFactor w.repeatCode)] at fits
      exact (w.covers_span _).2 ⟨by omega, by omega⟩
    · rw [Window.translate, Nat.add_assoc, Nat.add_sub_cancel_left, Nat.mul_comm, Nat.mul_add_mod, Nat.mod_eq_of_lt inside]
  · constructor
    · intro located
      rw [PortUnit.located] at located
      split at located
      · next v found =>
        split at located
        · next maps =>
          obtain rfl := Option.some.inj located
          obtain ⟨⟨i, named⟩, -⟩ := PortUnit.windowAt_some found
          exact ⟨i, named, (Window.maps_iff _ a n).1 maps⟩
        · cases located
      · cases located
    · rintro ⟨i, named, bounds⟩
      have maps := (w.maps_iff a n).2 bounds
      rw [PortUnit.located, legal.windowAt named (Window.maps_covers maps some)]
      exact if_pos maps
  · rw [PortUnit.named]
    cases found : u.windowNamed i with
    | none => simp
    | some v =>
      by_cases maps : v.maps a n = true
      · simp only [maps, if_true, Option.some.injEq]
        exact ⟨fun e => ⟨e, e ▸ (v.maps_iff a n).1 maps⟩, fun h => h.1⟩
      · simp only [maps, Option.some.injEq]
        exact ⟨nofun, fun ⟨same, bounds⟩ => absurd ((v.maps_iff a n).2 (same ▸ bounds)) maps⟩

/-! ## The byte set of an access (R79) -/

theorem add_mod_below {o k size : Nat} (ho : o < size) (hk : k < size) :
    (o + k) % size = if o + k < size then o + k else o + k - size := by
  split
  · next inside => exact Nat.mod_eq_of_lt inside
  · next outside => rw [Nat.mod_eq_sub_mod (Nat.le_of_not_lt outside), Nat.mod_eq_of_lt (by omega)]

/-- Settles O22: a byte set that does not wrap, one that wraps once, and the whole block. -/
theorem byteSetCoversTheNamedBytes : Obligations.ByteSetCoversTheNamedBytes := by
  unfold Obligations.ByteSetCoversTheNamedBytes
  intro w start count a legal maps
  have inBlock : w.offset start < w.size := Nat.mod_lt _ w.size_pos
  have address : ∀ k, (w.mapping start).address k = w.physical + (w.offset start + k) % w.size := fun _ => rfl
  simp only [Window.byteSet, address]
  by_cases whole : w.offset start + count ≤ w.size
  · simp only [if_pos whole, List.mem_singleton, exists_eq_left, Range.covers_iff]
    constructor
    · rintro ⟨low, high⟩
      exact ⟨a - (w.physical + w.offset start), by omega, by rw [Nat.mod_eq_of_lt (by omega)]; omega⟩
    · rintro ⟨k, lt, rfl⟩
      rw [Nat.mod_eq_of_lt (by omega)]
      omega
  · simp only [if_neg whole]
    by_cases less : count < w.size
    · simp only [if_pos less, List.mem_cons, List.not_mem_nil, or_false, exists_eq_or_imp, exists_eq_left,
        Range.covers_iff]
      constructor
      · rintro (⟨low, high⟩ | ⟨low, high⟩)
        · exact ⟨a - (w.physical + w.offset start), by omega, by rw [Nat.mod_eq_of_lt (by omega)]; omega⟩
        · exact ⟨a - w.physical + (w.size - w.offset start), by omega, by
            rw [add_mod_below inBlock (by omega), if_neg (by omega)]; omega⟩
      · rintro ⟨k, lt, rfl⟩
        rw [add_mod_below inBlock (by omega)]
        split <;> omega
    · simp only [if_neg less, List.mem_singleton, exists_eq_left, Range.covers_iff, Window.block]
      constructor
      · rintro ⟨low, high⟩
        by_cases before : a - w.physical < w.offset start
        · exact ⟨a - w.physical + (w.size - w.offset start), by omega, by
            rw [add_mod_below inBlock (by omega), if_neg (by omega)]; omega⟩
        · exact ⟨a - w.physical - w.offset start, by omega, by rw [Nat.mod_eq_of_lt (by omega)]; omega⟩
      · rintro ⟨k, lt, rfl⟩
        have := Nat.mod_lt (w.offset start + k) w.size_pos
        omega

end Sys2Proof.Machine
end

section
/-! SUPPORT. READ, WRITE and EXCHANGEIF ask for admission (R85-R93). -/

namespace Sys2Proof.Machine

theorem Rights.reads_eq_false (r : Rights) : r.reads = false ↔ r = .writeOnly := by cases r <;> decide

theorem Rights.writes_eq_false (r : Rights) : r.writes = false ↔ r = .readOnly := by cases r <;> decide

theorem State.beginAccess_eq (s : State) (p : Port) (k : Kind) (f : Frame) (o : PortOperation) {a : Access}
    (owner : a.requester = .port p) : (s.beginRequest p k f.tag).beginAccess p o a = s.awaiting p k f o a := by
  rw [State.beginAccess, State.awaiting, State.askAdmission, owner, ← State.beginRequest_setPhase]
  simp only [State.setPhase, State.modPu_modPu]

theorem numberOf_foldl_eq_zero (bs : List Byte) : ∀ n : Nat,
    bs.foldl (fun n b => n * 256 + b.toNat) n = 0 ↔ n = 0 ∧ ∀ b ∈ bs, b = 0 := by
  induction bs with
  | nil => simp
  | cons b bs ih =>
    intro n
    have zero : b.toNat = 0 ↔ b = 0 := ⟨fun h => BitVec.eq_of_toNat_eq h, fun h => by rw [h]; rfl⟩
    rw [List.foldl_cons, ih, List.forall_mem_cons, ← zero, ← and_assoc,
      show n * 256 + b.toNat = 0 ↔ n = 0 ∧ b.toNat = 0 by omega]

theorem fieldAt_eq_zero (payload : List Byte) (offset width : Nat) :
    fieldAt payload offset width = 0 ↔ ∀ b ∈ slice payload offset width, b = 0 := by
  rw [fieldAt, numberOf, numberOf_foldl_eq_zero]
  simp

theorem badExchange_iff (payload : List Byte) (width : Nat) : badExchange payload width = true ↔
    ¬ (width = 1 ∨ width = 2 ∨ width = 4) ∨ fieldAt payload 4 (4 - width) ≠ 0 ∨ fieldAt payload 8 (4 - width) ≠ 0 := by
  rw [badExchange, Bool.or_eq_true, decide_eq_true_iff, List.any_append, Bool.or_eq_true]
  simp only [ne_eq, fieldAt_eq_zero, List.any_eq_true, bne_iff_ne, Classical.not_forall, exists_prop]

theorem State.Takes.read {s : State} {p : Port} {f : Frame} (h : s.Takes p .read f) :
    exec (.read p) s = .next ((s.beginRequest p .read f.tag).decideRead p f) := congrArg _ (h.takeRequest _)

theorem State.Takes.write {s : State} {p : Port} {f : Frame} (h : s.Takes p .write f) :
    exec (.write p) s = .next ((s.beginRequest p .write f.tag).decideWrite p f) := congrArg _ (h.takeRequest _)

theorem State.Takes.exchangeIf {s : State} {p : Port} {f : Frame} (h : s.Takes p .exchangeIf f) :
    exec (.exchangeIf p) s = .next ((s.beginRequest p .exchangeIf f.tag).decideExchangeIf p f) :=
  congrArg _ (h.takeRequest _)

/-- Settles O23: the checks of R86, R87 and R90 in their order, then the question to the lease unit. -/
theorem storeRequestsAskForAdmission : Obligations.StoreRequestsAskForAdmission := by
  unfold Obligations.StoreRequestsAskForAdmission
  refine ⟨fun s p f takes => ⟨fun bad => ?_, fun low high => ?_⟩, fun s p f takes => ⟨fun bad => ?_, fun low high => ?_⟩,
    fun s p f width takes named => ⟨fun bad => ?_, fun good => ⟨fun bad => ?_, fun expected new => ?_⟩⟩⟩
  · rw [takes.read, State.decideRead]
    simp only [maxCountBytes, if_pos bad, takes.answer]
  · have count : ¬ (fieldAt f.payload 3 2 = 0 ∨ 1024 < fieldAt f.payload 3 2) := by omega
    rw [takes.read, State.decideRead]
    refine ⟨fun unmapped => ?_, fun w mapped => ⟨fun right => ?_, fun right => ?_⟩⟩
    · simp only [maxCountBytes, if_neg count, State.beginRequest_located, unmapped, takes.answer]
    · simp only [maxCountBytes, if_neg count, State.beginRequest_located, mapped, (Rights.reads_eq_false _).2 right, if_true,
        takes.answer]
    · simp only [maxCountBytes, if_neg count, State.beginRequest_located, mapped, Rights.reads_eq_false, if_neg right]
      exact congrArg Host.Outcome.next (State.beginAccess_eq _ _ _ _ _ rfl)
  · rw [takes.write, State.decideWrite]
    simp only [maxCountBytes, if_pos bad, takes.answer]
  · have count : ¬ (fieldAt f.payload 3 2 = 0 ∨ 1024 < fieldAt f.payload 3 2) := by omega
    rw [takes.write, State.decideWrite]
    refine ⟨fun unmapped => ?_, fun w mapped => ⟨fun right => ?_, fun right => ?_⟩⟩
    · simp only [maxCountBytes, if_neg count, State.beginRequest_located, unmapped, takes.answer]
    · simp only [maxCountBytes, if_neg count, State.beginRequest_located, mapped, (Rights.writes_eq_false _).2 right, if_true,
        takes.answer]
    · simp only [maxCountBytes, if_neg count, State.beginRequest_located, mapped, Rights.writes_eq_false, if_neg right]
      exact congrArg Host.Outcome.next (State.beginAccess_eq _ _ _ _ _ rfl)
  · rw [takes.exchangeIf, State.decideExchangeIf, named]
    simp only [(badExchange_iff f.payload width).2 (.inl (by omega)), if_true, takes.answer]
  · rw [takes.exchangeIf, State.decideExchangeIf, named]
    simp only [(badExchange_iff f.payload width).2 (.inr bad), if_true, takes.answer]
  · have fields : ¬ badExchange f.payload width = true := fun bad => by
      rcases (badExchange_iff f.payload width).1 bad with h | h | h
      · exact h good
      · exact h expected
      · exact h new
    rw [takes.exchangeIf, State.decideExchangeIf, named]
    refine ⟨fun unmapped => ?_, fun w mapped => ⟨fun odd => ?_, fun aligned right => ?_, fun aligned right => ?_⟩⟩
    · simp only [if_neg fields, State.beginRequest_located, unmapped, takes.answer]
    · simp only [if_neg fields, State.beginRequest_located, mapped, if_pos odd, takes.answer]
    · simp only [if_neg fields, State.beginRequest_located, mapped, aligned, ne_eq, not_true, if_false, right,
        not_false_eq_true, if_true, takes.answer]
    · simp only [if_neg fields, State.beginRequest_located, mapped, aligned, ne_eq, not_true, if_false, right]
      exact congrArg Host.Outcome.next (State.beginAccess_eq _ _ _ _ _ rfl)

end Sys2Proof.Machine
end

section
/-! SUPPORT. Requests handed over to the lease unit (R96-R117). -/

namespace Sys2Proof.Machine

/-! ### A request taken and decided at once -/

@[simp] theorem State.executingIn_leaseUnit (s : State) (p : Port) (k : Kind) (f : Frame) (x : Phase) :
    (s.executingIn p k f x).leaseUnit = s.leaseUnit := rfl

@[simp] theorem State.executingIn_engine (s : State) (p : Port) (k : Kind) (f : Frame) (x : Phase) :
    (s.executingIn p k f x).engine = s.engine := rfl

theorem State.Takes.executingIn_answer {s : State} {p : Port} {k : Kind} {f : Frame} (h : s.Takes p k f) (x : Phase)
    (r : Result) (fs : List Byte) : (s.executingIn p k f x).answer p r fs = s.served p (f.reply k r fs) := by
  rw [← State.beginRequest_setPhase, State.setPhase_answer, h.answer]

theorem State.handOver_late (s : State) (p : Port) (k : Kind) (f : Frame) (x : Handed) (decide : State → State) :
    (s.beginRequest p k f.tag).handOver p true x decide = s.executingIn p k f (.handed x) := by
  rw [State.handOver, if_pos rfl, State.beginRequest_setPhase]

theorem State.handOver_leaseUnit {s : State} (quiet : s.leaseUnit.due = false) (p : Port) (k : Kind) (f : Frame)
    (x : Handed) (event : State → State) : (s.beginRequest p k f.tag).handOver p false x (fun u => u.atLeaseUnit event) =
      event (s.executingIn p k f (.handed x)) := by
  rw [State.handOver, if_neg (by simp), State.beginRequest_setPhase]
  exact State.atLeaseUnit_quiet (s := s.executingIn p k f (.handed x)) quiet event

theorem State.handOver_engine {s : State} (quiet : s.engine.due = false) (p : Port) (k : Kind) (f : Frame)
    (x : Handed) (event : State → State) : (s.beginRequest p k f.tag).handOver p false x (fun u => u.atEngine event) =
      event (s.executingIn p k f (.handed x)) := by
  rw [State.handOver, if_neg (by simp), State.beginRequest_setPhase]
  exact State.atEngine_quiet (s := s.executingIn p k f (.handed x)) quiet event

/-! ## LEASE: the port unit's checks (R96) -/

theorem badLeaseFields_iff (index length life wait : Nat) : badLeaseFields index length life wait = true ↔
    7 < index ∨ length = 0 ∨ 65536 < length ∨ life = 0 ∨ 60000 < life ∨ 60000 < wait := decide_eq_true_iff

theorem LeaseKind.ofCode_eq_none {n : Nat} (h : 1 < n) : LeaseKind.ofCode n = none := by
  obtain ⟨m, rfl⟩ : ∃ m, n = m + 2 := ⟨n - 2, by omega⟩
  rfl

theorem LeaseKind.ofCode_eq {n : Nat} (h : n ≤ 1) :
    LeaseKind.ofCode n = some (if n = 0 then .exclusive else .shared) := by
  obtain rfl | rfl : n = 0 ∨ n = 1 := by omega
  · rfl
  · rfl

theorem Rights.admitLease_eq_false (r : Rights) {n : Nat} (h : n ≤ 1) :
    r.admitLease (if n = 0 then .exclusive else .shared) = false ↔ n = 0 ∧ r = .readOnly ∨ n = 1 ∧ r = .writeOnly := by
  obtain rfl | rfl : n = 0 ∨ n = 1 := by omega
  · cases r <;> decide
  · cases r <;> decide

theorem State.Takes.lease {s : State} {p : Port} {f : Frame} (h : s.Takes p .lease f) (late : Bool) :
    exec (.lease p late) s = .next ((s.beginRequest p .lease f.tag).checkLease p late f) := by
  simp only [exec, execLease, h.handed, h.takeRequest]

/-- Settles O24. -/
theorem leaseRequestChecks : Obligations.LeaseRequestChecks := by
  unfold Obligations.LeaseRequestChecks
  intro s p f late takes
  refine ⟨fun bad => ?_, fun index kind low high life lifeHigh wait => ?_⟩
  · rw [takes.lease, State.checkLease]
    by_cases kind : 1 < fieldAt f.payload 7 1
    · simp only [LeaseKind.ofCode_eq_none kind, takes.answer]
    · have fields := (badLeaseFields_iff (fieldAt f.payload 0 1) (fieldAt f.payload 4 3) (fieldAt f.payload 8 2)
        (fieldAt f.payload 10 2)).2 (by omega)
      simp only [LeaseKind.ofCode_eq (Nat.le_of_not_lt kind), fields, if_true, takes.answer]
  · have fields : ¬ badLeaseFields (fieldAt f.payload 0 1) (fieldAt f.payload 4 3) (fieldAt f.payload 8 2)
        (fieldAt f.payload 10 2) = true := by
      rw [badLeaseFields_iff]
      omega
    have checks : ∀ late, exec (.lease p late) s = .next (
        match (s.pu.get p).named (fieldAt f.payload 0 1) (fieldAt f.payload 1 3) (fieldAt f.payload 4 3) with
        | none => s.served p (f.reply .lease .notMapped [])
        | some w =>
          if w.contiguous (fieldAt f.payload 1 3) (fieldAt f.payload 4 3) = false then
            s.served p (f.reply .lease .wraps [])
          else if w.rights.admitLease (if fieldAt f.payload 7 1 = 0 then .exclusive else .shared) = false then
            s.served p (f.reply .lease .noRight [])
          else (s.beginRequest p .lease f.tag).handOver p late (.lease (leaseAsked f w)) (fun t =>
            t.atLeaseUnit (fun u => u.decideLease p (leaseAsked f w)))) := by
      intro late
      rw [takes.lease, State.checkLease]
      simp only [LeaseKind.ofCode_eq kind, if_neg fields, State.beginRequest_named, takes.answer]
      rfl
    refine ⟨fun unmapped => ?_, fun w mapped => ⟨fun wraps => ?_, fun whole => ⟨fun right => ?_, fun right => ?_⟩⟩⟩
    · rw [checks, unmapped]
    · have wrapped : w.contiguous (fieldAt f.payload 1 3) (fieldAt f.payload 4 3) = false :=
        decide_eq_false (Nat.not_le.2 wraps)
      simp only [checks, mapped, if_pos wrapped]
    · simp only [checks, mapped, (w.contiguous_iff _ _).2 whole, Bool.true_eq_false, if_false,
        if_pos ((w.rights.admitLease_eq_false kind).2 right)]
    · simp only [checks, mapped, (w.contiguous_iff _ _).2 whole, Bool.true_eq_false, if_false,
        if_neg (fun h => right ((w.rights.admitLease_eq_false kind).1 h)), State.handOver_late]

/-! ## RENEW (R106) -/

theorem LeaseUnit.leaseOf_eq_none (u : LeaseUnit) (p : Port) (id : Nat) :
    u.leaseOf p id = none ↔ ∀ l ∈ u.leases, ¬ (l.id = id ∧ l.port = p) := by
  simp [LeaseUnit.leaseOf]

theorem LeaseUnit.leaseOf_isSome {u : LeaseUnit} {p : Port} {id : Nat} (h : ∃ l ∈ u.leases, l.id = id ∧ l.port = p) :
    ∃ l, u.leaseOf p id = some l := by
  refine Option.ne_none_iff_exists'.1 (fun none => ?_)
  obtain ⟨l, mem, at'⟩ := h
  exact (u.leaseOf_eq_none p id).1 none l mem at'

theorem State.decideRenew_notFound {s : State} {p : Port} {id : Nat}
    (h : ∀ l ∈ s.leaseUnit.leases, ¬ (l.id = id ∧ l.port = p)) (life : Nat) :
    s.decideRenew p id life = s.answer p .notFound [] := by
  simp only [State.decideRenew, (s.leaseUnit.leaseOf_eq_none p id).2 h]

theorem State.decideRenew_found {s : State} {p : Port} {id : Nat}
    (h : ∃ l ∈ s.leaseUnit.leases, l.id = id ∧ l.port = p) (life : Nat) :
    s.decideRenew p id life = (s.answer p .ok (fieldOf 1 id ++ fieldOf 2 life)).modLease (fun u => { u with
      leases := u.leases.map (fun l => if l.id = id then { l with life := life } else l) }) := by
  obtain ⟨l, found⟩ := LeaseUnit.leaseOf_isSome h
  simp only [State.decideRenew, found]
  exact State.answer_modLease s _ p _ _

theorem State.Takes.renew {s : State} {p : Port} {f : Frame} (h : s.Takes p .renew f) (late : Bool) :
    exec (.renew p late) s = .next (
      if fieldAt f.payload 0 1 = 0 ∨ fieldAt f.payload 1 2 = 0 ∨ 60000 < fieldAt f.payload 1 2 then
        s.served p (f.reply .renew .badField [])
      else (s.beginRequest p .renew f.tag).handOver p late (.renew (fieldAt f.payload 0 1) (fieldAt f.payload 1 2))
        (fun u => u.atLeaseUnit (fun v => v.decideRenew p (fieldAt f.payload 0 1) (fieldAt f.payload 1 2)))) := by
  simp only [exec, execRenew, h.handed, h.takeRequest, h.answer, maxMilliseconds]

theorem State.handed_renew {s : State} {p : Port} {id life : Nat} (h : s.handed p = some (.renew id life)) (late : Bool) :
    exec (.renew p late) s = .next (s.expireLeases.decideRenew p id life) := by
  simp only [exec, execRenew, h, State.atLeaseUnit]

/-- Settles O27. -/
theorem renewReplacesTheLifetime : Obligations.RenewReplacesTheLifetime := by
  unfold Obligations.RenewReplacesTheLifetime
  refine ⟨fun s p f late takes => ⟨fun bad => ?_, fun id life high => ?_, fun quiet id life high => ?_⟩,
    fun s t p id life late handed after => ?_⟩
  · rw [takes.renew, if_pos bad]
  · rw [takes.renew, if_neg (by omega), State.handOver_late]
  · rw [takes.renew, if_neg (by omega), State.handOver_leaseUnit quiet]
    refine ⟨fun none => ?_, fun some => ?_⟩
    · rw [State.decideRenew_notFound (by exact none), takes.executingIn_answer]
    · rw [State.decideRenew_found (by exact some), takes.executingIn_answer]
  · rw [State.handed_renew handed, ← after]
    exact ⟨fun none => by rw [State.decideRenew_notFound none], fun some => by rw [State.decideRenew_found some]⟩

/-! ## RELEASE and FORCERELEASE (R108, R155) -/

/-- A lease taken away with the scan and the report that follow. -/
def State.leaseTaken (s : State) (id : Nat) : State :=
  (s.scan false).modEngine (fun e => { e with inbox := e.inbox ++ [.removed id] })

theorem State.decideRelease_notFound {s : State} {p : Port} {id : Nat}
    (h : ∀ l ∈ s.leaseUnit.leases, ¬ (l.id = id ∧ l.port = p)) : s.decideRelease p id = s.answer p .notFound [] := by
  simp only [State.decideRelease, (s.leaseUnit.leaseOf_eq_none p id).2 h]

theorem State.decideRelease_found {s : State} {p : Port} {id : Nat}
    (h : ∃ l ∈ s.leaseUnit.leases, l.id = id ∧ l.port = p) :
    s.decideRelease p id = ((s.answer p .ok (fieldOf 1 id)).modLease (fun u => { u with
      leases := u.leases.filter (fun l => l.id != id) })).leaseTaken id := by
  obtain ⟨l, found⟩ := LeaseUnit.leaseOf_isSome h
  simp only [State.decideRelease, found, State.answer_modLease]
  rfl

theorem State.decideForceRelease_notFound {s : State} {id : Nat} (h : ∀ l ∈ s.leaseUnit.leases, l.id ≠ id) (p : Port) :
    s.decideForceRelease p id = s.answer p .notFound [] := by
  have none : s.leaseUnit.leases.find? (fun l => l.id == id) = none := by simpa using h
  simp only [State.decideForceRelease, none]

theorem State.decideForceRelease_found {s : State} {older younger : List Lease} {l : Lease} {id : Nat}
    (h : s.leaseUnit.leases = older ++ l :: younger) (named : l.id = id) (first : ∀ m ∈ older, m.id ≠ id) (p : Port) :
    s.decideForceRelease p id = (((s.answer p .ok (fieldOf 1 id ++ fieldOf 1 (portNumber l.port))).modLease (fun u => { u with
      leases := u.leases.filter (fun m => m.id != id) })).offer l.port .leaseRevoked (fieldOf 1 id)).leaseTaken id := by
  have found : s.leaseUnit.leases.find? (fun l => l.id == id) = some l := by
    have none : older.find? (fun l => l.id == id) = none := by simpa using first
    rw [h, List.find?_append, none, Option.none_or, List.find?_cons_of_pos (by simp [named])]
  simp only [State.decideForceRelease, found, State.answer_modLease]
  rfl

/-- In a table of distinct identifiers no entry before one has the same identifier. -/
theorem append_of_mem_nodup {l : Lease} {ls : List Lease} (h : (ls.map Lease.id).Nodup) (mem : l ∈ ls) :
    ∃ older younger, ls = older ++ l :: younger ∧ ∀ m ∈ older, m.id ≠ l.id := by
  obtain ⟨older, younger, rfl⟩ := List.append_of_mem mem
  refine ⟨older, younger, rfl, fun m before same => ?_⟩
  rw [List.map_append, List.map_cons, List.nodup_append] at h
  exact h.2.2 m.id (List.mem_map_of_mem before) l.id List.mem_cons_self same

theorem State.Takes.release {s : State} {p : Port} {f : Frame} (h : s.Takes p .release f) (late : Bool) :
    exec (.release p late) s = .next (
      if fieldAt f.payload 0 1 = 0 then s.served p (f.reply .release .badField [])
      else (s.beginRequest p .release f.tag).handOver p late (.release (fieldAt f.payload 0 1))
        (fun u => u.atLeaseUnit (fun v => v.decideRelease p (fieldAt f.payload 0 1)))) := by
  simp only [exec, execRelease, h.handed, h.takeRequest, h.answer]

/-- A request whose one field names an identifier. -/
theorem State.Takes.control {s : State} {p : Port} {k : Kind} {f : Frame} (h : s.Takes p k f) (late : Bool)
    (x : Nat → Handed) (decide : Nat → State → State) :
    (s.beginRequest p k f.tag).control p late f x decide =
      if fieldAt f.payload 0 1 = 0 then s.served p (f.reply k .badField [])
      else (s.beginRequest p k f.tag).handOver p late (x (fieldAt f.payload 0 1)) (decide (fieldAt f.payload 0 1)) := by
  simp only [State.control, namedId, h.answer]

theorem State.Takes.forceRelease {s : State} {p : Port} {f : Frame} (h : s.Takes p .forceRelease f) (late : Bool) :
    exec (.forceRelease p late) s = .next (
      if fieldAt f.payload 0 1 = 0 then s.served p (f.reply .forceRelease .badField [])
      else (s.beginRequest p .forceRelease f.tag).handOver p late (.forceRelease (fieldAt f.payload 0 1))
        (fun u => u.atLeaseUnit (fun v => v.decideForceRelease p (fieldAt f.payload 0 1)))) := by
  simp only [exec, execForceRelease, h.handed, h.takeRequest, h.control]

/-- Settles O28. -/
theorem releaseAndForceReleaseRemoveTheLease : Obligations.ReleaseAndForceReleaseRemoveTheLease := by
  unfold Obligations.ReleaseAndForceReleaseRemoveTheLease
  refine ⟨fun s p f late takes => ⟨fun zero => ?_, fun id => ?_, fun quiet id => ?_⟩,
    fun s t p id late handed after => ?_,
    fun s p f late takes => ⟨fun zero => ?_, fun id => ?_, fun quiet id => ?_⟩, fun s t p id late handed after => ?_⟩
  · rw [takes.release, if_pos zero]
  · rw [takes.release, if_neg (by omega), State.handOver_late]
  · rw [takes.release, if_neg (by omega), State.handOver_leaseUnit quiet]
    refine ⟨fun none => ?_, fun some => ?_⟩
    · rw [State.decideRelease_notFound (by exact none), takes.executingIn_answer]
    · rw [State.decideRelease_found (by exact some), takes.executingIn_answer]
      rfl
  · have taken : exec (.release p late) s = .next (t.decideRelease p id) := by
      simp only [exec, execRelease, handed, State.atLeaseUnit, after]
    rw [taken]
    refine ⟨fun none => by rw [State.decideRelease_notFound none], fun some => ?_⟩
    rw [State.decideRelease_found some]
    rfl
  · rw [takes.forceRelease, if_pos zero]
  · rw [takes.forceRelease, if_neg (by omega), State.handOver_late]
  · rw [takes.forceRelease, if_neg (by omega), State.handOver_leaseUnit quiet]
    refine ⟨fun none => ?_, fun l mem distinct named => ?_⟩
    · rw [State.decideForceRelease_notFound (by exact none), takes.executingIn_answer]
    · obtain ⟨older, younger, leases, first⟩ := append_of_mem_nodup distinct.1 mem
      rw [← named, State.decideForceRelease_found (by exact leases) rfl first, takes.executingIn_answer]
      rfl
  · have taken : exec (.forceRelease p late) s = .next (t.decideForceRelease p id) := by
      simp only [exec, execForceRelease, handed, State.atLeaseUnit, after]
    rw [taken]
    refine ⟨fun none => by rw [State.decideForceRelease_notFound none], fun older l younger leases named first => ?_⟩
    rw [State.decideForceRelease_found leases named first]
    rfl

/-! ## LEASELIST (R115) -/

@[simp] theorem fieldOf_one (n : Nat) : fieldOf 1 n = [byte n] := by simp [fieldOf]

theorem Lease.entry_eq (l : Lease) : l.entry = [0, byte l.id, l.kind.code, byte l.window] ++ fieldOf 3 l.logical ++
    fieldOf 3 l.range.length ++ fieldOf 2 l.life := by
  simp [Lease.entry]

theorem Waiter.entry_eq (w : Waiter) : w.entry = [1, w.tag, w.request.kind.code, byte w.request.window] ++
    fieldOf 3 w.request.logical ++ fieldOf 3 w.request.range.length ++ fieldOf 2 w.wait := by
  simp [Waiter.entry]

theorem LeaseUnit.listing_eq (u : LeaseUnit) (p : Port) : u.listing p =
    fieldOf 1 ((u.leasesOf p).length + (u.waitersOf p).length) ++
      (sortById (u.leasesOf p)).flatMap (fun l => [0, byte l.id, l.kind.code, byte l.window] ++
        fieldOf 3 l.logical ++ fieldOf 3 l.range.length ++ fieldOf 2 l.life) ++
      (u.waitersOf p).flatMap (fun w => [1, w.tag, w.request.kind.code, byte w.request.window] ++
        fieldOf 3 w.request.logical ++ fieldOf 3 w.request.range.length ++ fieldOf 2 w.wait) := by
  rw [LeaseUnit.listing, funext Lease.entry_eq, funext Waiter.entry_eq]
  rfl

theorem insertById_perm (l : Lease) : ∀ ls : List Lease, (insertById l ls).Perm (l :: ls)
  | [] => .refl _
  | m :: ms => by
    rw [insertById]
    split
    · exact .refl _
    · exact ((insertById_perm l ms).cons m).trans (.swap l m ms)

theorem insertById_sorted (l : Lease) {ls : List Lease} (h : ls.Pairwise (fun l m => l.id ≤ m.id)) :
    (insertById l ls).Pairwise (fun l m => l.id ≤ m.id) := by
  induction ls with
  | nil => exact List.pairwise_singleton _ _
  | cons m ms ih =>
    obtain ⟨low, sorted⟩ := List.pairwise_cons.1 h
    rw [insertById]
    split
    · next le => exact List.pairwise_cons.2 ⟨List.forall_mem_cons.2 ⟨le, fun x hx => Nat.le_trans le (low x hx)⟩, h⟩
    · next gt =>
      refine List.pairwise_cons.2 ⟨fun x hx => ?_, ih sorted⟩
      rcases List.mem_cons.1 ((insertById_perm l ms).mem_iff.1 hx) with rfl | hx
      · exact Nat.le_of_not_le gt
      · exact low x hx

theorem sortById_perm (ls : List Lease) : (sortById ls).Perm ls := by
  induction ls with
  | nil => exact .refl _
  | cons l ls ih => exact (insertById_perm l (sortById ls)).trans (ih.cons l)

theorem sortById_sorted (ls : List Lease) : (sortById ls).Pairwise (fun l m => l.id ≤ m.id) := by
  induction ls with
  | nil => exact List.Pairwise.nil
  | cons l ls ih => exact insertById_sorted l ih

theorem State.Takes.leaseList {s : State} {p : Port} {f : Frame} (h : s.Takes p .leaseList f) (late : Bool) :
    exec (.leaseList p late) s = .next ((s.beginRequest p .leaseList f.tag).handOver p late .leaseList
      (fun u => u.atLeaseUnit (fun v => v.decideLeaseList p))) := by
  simp only [exec, execLeaseList, h.handed, h.takeRequest]

/-- Settles O29. -/
theorem leaseListReportsTheHoldings : Obligations.LeaseListReportsTheHoldings := by
  unfold Obligations.LeaseListReportsTheHoldings
  refine ⟨fun s p f takes => ?_, fun u p late listed listing => ⟨fun s f unit quiet takes => ?_,
    fun s t handed after unit => ?_⟩, fun ls => ⟨sortById_perm ls, sortById_sorted ls⟩, fun u quiet => ?_⟩
  · rw [takes.leaseList, State.handOver_late]
  · subst unit
    rw [takes.leaseList, State.handOver_leaseUnit quiet, State.decideLeaseList,
      takes.executingIn_answer, listing, ← LeaseUnit.listing_eq]
    rfl
  · subst unit
    rw [listing, ← LeaseUnit.listing_eq]
    simp only [exec, execLeaseList, handed, State.atLeaseUnit, after, State.decideLeaseList]
  · obtain ⟨leases, waiters⟩ := (u.due_eq_false).1 quiet
    exact ⟨fun l hl => Nat.one_le_iff_ne_zero.2 (leases l hl),
      fun w hw idle => Nat.one_le_iff_ne_zero.2 (fun zero => waiters w hw zero idle)⟩

end Sys2Proof.Machine
end

section
/-! SUPPORT. Submissions, the selection of a job, its chunks and turns (R119-R137). -/

namespace Sys2Proof.Machine

/-! ## Submissions (R119-R124) -/

theorem PortUnit.jobRange_notMapped {u : PortUnit} {a n : Nat} (h : u.located a n = none) :
    u.jobRange a n = .error .notMapped := by
  simp only [PortUnit.jobRange, h]

theorem PortUnit.jobRange_wraps {u : PortUnit} {a n : Nat} {w : Window} (h : u.located a n = some w)
    (wraps : w.size < (a - w.base) % w.size + n) : u.jobRange a n = .error .wraps := by
  have split : w.contiguous a n = false := decide_eq_false (Nat.not_le.2 wraps)
  simp only [PortUnit.jobRange, h, split, Bool.false_eq_true, if_false]

theorem PortUnit.jobRange_ok {u : PortUnit} {a n : Nat} {w : Window} (h : u.located a n = some w)
    (whole : (a - w.base) % w.size + n ≤ w.size) : u.jobRange a n = .ok w := by
  simp only [PortUnit.jobRange, h, (w.contiguous_iff a n).2 whole, if_true]

theorem badJobFields_iff (length limit : Nat) : badJobFields length limit = true ↔
    length = 0 ∨ 65536 < length ∨ 60000 < limit := decide_eq_true_iff

theorem State.handSubmission_late (s : State) (p : Port) (k : Kind) (f : Frame) (w : Submission) (length limit : Nat) :
    (s.beginRequest p k f.tag).handSubmission p true w length limit =
      s.executingIn p k f (.handed (.submit w length limit)) := State.handOver_late ..

theorem State.Takes.jobCopy {s : State} {p : Port} {f : Frame} (h : s.Takes p .jobCopy f) (late : Bool) :
    exec (.jobCopy p late) s = .next ((s.beginRequest p .jobCopy f.tag).checkCopy p late f) := by
  simp only [exec, execJobCopy, h.handed, h.takeRequest]

theorem State.Takes.jobFill {s : State} {p : Port} {f : Frame} (h : s.Takes p .jobFill f) (late : Bool) :
    exec (.jobFill p late) s = .next ((s.beginRequest p .jobFill f.tag).checkFill p late f) := by
  simp only [exec, execJobFill, h.handed, h.takeRequest]

theorem State.Takes.jobSum {s : State} {p : Port} {f : Frame} (h : s.Takes p .jobSum f) (late : Bool) :
    exec (.jobSum p late) s = .next ((s.beginRequest p .jobSum f.tag).checkSum p late f) := by
  simp only [exec, execJobSum, h.handed, h.takeRequest]

theorem State.submissionCommand_handed {s : State} {p : Port} {w : Submission} {length limit : Nat}
    (quiet : s.engine.due = false) (h : s.phase p = some (.handed (.submit w length limit))) (late : Bool) :
    exec (submissionCommand w p late) s = .next (s.submit p w length limit) := by
  have handed := State.handed_of_phase h
  cases w with
  | copy a b => simp only [submissionCommand, exec, execJobCopy, handed, State.atEngine_quiet quiet]
  | fill b pattern => simp only [submissionCommand, exec, execJobFill, handed, State.atEngine_quiet quiet]
  | sum a => simp only [submissionCommand, exec, execJobSum, handed, State.atEngine_quiet quiet]

/-- Settles O40. -/
theorem submissionsAreCheckedAndAccepted : Obligations.SubmissionsAreCheckedAndAccepted := by
  unfold Obligations.SubmissionsAreCheckedAndAccepted
  refine ⟨fun u a n => ⟨PortUnit.jobRange_notMapped, fun w => PortUnit.jobRange_wraps, fun w => PortUnit.jobRange_ok⟩,
    fun s p f late takes => ⟨fun bad => ?_, fun low high limit => ?_⟩,
    fun s p f late takes => ⟨fun bad => ?_, fun low high limit => ?_⟩,
    fun s p f late takes => ⟨fun bad => ?_, fun low high limit => ?_⟩,
    fun s p w length limit late quiet handed => ⟨fun full => ?_, fun jobs ours => ?_⟩, fun e last free => ?_⟩
  · rw [takes.jobCopy, State.checkCopy]
    simp only [if_pos ((badJobFields_iff _ _).2 bad), takes.answer]
  · have fields : ¬ badJobFields (fieldAt f.payload 6 3) (fieldAt f.payload 9 2) = true := by
      rw [badJobFields_iff]
      omega
    refine ⟨fun r source => ?_, fun v r source destination => ?_, fun v w source destination => ⟨fun right => ?_,
      fun reads writes => ?_⟩⟩
    · rw [takes.jobCopy, State.checkCopy]
      simp only [if_neg fields, State.beginRequest_jobRange, source, takes.answer]
    · rw [takes.jobCopy, State.checkCopy]
      simp only [if_neg fields, State.beginRequest_jobRange, source, destination, takes.answer]
    · rw [takes.jobCopy, State.checkCopy]
      simp only [if_neg fields, State.beginRequest_jobRange, source, destination, Rights.reads_eq_false,
        Rights.writes_eq_false, takes.answer]
      by_cases reads : v.rights = .writeOnly
      · rw [if_pos reads]
      · rw [if_neg reads, if_pos (right.resolve_left reads)]
    · rw [takes.jobCopy, State.checkCopy]
      simp only [if_neg fields, State.beginRequest_jobRange, source, destination, Rights.reads_eq_false,
        Rights.writes_eq_false, if_neg reads, if_neg writes, State.handSubmission_late]
  · rw [takes.jobFill, State.checkFill]
    simp only [if_pos ((badJobFields_iff _ _).2 bad), takes.answer]
  · have fields : ¬ badJobFields (fieldAt f.payload 3 3) (fieldAt f.payload 10 2) = true := by
      rw [badJobFields_iff]
      omega
    refine ⟨fun r destination => ?_, fun w destination => ⟨fun right => ?_, fun writes => ?_⟩⟩
    · rw [takes.jobFill, State.checkFill]
      simp only [if_neg fields, State.beginRequest_jobRange, destination, takes.answer]
    · rw [takes.jobFill, State.checkFill]
      simp only [if_neg fields, State.beginRequest_jobRange, destination, (Rights.writes_eq_false _).2 right, if_true,
        takes.answer]
    · rw [takes.jobFill, State.checkFill]
      simp only [if_neg fields, State.beginRequest_jobRange, destination, Rights.writes_eq_false, if_neg writes,
        State.handSubmission_late]
  · rw [takes.jobSum, State.checkSum]
    simp only [if_pos ((badJobFields_iff _ _).2 bad), takes.answer]
  · have fields : ¬ badJobFields (fieldAt f.payload 3 3) (fieldAt f.payload 6 2) = true := by
      rw [badJobFields_iff]
      omega
    refine ⟨fun r source => ?_, fun w source => ⟨fun right => ?_, fun reads => ?_⟩⟩
    · rw [takes.jobSum, State.checkSum]
      simp only [if_neg fields, State.beginRequest_jobRange, source, takes.answer]
    · rw [takes.jobSum, State.checkSum]
      simp only [if_neg fields, State.beginRequest_jobRange, source, (Rights.reads_eq_false _).2 right, if_true,
        takes.answer]
    · rw [takes.jobSum, State.checkSum]
      simp only [if_neg fields, State.beginRequest_jobRange, source, Rights.reads_eq_false, if_neg reads,
        State.handSubmission_late]
  · rw [State.submissionCommand_handed quiet handed, State.submit]
    exact congrArg Host.Outcome.next (if_pos full)
  · rw [State.submissionCommand_handed quiet handed, State.submit]
    simp only [jobTableSize, portJobLimit, fieldOf_one]
    rw [if_neg (by omega)]
    cases w with
    | copy a b => rfl
    | fill b pattern => rfl
    | sum a => rfl
  · obtain ⟨k, lt, next, fresh, used⟩ := nextId_spec last (used := e.jobs.map Job.id) (by simpa using free)
    exact ⟨k, lt, next, by simpa [JobEngine.nextJobId] using fresh, fun i less => by simpa [idFrom] using used i less⟩

/-! ## Selection and chunks (R126-R129) -/

theorem State.selectJob_busy {s : State} (h : s.engine.running ≠ none) : s.selectJob = s := by
  obtain ⟨r, running⟩ := Option.ne_none_iff_exists'.1 h
  simp only [State.selectJob, running]

theorem State.selectJob_none {s : State} (h : ∀ j ∈ s.engine.jobs, j.state ≠ .queued) : s.selectJob = s := by
  have none : s.engine.jobs.find? (fun j => j.state == .queued) = none := by simpa using h
  cases running : s.engine.running with
  | some r => simp only [State.selectJob, running]
  | none => simp only [State.selectJob, running, none]

theorem State.selectJob_first {s : State} {older younger : List Job} {j : Job} (idle : s.engine.running = none)
    (jobs : s.engine.jobs = older ++ j :: younger) (first : ∀ i ∈ older, i.state ≠ .queued) (queued : j.state = .queued) :
    s.selectJob = (s.modEngine (fun e => e.modJob j.id (fun k => { k with state := .running }))).askChunk j := by
  have found : s.engine.jobs.find? (fun j => j.state == .queued) = some j := by
    have none : older.find? (fun j => j.state == .queued) = none := by simpa using first
    rw [jobs, List.find?_append, none, Option.none_or, List.find?_cons_of_pos (by simp [queued])]
  simp only [State.selectJob, idle, found]

/-- Settles O41. -/
theorem selectionTakesTheOldestQueuedJob : Obligations.SelectionTakesTheOldestQueuedJob := by
  unfold Obligations.SelectionTakesTheOldestQueuedJob
  refine ⟨fun s => State.selectJob_busy, fun s => State.selectJob_none, fun s older younger j idle jobs first queued => ?_,
    fun j => ⟨rfl, fun a b work => ?_, fun a b work => ?_, fun a b d work => ?_, fun b pattern work => ?_,
      fun a acc work => ?_⟩⟩
  · rw [State.selectJob_first idle jobs first queued]
    rfl
  all_goals simp [Job.nextChunk, work, Work.direction, Work.source, Work.destination]

/-! ## The turns of a chunk (R131, R133) -/

theorem fill_written (s : State) (d o n : Nat) (pattern : List Byte) :
    (Turn.write (Range.addresses { start := d + o, length := n }) (fillBytes pattern o n)).written s =
      (List.range' o n).map (fun i => (d + i, pattern.getD (i % 4) 0)) := by
  simp only [Turn.written, Range.addresses, fillBytes, ← List.map_add_range', List.zip_map']

/-- Settles O42. -/
theorem fillPlacesItsPattern : Obligations.FillPlacesItsPattern := by
  unfold Obligations.FillPlacesItsPattern
  refine ⟨fun s j d pattern a b work four => ?_, by decide, fun j c a b d work => ?_, fun j c a r work => ?_⟩
  · have turn : j.turn j.nextChunk = .write (Range.addresses { start := d + j.nextChunk.offset, length := j.nextChunk.size })
        (fillBytes pattern j.nextChunk.offset j.nextChunk.size) := by
      simp only [Job.turn, work]
    have at' : ∀ i, pattern[i % 4]? = some b ↔ pattern.getD (i % 4) 0 = b := fun i => by
      have lt : i % 4 < pattern.length := four ▸ Nat.mod_lt i (by omega)
      rw [List.getD_eq_getElem?_getD, List.getElem?_eq_getElem lt, Option.getD_some, Option.some.injEq]
    rw [turn, fill_written, List.mem_map]
    simp only [at', List.mem_range'_1, Prod.mk.injEq, and_assoc, @eq_comm _ a]
  · simp only [Job.turn, work, Range.addresses]
  · simp only [Job.turn, work, Range.addresses]

end Sys2Proof.Machine
end

section
/-! SUPPORT. Control of jobs: pause, resume, cancel, query, block limit (R138-R150). -/

namespace Sys2Proof.Machine

theorem JobEngine.find_id {e : JobEngine} {id : Nat} {j : Job} (h : e.find id = some j) : j.id = id := by
  simpa using List.find?_some h

theorem JobEngine.findOf_id {e : JobEngine} {p : Port} {id : Nat} {j : Job} (h : e.findOf p id = some j) :
    j.id = id ∧ j.port = p := by
  simpa using List.find?_some h

theorem State.handed_of_executing {s : State} {p : Port} {e : Executing} {x : Handed}
    (h : (s.pu.get p).executing = some e) (phase : e.phase = .handed x) : s.handed p = some x := by
  simp only [State.handed, State.phase, h, Option.map_some, phase]

/-! ### Each control request: taken, and decided once it stands handed over -/

theorem State.Takes.jobPause {s : State} {p : Port} {f : Frame} (h : s.Takes p .jobPause f) (late : Bool) :
    exec (.jobPause p late) s = .next (
      if fieldAt f.payload 0 1 = 0 then s.served p (f.reply .jobPause .badField [])
      else (s.beginRequest p .jobPause f.tag).handOver p late (.jobPause (fieldAt f.payload 0 1))
        (fun u => u.atEngine (fun v => v.decidePause p (fieldAt f.payload 0 1)))) := by
  simp only [exec, execJobPause, h.handed, h.takeRequest, h.control]

theorem State.Takes.jobResume {s : State} {p : Port} {f : Frame} (h : s.Takes p .jobResume f) (late : Bool) :
    exec (.jobResume p late) s = .next (
      if fieldAt f.payload 0 1 = 0 then s.served p (f.reply .jobResume .badField [])
      else (s.beginRequest p .jobResume f.tag).handOver p late (.jobResume (fieldAt f.payload 0 1))
        (fun u => u.atEngine (fun v => v.decideResume p (fieldAt f.payload 0 1)))) := by
  simp only [exec, execJobResume, h.handed, h.takeRequest, h.control]

theorem State.Takes.jobCancel {s : State} {p : Port} {f : Frame} (h : s.Takes p .jobCancel f) (late : Bool) :
    exec (.jobCancel p late) s = .next (
      if fieldAt f.payload 0 1 = 0 then s.served p (f.reply .jobCancel .badField [])
      else (s.beginRequest p .jobCancel f.tag).handOver p late (.jobCancel (fieldAt f.payload 0 1))
        (fun u => u.atEngine (fun v => v.decideCancel p (fieldAt f.payload 0 1)))) := by
  simp only [exec, execJobCancel, h.handed, h.takeRequest, h.control]

theorem State.Takes.forceCancel {s : State} {p : Port} {f : Frame} (h : s.Takes p .forceCancel f) (late : Bool) :
    exec (.forceCancel p late) s = .next (
      if fieldAt f.payload 0 1 = 0 then s.served p (f.reply .forceCancel .badField [])
      else (s.beginRequest p .forceCancel f.tag).handOver p late (.forceCancel (fieldAt f.payload 0 1))
        (fun u => u.atEngine (fun v => v.decideForceCancel p (fieldAt f.payload 0 1)))) := by
  simp only [exec, execForceCancel, h.handed, h.takeRequest, h.control]

theorem State.Takes.jobQuery {s : State} {p : Port} {f : Frame} (h : s.Takes p .jobQuery f) (late : Bool) :
    exec (.jobQuery p late) s = .next (
      if fieldAt f.payload 0 1 = 0 then s.served p (f.reply .jobQuery .badField [])
      else (s.beginRequest p .jobQuery f.tag).handOver p late (.jobQuery (fieldAt f.payload 0 1))
        (fun u => u.atEngine (fun v => v.decideQuery p (fieldAt f.payload 0 1)))) := by
  simp only [exec, execJobQuery, h.handed, h.takeRequest, h.control]

section
variable {s : State} {p : Port} {id : Nat} (quiet : s.engine.due = false) (late : Bool)
include quiet

theorem State.handed_jobPause (h : s.handed p = some (.jobPause id)) :
    exec (.jobPause p late) s = .next (s.decidePause p id) := by
  simp only [exec, execJobPause, h, State.atEngine_quiet quiet]

theorem State.handed_jobResume (h : s.handed p = some (.jobResume id)) :
    exec (.jobResume p late) s = .next (s.decideResume p id) := by
  simp only [exec, execJobResume, h, State.atEngine_quiet quiet]

theorem State.handed_jobCancel (h : s.handed p = some (.jobCancel id)) :
    exec (.jobCancel p late) s = .next (s.decideCancel p id) := by
  simp only [exec, execJobCancel, h, State.atEngine_quiet quiet]

theorem State.handed_forceCancel (h : s.handed p = some (.forceCancel id)) :
    exec (.forceCancel p late) s = .next (s.decideForceCancel p id) := by
  simp only [exec, execForceCancel, h, State.atEngine_quiet quiet]

end

/-! ## Pause and resume (R138, R140) -/

theorem State.deferStop_eq {s : State} {p : Port} {e : Executing} (h : (s.pu.get p).executing = some e) (j : Job)
    (stop : StopKind) : s.deferStop p j stop = (s.modEngine (fun g => { g with jobs := g.jobs.map (fun k =>
      if k.id = j.id then { k with stop := stop, stopWaiters := k.stopWaiters ++ [{ port := p, tag := e.tag, kind := e.kind }] }
      else k) })).setPhase p .atChunkEnd := by
  simp only [State.deferStop, h]
  rfl

theorem StopKind.afterPause_eq (k : StopKind) : k.afterPause = if k = .none then .pause else k := by
  cases k <;> rfl

/-- Settles O43. -/
theorem pauseAndResumeByJobState : Obligations.PauseAndResumeByJobState := by
  unfold Obligations.PauseAndResumeByJobState
  refine ⟨fun s p f late takes => ⟨fun zero => ?_, fun id => ?_⟩, fun s p f late takes => ⟨fun zero => ?_, fun id => ?_⟩,
    fun s p id e late quiet executing phase => ?_, fun s p id late quiet phase => ?_⟩
  · rw [takes.jobPause, if_pos zero]
  · rw [takes.jobPause, if_neg (by omega), State.handOver_late]
  · rw [takes.jobResume, if_pos zero]
  · rw [takes.jobResume, if_neg (by omega), State.handOver_late]
  · rw [State.handed_jobPause quiet late (State.handed_of_executing executing phase)]
    refine ⟨fun none => ?_, fun j found => ⟨fun paused => ?_, fun waits => ?_, fun running chunk => ?_,
      fun running chunk => ?_⟩⟩
    · simp only [State.decidePause, none]
    · simp only [State.decidePause, found, paused]
    · rcases waits with queued | ⟨x, t, blocked⟩
      · simp only [State.decidePause, found, queued]
        rfl
      · simp only [State.decidePause, found, blocked]
        rfl
    · simp only [State.decidePause, found, running, chunk, Bool.false_eq_true, if_false]
      rfl
    · simp only [State.decidePause, found, running, chunk, if_true, State.deferStop_eq executing, StopKind.afterPause_eq,
        (JobEngine.findOf_id found).1]
  · rw [State.handed_jobResume quiet late (State.handed_of_phase phase)]
    refine ⟨fun none => ?_, fun j found => ⟨fun other => ?_, fun paused => ?_⟩⟩
    · simp only [State.decideResume, none]
    · cases state : j.state with
      | paused => exact absurd state other
      | queued | running | blocked => simp only [State.decideResume, found, state]
    · simp only [State.decideResume, found, paused]
      rfl

/-! ## Cancels (R141, R156) -/

theorem StopKind.afterCancel_eq (k : StopKind) {c : CancelReason} (h : c ≠ .teardown) : k.afterCancel c = match k with
    | .cancel r => .cancel r
    | .none | .pause => .cancel c := by
  cases c with
  | teardown => exact absurd rfl h
  | owner | supervisor => cases k <;> rfl

/-- The reason a cancelled job's record carries. -/
def CancelReason.recorded : CancelReason → EndReason
  | .owner | .teardown => .owner
  | .supervisor => .supervisor

theorem State.endCancelled_eq (s : State) (j : Job) {c : CancelReason} (h : c ≠ .teardown) (replies : State → State) :
    s.endCancelled j c replies = s.endJob j .cancelled c.recorded replies := by
  cases c with
  | teardown => exact absurd rfl h
  | owner | supervisor => rfl

/-- What is recorded of a job that ends while it does not run. -/
theorem JobEngine.remove_record_idle {e : JobEngine} {j : Job} (h : e.isRunning j.id = false) (x : EndRecord) :
    (e.remove j.id).record j.port x = { e with
      jobs := e.jobs.filter (fun k => k.id != j.id),
      histories := e.histories.set j.port ((x :: e.histories.get j.port).take 4) } := by
  simp only [JobEngine.remove, JobEngine.record, h, Bool.false_eq_true, if_false, historySize]

theorem JobEngine.remove_record_running {e : JobEngine} {j : Job} (h : e.isRunning j.id = true) (x : EndRecord) :
    (e.remove j.id).record j.port x = { e with
      running := none, jobs := e.jobs.filter (fun k => k.id != j.id),
      histories := e.histories.set j.port ((x :: e.histories.get j.port).take 4) } := by
  simp only [JobEngine.remove, JobEngine.record, h, if_true, historySize]

theorem State.EngineOrderly.isRunning_iff {s : State} (h : s.EngineOrderly) {j : Job} (mem : j ∈ s.engine.jobs) :
    s.engine.isRunning j.id = true ↔ j.state = .running := by
  have tidy := (s.engineOrderly_iff.1 h).1.toTidy
  constructor
  · intro runs
    cases running : s.engine.running with
    | none => simp [JobEngine.isRunning, running] at runs
    | some r =>
      obtain ⟨k, hk, named, state, -⟩ := tidy.busy r running
      have same : r.job = j.id := by simpa [JobEngine.isRunning, running] using runs
      rw [tidy.eq_of_id mem hk (same.symm.trans named.symm), state]
  · intro state
    obtain ⟨r, running, same⟩ := tidy.running_of mem state
    simp [JobEngine.isRunning, running, same]

theorem State.EngineOrderly.isRunning_eq_false {s : State} (h : s.EngineOrderly) {j : Job} (mem : j ∈ s.engine.jobs)
    (idle : j.state ≠ .running) : s.engine.isRunning j.id = false := by
  rw [← Bool.not_eq_true, h.isRunning_iff mem]
  exact idle

theorem JobEngine.isRunning_congr {e d : JobEngine} (h : d.running = e.running) (id : Nat) :
    d.isRunning id = e.isRunning id := by
  simp only [JobEngine.isRunning, h]

theorem State.cancelJob_idle {s : State} (orderly : s.EngineOrderly) {j : Job} (mem : j ∈ s.engine.jobs)
    (idle : j.state ≠ .running) (p : Port) {c : CancelReason} (owned : c ≠ .teardown) :
    s.cancelJob p j c = ((s.modEngine (fun g => { g with
      jobs := g.jobs.filter (fun k => k.id != j.id),
      histories := g.histories.set j.port ((j.endRecord .cancelled c.recorded :: g.histories.get j.port).take 4) })).answer
        p .ok (fieldOf 1 j.id ++ fieldOf 3 j.done)).offer j.port .jobEnd (j.endRecord .cancelled c.recorded).fields := by
  simp only [State.cancelJob, if_neg idle, State.endCancelled_eq s j owned, State.endJob, Job.stopFields,
    State.modEngine, JobEngine.remove_record_idle (orderly.isRunning_eq_false mem idle)]

theorem State.cancelJob_running {s : State} (orderly : s.EngineOrderly) {j : Job} (mem : j ∈ s.engine.jobs)
    (running : j.state = .running) (chunk : s.engine.inChunk j.id = false) (p : Port) {c : CancelReason}
    (owned : c ≠ .teardown) : s.cancelJob p j c = ((((s.withdrawAdmission .engine).modEngine (fun g => { g with
      running := none, jobs := g.jobs.filter (fun k => k.id != j.id),
      histories := g.histories.set j.port ((j.endRecord .cancelled c.recorded :: g.histories.get j.port).take 4) })).answer
        p .ok (fieldOf 1 j.id ++ fieldOf 3 j.done)).offer j.port .jobEnd
      (j.endRecord .cancelled c.recorded).fields).selectJob := by
  have runs : (s.withdrawAdmission .engine).engine.isRunning j.id = true := by
    rw [JobEngine.isRunning_congr (s.withdrawAdmission_running _), (orderly.isRunning_iff mem).2 running]
  simp only [State.cancelJob, if_pos running, chunk, Bool.false_eq_true, if_false, State.endCancelled_eq _ j owned,
    State.endJob, Job.stopFields, State.modEngine, JobEngine.remove_record_running runs]

theorem State.cancelJob_inChunk {s : State} {p : Port} {e : Executing} (executing : (s.pu.get p).executing = some e)
    {j : Job} (running : j.state = .running) (chunk : s.engine.inChunk j.id = true) {c : CancelReason}
    (owned : c ≠ .teardown) : s.cancelJob p j c = (s.modEngine (fun g => { g with jobs := g.jobs.map (fun k =>
      if k.id = j.id then { k with
        stop := match j.stop with
          | .cancel r => .cancel r
          | .none | .pause => .cancel c,
        stopWaiters := k.stopWaiters ++ [{ port := p, tag := e.tag, kind := e.kind }] }
      else k) })).setPhase p .atChunkEnd := by
  simp only [State.cancelJob, if_pos running, chunk, if_true, State.deferStop_eq executing,
    StopKind.afterCancel_eq _ owned]

/-- Settles O44. -/
theorem cancelsByJobState : Obligations.CancelsByJobState := by
  unfold Obligations.CancelsByJobState
  refine ⟨fun s p f late takes => ⟨fun zero => ?_, fun id => ?_⟩, fun s p f late takes => ⟨fun zero => ?_, fun id => ?_⟩,
    fun s p id late quiet => ⟨fun phase none => ?_, fun phase none => ?_⟩,
    fun s p id late j e c reason cancel orderly quiet executing named => ?_⟩
  · rw [takes.jobCancel, if_pos zero]
  · rw [takes.jobCancel, if_neg (by omega), State.handOver_late]
  · rw [takes.forceCancel, if_pos zero]
  · rw [takes.forceCancel, if_neg (by omega), State.handOver_late]
  · rw [State.handed_jobCancel quiet late (State.handed_of_phase phase)]
    simp only [State.decideCancel, none]
  · rw [State.handed_forceCancel quiet late (State.handed_of_phase phase)]
    simp only [State.decideForceCancel, none]
  · obtain ⟨decided, mem, rfl, recorded, owned⟩ : exec c s = .next (s.cancelJob p j cancel) ∧ j ∈ s.engine.jobs ∧
        j.id = id ∧ reason = cancel.recorded ∧ cancel ≠ .teardown := by
      rcases named with ⟨rfl, phase, found, rfl, rfl⟩ | ⟨rfl, phase, found, rfl, rfl⟩
      · refine ⟨?_, List.mem_of_find?_eq_some found, (JobEngine.findOf_id found).1, rfl, by simp⟩
        rw [State.handed_jobCancel quiet late (State.handed_of_executing executing phase)]
        simp only [State.decideCancel, found]
      · refine ⟨?_, List.mem_of_find?_eq_some found, JobEngine.find_id found, rfl, by simp⟩
        rw [State.handed_forceCancel quiet late (State.handed_of_executing executing phase)]
        simp only [State.decideForceCancel, found]
    subst recorded
    rw [decided]
    refine ⟨fun idle => ?_, fun running chunk => ?_, fun running chunk => ?_⟩
    · rw [State.cancelJob_idle orderly mem idle p owned]
    · rw [State.cancelJob_running orderly mem running chunk p owned]
    · exact congrArg Host.Outcome.next (State.cancelJob_inChunk executing running chunk owned)

/-! ## JOBQUERY (R143) -/

theorem JobState.blockingField (x : JobState) : fieldOf 1 x.blockingId = [match x with
    | .blocked id _ => byte id
    | .queued | .running | .paused => 0] := by
  cases x <;> simp [JobState.blockingId]

theorem Job.queryRecord_eq (j : Job) : j.queryRecord = [0, byte j.id, j.work.kind.code, j.state.code] ++
    fieldOf 3 j.length ++ fieldOf 3 j.done ++ [match j.state with
      | .blocked x _ => byte x
      | .queued | .running | .paused => 0] := by
  rw [Job.queryRecord, JobState.blockingField]
  simp

theorem EndRecord.fields_eq (x : EndRecord) : x.fields = [byte x.id, x.kind.code, x.outcome.code, x.reason.code] ++
    fieldOf 3 x.done ++ fieldOf 2 x.sum.toNat := by
  simp [EndRecord.fields]

theorem EndRecord.queryRecord_eq (x : EndRecord) : x.queryRecord =
    [1, byte x.id, x.kind.code, x.outcome.code, x.reason.code] ++ fieldOf 3 x.done ++ fieldOf 2 x.sum.toNat := by
  rw [EndRecord.queryRecord, EndRecord.fields_eq]
  simp

/-- What the engine answers to a query. -/
def JobEngine.queried (e : JobEngine) (p : Port) (id : Nat) : Result × List Byte :=
  match e.findOf p id with
  | some j => (.ok, j.queryRecord)
  | none =>
    match (e.histories.get p).find? (fun x => x.id == id) with
    | some x => (.ok, x.queryRecord)
    | none => (.notFound, [])

theorem State.decideQuery_eq (s : State) (p : Port) (id : Nat) :
    s.decideQuery p id = s.answer p (s.engine.queried p id).1 (s.engine.queried p id).2 := by
  cases job : s.engine.findOf p id with
  | some j => simp only [State.decideQuery, JobEngine.queried, job]
  | none =>
    cases record : (s.engine.histories.get p).find? (fun x => x.id == id) with
    | some x => simp only [State.decideQuery, JobEngine.queried, job, record]
    | none => simp only [State.decideQuery, JobEngine.queried, job, record]

/-- Settles O45. -/
theorem queryReportsJobOrRecord : Obligations.QueryReportsJobOrRecord := by
  unfold Obligations.QueryReportsJobOrRecord
  refine ⟨fun s p f late takes => ⟨fun zero => ?_, fun id => ?_⟩, fun e p id late r fields report => ?_⟩
  · rw [takes.jobQuery, if_pos zero]
  · rw [takes.jobQuery, if_neg (by omega), State.handOver_late]
  · have queried : e.queried p id = (r, fields) := by
      rcases report with ⟨j, found, rfl, rfl⟩ | ⟨gone, newer, x, older, history, named, first, rfl, rfl⟩ |
        ⟨gone, absent, rfl, rfl⟩
      · have record : e.queried p id = (.ok, j.queryRecord) := by simp only [JobEngine.queried, found]
        exact record.trans (congrArg (Prod.mk _) j.queryRecord_eq)
      · have before : newer.find? (fun x => x.id == id) = none := by simpa using first
        simp only [JobEngine.queried, gone, history, List.find?_append, before, Option.none_or,
          List.find?_cons_of_pos (p := fun y : EndRecord => y.id == id) (a := x) (by simp [named]), EndRecord.queryRecord_eq]
      · have unrecorded : (e.histories.get p).find? (fun x => x.id == id) = none := by simpa using absent
        simp only [JobEngine.queried, gone, unrecorded]
    refine ⟨fun s f engine quiet takes field low => ?_, fun s t handed after engine => ?_⟩
    · subst engine field
      rw [takes.jobQuery, if_neg (by omega), State.handOver_engine quiet, State.decideQuery_eq, takes.executingIn_answer]
      rw [State.executingIn_engine, queried]
    · subst engine
      simp only [exec, execJobQuery, handed, State.atEngine, ← after, State.decideQuery_eq, queried]

/-! ## Lease removals and block limits (R145, R147) -/

theorem Job.unblock_eq (x : Nat) (j : Job) : j.unblock x = match j.state with
    | .blocked y _ => if y = x then { j with state := .queued } else j
    | _ => j := by
  cases state : j.state <;> simp only [Job.unblock, state]

theorem State.takeBlockLimit_reached {s : State} (orderly : s.EngineOrderly) {j : Job} (mem : j ∈ s.engine.jobs)
    {x : Nat} (state : j.state = .blocked x (some 0)) : s.takeBlockLimit j.id = ((s.modEngine (fun e => { e with
      jobs := e.jobs.filter (fun k => k.id != j.id),
      histories := e.histories.set j.port ((j.endRecord .failed .blockLimit :: e.histories.get j.port).take 4) })).offer
        j.port .jobEnd (j.endRecord .failed .blockLimit).fields) := by
  have tidy := (s.engineOrderly_iff.1 orderly).1.toTidy
  have found : s.engine.find j.id = some j := by
    cases found : s.engine.find j.id with
    | none => exact absurd (List.find?_eq_none.1 found j mem) (by simp)
    | some k => rw [tidy.eq_of_id (List.mem_of_find?_eq_some found) mem (JobEngine.find_id found)]
  simp only [State.takeBlockLimit, found, (j.limitReached_iff).2 ⟨x, state⟩, if_true, State.endJob,
    State.modEngine, JobEngine.remove_record_idle (orderly.isRunning_eq_false mem (by simp [state]))]

theorem State.takeBlockLimit_none {s : State} {id : Nat}
    (h : ∀ j ∈ s.engine.jobs, j.id = id → ∀ x, j.state ≠ .blocked x (some 0)) : s.takeBlockLimit id = s := by
  cases found : s.engine.find id with
  | none => simp only [State.takeBlockLimit, found]
  | some j =>
    have below : ¬ j.limitReached = true := by
      rw [Job.limitReached_iff, not_exists]
      exact h j (List.mem_of_find?_eq_some found) (JobEngine.find_id found)
    simp only [State.takeBlockLimit, found, if_neg below]

/-- Settles O46. -/
theorem removalReportAndBlockLimit : Obligations.RemovalReportAndBlockLimit := by
  unfold Obligations.RemovalReportAndBlockLimit
  refine ⟨fun s x rest quiet inbox => ?_, fun s none => ?_, fun s j x orderly mem state => ?_, fun s id none => ?_⟩
  · have taken : exec .leaseRemovalReport s = .next ((s.modEngine (fun e => { e with
        inbox := rest, jobs := e.jobs.map (Job.unblock x) })).selectJob) := by
      simp only [exec, execLeaseRemovalReport, inbox, State.atEngine_quiet quiet]
    exact taken.trans (congrArg (fun f => Host.Outcome.next ((s.modEngine (fun e => { e with
      inbox := rest, jobs := e.jobs.map f })).selectJob)) (funext (Job.unblock_eq x)))
  · cases inbox : s.engine.inbox with
    | nil => simp only [exec, execLeaseRemovalReport, inbox]
    | cons m rest =>
      cases m with
      | removed x => exact absurd inbox (none x rest)
      | decided d => simp only [exec, execLeaseRemovalReport, inbox]
  · exact congrArg Host.Outcome.next (State.takeBlockLimit_reached orderly mem state)
  · exact congrArg Host.Outcome.next (State.takeBlockLimit_none none)

end Sys2Proof.Machine
end

section
/-! SUPPORT. The lease unit's decision, its tests and the scan (R98-R104). -/

namespace Sys2Proof.Machine

theorem State.handed_lease {s : State} (quiet : s.leaseUnit.due = false) {p : Port} {x : LeaseRequest}
    (h : s.handed p = some (.lease x)) (late : Bool) : exec (.lease p late) s = .next (s.decideLease p x) := by
  simp only [exec, execLease, h, State.atLeaseUnit_quiet quiet]

/-- A request that cannot be granted now: it waits where it asked for a wait, or it is refused. -/
theorem State.decideLease_waits {s : State} {p : Port} {x : LeaseRequest} (apart : s.leaseUnit.overlapsOwn p x.range = false)
    (holds : s.leaseUnit.holdings p < 4) (blocked : s.leaseUnit.conflictOf p x ≠ none ∨ s.leaseUnit.full = true)
    (wait : 0 < x.wait) : s.decideLease p x = s.joinQueue p x := by
  rw [State.decideLease, if_neg (by simp [apart]), if_neg (by simp only [holdingsLimit]; omega)]
  cases conflict : s.leaseUnit.conflictOf p x with
  | some c => simp only [if_neg (Nat.ne_of_gt wait)]
  | none => simp only [if_pos (blocked.resolve_left (fun h => h conflict)), if_neg (Nat.ne_of_gt wait)]

theorem State.decideLease_free {s : State} {p : Port} {x : LeaseRequest} (apart : s.leaseUnit.overlapsOwn p x.range = false)
    (holds : s.leaseUnit.holdings p < 4) (free : s.leaseUnit.conflictOf p x = none) (room : s.leaseUnit.full = false) :
    s.decideLease p x = if s.leaseUnit.conflictingClaims x.kind x.range = [] then s.grantExecuting p x
      else s.enterSettling p x (s.leaseUnit.conflictingClaims x.kind x.range) := by
  rw [State.decideLease, if_neg (by simp [apart]), if_neg (by simp only [holdingsLimit]; omega)]
  simp only [free, room, Bool.false_eq_true, if_false]
  cases s.leaseUnit.conflictingClaims x.kind x.range with
  | nil => rfl
  | cons c cs => rfl

/-- Settles O25. -/
theorem leaseDecisionInOrder : Obligations.LeaseDecisionInOrder := by
  unfold Obligations.LeaseDecisionInOrder
  refine ⟨fun s p x e late quiet executing phase => ?_, fun u last free => ?_⟩
  · rw [State.handed_lease quiet (State.handed_of_executing executing phase)]
    refine ⟨fun overlap => ?_, fun apart => ⟨fun holds => ?_, fun holds => ⟨fun id q conflict now => ?_,
      fun conflict full now => ?_, fun blocked wait => ?_, fun conflict room => ⟨fun claims => ?_, fun claims => ?_⟩⟩⟩⟩
    · rw [State.decideLease, if_pos overlap]
    · rw [State.decideLease, if_neg (by simp [apart]), if_pos (by simpa [holdingsLimit] using holds)]
    · rw [State.decideLease, if_neg (by simp [apart]), if_neg (by simp only [holdingsLimit]; omega), conflict]
      simp only [if_pos now]
    · rw [State.decideLease, if_neg (by simp [apart]), if_neg (by simp only [holdingsLimit]; omega), conflict]
      simp only [if_pos full, if_pos now]
    · rw [State.decideLease_waits apart holds blocked wait, State.joinQueue]
      refine ⟨fun full => ?_, fun queue ours => ?_⟩
      · exact congrArg Host.Outcome.next (if_pos full)
      · rw [if_neg (by simp only [waitQueueSize, portWaiterLimit]; omega)]
        simp only [executing]
    · rw [State.decideLease_free apart holds conflict room, if_pos claims]
      rfl
    · rw [State.decideLease_free apart holds conflict room, if_neg claims]
      simp only [State.enterSettling, State.setPhase, State.modLease, State.modPu, executing, Option.map_some]
  · obtain ⟨k, lt, next, fresh, used⟩ := nextId_spec last (used := u.leases.map Lease.id) (by simpa using free)
    exact ⟨k, lt, next, by simpa [LeaseUnit.nextLeaseId] using fresh, fun i less => by simpa [idFrom] using used i less⟩

/-! ## What the tests say -/

theorem Range.intersects_iff_common (r t : Range) :
    r.intersects t = true ↔ ∃ a, r.covers a = true ∧ t.covers a = true := by
  simp only [Range.intersects_iff, Range.covers_iff]
  constructor
  · intro h
    exact ⟨max r.start t.start, by omega, by omega⟩
  · rintro ⟨a, left, right⟩
    omega

theorem anyIntersects_iff (rs : List Range) (t : Range) :
    anyIntersects rs t = true ↔ ∃ r ∈ rs, ∃ a, r.covers a = true ∧ t.covers a = true := by
  simp only [anyIntersects, List.any_eq_true, Range.intersects_iff_common]

theorem Lease.forbids_iff (l : Lease) (a : Access) : l.forbids a = true ↔
    (l.kind = .exclusive ∧ l.port ≠ a.owner ∧ ∃ r ∈ a.reads, ∃ x, r.covers x = true ∧ l.range.covers x = true) ∨
    ((l.kind = .shared ∨ l.port ≠ a.owner) ∧ ∃ r ∈ a.writes, ∃ x, r.covers x = true ∧ l.range.covers x = true) := by
  simp only [Lease.forbids, Lease.forbidsRead, Lease.forbidsWrite, Bool.or_eq_true, Bool.and_eq_true, beq_iff_eq,
    bne_iff_ne, anyIntersects_iff, and_assoc]

theorem Access.meets_iff (a : Access) (r : Range) : a.meets r = true ↔
    ∃ t ∈ a.reads ++ a.writes, ∃ x, t.covers x = true ∧ r.covers x = true := by
  simp only [Access.meets, Bool.or_eq_true, anyIntersects_iff, List.mem_append, or_and_right, exists_or]

theorem LeaseUnit.overlapsOwn_iff (u : LeaseUnit) (p : Port) (r : Range) : u.overlapsOwn p r = true ↔
    (∃ l ∈ u.leases, l.port = p ∧ l.range.intersects r = true) ∨
    (∃ w ∈ u.queue, w.port = p ∧ w.request.range.intersects r = true) := by
  simp only [LeaseUnit.overlapsOwn, LeaseUnit.leasesOf, LeaseUnit.waitersOf, Bool.or_eq_true, List.any_eq_true,
    List.mem_filter, beq_iff_eq, and_assoc]

theorem Access.conflictsRequest_iff (c : Access) (k : LeaseKind) (r : Range) : c.conflictsRequest k r = true ↔
    (∃ t ∈ c.writes, t.intersects r = true) ∨ (k = .exclusive ∧ ∃ t ∈ c.reads, t.intersects r = true) := by
  simp only [Access.conflictsRequest, anyIntersects, Bool.or_eq_true, Bool.and_eq_true, beq_iff_eq, List.any_eq_true]

/-! ## Whom a request conflicts with (R98) -/

/-- The requests that settle, in the order of their ports. -/
theorem LeaseUnit.settlingExecuting_ordered (u : LeaseUnit) :
    u.settlingExecuting.Pairwise (fun a b => portNumber a.1 < portNumber b.1) := by
  refine List.Pairwise.filterMap (R := fun p q => portNumber p < portNumber q) _ (fun p q lt a ha b hb => ?_) (by decide)
  obtain ⟨x, -, rfl⟩ := Option.map_eq_some_iff.1 ha
  obtain ⟨y, -, rfl⟩ := Option.map_eq_some_iff.1 hb
  exact lt

/-- The three places a conflicting stake is looked for, in their order. -/
theorem LeaseUnit.conflictOf_cases (u : LeaseUnit) (p : Port) (x : LeaseRequest) :
    (∃ l ∈ u.leases, x.conflictsLease p l = true ∧ (∀ m ∈ u.leases, x.conflictsLease p m = true → l.id ≤ m.id) ∧
      u.conflictOf p x = some (l.id, l.port)) ∨
    (∀ l ∈ u.leases, x.conflictsLease p l = false) ∧
      ((∃ w, u.queue.find? (x.conflictsWaiter p) = some w ∧ u.conflictOf p x = some (0, w.port)) ∨
        u.queue.find? (x.conflictsWaiter p) = none ∧ u.conflictOf p x =
          (u.settlingExecuting.find? (fun t => x.conflictsSettling p t.1 t.2)).map (fun t => (0, t.1))) := by
  rcases lowestLease_spec (u.leases.filter (x.conflictsLease p)) with ⟨none, empty⟩ | ⟨l, mem, found, least⟩
  · refine .inr ⟨by simpa using empty, ?_⟩
    cases waiter : u.queue.find? (x.conflictsWaiter p) with
    | some w => exact .inl ⟨w, rfl, by simp only [LeaseUnit.conflictOf, none, waiter]⟩
    | none => exact .inr ⟨rfl, by simp only [LeaseUnit.conflictOf, none, waiter]⟩
  · obtain ⟨mem, conflicts⟩ := List.mem_filter.1 mem
    exact .inl ⟨l, mem, conflicts, fun m hm hc => least m (List.mem_filter.2 ⟨hm, hc⟩),
      by simp only [LeaseUnit.conflictOf, found]⟩

theorem LeaseUnit.conflictOf_none_iff (u : LeaseUnit) (p : Port) (x : LeaseRequest) : u.conflictOf p x = none ↔
    (∀ l ∈ u.leases, x.conflictsLease p l = false) ∧ (∀ w ∈ u.queue, x.conflictsWaiter p w = false) ∧
    (∀ q t, u.settling.get q = some t → x.conflictsSettling p q t = false) := by
  refine ⟨LeaseUnit.conflictOf_eq_none, fun ⟨leases, waiters, settling⟩ => ?_⟩
  rcases u.conflictOf_cases p x with ⟨l, mem, conflicts, -⟩ | ⟨-, ⟨w, found, -⟩ | ⟨-, named⟩⟩
  · rw [leases l mem] at conflicts
    cases conflicts
  · have conflicts := List.find?_some found
    rw [waiters w (List.mem_of_find?_eq_some found)] at conflicts
    cases conflicts
  · rw [named, Option.map_eq_none_iff, List.find?_eq_none]
    rintro ⟨q, t⟩ mem
    rw [settling q t ((u.mem_settlingExecuting q t).1 mem)]
    exact Bool.false_ne_true

theorem LeaseUnit.conflictOf_some {u : LeaseUnit} {p : Port} {x : LeaseRequest} {id : Nat} {q : Port}
    (h : u.conflictOf p x = some (id, q)) :
    (∃ l ∈ u.leases, x.conflictsLease p l = true ∧ l.id = id ∧ l.port = q ∧
      ∀ m ∈ u.leases, x.conflictsLease p m = true → id ≤ m.id) ∨
    (id = 0 ∧ (∀ l ∈ u.leases, x.conflictsLease p l = false) ∧
      ((∃ older w younger, u.queue = older ++ w :: younger ∧ x.conflictsWaiter p w = true ∧ w.port = q ∧
          ∀ v ∈ older, x.conflictsWaiter p v = false) ∨
        ((∀ w ∈ u.queue, x.conflictsWaiter p w = false) ∧
          (∃ t, u.settling.get q = some t ∧ x.conflictsSettling p q t = true) ∧
          ∀ r t, portNumber r < portNumber q → u.settling.get r = some t → x.conflictsSettling p r t = false))) := by
  rcases u.conflictOf_cases p x with ⟨l, mem, conflicts, least, named⟩ | ⟨leases, ⟨w, found, named⟩ | ⟨none, named⟩⟩
  · obtain ⟨rfl, rfl⟩ := Prod.mk.inj (Option.some.inj (named.symm.trans h))
    exact .inl ⟨l, mem, conflicts, rfl, rfl, least⟩
  · obtain ⟨rfl, rfl⟩ := Prod.mk.inj (Option.some.inj (named.symm.trans h))
    obtain ⟨conflicts, older, younger, queue, before⟩ := List.find?_eq_some_iff_append.1 found
    exact .inr ⟨rfl, leases, .inl ⟨older, w, younger, queue, conflicts, rfl, by simpa using before⟩⟩
  · rw [named, Option.map_eq_some_iff] at h
    obtain ⟨⟨q', t⟩, found, same⟩ := h
    obtain ⟨rfl, rfl⟩ := Prod.mk.inj same
    obtain ⟨conflicts, before, after, executing, free⟩ := List.find?_eq_some_iff_append.1 found
    have settles := (u.mem_settlingExecuting q' t).1 (List.mem_of_find?_eq_some found)
    refine .inr ⟨rfl, leases, .inr ⟨by simpa using none, ⟨t, settles, conflicts⟩, fun r t' lower other => ?_⟩⟩
    have mem := (u.mem_settlingExecuting r t').2 other
    have ordered := u.settlingExecuting_ordered
    rw [executing] at mem ordered
    have above := (List.pairwise_cons.1 (List.pairwise_append.1 ordered).2.1).1
    rcases List.mem_append.1 mem with mem | mem
    · simpa using free _ mem
    · rcases List.mem_cons.1 mem with same | mem
      · obtain ⟨rfl, -⟩ := Prod.mk.inj same
        exact absurd lower (Nat.lt_irrefl _)
      · exact absurd (above _ mem) (Nat.lt_asymm lower)

/-! ## The scan (R104) -/

theorem LeaseUnit.full_eq_false (u : LeaseUnit) : u.full = false ↔ u.leases.length + u.reservedEntries < 12 := by
  rw [← Bool.not_eq_true, u.full_iff, Nat.not_le]
  rfl

theorem LeaseUnit.verdict_pass {u : LeaseUnit} {older : List Waiter} {w : Waiter} (h : w.settling = none)
    (opposed : ¬ u.Unopposed older w) : u.verdict older w = .pass := by
  rcases LeaseUnit.verdict_unsettled (u := u) (older := older) h with ⟨-, verdict⟩ | ⟨free, -⟩
  · exact verdict
  · exact absurd free opposed

theorem LeaseUnit.verdict_free {u : LeaseUnit} {older : List Waiter} {w : Waiter} (h : w.settling = none)
    (free : u.Unopposed older w) : u.verdict older w =
      if u.conflictingClaims w.request.kind w.request.range = [] then .grant
      else .settle (u.conflictingClaims w.request.kind w.request.range) := by
  rcases LeaseUnit.verdict_unsettled (u := u) (older := older) h with ⟨opposed, -⟩ | ⟨-, verdict⟩
  · exact absurd free opposed
  · exact verdict

theorem State.scanFrom_pass {s : State} {older : List Waiter} {w : Waiter} (h : s.leaseUnit.verdict older w = .pass)
    (late : Bool) (rest : List Waiter) :
    State.scanFrom late (w :: rest) older s = State.scanFrom late rest (older ++ [w]) s := by
  simp only [State.scanFrom, h]

theorem State.scanFrom_settle {s : State} {older : List Waiter} {w : Waiter} {claims : List Requester}
    (h : s.leaseUnit.verdict older w = .settle claims) (late : Bool) (rest : List Waiter) :
    State.scanFrom late (w :: rest) older s = State.scanFrom late rest (older ++ [{ w with settling := some claims }])
      (s.setQueue (older ++ { w with settling := some claims } :: rest)) := by
  simp only [State.scanFrom, h]

theorem State.scanFrom_grant {s : State} {older : List Waiter} {w : Waiter} (h : s.leaseUnit.verdict older w = .grant)
    (late : Bool) (rest : List Waiter) : State.scanFrom late (w :: rest) older s =
      State.scanFrom late rest older ((s.setQueue (older ++ rest)).grantWaiter late w) := by
  simp only [State.scanFrom, h]

/-- Settles O26. -/
theorem leaseTestsAndScanVerdict : Obligations.LeaseTestsAndScanVerdict := by
  unfold Obligations.LeaseTestsAndScanVerdict
  refine ⟨Range.intersects_iff_common, fun p q k l r t => by rw [conflicting_iff, Classical.not_and_iff_not_or_not], Lease.forbids_iff,
    Access.meets_iff, LeaseUnit.overlapsOwn_iff, LeaseUnit.conflictOf_none_iff, fun u p x id q => LeaseUnit.conflictOf_some,
    Access.conflictsRequest_iff, fun u older w idle => ⟨fun opposed => ?_, fun leases before executing waiters room => ?_⟩,
    fun u older w settled => ?_, fun u older w c cs settling => ?_, fun s late => rfl, fun s late older => rfl,
    fun s late older rest w => ⟨fun pass => State.scanFrom_pass pass late rest, fun claims v settle marked => ?_,
      fun t id grant next granted => ⟨fun idle => ?_, fun settled => ?_⟩⟩⟩
  · refine LeaseUnit.verdict_pass idle (fun free => ?_)
    obtain ⟨leases, before, executing, waiters, room⟩ := free
    rcases opposed with ⟨l, hl, conflicts⟩ | ⟨v, hv, conflicts⟩ | ⟨q, t, ht, conflicts⟩ | ⟨v, hv, marked, conflicts⟩ | full
    · simp [leases l hl] at conflicts
    · simp [before v hv] at conflicts
    · simp [executing q t ht] at conflicts
    · simp [waiters v hv marked] at conflicts
    · have := u.full_eq_false.1 room
      omega
  · have verdict := LeaseUnit.verdict_free idle ⟨leases, before, executing, waiters, u.full_eq_false.2 room⟩
    exact ⟨fun none => by rw [verdict, if_pos none], fun some => by rw [verdict, if_neg some]⟩
  · simp only [LeaseUnit.verdict, settled, List.isEmpty_nil, if_true]
  · simp only [LeaseUnit.verdict, settling, List.isEmpty_cons, Bool.false_eq_true, if_false]
  · rw [State.scanFrom_settle settle, marked]
    rfl
  · rw [State.scanFrom_grant grant, granted, next]
    simp only [State.grantWaiter, idle]
    rfl
  · obtain ⟨recorded, settling⟩ := Option.ne_none_iff_exists'.1 settled
    rw [State.scanFrom_grant grant, granted, next]
    simp only [State.grantWaiter, settling]
    rfl

end Sys2Proof.Machine
end

section
/-! SUPPORT. The transmitter: replies, notices and the end of a frame (R58-R66). -/

namespace Sys2Proof.Machine

theorem State.modLtx_congr {s : State} {p : Port} {f g : Transmitter → Transmitter}
    (h : f (s.ltx.get p) = g (s.ltx.get p)) : s.modLtx p f = s.modLtx p g := by
  simp only [State.modLtx, h]

theorem State.modLtx_id {s : State} {p : Port} {f : Transmitter → Transmitter} (h : f (s.ltx.get p) = s.ltx.get p) :
    s.modLtx p f = s := by
  simp [State.modLtx, h]

theorem Transmitter.queueReply_sends {t : Transmitter} (sends : t.discard = false) (reserved : 0 < t.reserved) (f : Frame) :
    t.queueReply f = { t with
      queue := t.queue ++ [f], reserved := t.reserved - 1,
      serializer := if t.serializer = .idle then .sending 0 0 else t.serializer } := by
  rw [Transmitter.queueReply, if_neg (by simp [sends, Nat.ne_of_gt reserved]), Transmitter.append_eq]

theorem Transmitter.queueReply_discards {t : Transmitter} (discards : t.discard = true) (f : Frame) :
    t.queueReply f = t := if_pos (.inl discards)

theorem Transmitter.hasRoom_eq_false (t : Transmitter) :
    t.hasRoom = false ↔ transmitQueueSize ≤ t.queue.length + t.reserved := by
  rw [← Bool.not_eq_true, Transmitter.hasRoom_iff]
  omega

theorem Transmitter.offer_none {t : Transmitter} {session : Session} {m : NoticeMask} {n : NoticeKind}
    (h : t.discard = true ∨ session ≠ .up ∨ n.enabled m = false) (fields : List Byte) :
    t.offer session m n fields = t := by
  by_cases sends : t.discard = true ∨ session ≠ .up
  · rw [Transmitter.offer, if_pos sends]
  · rw [Transmitter.offer, if_neg sends, if_pos ((or_assoc.2 h).resolve_left sends)]

section
variable {t : Transmitter} {session : Session} {m : NoticeMask} {n : NoticeKind} (sends : t.discard = false)
  (up : session = .up) (enabled : n.enabled m = true) (fields : List Byte)
include sends up enabled

theorem Transmitter.offer_drops (full : transmitQueueSize ≤ t.queue.length + t.reserved) :
    t.offer session m n fields = { t with dropped := countUp t.dropped } := by
  rw [Transmitter.offer, if_neg (by simp [sends, up]), if_neg (by simp [enabled]), if_pos (t.hasRoom_eq_false.2 full)]

theorem Transmitter.offer_sends (room : t.queue.length + t.reserved < transmitQueueSize) :
    t.offer session m n fields = t.append (noticeFrame n fields) := by
  rw [Transmitter.offer, if_neg (by simp [sends, up]), if_neg (by simp [enabled]),
    if_neg (fun full => by have := t.hasRoom_eq_false.1 full; omega)]

end

section
variable {s : State} {p : Port} {x : Executing} (executing : (s.pu.get p).executing = some x) (r : Result)
  (fields : List Byte)
include executing

theorem State.answer_sends (sends : (s.ltx.get p).discard = false) (reserved : 0 < (s.ltx.get p).reserved) :
    s.answer p r fields = (s.modLtx p (fun t => { t with
      queue := t.queue ++ [replyFrame x.kind.code x.tag r fields], reserved := t.reserved - 1,
      serializer := if t.serializer = .idle then .sending 0 0 else t.serializer })).modPu p
      (fun u => { u with executing := none }) := by
  simp only [State.answer_executing executing, State.modLtx, Transmitter.queueReply_sends sends reserved]

theorem State.answer_discards (discards : (s.ltx.get p).discard = true) :
    s.answer p r fields = s.modPu p (fun u => { u with executing := none }) := by
  rw [State.answer_executing executing, State.modLtx_id (Transmitter.queueReply_discards discards _)]

end

theorem State.answerWaiter_sends {s : State} {p : Port} (sends : (s.ltx.get p).discard = false)
    (reserved : 0 < (s.ltx.get p).reserved) (tag : Byte) (r : Result) (fields : List Byte) :
    s.answerWaiter p tag r fields = (s.modLtx p (fun t => { t with
      queue := t.queue ++ [replyFrame Kind.lease.code tag r fields], reserved := t.reserved - 1,
      serializer := if t.serializer = .idle then .sending 0 0 else t.serializer })).modPu p
      (fun u => { u with waiting := u.waiting.filter (fun w => w.tag != tag) }) := by
  simp only [State.answerWaiter, State.modLtx, Transmitter.queueReply_sends sends reserved]

theorem State.answerWaiter_discards {s : State} {p : Port} (discards : (s.ltx.get p).discard = true) (tag : Byte)
    (r : Result) (fields : List Byte) : s.answerWaiter p tag r fields =
      s.modPu p (fun u => { u with waiting := u.waiting.filter (fun w => w.tag != tag) }) := by
  rw [State.answerWaiter, State.modLtx_id (Transmitter.queueReply_discards discards _)]

theorem Transmitter.start_idle (t : Transmitter) : ({ t with serializer := .idle } : Transmitter).start =
    { t with serializer := if t.queue = [] then .idle else .sending 0 0 } := by
  rw [Transmitter.start_eq]
  by_cases empty : t.queue = [] <;> simp [empty]

theorem Transmitter.frameSent_inQueue {t : Transmitter} {i k : Nat}
    (h : t.serializer = .sending i k ∨ t.serializer = .cutting i k) : t.frameSent =
      { t with queue := t.queue.tail, serializer := if t.queue.tail = [] then .idle else .sending 0 0 } := by
  have started := ({ t with queue := t.queue.tail } : Transmitter).start_idle
  rcases h with sending | cutting
  · simp only [Transmitter.frameSent, sending, started]
  · simp only [Transmitter.frameSent, cutting, started]

theorem Transmitter.frameSent_finishing {t : Transmitter} {c : Bool × Byte} {k : Nat}
    (h : t.serializer = .finishing c k) : t.frameSent =
      { t with serializer := if t.queue = [] then .idle else .sending 0 0 } := by
  simp only [Transmitter.frameSent, h, Transmitter.start_idle]

theorem Transmitter.frameSent_idle {t : Transmitter} (h : t.serializer = .idle) : t.frameSent = t := by
  simp only [Transmitter.frameSent, h]

/-- Settles O50. -/
theorem transmitterQueuesAndSends : Obligations.TransmitterQueuesAndSends := by
  unfold Obligations.TransmitterQueuesAndSends
  refine ⟨fun s p x r fields executing => ⟨State.answer_sends executing r fields, State.answer_discards executing r fields,
      fun f => ⟨fun same => ?_, fun other => ?_⟩⟩,
    fun s p tag r fields => ⟨fun sends reserved => State.answerWaiter_sends sends reserved tag r fields,
      fun discards => State.answerWaiter_discards discards tag r fields⟩,
    fun t session m n fields => ⟨fun none => Transmitter.offer_none none fields, fun sends up enabled =>
      ⟨Transmitter.offer_drops sends up enabled fields, fun room => ?_⟩⟩,
    fun s p => ⟨fun idle => ?_, fun i k busy => ?_, fun c k finishing => ?_⟩⟩
  · rw [State.answerIn, if_pos (by rw [State.phase, executing, Option.map_some, same])]
  · rw [State.answerIn, if_neg (by simpa [State.phase, executing] using other)]
  · rw [Transmitter.offer_sends sends up enabled fields room, Transmitter.append_eq]
    rfl
  · exact congrArg Host.Outcome.next (State.modLtx_id (Transmitter.frameSent_idle idle))
  · exact congrArg Host.Outcome.next (State.modLtx_congr (Transmitter.frameSent_inQueue busy))
  · exact congrArg Host.Outcome.next (State.modLtx_congr (Transmitter.frameSent_finishing finishing))

end Sys2Proof.Machine
end

section
/-! SUPPORT. Withdrawals, lapses, wait expiries and block limits (R111-R113, R147, R16). -/

namespace Sys2Proof.Machine

/-! ## WITHDRAW -/

theorem LeaseUnit.waiterOf_eq_none (u : LeaseUnit) (p : Port) (tag : Byte) :
    u.waiterOf p tag = none ↔ ∀ w ∈ u.queue, ¬ (w.port = p ∧ w.tag = tag) := by
  simp [LeaseUnit.waiterOf]

section
variable {s : State} {p : Port} {tag : Byte}

theorem State.decideWithdraw_notFound (h : ∀ w ∈ s.leaseUnit.queue, ¬ (w.port = p ∧ w.tag = tag)) :
    s.decideWithdraw p tag = s.answer p .notFound [] := by
  simp only [State.decideWithdraw, (s.leaseUnit.waiterOf_eq_none p tag).2 h]

theorem State.decideWithdraw_settling {w : Waiter} (h : s.leaseUnit.waiterOf p tag = some w) (settles : w.settling ≠ none) :
    s.decideWithdraw p tag = s.answer p .wrongState [] := by
  obtain ⟨recorded, settling⟩ := Option.ne_none_iff_exists'.1 settles
  simp only [State.decideWithdraw, h, settling]

theorem State.decideWithdraw_found {w : Waiter} (h : s.leaseUnit.waiterOf p tag = some w) (idle : w.settling = none) :
    s.decideWithdraw p tag = (((s.modLease (fun u => u.removeWaiter p tag)).answerWaiter p tag .withdrawn []).answer p .ok
      []).scan false := by
  simp only [State.decideWithdraw, h, idle]

/-- The waiter's reply and the request's own, in this order. -/
theorem State.answers_waiter_then_request {x : Executing} (executing : (s.pu.get p).executing = some x)
    (sends : (s.ltx.get p).discard = false) (reserved : 2 ≤ (s.ltx.get p).reserved) (r : Result) (fs : List Byte) (r' : Result)
    (fs' : List Byte) : (s.answerWaiter p tag r fs).answer p r' fs' =
      (s.modLtx p (fun t => { t with
        queue := t.queue ++ [replyFrame Kind.lease.code tag r fs, replyFrame x.kind.code x.tag r' fs'],
        reserved := t.reserved - 2,
        serializer := if t.serializer = .idle then .sending 0 0 else t.serializer })).modPu p
        (fun u => { u with executing := none, waiting := u.waiting.filter (fun w => w.tag != tag) }) := by
  rw [State.answerWaiter_sends sends (by omega)]
  refine (State.answer_sends (x := x) (by simp [executing]) r' fs' (by simpa using sends) (by simp; omega)).trans ?_
  by_cases idle : (s.ltx.get p).serializer = .idle
  · simp [State.modLtx, State.modPu, idle, Nat.sub_sub]
  · simp [State.modLtx, State.modPu, idle, Nat.sub_sub]

end

theorem State.Takes.withdraw {s : State} {p : Port} {f : Frame} {tag : Byte} (h : s.Takes p .withdraw f)
    (payload : f.payload = [tag]) (late : Bool) : exec (.withdraw p late) s =
      .next ((s.beginRequest p .withdraw f.tag).handOver p late (.withdraw tag)
        (fun u => u.atLeaseUnit (fun v => v.decideWithdraw p tag))) := by
  simp only [exec, execWithdraw, h.handed, h.takeRequest, payload, List.headD_cons]

/-! ## Lapses and wait expiries -/

theorem State.takeLapse_found {s : State} (distinct : s.LeaseIdsDistinct) {l : Lease} (mem : l ∈ s.leaseUnit.leases)
    (ended : l.life = 0) : s.takeLapse l.id = s.lapse l := by
  have found : s.leaseUnit.leases.find? (fun m => m.id == l.id && m.lapsed) = some l := by
    obtain ⟨older, younger, leases, first⟩ := append_of_mem_nodup distinct.1 mem
    have none : older.find? (fun m => m.id == l.id && m.lapsed) = none := by
      rw [List.find?_eq_none]
      intro m hm
      simp [first m hm]
    rw [leases, List.find?_append, none, Option.none_or, List.find?_cons_of_pos (by simp [Lease.lapsed, ended])]
  simp only [State.takeLapse, found]

theorem State.takeLapse_none {s : State} {id : Nat} (h : ∀ l ∈ s.leaseUnit.leases, l.id = id → l.life ≠ 0) :
    s.takeLapse id = s := by
  have none : s.leaseUnit.leases.find? (fun l => l.id == id && l.lapsed) = none := by
    simpa [Lease.lapsed] using h
  simp only [State.takeLapse, none]

theorem Waiter.timedOut_iff (w : Waiter) : w.timedOut = true ↔ w.wait = 0 ∧ w.settling = none := by
  simp [Waiter.timedOut]

theorem State.takeWaitExpiry_found {s : State} {p : Port} {tag : Byte} {w : Waiter}
    (found : s.leaseUnit.waiterOf p tag = some w) (ended : w.timedOut = true) : s.takeWaitExpiry p tag = s.expire p tag := by
  simp only [State.takeWaitExpiry, found, ended, if_true]

theorem State.takeWaitExpiry_none {s : State} {p : Port} {tag : Byte}
    (h : ∀ w, s.leaseUnit.waiterOf p tag = some w → w.wait ≠ 0 ∨ w.settling ≠ none) : s.takeWaitExpiry p tag = s := by
  cases found : s.leaseUnit.waiterOf p tag with
  | none => simp only [State.takeWaitExpiry, found]
  | some w =>
    have below : ¬ w.timedOut = true := fun ended => by
      obtain ⟨wait, idle⟩ := w.timedOut_iff.1 ended
      exact (h w found).elim (· wait) (· idle)
    simp only [State.takeWaitExpiry, found, if_neg below]

/-! ### The expiries one after another -/

theorem State.after_map {α : Type} (c : α → Instr) (f : State → α → State) (h : ∀ t x, exec (c x) t = .next (f t x))
    (xs : List α) (s : State) : s.after (xs.map c) = s.each xs f := by
  rw [State.after, List.foldl_map, State.each]
  congr 1
  funext t x
  rw [h]

theorem State.takeLapses_after (s : State) : s.takeLapses =
    s.after ((s.leaseUnit.leases.filter (fun l => l.life == 0)).map (fun l => .leaseLapse l.id)) := by
  rw [State.after_map (fun l : Lease => .leaseLapse l.id) (fun t l => t.takeLapse l.id) (fun _ _ => rfl), State.takeLapses,
    State.each, List.foldl_map]
  rfl

theorem State.takeWaitExpiries_after (s : State) : s.takeWaitExpiries =
    s.after ((s.leaseUnit.queue.filter (fun w => w.wait == 0 && w.settling == none)).map
      (fun w => .waitExpiry w.port w.tag)) :=
  (State.after_map (fun w : Waiter => .waitExpiry w.port w.tag) (fun t w => t.takeWaitExpiry w.port w.tag)
    (fun _ _ => rfl) _ _).symm

theorem State.expireJobs_after (s : State) : s.expireJobs =
    s.after ((s.engine.jobs.filter Job.limitReached).map (fun j => .blockLimitExpiry j.id)) := by
  rw [State.after_map (fun j : Job => .blockLimitExpiry j.id) (fun t j => t.takeBlockLimit j.id) (fun _ _ => rfl),
    State.expireJobs, State.each, List.foldl_map]
  rfl

/-! ### After the expiries nothing is due -/

/-- The waiters' lifetimes are positive and their tags tell them apart. -/
structure LeaseUnit.Fair (u : LeaseUnit) : Prop where
  lives : ∀ w ∈ u.queue, 1 ≤ w.request.life
  tags : ∀ p, (u.tagsOf p).Nodup

theorem LeaseUnit.tagsOf_unmarked (u : LeaseUnit) (p : Port) : u.tagsOf p =
    (((u.queue.map Waiter.unmarked).map (fun w => (w.port, w.tag))).filter (fun k => k.1 == p)).map Prod.snd := by
  rw [LeaseUnit.tagsOf_eq, List.map_map]
  rfl

theorem LeaseUnit.Fair.of_sublist {u v : LeaseUnit} (h : u.Fair)
    (queue : (v.queue.map Waiter.unmarked).Sublist (u.queue.map Waiter.unmarked)) : v.Fair := by
  refine ⟨fun w hw => ?_, fun p => ?_⟩
  · obtain ⟨w', hw', same⟩ := List.mem_map.1 (queue.subset (List.mem_map_of_mem hw))
    have request : w'.request = w.request := (congrArg Waiter.request same :)
    exact request ▸ h.lives w' hw'
  · have tags := h.tags p
    rw [LeaseUnit.tagsOf_unmarked] at tags ⊢
    exact tags.sublist (((queue.map _).filter _).map _)

/-- Two waiters of one port and tag are one. -/
theorem LeaseUnit.Fair.eq_of_tag {u : LeaseUnit} (h : u.Fair) {v w : Waiter} (hv : v ∈ u.queue) (hw : w ∈ u.queue)
    (port : v.port = w.port) (tag : v.tag = w.tag) : v = w :=
  eq_of_nodup_keys (h.tags w.port) (List.mem_filter.2 ⟨hv, by simpa using port⟩)
    (List.mem_filter.2 ⟨hw, by simp⟩) tag

theorem LeaseUnit.OnlyGrants.life {u v : LeaseUnit} (h : u.OnlyGrants v) (fair : u.Fair) {l : Lease} (mem : l ∈ v.leases)
    (ended : l.life = 0) : l ∈ u.leases := by
  obtain ⟨granted, leases, new⟩ := h.leases
  rw [leases] at mem
  refine (List.mem_append.1 mem).resolve_right (fun mem => ?_)
  obtain ⟨w, hw, same⟩ := new l mem
  have life : l.life = w.request.life := congrArg Lease.life same
  have := fair.lives w hw
  omega

/-- The scan marks and grants: a waiter that does not settle after it was so before. -/
theorem State.scanFrom_unsettled (late : Bool) : ∀ (rest older : List Waiter) (s : State),
    s.leaseUnit.queue = older ++ rest → ∀ w ∈ (State.scanFrom late rest older s).leaseUnit.queue, w.settling = none →
      w ∈ s.leaseUnit.queue := by
  intro rest
  induction rest with
  | nil => exact fun older s _ w mem _ => mem
  | cons v rest ih =>
    intro older s queue w mem idle
    cases verdict : s.leaseUnit.verdict older v with
    | pass =>
      rw [State.scanFrom_pass verdict] at mem
      exact ih (older ++ [v]) s (by simp [queue]) w mem idle
    | settle claims =>
      rw [State.scanFrom_settle verdict] at mem
      have before := ih (older ++ [{ v with settling := some claims }])
        (s.setQueue (older ++ { v with settling := some claims } :: rest)) (by simp [State.setQueue]) w mem idle
      simp only [State.setQueue, State.modLease_leaseUnit, List.mem_append, List.mem_cons] at before
      rw [queue, List.mem_append, List.mem_cons]
      rcases before with h | rfl | h
      · exact .inl h
      · cases idle
      · exact .inr (.inr h)
    | grant =>
      rw [State.scanFrom_grant verdict] at mem
      have kept := ((s.setQueue (older ++ rest)).grantWaiter_tables late v).2.2
      have before := ih older _ kept w mem idle
      rw [kept] at before
      simp only [State.setQueue, State.modLease_leaseUnit, List.mem_append] at before
      rw [queue, List.mem_append, List.mem_cons]
      exact before.imp_right .inr

theorem State.scan_unsettled (s : State) (late : Bool) : ∀ w ∈ (s.scan late).leaseUnit.queue, w.settling = none →
    w ∈ s.leaseUnit.queue := State.scanFrom_unsettled late s.leaseUnit.queue [] s rfl

/-- The lapsed leases are among those named. -/
def LeaseUnit.LapsesIn (u : LeaseUnit) (ids : List Nat) : Prop :=
  u.Fair ∧ ∀ l ∈ u.leases, l.life = 0 → l.id ∈ ids

theorem State.takeLapse_lapsesIn {s : State} {id : Nat} {ids : List Nat} (h : s.leaseUnit.LapsesIn (id :: ids)) :
    (s.takeLapse id).leaseUnit.LapsesIn ids := by
  obtain ⟨fair, lapsed⟩ := h
  cases found : s.leaseUnit.leases.find? (fun l => l.id == id && l.lapsed) with
  | none =>
    have none := List.find?_eq_none.1 found
    simp only [State.takeLapse, found]
    refine ⟨fair, fun l mem ended => (List.mem_cons.1 (lapsed l mem ended)).resolve_left (fun same => none l mem ?_)⟩
    simp [same, Lease.lapsed, ended]
  | some l =>
    obtain ⟨same, -⟩ : l.id = id ∧ l.lapsed = true := by simpa using List.find?_some found
    have grants := State.scan_onlyGrants ((s.modLease (fun u => u.removeLease l.id)).offer l.port .leaseLapsed
      (fieldOf 1 l.id)) false false []
    simp only [State.takeLapse, found]
    refine ⟨fair.of_sublist grants.queue, fun m mem ended => ?_⟩
    have removed := grants.life (fair.of_sublist (.refl _)) mem ended
    obtain ⟨old, other⟩ : m ∈ s.leaseUnit.leases ∧ m.id ≠ l.id := by
      simpa [State.offer, LeaseUnit.removeLease] using removed
    exact (List.mem_cons.1 (lapsed m old ended)).resolve_left (fun e => other (e.trans same.symm))

theorem State.takeLapses_none {s : State} (fair : s.leaseUnit.Fair) : s.takeLapses.leaseUnit.LapsesIn [] := by
  have all : ∀ (ids : List Nat) (t : State), t.leaseUnit.LapsesIn ids →
      (t.each ids State.takeLapse).leaseUnit.LapsesIn [] := by
    intro ids
    induction ids with
    | nil => exact fun _ h => h
    | cons id ids ih => exact fun t h => ih _ (State.takeLapse_lapsesIn h)
  refine all _ s ⟨fair, fun l mem ended => List.mem_map_of_mem (List.mem_filter.2 ⟨mem, ?_⟩)⟩
  simp [Lease.lapsed, ended]

/-- No lease has lapsed, and the waiters whose wait is ended are among those named. -/
structure LeaseUnit.ExpiresIn (u : LeaseUnit) (ws : List Waiter) : Prop where
  fair : u.Fair
  leases : ∀ l ∈ u.leases, l.life ≠ 0
  waiters : ∀ w ∈ u.queue, w.timedOut = true → ∃ v ∈ ws, v.port = w.port ∧ v.tag = w.tag

theorem State.takeWaitExpiry_expiresIn {s : State} {v : Waiter} {ws : List Waiter} (h : s.leaseUnit.ExpiresIn (v :: ws)) :
    (s.takeWaitExpiry v.port v.tag).leaseUnit.ExpiresIn ws := by
  obtain ⟨fair, leases, waiters⟩ := h
  have rest : ∀ w ∈ s.leaseUnit.queue, w.timedOut = true → ¬ (w.port = v.port ∧ w.tag = v.tag) →
      ∃ v ∈ ws, v.port = w.port ∧ v.tag = w.tag := by
    intro w mem ended other
    obtain ⟨v', hv', port, tag⟩ := waiters w mem ended
    rcases List.mem_cons.1 hv' with rfl | hv'
    · exact absurd ⟨port.symm, tag.symm⟩ other
    · exact ⟨v', hv', port, tag⟩
  cases found : s.leaseUnit.waiterOf v.port v.tag with
  | none =>
    simp only [State.takeWaitExpiry, found]
    exact ⟨fair, leases, fun w mem ended => rest w mem ended ((LeaseUnit.waiterOf_eq_none _ _ _).1 found w mem)⟩
  | some x =>
    obtain ⟨port, tag⟩ : x.port = v.port ∧ x.tag = v.tag := by simpa using List.find?_some found
    have mem := List.mem_of_find?_eq_some found
    by_cases ended : x.timedOut = true
    · rw [State.takeWaitExpiry_found found ended, State.expire]
      have grants := State.scan_onlyGrants ((s.modLease (fun u => u.removeWaiter v.port v.tag)).answerWaiter v.port v.tag
        .timedOut []) false false []
      have idle := State.scan_unsettled ((s.modLease (fun u => u.removeWaiter v.port v.tag)).answerWaiter v.port v.tag
        .timedOut []) false
      have fewer : (s.leaseUnit.removeWaiter v.port v.tag).Fair := fair.of_sublist (List.filter_sublist.map _)
      refine ⟨fewer.of_sublist grants.queue, fun l hl zero => leases l (grants.life fewer hl zero) zero,
        fun w hw late => ?_⟩
      obtain ⟨old, other⟩ : w ∈ s.leaseUnit.queue ∧ (w.port ≠ v.port ∨ w.tag ≠ v.tag) := by
        simpa [State.answerWaiter, LeaseUnit.removeWaiter] using idle w hw (w.timedOut_iff.1 late).2
      exact rest w old late (Classical.not_and_iff_not_or_not.2 other)
    · rw [State.takeWaitExpiry, found]
      simp only [if_neg ended]
      refine ⟨fair, leases, fun w hw late => rest w hw late (fun ⟨samePort, sameTag⟩ => ended ?_)⟩
      rwa [fair.eq_of_tag mem hw (port.trans samePort.symm) (tag.trans sameTag.symm)]

theorem LeaseUnit.ExpiresIn.due {u : LeaseUnit} (h : u.ExpiresIn []) : u.due = false := by
  refine u.due_eq_false.2 ⟨h.leases, fun w hw zero idle => ?_⟩
  obtain ⟨v, mem, -⟩ := h.waiters w hw (w.timedOut_iff.2 ⟨zero, idle⟩)
  cases mem

theorem State.expireLeases_expired {s : State} (fair : s.leaseUnit.Fair) : s.expireLeases.leaseUnit.ExpiresIn [] := by
  have all : ∀ (ws : List Waiter) (t : State), t.leaseUnit.ExpiresIn ws →
      (t.each ws (fun t w => t.takeWaitExpiry w.port w.tag)).leaseUnit.ExpiresIn [] := by
    intro ws
    induction ws with
    | nil => exact fun _ h => h
    | cons w ws ih => exact fun t h => ih _ (State.takeWaitExpiry_expiresIn h)
  obtain ⟨fair, lapsed⟩ := State.takeLapses_none fair
  exact all _ s.takeLapses ⟨fair, fun l mem ended => (by cases lapsed l mem ended),
    fun w mem ended => ⟨w, List.mem_filter.2 ⟨mem, ended⟩, rfl, rfl⟩⟩

theorem State.expireLeases_due {s : State} (fair : s.leaseUnit.Fair) : s.expireLeases.leaseUnit.due = false :=
  (State.expireLeases_expired fair).due

theorem State.fair_of_orderly {s : State} (timers : s.TimersInRange) (inFlight : s.InFlightOrderly) : s.leaseUnit.Fair :=
  ⟨fun w hw => (timers.waiters w hw).2.1, inFlight.distinct⟩

/-- The jobs whose limit is reached are among those named. -/
def JobEngine.LimitsIn (e : JobEngine) (ids : List Nat) : Prop :=
  (e.jobs.map Job.id).Nodup ∧ ∀ j ∈ e.jobs, j.limitReached = true → j.id ∈ ids

theorem State.takeBlockLimit_limitsIn {s : State} {id : Nat} {ids : List Nat} (h : s.engine.LimitsIn (id :: ids)) :
    (s.takeBlockLimit id).engine.LimitsIn ids := by
  obtain ⟨distinct, reached⟩ := h
  cases found : s.engine.find id with
  | none =>
    have none := List.find?_eq_none.1 found
    simp only [State.takeBlockLimit, found]
    refine ⟨distinct, fun j mem ended => (List.mem_cons.1 (reached j mem ended)).resolve_left (fun same => none j mem ?_)⟩
    simp [same]
  | some j =>
    have named := JobEngine.find_id found
    by_cases ended : j.limitReached = true
    · simp only [State.takeBlockLimit, found, if_pos ended]
      have jobs : (s.endJob j .failed .blockLimit (fun t => t)).engine.jobs =
          s.engine.jobs.filter (fun k => k.id != j.id) := rfl
      refine ⟨jobs ▸ distinct.sublist (List.filter_sublist.map _), fun k mem late => ?_⟩
      obtain ⟨old, other⟩ : k ∈ s.engine.jobs ∧ k.id ≠ j.id := by simpa [jobs] using mem
      exact (List.mem_cons.1 (reached k old late)).resolve_left (fun e => other (e.trans named.symm))
    · simp only [State.takeBlockLimit, found, if_neg ended]
      refine ⟨distinct, fun k mem late => (List.mem_cons.1 (reached k mem late)).resolve_left (fun same => ended ?_)⟩
      rwa [eq_of_nodup_keys distinct (List.mem_of_find?_eq_some found) mem (named.trans same.symm)]

theorem State.expireJobs_due {s : State} (distinct : (s.engine.jobs.map Job.id).Nodup) :
    s.expireJobs.engine.due = false := by
  have all : ∀ (ids : List Nat) (t : State), t.engine.LimitsIn ids →
      (t.each ids State.takeBlockLimit).engine.LimitsIn [] := by
    intro ids
    induction ids with
    | nil => exact fun _ h => h
    | cons id ids ih => exact fun t h => ih _ (State.takeBlockLimit_limitsIn h)
  obtain ⟨-, none⟩ := all _ s ⟨distinct, fun j mem ended => List.mem_map_of_mem (List.mem_filter.2 ⟨mem, ended⟩)⟩
  refine (JobEngine.due_eq_false _).2 (fun j mem => ?_)
  rw [← Bool.not_eq_true]
  intro ended
  cases none j mem ended

/-- Settles O30. -/
theorem withdrawalLapseAndWaitExpiry : Obligations.WithdrawalLapseAndWaitExpiry := by
  unfold Obligations.WithdrawalLapseAndWaitExpiry
  refine ⟨fun s p f tag quiet takes payload => ⟨fun none => ?_, fun w found => ⟨fun settles => ?_, fun idle reserved => ?_⟩⟩,
    fun s p f tag takes payload => ?_, fun s t p tag late handed after => ?_, fun s l distinct mem ended => ?_,
    fun s id none => congrArg _ (State.takeLapse_none none), fun s p tag w found wait idle sends reserved => ?_,
    fun s p tag none => congrArg _ (State.takeWaitExpiry_none none),
    fun s => ⟨State.expireLeases_quiet, State.expireJobs_quiet⟩,
    fun s t after => ?_, State.expireJobs_after, Job.limitReached_iff, fun u => ?_, fun e => ?_,
    fun s timers inFlight => State.expireLeases_due (State.fair_of_orderly timers inFlight),
    fun s orderly => State.expireJobs_due orderly.ids⟩
  · rw [takes.withdraw payload, State.handOver_leaseUnit quiet, State.decideWithdraw_notFound (by exact none),
      takes.executingIn_answer]
  · rw [takes.withdraw payload, State.handOver_leaseUnit quiet, State.decideWithdraw_settling (by exact found) settles,
      takes.executingIn_answer]
  · rw [takes.withdraw payload, State.handOver_leaseUnit quiet, State.decideWithdraw_found (by exact found) idle]
    refine ⟨_, rfl, ?_⟩
    rw [State.answers_waiter_then_request (x := { tag := f.tag, kind := .withdraw, reserved := true, phase := .handed (.withdraw tag) })
      (by simp [State.executingIn]) (by simpa [State.executingIn, State.emptySlot, Transmitter.reserve] using takes.sends)
      (by simp [State.executingIn, State.emptySlot, Transmitter.reserve]; omega)]
    simp [State.executingIn, State.emptySlot, Transmitter.reserve, LeaseUnit.removeWaiter, Frame.reply]
  · rw [takes.withdraw payload, State.handOver_late]
  · have taken : exec (.withdraw p late) s = .next (t.decideWithdraw p tag) := by
      simp only [exec, execWithdraw, handed, State.atLeaseUnit, after]
    rw [taken]
    exact ⟨fun none => by rw [State.decideWithdraw_notFound none], fun w found =>
      ⟨fun settles => by rw [State.decideWithdraw_settling found settles],
        fun idle => by rw [State.decideWithdraw_found found idle]; rfl⟩⟩
  · exact congrArg Host.Outcome.next (State.takeLapse_found distinct mem ended)
  · refine ⟨(s.modLease (fun u => u.removeWaiter p tag)).answerWaiter p tag .timedOut [],
      congrArg Host.Outcome.next (State.takeWaitExpiry_found found (w.timedOut_iff.2 ⟨wait, idle⟩)), ?_⟩
    rw [State.answerWaiter_sends (by exact sends) (by exact reserved)]
    simp [LeaseUnit.removeWaiter]
  · rw [after, ← State.takeLapses_after, ← State.takeWaitExpiries_after]
    rfl
  · simp [LeaseUnit.due, Lease.lapsed, Waiter.timedOut]
  · simp only [JobEngine.due, List.any_eq_true, Job.limitReached_iff]

end Sys2Proof.Machine
end

section
/-! SUPPORT. A request handed over late is decided as one decided at once (R40, R101). -/

namespace Sys2Proof.Machine

/-! ### Commands that hand a request over -/

/-- What follows a frame taken: a refusal, or a request handed over that the command decides where it stands so. -/
def State.Hands (t : State) (p : Port) (c : Bool → Instr) (g : Bool → State) : Prop :=
  (∃ r fs, ∀ late, g late = t.answer p r fs) ∨
  ∃ h e, (∀ s late, s.handed p = some h → exec (c late) s = .next (e s)) ∧ ∀ late, g late = t.handOver p late h e

section
variable {t : State} {p : Port} {c : Bool → Instr}

theorem State.Hands.refused (r : Result) (fs : List Byte) : t.Hands p c (fun _ => t.answer p r fs) :=
  .inl ⟨r, fs, fun _ => rfl⟩

theorem State.Hands.handOver {h : Handed} {e : State → State}
    (decides : ∀ s late, s.handed p = some h → exec (c late) s = .next (e s)) :
    t.Hands p c (fun late => t.handOver p late h e) := .inr ⟨h, e, decides, fun _ => rfl⟩

theorem State.Hands.orRefused {g : Bool → State} (h : t.Hands p c g) (b : Prop) [Decidable b] (r : Result)
    (fs : List Byte) : t.Hands p c (fun late => if b then t.answer p r fs else g late) := by
  by_cases bad : b
  · simp only [if_pos bad]
    exact .refused r fs
  · simp only [if_neg bad]
    exact h

theorem State.Hands.control {f : Frame} {h : Nat → Handed} {e : Nat → State → State}
    (decides : ∀ id s late, s.handed p = some (h id) → exec (c late) s = .next (e id s)) :
    t.Hands p c (fun late => t.control p late f h e) := (State.Hands.handOver (decides (namedId f))).orRefused _ _ _

end

/-- A command whose request is decided elsewhere. -/
structure HandsOver (c : Bool → Instr) (p : Port) (k : Kind) (body : Bool → Frame → State → State) : Prop where
  taken : ∀ s late, s.handed p = none → exec (c late) s = .next (s.takeRequest p k (body late))
  kind : k ≠ .openSession ∧ k ≠ .portStatus
  body : ∀ (f : Frame) (t : State), t.Hands p c (fun late => body late f t)

/-- With no frame in the slot and nothing handed over such a command does nothing. -/
theorem HandsOver.idle {c : Bool → Instr} {p : Port} {k : Kind} {body : Bool → Frame → State → State}
    (h : HandsOver c p k body) {s : State} (handed : s.handed p = none) (slot : (s.lrx.get p).held = none) (late : Bool) :
    exec (c late) s = .next s := by
  have none : s.takeable p = none := by
    rw [State.takeable, slot, ite_self]
  rw [h.taken s late handed, State.takeRequest_of_none none]

theorem State.answer_idle {s : State} (p : Port) (r : Result) (fs : List Byte) :
    ((s.answer p r fs).pu.get p).executing = none := by
  cases executing : (s.pu.get p).executing with
  | none => rw [State.answer_free executing, executing]
  | some x => simp [State.answer_executing executing]

theorem State.beginRequest_slot (s : State) (p : Port) (k : Kind) (tag : Byte) (r : Result) (fs : List Byte) :
    (((s.beginRequest p k tag).answer p r fs).lrx.get p).held = none := by
  rw [State.answer_executing (x := { tag := tag, kind := k, reserved := true, phase := .deciding })
    (by rw [State.beginRequest_unit])]
  simp

/-- The request that stands handed over after a late command is decided as at once. -/
theorem HandsOver.late_now {c : Bool → Instr} {p : Port} {k : Kind} {body : Bool → Frame → State → State}
    (h : HandsOver c p k body) {s : State} (handed : s.handed p = none) :
    ∃ t, exec (c true) s = .next t ∧ exec (c false) t = exec (c false) s := by
  refine ⟨_, h.taken s true handed, ?_⟩
  rw [h.taken s false handed]
  have refused : ∀ tag r fs, exec (c false) ((s.beginRequest p k tag).answer p r fs) =
      .next ((s.beginRequest p k tag).answer p r fs) := fun tag r fs =>
    h.idle (State.handed_of_free (State.answer_idle p r fs)) (s.beginRequest_slot p k tag r fs) false
  cases taken : s.takeable p with
  | none => rw [State.takeRequest_of_none taken, State.takeRequest_of_none taken, h.taken s false handed,
      State.takeRequest_of_none taken]
  | some f =>
    obtain ⟨-, -, free, -, -⟩ := (s.takeable_iff p f).1 taken
    by_cases kind : f.kind = k.code
    · cases session : (s.pu.get p).session with
      | closing =>
        simp only [State.takeRequest, taken, kind, session, if_true]
        rw [h.taken s false handed]
        simp only [State.takeRequest, taken, kind, session, if_true]
      | down =>
        simp only [State.takeRequest, taken, kind, session, if_true, State.takeDown, if_pos h.kind]
        refine h.idle (State.handed_of_free (s := (s.emptySlot p).answerDirect p k.code f.tag .noSession []) free) ?_ false
        simp [State.answerDirect, State.emptySlot]
      | up =>
        simp only [State.takeRequest, taken, kind, session, if_true, State.takeUp, if_neg h.kind.1]
        split
        · exact refused _ _ _
        · split
          · exact refused _ _ _
          · split
            · exact refused _ _ _
            · rcases h.body f (s.beginRequest p k f.tag) with ⟨r, fs, answered⟩ | ⟨x, e, decides, handed⟩
              · simp only [answered]
                exact refused _ _ _
              · simp only [handed, State.handOver, Bool.false_eq_true, if_true, if_false]
                refine decides _ false (State.handed_of_phase ?_)
                simp [State.setPhase, State.phase]
    · simp only [State.takeRequest, taken, kind, if_false]
      rw [h.taken s false handed]
      simp only [State.takeRequest, taken, kind, if_false]

/-! ### The requests of the lease unit -/

theorem State.checkLease_hands (p : Port) (f : Frame) (t : State) :
    t.Hands p (.lease p) (fun late => t.checkLease p late f) := by
  cases kind : LeaseKind.ofCode (fieldAt f.payload 7 1) with
  | none =>
    simp only [State.checkLease, kind]
    exact .refused _ _
  | some k =>
    cases mapped : (t.pu.get p).named (fieldAt f.payload 0 1) (fieldAt f.payload 1 3) (fieldAt f.payload 4 3) with
    | none =>
      simp only [State.checkLease, kind, mapped]
      exact (State.Hands.refused _ _).orRefused _ _ _
    | some w =>
      simp only [State.checkLease, kind, mapped]
      exact (((State.Hands.handOver (fun s late h => by simp only [exec, execLease, h])).orRefused _ _ _).orRefused _ _
        _).orRefused _ _ _

theorem lease_handsOver (p : Port) : HandsOver (.lease p) p .lease (fun late f t => t.checkLease p late f) where
  taken s late h := by simp only [exec, execLease, h]
  kind := by decide
  body f t := t.checkLease_hands p f

theorem renew_handsOver (p : Port) : HandsOver (.renew p) p .renew (fun late f t =>
    if fieldAt f.payload 0 1 = 0 ∨ fieldAt f.payload 1 2 = 0 ∨ maxMilliseconds < fieldAt f.payload 1 2 then
      t.answer p .badField []
    else t.handOver p late (.renew (fieldAt f.payload 0 1) (fieldAt f.payload 1 2)) (fun u =>
      u.atLeaseUnit (fun v => v.decideRenew p (fieldAt f.payload 0 1) (fieldAt f.payload 1 2)))) where
  taken s late h := by simp only [exec, execRenew, h]
  kind := by decide
  body f t := (State.Hands.handOver (fun s late h => by simp only [exec, execRenew, h])).orRefused _ _ _

theorem release_handsOver (p : Port) : HandsOver (.release p) p .release (fun late f t =>
    if fieldAt f.payload 0 1 = 0 then t.answer p .badField []
    else t.handOver p late (.release (fieldAt f.payload 0 1)) (fun u =>
      u.atLeaseUnit (fun v => v.decideRelease p (fieldAt f.payload 0 1)))) where
  taken s late h := by simp only [exec, execRelease, h]
  kind := by decide
  body f t := (State.Hands.handOver (fun s late h => by simp only [exec, execRelease, h])).orRefused _ _ _

theorem withdraw_handsOver (p : Port) : HandsOver (.withdraw p) p .withdraw (fun late f t =>
    t.handOver p late (.withdraw (f.payload.headD 0)) (fun u =>
      u.atLeaseUnit (fun v => v.decideWithdraw p (f.payload.headD 0)))) where
  taken s late h := by simp only [exec, execWithdraw, h]
  kind := by decide
  body f t := .handOver (fun s late h => by simp only [exec, execWithdraw, h])

theorem leaseList_handsOver (p : Port) : HandsOver (.leaseList p) p .leaseList (fun late _ t =>
    t.handOver p late .leaseList (fun u => u.atLeaseUnit (fun v => v.decideLeaseList p))) where
  taken s late h := by simp only [exec, execLeaseList, h]
  kind := by decide
  body f t := .handOver (fun s late h => by simp only [exec, execLeaseList, h])

theorem forceRelease_handsOver (p : Port) : HandsOver (.forceRelease p) p .forceRelease (fun late f t =>
    t.control p late f .forceRelease (fun id u => u.atLeaseUnit (fun v => v.decideForceRelease p id))) where
  taken s late h := by simp only [exec, execForceRelease, h]
  kind := by decide
  body f t := .control (fun id s late h => by simp only [exec, execForceRelease, h])

/-! ### The requests of the job engine -/

theorem State.checkCopy_hands (p : Port) (f : Frame) (t : State) :
    t.Hands p (.jobCopy p) (fun late => t.checkCopy p late f) := by
  cases source : (t.pu.get p).jobRange (fieldAt f.payload 0 3) (fieldAt f.payload 6 3) with
  | error r =>
    simp only [State.checkCopy, source]
    exact (State.Hands.refused _ _).orRefused _ _ _
  | ok v =>
    cases destination : (t.pu.get p).jobRange (fieldAt f.payload 3 3) (fieldAt f.payload 6 3) with
    | error r =>
      simp only [State.checkCopy, source, destination]
      exact (State.Hands.refused _ _).orRefused _ _ _
    | ok w =>
      simp only [State.checkCopy, source, destination, State.handSubmission]
      exact (((State.Hands.handOver (fun s late h => by simp only [exec, execJobCopy, h])).orRefused _ _ _).orRefused _ _
        _).orRefused _ _ _

theorem State.checkFill_hands (p : Port) (f : Frame) (t : State) :
    t.Hands p (.jobFill p) (fun late => t.checkFill p late f) := by
  cases destination : (t.pu.get p).jobRange (fieldAt f.payload 0 3) (fieldAt f.payload 3 3) with
  | error r =>
    simp only [State.checkFill, destination]
    exact (State.Hands.refused _ _).orRefused _ _ _
  | ok w =>
    simp only [State.checkFill, destination, State.handSubmission]
    exact ((State.Hands.handOver (fun s late h => by simp only [exec, execJobFill, h])).orRefused _ _ _).orRefused _ _ _

theorem State.checkSum_hands (p : Port) (f : Frame) (t : State) :
    t.Hands p (.jobSum p) (fun late => t.checkSum p late f) := by
  cases source : (t.pu.get p).jobRange (fieldAt f.payload 0 3) (fieldAt f.payload 3 3) with
  | error r =>
    simp only [State.checkSum, source]
    exact (State.Hands.refused _ _).orRefused _ _ _
  | ok w =>
    simp only [State.checkSum, source, State.handSubmission]
    exact ((State.Hands.handOver (fun s late h => by simp only [exec, execJobSum, h])).orRefused _ _ _).orRefused _ _ _

theorem jobCopy_handsOver (p : Port) : HandsOver (.jobCopy p) p .jobCopy (fun late f t => t.checkCopy p late f) where
  taken s late h := by simp only [exec, execJobCopy, h]
  kind := by decide
  body f t := t.checkCopy_hands p f

theorem jobFill_handsOver (p : Port) : HandsOver (.jobFill p) p .jobFill (fun late f t => t.checkFill p late f) where
  taken s late h := by simp only [exec, execJobFill, h]
  kind := by decide
  body f t := t.checkFill_hands p f

theorem jobSum_handsOver (p : Port) : HandsOver (.jobSum p) p .jobSum (fun late f t => t.checkSum p late f) where
  taken s late h := by simp only [exec, execJobSum, h]
  kind := by decide
  body f t := t.checkSum_hands p f

theorem jobPause_handsOver (p : Port) : HandsOver (.jobPause p) p .jobPause (fun late f t =>
    t.control p late f .jobPause (fun id u => u.atEngine (fun v => v.decidePause p id))) where
  taken s late h := by simp only [exec, execJobPause, h]
  kind := by decide
  body f t := .control (fun id s late h => by simp only [exec, execJobPause, h])

theorem jobResume_handsOver (p : Port) : HandsOver (.jobResume p) p .jobResume (fun late f t =>
    t.control p late f .jobResume (fun id u => u.atEngine (fun v => v.decideResume p id))) where
  taken s late h := by simp only [exec, execJobResume, h]
  kind := by decide
  body f t := .control (fun id s late h => by simp only [exec, execJobResume, h])

theorem jobCancel_handsOver (p : Port) : HandsOver (.jobCancel p) p .jobCancel (fun late f t =>
    t.control p late f .jobCancel (fun id u => u.atEngine (fun v => v.decideCancel p id))) where
  taken s late h := by simp only [exec, execJobCancel, h]
  kind := by decide
  body f t := .control (fun id s late h => by simp only [exec, execJobCancel, h])

theorem jobQuery_handsOver (p : Port) : HandsOver (.jobQuery p) p .jobQuery (fun late f t =>
    t.control p late f .jobQuery (fun id u => u.atEngine (fun v => v.decideQuery p id))) where
  taken s late h := by simp only [exec, execJobQuery, h]
  kind := by decide
  body f t := .control (fun id s late h => by simp only [exec, execJobQuery, h])

theorem forceCancel_handsOver (p : Port) : HandsOver (.forceCancel p) p .forceCancel (fun late f t =>
    t.control p late f .forceCancel (fun id u => u.atEngine (fun v => v.decideForceCancel p id))) where
  taken s late h := by simp only [exec, execForceCancel, h]
  kind := by decide
  body f t := .control (fun id s late h => by simp only [exec, execForceCancel, h])

theorem handedCommand_late_now {c : Instr} {p : Port} {s : State} (late : handedCommand c = some (p, true))
    (handed : s.handed p = none) : ∃ t, exec c s = .next t ∧ exec (atOnce c) t = exec (atOnce c) s := by
  cases c <;> cases late
  case lease => exact (lease_handsOver p).late_now handed
  case renew => exact (renew_handsOver p).late_now handed
  case release => exact (release_handsOver p).late_now handed
  case withdraw => exact (withdraw_handsOver p).late_now handed
  case leaseList => exact (leaseList_handsOver p).late_now handed
  case jobCopy => exact (jobCopy_handsOver p).late_now handed
  case jobFill => exact (jobFill_handsOver p).late_now handed
  case jobSum => exact (jobSum_handsOver p).late_now handed
  case jobPause => exact (jobPause_handsOver p).late_now handed
  case jobResume => exact (jobResume_handsOver p).late_now handed
  case jobCancel => exact (jobCancel_handsOver p).late_now handed
  case jobQuery => exact (jobQuery_handsOver p).late_now handed
  case forceRelease => exact (forceRelease_handsOver p).late_now handed
  case forceCancel => exact (forceCancel_handsOver p).late_now handed

end Sys2Proof.Machine
end

section
/-! SUPPORT. Expiries before the events of the lease unit and the job engine (R16, R40). -/

namespace Sys2Proof.Machine

/-! ### A decision taken late and one delivered at once -/

theorem State.takeAdmission_request {s : State} {r : Requester} {a : Access} (request : (s.mail.get r).request = some a)
    (claimEnd : (s.mail.get r).claimEnd = false) (withdrawal : (s.mail.get r).withdrawal = false) (late : Bool) :
    s.takeAdmission r late =
      (s.expireLeases.modMail r (fun m => { m with request := none })).decideAdmission late a := by
  simp only [State.takeAdmission, claimEnd, withdrawal, request, Bool.false_eq_true, or_self, if_false, State.atLeaseUnit]

theorem State.takeAdmission_none {s : State} {r : Requester} (request : (s.mail.get r).request = none) (late : Bool) :
    s.takeAdmission r late = s := by
  simp only [State.takeAdmission, request, ite_self]

theorem State.admission_undecided {s : State} {r : Requester} (decision : (s.mail.get r).decision = none)
    (inbox : ∀ d rest, s.engine.inbox ≠ .decided d :: rest) (late : Bool) :
    s.admission r late = s.takeAdmission r late := by
  cases r with
  | port p => simp only [State.admission, decision]
  | engine =>
    cases head : s.engine.inbox with
    | nil => simp only [State.admission, head]
    | cons m rest =>
      cases m with
      | decided d => exact absurd head (inbox d rest)
      | removed x => simp only [State.admission, head]

theorem PerRequester.set_set {α : Type} (v : PerRequester α) (r : Requester) (a b : α) :
    (v.set r a).set r b = v.set r b := by
  cases r <;> simp [PerRequester.set]

theorem PerRequester.set_get {α : Type} (v : PerRequester α) (r : Requester) : v.set r (v.get r) = v := by
  cases r <;> simp [PerRequester.set, PerRequester.get]

theorem State.modMail_modMail (s : State) (r : Requester) (f g : Mail → Mail) :
    (s.modMail r f).modMail r g = s.modMail r (fun m => g (f m)) := by
  simp [State.modMail, PerRequester.set_set]

theorem State.modMail_id {s : State} {r : Requester} {f : Mail → Mail} (h : f (s.mail.get r) = s.mail.get r) :
    s.modMail r f = s := by
  simp [State.modMail, h, PerRequester.set_get]

theorem State.deliver_late_now {s : State} {r : Requester} (decision : (s.mail.get r).decision = none)
    (inbox : s.engine.inbox = []) (withdrawal : (s.mail.get r).withdrawal = false) (d : Decision) :
    (s.deliver true r d).admission r false = s.deliver false r d := by
  cases r with
  | port p =>
    have restored : (s.modMail (.port p) (fun m => { m with decision := some d })).modMail (.port p)
        (fun m => { m with decision := none }) = s := by
      rw [State.modMail_modMail]
      refine State.modMail_id ?_
      show { s.mail.get (.port p) with decision := none } = s.mail.get (.port p)
      rw [← decision]
    simp only [State.deliver, withdrawal, Bool.false_eq_true, if_true, if_false, State.admission, State.modMail_mail,
      PerRequester.get_set_self, restored]
  | engine =>
    simp only [State.deliver, withdrawal, Bool.false_eq_true, if_true, if_false, State.admission, State.modEngine_engine,
      inbox, List.nil_append]

theorem State.decideAdmission_late_now {s : State} {a : Access} (decision : (s.mail.get a.requester).decision = none)
    (inbox : s.engine.inbox = []) (withdrawal : (s.mail.get a.requester).withdrawal = false)
    (request : (s.mail.get a.requester).request = none) :
    (s.decideAdmission true a).admission a.requester false = s.decideAdmission false a := by
  cases decided : s.leaseUnit.decide a with
  | none =>
    simp only [State.decideAdmission, decided]
    rw [State.admission_undecided (by exact decision) (by simp [inbox]), State.takeAdmission_none (by exact request)]
  | some d =>
    cases d with
    | refused id holder =>
      simp only [State.decideAdmission, decided, State.concludeAdmission]
      exact State.deliver_late_now decision inbox withdrawal _
    | admitted =>
      simp only [State.decideAdmission, decided, State.concludeAdmission]
      exact State.deliver_late_now (s := s.modLease _) decision inbox withdrawal _

/-! ### A status reading at a block where expiries are due -/

theorem State.takeReadings_settled {s : State} {r : Reading} (again : (s.settle r.owner).settle r.owner = s.settle r.owner)
    (rs : List Reading) (fields : List Byte) :
    State.takeReadings (r :: rs) s fields = State.takeReadings (r :: rs) (s.settle r.owner) fields := by
  rw [State.takeReadings, State.takeReadings, again]

theorem State.CoreKept.settled (s : State) (b : Owner) : s.CoreKept (s.settle b) := (CoreKept.refl s).settle b

/-- A request half read goes on as after the expiries of the block it reads next. -/
theorem State.status_settled {s : State} {p : Port} {g : Gather} {rs : List Reading} {b : Owner}
    (gather : (s.pu.get p).gather = some g) (next : (rs.map Reading.owner)[g.taken]? = some b)
    (again : (s.settle b).settle b = s.settle b) (late : Bool) :
    s.status p g.kind late rs = (s.settle b).status p g.kind late rs := by
  have kept := (State.CoreKept.settled s b).unit p
  have gather' : ((s.settle b).pu.get p).gather = some g := kept.gather.trans gather
  rw [List.getElem?_map, Option.map_eq_some_iff] at next
  obtain ⟨r, at', rfl⟩ := next
  obtain ⟨lt, here⟩ := List.getElem?_eq_some_iff.1 at'
  have rest : rs.drop g.taken = r :: rs.drop (g.taken + 1) := by rw [List.drop_eq_getElem_cons lt, here]
  simp only [State.status, gather, gather', if_true, State.readOn, rest, List.take_succ_cons, kept.session,
    State.takeReadings_settled again]

theorem State.settle_leaseUnit {s : State} (quiet : s.expireLeases.leaseUnit.due = false) :
    (s.settle .leaseUnit).settle .leaseUnit = s.settle .leaseUnit := State.expireLeases_quiet quiet

theorem State.settle_engine {s : State} (quiet : s.expireJobs.engine.due = false) :
    (s.settle .engine).settle .engine = s.settle .engine := State.expireJobs_quiet quiet

/-- Which block gives which field of PORTSTATUS and of DEVSTATUS. -/
theorem statusReadings_owners :
    (∀ p n, n = 8 ∨ n = 9 → ((portStatusReadings p).map Reading.owner)[n]? = some .leaseUnit) ∧
    (∀ n, n < 26 → n < 20 ∧ (n % 5 = 2 ∨ n % 5 = 3) ∨ n = 20 ∨ n = 21 ∨ n = 24 →
      (devStatusReadings.map Reading.owner)[n]? = some .leaseUnit) ∧
    (∀ p, ((portStatusReadings p).map Reading.owner)[10]? = some .engine) ∧
    ∀ n, n < 26 → n < 20 ∧ n % 5 = 4 ∨ n = 22 ∨ n = 23 ∨ n = 25 →
      (devStatusReadings.map Reading.owner)[n]? = some .engine := by
  refine ⟨fun p n h => ?_, by decide, fun p => rfl, by decide⟩
  rcases h with rfl | rfl <;> rfl

/-- Settles O31. -/
theorem whatIsLateEndsTheSame : Obligations.WhatIsLateEndsTheSame := by
  unfold Obligations.WhatIsLateEndsTheSame
  obtain ⟨portLease, devLease, portEngine, devEngine⟩ := statusReadings_owners
  refine ⟨fun c p s late handed => handedCommand_late_now late handed,
    fun s r a quiet request requester decision inbox claimEnd withdrawal => ?_,
    fun s p c quiet decides => ?_, fun s p c quiet decides => ?_,
    fun s r a late request decision inbox claimEnd withdrawal => ?_, fun s r late quiet mail => ⟨fun ended => ?_,
      fun ended withdrawn => ?_⟩,
    fun s p late quiet => ⟨fun due => ?_, fun due before => ?_⟩, fun s p quiet => ⟨fun due => ?_, fun x rest inbox => ?_⟩,
    fun s p late g gather => ⟨fun quiet => ⟨fun kind taken => ?_, fun kind taken => ?_⟩, fun quiet => ⟨fun kind taken => ?_,
      fun kind taken => ?_⟩⟩⟩
  · subst requester
    refine ⟨_, rfl, congrArg Host.Outcome.next ?_⟩
    have first : ∀ late, s.admission a.requester late =
        (s.modMail a.requester (fun m => { m with request := none })).decideAdmission late a := fun late => by
      rw [State.admission_undecided decision (by simp [inbox]), State.takeAdmission_request request claimEnd withdrawal,
        State.expireLeases_quiet quiet]
    rw [first, first]
    exact State.decideAdmission_late_now (by simpa using decision) inbox (by simpa using withdrawal) (by simp)
  · rcases decides with ⟨x, late, handed, rfl⟩ | ⟨id, life, late, handed, rfl⟩ | ⟨id, late, handed, rfl⟩ |
      ⟨tag, late, handed, rfl⟩ | ⟨late, handed, rfl⟩ | ⟨id, late, handed, rfl⟩
    all_goals simp only [exec, execLease, execRenew, execRelease, execWithdraw, execLeaseList, execForceRelease, handed,
      State.expireLeases_handed handed, State.atLeaseUnit, State.expireLeases_quiet quiet]
  · rcases decides with ⟨a, b, length, limit, late, handed, rfl⟩ | ⟨a, pattern, length, limit, late, handed, rfl⟩ |
      ⟨a, length, limit, late, handed, rfl⟩ | ⟨id, late, handed, rfl⟩ | ⟨id, late, handed, rfl⟩ | ⟨id, late, handed, rfl⟩ |
      ⟨id, late, handed, rfl⟩ | ⟨id, late, handed, rfl⟩
    all_goals simp only [exec, execJobCopy, execJobFill, execJobSum, execJobPause, execJobResume, execJobCancel,
      execJobQuery, execForceCancel, handed, State.expireJobs_handed, State.atEngine, State.expireJobs_quiet quiet]
  · exact congrArg Host.Outcome.next ((State.admission_undecided decision inbox late).trans
      (State.takeAdmission_request request claimEnd withdrawal late))
  · simp only [exec, execClaimEnd, mail, ended, if_true, State.atLeaseUnit, State.expireLeases_quiet quiet]
  · simp only [exec, execAdmissionWithdrawal, mail, ended, withdrawn, and_self, if_true, State.atLeaseUnit,
      State.expireLeases_quiet quiet]
  · have kept := ((State.CoreKept.refl s).expireLeases.unit p).stepsDue
    simp only [exec, execTeardownWaiterStep, kept, due, if_true, State.atLeaseUnit, State.expireLeases_quiet quiet]
  · have kept := ((State.CoreKept.refl s).expireLeases.unit p).stepsDue
    simp only [exec, execTeardownLeaseStep, kept, due, before, and_self, if_true, State.atLeaseUnit,
      State.expireLeases_quiet quiet]
  · have kept := ((State.CoreKept.refl s).expireJobs.unit p).stepsDue
    simp only [exec, execTeardownJobStep, kept, due, if_true, State.atEngine, State.expireJobs_quiet quiet]
  · simp only [exec, execLeaseRemovalReport, State.expireJobs_inbox, inbox, State.atEngine, State.expireJobs_quiet quiet]
  · have read := State.status_settled gather (portLease p _ taken) (State.settle_leaseUnit quiet) late
    rw [kind] at read
    exact congrArg Host.Outcome.next read
  · have read := State.status_settled gather (devLease _ (by omega) taken) (State.settle_leaseUnit quiet) late
    rw [kind] at read
    exact congrArg Host.Outcome.next read
  · have read := State.status_settled gather (taken ▸ portEngine p) (State.settle_engine quiet) late
    rw [kind] at read
    exact congrArg Host.Outcome.next read
  · have read := State.status_settled gather (devEngine _ (by omega) taken) (State.settle_engine quiet) late
    rw [kind] at read
    exact congrArg Host.Outcome.next read

end Sys2Proof.Machine
end

section
/-! SUPPORT. Admissions decided and delivered, withdrawals and claim ends (R34-R47). -/

namespace Sys2Proof.Machine

/-! ## The decision on an access (R38) -/

theorem LeaseUnit.decide_refused {u : LeaseUnit} {a : Access} {l : Lease} (mem : l ∈ u.leases) (forbids : l.forbids a = true)
    (least : ∀ m ∈ u.leases, m.forbids a = true → l.id < m.id ∨ m = l) : u.decide a = some (.refused l.id l.port) := by
  have listed : l ∈ u.leases.filter (fun m => m.forbids a) := List.mem_filter.2 ⟨mem, forbids⟩
  rcases lowestLease_spec (u.leases.filter (fun m => m.forbids a)) with ⟨-, empty⟩ | ⟨m, hm, found, below⟩
  · rw [empty] at listed
    cases listed
  · obtain ⟨hm, hf⟩ := List.mem_filter.1 hm
    have same : m = l := (least m hm hf).resolve_left (Nat.not_lt.2 (below l listed))
    simp only [LeaseUnit.decide, found, same]

theorem LeaseUnit.decide_free {u : LeaseUnit} {a : Access} (free : ∀ l ∈ u.leases, l.forbids a = false) :
    u.decide a = if u.settlingRanges.any a.meets then none else some .admitted := by
  have empty : u.leases.filter (fun l => l.forbids a) = [] := by simpa using free
  simp only [LeaseUnit.decide, empty, lowestLease]

theorem LeaseUnit.decide_held {u : LeaseUnit} {a : Access} (free : ∀ l ∈ u.leases, l.forbids a = false)
    (settling : ∃ r ∈ u.settlingRanges, a.meets r = true) : u.decide a = none := by
  rw [LeaseUnit.decide_free free, if_pos (List.any_eq_true.2 settling)]

theorem LeaseUnit.decide_admits {u : LeaseUnit} {a : Access} (free : ∀ l ∈ u.leases, l.forbids a = false)
    (settling : ∀ r ∈ u.settlingRanges, a.meets r = false) : u.decide a = some .admitted := by
  rw [LeaseUnit.decide_free free, if_neg (by simpa using settling)]

/-! ## The delivery of a decision -/

theorem State.deliver_withdrawn {s : State} {r : Requester} (h : (s.mail.get r).withdrawal = true) (late : Bool)
    (d : Decision) : s.deliver late r d = s := if_pos h

section
variable {s : State} {q : Port} (h : (s.mail.get (.port q)).withdrawal = false)
include h

theorem State.deliver_port_late (d : Decision) :
    s.deliver true (.port q) d = s.modMail (.port q) (fun m => { m with decision := some d }) := by
  simp only [State.deliver, h, Bool.false_eq_true, if_true, if_false]

theorem State.deliver_port_admitted {o : PortOperation} (operation : (s.pu.get q).operation = some o) :
    s.deliver false (.port q) .admitted =
      (s.modPu q (fun u => { u with operation := some { o with admitted := true } })).modMail (.port q)
        (fun m => { m with turn := some o.turn }) := by
  simp only [State.deliver, h, Bool.false_eq_true, if_false, State.portDecision, operation]
  rfl

theorem State.deliver_port_refused {o : PortOperation} {x : Executing} (operation : (s.pu.get q).operation = some o)
    (executing : (s.pu.get q).executing = some x) (phase : x.phase = .access) (id : Nat) (holder : Port) :
    s.deliver false (.port q) (.refused id holder) =
      (s.answer q .leased [byte id, byte (portNumber holder)]).modPu q (fun u => { u with operation := none }) := by
  have access : s.phase q = some .access := by rw [State.phase, executing, Option.map_some, phase]
  simp only [State.deliver, h, Bool.false_eq_true, if_false, State.portDecision, operation, State.answerIn, access, if_true]
  rfl

end

section
variable {s : State} (h : (s.mail.get .engine).withdrawal = false)
include h

theorem State.deliver_engine_late (d : Decision) :
    s.deliver true .engine d = s.modEngine (fun e => { e with inbox := e.inbox ++ [.decided d] }) := by
  simp only [State.deliver, h, Bool.false_eq_true, if_true, if_false]

theorem State.deliver_engine_waits {x : Nat} {rest : List EngineMessage} (inbox : s.engine.inbox = .removed x :: rest)
    (d : Decision) : s.deliver false .engine d = s.modEngine (fun e => { e with inbox := e.inbox ++ [.decided d] }) := by
  simp only [State.deliver, h, Bool.false_eq_true, if_false, State.takeEngineDecision, State.modEngine_engine, inbox,
    List.cons_append]

theorem State.deliver_engine_now (inbox : s.engine.inbox = []) (d : Decision) :
    s.deliver false .engine d = s.engineDecision d := by
  have restored : s.modEngine (fun e => { e with inbox := [] }) = s := by
    rw [← inbox]
    rfl
  simp only [State.deliver, h, Bool.false_eq_true, if_false, State.takeEngineDecision, State.modEngine_engine, inbox,
    List.nil_append, State.modEngine_modEngine, restored]

end

section
variable {s : State} {ru : RunningJob} {j : Job} (running : s.engine.running = some ru)
  (found : s.engine.find ru.job = some j)
include running found

theorem State.engineDecision_admitted : s.engineDecision .admitted =
    (s.modEngine (fun e => { e with running := some { ru with inChunk := true } })).modMail .engine
      (fun m => { m with turn := some (j.turn ru.chunk) }) := by
  simp only [State.engineDecision, running, found]
  rfl

/-- The chunk is refused: the job waits for the lease's removal, its timer set where it has a limit. -/
def State.blocked (s : State) (j : Job) (id : Nat) (holder : Port) : State :=
  (s.modEngine (fun e => { e with running := none, jobs := e.jobs.map (fun k => if k.id = j.id then
    { k with state := .blocked id (if j.limit = 0 then none else some j.limit) } else k) })).offer j.port
    .jobBlocked ([byte j.id, byte id, byte (portNumber holder)] ++ fieldOf 3 j.done)

theorem State.engineDecision_refused (id : Nat) (holder : Port) :
    s.engineDecision (.refused id holder) = (s.blocked j id holder).selectJob := by
  have timer : (if 0 < j.limit then some j.limit else none) = if j.limit = 0 then none else some j.limit := by
    by_cases zero : j.limit = 0
    · simp [zero]
    · simp [zero, Nat.pos_of_ne_zero zero]
  simp only [State.engineDecision, running, found, State.blockJob, timer]
  rfl

end

/-! ## A port's access and a chunk, asked for and decided at once (R88, R132) -/

theorem State.admission_port {s : State} {p : Port} (decision : (s.mail.get (.port p)).decision = none) (late : Bool) :
    s.admission (.port p) late = s.takeAdmission (.port p) late := by
  simp only [State.admission, decision]

section
variable {s : State} {a : Access} (late : Bool)

theorem State.decideAdmission_refused {l : Lease} (mem : l ∈ s.leaseUnit.leases) (forbids : l.forbids a = true)
    (least : ∀ m ∈ s.leaseUnit.leases, m.forbids a = true → l.id < m.id ∨ m = l) :
    s.decideAdmission late a = s.deliver late a.requester (.refused l.id l.port) := by
  simp only [State.decideAdmission, LeaseUnit.decide_refused mem forbids least, State.concludeAdmission]

theorem State.retryOne_refused {l : Lease} (mem : l ∈ s.leaseUnit.leases) (forbids : l.forbids a = true)
    (least : ∀ m ∈ s.leaseUnit.leases, m.forbids a = true → l.id < m.id ∨ m = l) :
    State.retryOne late s a = (s.modLease (fun u => { u with
      held := u.held.filter (fun b => b.requester != a.requester) })).deliver late a.requester (.refused l.id l.port) := by
  simp only [State.retryOne, LeaseUnit.decide_refused mem forbids least, State.concludeAdmission]

variable (free : ∀ l ∈ s.leaseUnit.leases, l.forbids a = false)
include free

theorem State.decideAdmission_held (settling : ∃ r ∈ s.leaseUnit.settlingRanges, a.meets r = true) :
    s.decideAdmission late a = s.modLease (fun u => { u with held := u.held ++ [a] }) := by
  simp only [State.decideAdmission, LeaseUnit.decide_held free settling]

theorem State.retryOne_held (settling : ∃ r ∈ s.leaseUnit.settlingRanges, a.meets r = true) :
    State.retryOne late s a = s := by
  simp only [State.retryOne, LeaseUnit.decide_held free settling]

theorem State.decideAdmission_admits (settling : ∀ r ∈ s.leaseUnit.settlingRanges, a.meets r = false) :
    s.decideAdmission late a =
      (s.modLease (fun u => { u with claims := u.claims ++ [a] })).deliver late a.requester .admitted := by
  simp only [State.decideAdmission, LeaseUnit.decide_admits free settling, State.concludeAdmission]

theorem State.retryOne_admits (settling : ∀ r ∈ s.leaseUnit.settlingRanges, a.meets r = false) :
    State.retryOne late s a = (s.modLease (fun u => { u with
      held := u.held.filter (fun b => b.requester != a.requester), claims := u.claims ++ [a] })).deliver late a.requester
        .admitted := by
  simp only [State.retryOne, LeaseUnit.decide_admits free settling, State.concludeAdmission, State.modLease_modLease]

end

/-- Settles O32. -/
theorem portAdmissionIsDecided : Obligations.PortAdmissionIsDecided := by
  unfold Obligations.PortAdmissionIsDecided
  intro s p a x o mail quiet requester executing phase operation sends reserved
  have asked : s.admission (.port p) false =
      (s.modMail (.port p) (fun m => { m with request := none })).decideAdmission false a := by
    rw [State.admission_port (by rw [mail]), State.takeAdmission_request (by rw [mail]) (by rw [mail]) (by rw [mail]),
      State.expireLeases_quiet quiet]
  have open' : ((s.modMail (.port p) (fun m => { m with request := none })).mail.get (.port p)).withdrawal = false := by
    simp [mail]
  refine ⟨fun l mem forbids least => ⟨_, rfl, ?_⟩, fun free => ⟨fun settling => ?_, fun settling => ?_⟩⟩
  · rw [asked, State.decideAdmission_refused false (by exact mem) forbids (by exact least), requester,
      State.deliver_port_refused open' (by exact operation) (by exact executing) phase,
      State.answer_sends (by exact executing) _ _ (by exact sends) (by exact reserved)]
    simp [mail, Mail.empty]
  · refine congrArg Host.Outcome.next (asked.trans ?_)
    rw [State.decideAdmission_held false (by exact free) (by exact settling)]
    rfl
  · refine congrArg Host.Outcome.next (asked.trans ?_)
    rw [State.decideAdmission_admits false (by exact free) (by exact settling), requester,
      State.deliver_port_admitted (by exact open') (by exact operation)]
    simp [State.modMail, State.modPu, State.modLease, PerRequester.set_set]

/-- Settles O33. -/
theorem chunkAdmissionIsDecided : Obligations.ChunkAdmissionIsDecided := by
  unfold Obligations.ChunkAdmissionIsDecided
  intro s a r j mail quiet requester inbox running found
  have asked : s.admission .engine false =
      (s.modMail .engine (fun m => { m with request := none })).decideAdmission false a := by
    rw [State.admission_undecided (by rw [mail]) (by simp [inbox]),
      State.takeAdmission_request (by rw [mail]) (by rw [mail]) (by rw [mail]), State.expireLeases_quiet quiet]
  have open' : ((s.modMail .engine (fun m => { m with request := none })).mail.get .engine).withdrawal = false := by
    simp [mail]
  refine ⟨fun l mem forbids least => ?_, fun free => ⟨fun settling => ?_, fun settling => ?_⟩⟩
  · refine ⟨(s.modMail .engine (fun m => { m with request := none })).blocked j l.id l.port,
      congrArg Host.Outcome.next (asked.trans ?_), ?_⟩
    · rw [State.decideAdmission_refused false (by exact mem) forbids (by exact least), requester,
        State.deliver_engine_now open' (by exact inbox),
        State.engineDecision_refused (by exact running) (by exact found)]
    · simp [State.blocked, State.offer, mail, Mail.empty]
  · refine congrArg Host.Outcome.next (asked.trans ?_)
    rw [State.decideAdmission_held false (by exact free) (by exact settling)]
    rfl
  · refine congrArg Host.Outcome.next (asked.trans ?_)
    rw [State.decideAdmission_admits false (by exact free) (by exact settling), requester,
      State.deliver_engine_now (by exact open') (by exact inbox),
      State.engineDecision_admitted (by exact running) (by exact found)]
    simp [State.modMail, State.modEngine, State.modLease, PerRequester.set_set]

end Sys2Proof.Machine
end

section
/-! SUPPORT. The millisecond boundary (R5). -/

namespace Sys2Proof.Machine

/-! ## Where a block has no boundary outstanding -/

theorem State.leaseCatchUp_none {s : State} (due : s.time.leaseDue = false) : s.leaseCatchUp = s := by
  simp [State.leaseCatchUp, due]

theorem State.engineCatchUp_none {s : State} (due : s.time.engineDue = false) : s.engineCatchUp = s := by
  simp [State.engineCatchUp, due]

theorem State.catchUp_none {s : State} (lease : s.time.leaseDue = false) (engine : s.time.engineDue = false) :
    s.catchUp = s.expireLeases.expireJobs := by
  rw [State.catchUp, State.leaseCatchUp_none lease, State.engineCatchUp_none engine]

theorem State.catchUp_quiet {s : State} (quiet : s.Quiet) (lease : s.time.leaseDue = false)
    (engine : s.time.engineDue = false) : s.catchUp = s := by
  rw [State.catchUp_none lease engine, State.expireLeases_quiet quiet.1, State.expireJobs_quiet quiet.2]

/-- Both blocks caught up, catching up again changes nothing. -/
theorem State.catchUp_again {s : State} (quiet : s.catchUp.Quiet) : s.catchUp.catchUp = s.catchUp :=
  State.catchUp_quiet quiet (by rw [State.catchUp_time]) (by rw [State.catchUp_time])

theorem State.catchUp_leaseCatchUp (s : State) : s.leaseCatchUp.catchUp = s.catchUp := by
  rw [State.catchUp, State.leaseCatchUp_none (by rw [State.leaseCatchUp_time]), State.catchUp]

theorem State.catchUp_engineCatchUp {s : State} (due : s.time.leaseDue = false) : s.engineCatchUp.catchUp = s.catchUp := by
  rw [State.catchUp, State.leaseCatchUp_none (by rw [State.engineCatchUp_time, due]),
    State.engineCatchUp_none (by rw [State.engineCatchUp_time]), State.catchUp, State.leaseCatchUp_none due]

theorem State.catchUp_resetLine (s : State) : s.catchUp.resetLine = s.resetLine := by
  have lease : s.leaseCatchUp.resetLine = s.resetLine := by
    unfold State.leaseCatchUp
    split
    · exact (State.CoreKept.refl s).expireLeases.resetLine
    · rfl
  have engine : s.leaseCatchUp.engineCatchUp.resetLine = s.leaseCatchUp.resetLine := by
    unfold State.engineCatchUp
    split
    · exact (State.CoreKept.refl s.leaseCatchUp).expireJobs.resetLine
    · rfl
  exact ((State.CoreKept.refl s.leaseCatchUp.engineCatchUp).expireLeases.expireJobs.resetLine.trans engine).trans lease

/-! ## Taking the boundary -/

section
variable {s : State}

theorem State.exec_msBoundary (released : s.resetLine = .released) (b : BoundaryTaker) :
    exec (.msBoundary b) s = .next (s.boundary b) := by
  simp only [exec, execMsBoundary, released, if_true]

theorem State.markBoundary_quiet (quiet : s.Quiet) (lease : s.time.leaseDue = false) (engine : s.time.engineDue = false) :
    s.markBoundary = s.setTime { s.time with divider := 0 } := by
  rw [State.markBoundary, State.catchUp_quiet quiet lease engine]

theorem State.leaseBoundary_quiet (quiet : s.leaseUnit.due = false) : s.leaseBoundary = s.modLease LeaseUnit.lowerTimers := by
  rw [State.leaseBoundary, State.expireLeases_quiet quiet]

theorem State.engineBoundary_quiet (quiet : s.engine.due = false) :
    s.engineBoundary = s.modEngine JobEngine.lowerTimers := by
  rw [State.engineBoundary, State.expireJobs_quiet quiet]

/-- A boundary both blocks or a block that is not behind take, taken after catching up. -/
theorem State.boundary_catchUp (quiet : s.catchUp.Quiet) (b : BoundaryTaker)
    (lease : b = .leaseUnit → s.time.leaseDue = false) (engine : b = .jobEngine → s.time.engineDue = false) :
    s.boundary b = s.catchUp.boundary b := by
  have mark : s.catchUp.markBoundary = s.markBoundary := by
    rw [State.markBoundary, State.catchUp_again quiet, State.markBoundary]
  cases b with
  | both => simp only [State.boundary, mark]
  | leaseUnit => simp only [State.boundary, mark, lease rfl, State.catchUp_time, Bool.false_eq_true, if_false]
  | jobEngine => simp only [State.boundary, mark, engine rfl, State.catchUp_time, Bool.false_eq_true, if_false]

end

/-! ## Catching up leaves nothing due -/

theorem LeaseUnit.Fair.lowerTimers {u : LeaseUnit} (h : u.Fair) : u.lowerTimers.Fair := by
  have kept : ∀ w : Waiter, (if w.settling = none then { w with wait := w.wait - 1 } else w).request = w.request ∧
      (if w.settling = none then { w with wait := w.wait - 1 } else w).port = w.port ∧
      (if w.settling = none then { w with wait := w.wait - 1 } else w).tag = w.tag := fun w => by
    split <;> exact ⟨rfl, rfl, rfl⟩
  refine ⟨fun w hw => ?_, fun p => ?_⟩
  · obtain ⟨v, hv, rfl⟩ := List.mem_map.1 hw
    rw [(kept v).1]
    exact h.lives v hv
  · have tags := h.tags p
    rw [LeaseUnit.tagsOf_eq] at tags ⊢
    rw [LeaseUnit.lowerTimers, List.map_map]
    have same : (fun w : Waiter => (w.port, w.tag)) ∘
        (fun w => if w.settling = none then { w with wait := w.wait - 1 } else w) = fun w => (w.port, w.tag) :=
      funext (fun w => Prod.ext (kept w).2.1 (kept w).2.2)
    rwa [same]

theorem State.Becomes.engineOrderly {s t : State} (h : s.Becomes EngineAct t) (orderly : s.EngineOrderly) :
    t.EngineOrderly := by
  induction h with
  | stay => exact orderly
  | tail _ c ih =>
    rcases c with c | a
    · exact c.engineOrderly ih
    · exact a.engineOrderly ih

theorem State.catchUp_settled {s : State} (fair : s.leaseUnit.Fair) (orderly : s.EngineOrderly) : s.catchUp.Quiet := by
  have lease : s.leaseCatchUp.leaseUnit.Fair := by
    unfold State.leaseCatchUp
    split
    · exact (State.expireLeases_expired fair).fair.lowerTimers
    · exact fair
  have engine : s.leaseCatchUp.engineCatchUp.leaseUnit = s.leaseCatchUp.leaseUnit := by
    unfold State.engineCatchUp
    split
    · exact s.leaseCatchUp.expireJobs_leaseUnit
    · rfl
  have ids := ((State.Becomes.refl s).leaseCatchUp.engineCatchUp.expireLeases.engineOrderly orderly).ids
  refine ⟨?_, State.expireJobs_due ids⟩
  rw [State.catchUp, State.expireJobs_leaseUnit]
  exact State.expireLeases_due (engine ▸ lease)

/-- Settles O51. -/
theorem boundaryLowersTheTimers : Obligations.BoundaryLowersTheTimers := by
  unfold Obligations.BoundaryLowersTheTimers
  refine ⟨fun s b held => ?_, fun s released quiet lease engine => ?_, fun s released due => ?_, fun s released due => ?_,
    fun s b released quiet _ _ lease engine => ?_, fun s t released => ⟨State.catchUp_none, fun due taken => ?_,
      fun lease due taken => ?_⟩, fun s timers inFlight orderly => ⟨State.catchUp_settled (State.fair_of_orderly timers inFlight)
      orderly, ?_⟩, fun u => ?_, fun e => ?_⟩
  · simp only [exec, execMsBoundary, if_neg held]
  · have mark := State.markBoundary_quiet quiet lease engine
    obtain ⟨leaseQuiet, engineQuiet⟩ := quiet
    simp only [State.exec_msBoundary released, State.boundary, mark, lease, engine, Bool.false_eq_true, if_false]
    rw [State.leaseBoundary_quiet (by exact leaseQuiet), State.leaseBoundary_quiet (by exact leaseQuiet),
      State.engineBoundary_quiet (by exact engineQuiet), State.engineBoundary_quiet (by exact engineQuiet)]
    exact ⟨rfl, rfl, rfl⟩
  · simp only [State.exec_msBoundary released, State.boundary, due, if_true, State.leaseCatchUp]
    rfl
  · simp only [State.exec_msBoundary released, State.boundary, due, if_true, State.engineCatchUp]
    rfl
  · rw [State.exec_msBoundary released, State.exec_msBoundary (s.catchUp_resetLine.trans released),
      State.boundary_catchUp quiet b lease engine]
  · rw [State.exec_msBoundary released] at taken
    simp only [State.boundary, due, if_true] at taken
    rw [← Host.Outcome.next.inj taken, State.catchUp_leaseCatchUp]
  · rw [State.exec_msBoundary released] at taken
    simp only [State.boundary, due, if_true] at taken
    rw [← Host.Outcome.next.inj taken, State.catchUp_engineCatchUp lease]
  · rw [State.catchUp_time]
    exact ⟨rfl, rfl, rfl⟩
  · have wait : ∀ w : Waiter, (if w.settling = none then { w with wait := w.wait - 1 } else w) =
        { w with wait := if w.settling = none then w.wait - 1 else w.wait } := fun w => by split <;> rfl
    simp only [LeaseUnit.lowerTimers, wait]
  · unfold JobEngine.lowerTimers
    congr 1
    refine List.map_congr_left (fun j _ => ?_)
    unfold Job.lowerTimer
    split <;> simp_all

end Sys2Proof.Machine
end

section
/-! SUPPORT. What each command leaves as it was: the straps and the reset line, the queue of commands, the time base, the
arbiter, the store, the receivers and the port units' sessions and windows. -/

namespace Sys2Proof.Machine

/-! ## The frame of a command -/

/-- What of port `q`'s unit the command leaves: the window table, the notice mask and the label, and the session. -/
structure PortUnit.Framed (c : Instr) (q : Port) (u v : PortUnit) : Prop where
  windows : c ≠ .winOpen q → c ≠ .winClose q → c ≠ .close q → c ≠ .breakReport q → c ≠ .dropOrder q →
    v.windows = u.windows
  names : c ≠ .openSession q → c ≠ .sessionDown q → v.mask = u.mask ∧ v.label = u.label
  session : c ≠ .openSession q → c ≠ .sessionDown q → c ≠ .close q → c ≠ .breakReport q → c ≠ .dropOrder q →
    v.session = u.session ∧ v.cause = u.cause

/-- What of the state the command leaves. -/
structure State.Framed (c : Instr) (s t : State) : Prop where
  straps : t.straps = s.straps
  resetLine : t.resetLine = s.resetLine
  epoch : t.epoch = s.epoch
  resets : t.resets = s.resets
  pending : t.pending = s.pending
  time : (∀ b, c ≠ .msBoundary b) → t.time = s.time
  arbiter : c ≠ .turnEnd → (∀ r, c ≠ .turnRequest r) → t.arbiter = s.arbiter
  store : c ≠ .turnEnd → t.store = s.store
  lrx : ∀ q, linePort c ≠ some q → t.lrx.get q = s.lrx.get q
  unit : ∀ q, PortUnit.Framed c q (s.pu.get q) (t.pu.get q)

section
variable {c : Instr}

theorem PortUnit.Framed.of_kept {q : Port} {u v : PortUnit} (windows : v.windows = u.windows) (mask : v.mask = u.mask)
    (label : v.label = u.label) (session : v.session = u.session) (cause : v.cause = u.cause) : PortUnit.Framed c q u v :=
  ⟨fun _ _ _ _ _ => windows, fun _ _ => ⟨mask, label⟩, fun _ _ _ _ _ => ⟨session, cause⟩⟩

theorem PortUnit.Framed.refl (q : Port) (u : PortUnit) : PortUnit.Framed c q u u := .of_kept rfl rfl rfl rfl rfl

theorem PortUnit.Framed.trans {q : Port} {u v w : PortUnit} (h : PortUnit.Framed c q u v) (k : PortUnit.Framed c q v w) :
    PortUnit.Framed c q u w := by
  refine ⟨fun a b d e f => (k.windows a b d e f).trans (h.windows a b d e f), fun a b => ?_, fun a b d e f => ?_⟩
  · obtain ⟨mask, label⟩ := h.names a b
    obtain ⟨mask', label'⟩ := k.names a b
    exact ⟨mask'.trans mask, label'.trans label⟩
  · obtain ⟨session, cause⟩ := h.session a b d e f
    obtain ⟨session', cause'⟩ := k.session a b d e f
    exact ⟨session'.trans session, cause'.trans cause⟩

theorem State.Framed.refl (s : State) : s.Framed c s :=
  ⟨rfl, rfl, rfl, rfl, rfl, fun _ => rfl, fun _ _ => rfl, fun _ => rfl, fun _ _ => rfl, fun _ => .refl _ _⟩
theorem State.Framed.core {s t u : State} (h : s.Framed c t) (k : t.CoreKept u) : s.Framed c u := by
  refine ⟨k.straps.trans h.straps, k.resetLine.trans h.resetLine, k.epoch.trans h.epoch, k.resets.trans h.resets,
    k.pending.trans h.pending, fun a => k.time.trans (h.time a), fun a b => k.arbiter.trans (h.arbiter a b),
    fun a => k.store.trans (h.store a), fun q a => ?_, fun q => (h.unit q).trans ?_⟩
  · rw [k.lrx]
    exact h.lrx q a
  · obtain ⟨session, cause, mask, label, windows, -⟩ := k.unit q
    exact .of_kept windows mask label session cause

theorem State.CoreKept.framed {s t : State} (k : s.CoreKept t) : s.Framed c t := (State.Framed.refl s).core k

theorem State.Framed.modLrx {s t : State} (h : s.Framed c t) {p : Port} (own : linePort c = some p)
    (f : Receiver → Receiver) : s.Framed c (t.modLrx p f) :=
  { h with lrx := fun q a => (PerPort.get_set_ne _ _ (fun e => a (own.trans (congrArg some e.symm)))).trans (h.lrx q a) }

theorem State.Framed.modLtx {s t : State} (h : s.Framed c t) (p : Port) (f : Transmitter → Transmitter) :
    s.Framed c (t.modLtx p f) := h.core ((State.CoreKept.refl t).modLtx p f)

theorem State.Framed.modPu {s t : State} (h : s.Framed c t) (p : Port) (f : PortUnit → PortUnit)
    (hf : ∀ u, PortUnit.Framed c p u (f u)) : s.Framed c (t.modPu p f) := by
  refine { h with unit := fun q => (h.unit q).trans ?_ }
  by_cases e : q = p
  · subst e
    rw [State.modPu_pu, PerPort.get_set_self]
    exact hf _
  · rw [State.modPu_pu, PerPort.get_set_ne _ _ e]
    exact .refl q _

/-- A field of the port unit that is none of these. -/
theorem State.Framed.modOther {s t : State} (h : s.Framed c t) (p : Port) (f : PortUnit → PortUnit)
    (windows : ∀ u, (f u).windows = u.windows := by exact fun _ => rfl)
    (mask : ∀ u, (f u).mask = u.mask := by exact fun _ => rfl)
    (label : ∀ u, (f u).label = u.label := by exact fun _ => rfl)
    (session : ∀ u, (f u).session = u.session := by exact fun _ => rfl)
    (cause : ∀ u, (f u).cause = u.cause := by exact fun _ => rfl) : s.Framed c (t.modPu p f) :=
  h.modPu p f (fun u => .of_kept (windows u) (mask u) (label u) (session u) (cause u))

/-! ## Requests and sessions -/

theorem State.Framed.emptySlot {s t : State} (h : s.Framed c t) {p : Port} (own : linePort c = some p) :
    s.Framed c (t.emptySlot p) := h.modLrx own _

theorem State.Framed.beginRequest {s t : State} (h : s.Framed c t) {p : Port} (own : linePort c = some p) (k : Kind)
    (tag : Byte) : s.Framed c (t.beginRequest p k tag) := ((h.emptySlot own).modLtx p _).modOther p _

theorem State.takeRequest_framed (s : State) {p : Port} (own : linePort c = some p) (k : Kind)
    (body : Frame → State → State) (decision : ∀ f t, s.Framed c t → s.Framed c (body f t)) :
    s.Framed c (s.takeRequest p k body) := by
  have begun : ∀ tag, s.Framed c (s.beginRequest p k tag) := (State.Framed.refl s).beginRequest own k
  have emptied : s.Framed c (s.emptySlot p) := (State.Framed.refl s).emptySlot own
  have refused : ∀ tag r, s.Framed c ((s.beginRequest p k tag).answer p r []) :=
    fun tag r => (begun tag).core ((State.CoreKept.refl _).answer ..)
  have served : ∀ kind tag r, s.Framed c ((s.emptySlot p).answerDirect p kind tag r []) :=
    fun kind tag r => emptied.core ((State.CoreKept.refl _).answerDirect ..)
  unfold State.takeRequest
  split
  · exact .refl s
  · rename_i f _
    split
    · split
      · unfold State.takeUp
        dsimp only
        split
        · exact refused _ _
        · split
          · exact refused _ _
          · split
            · exact refused _ _
            · split
              · exact refused _ _
              · exact decision f _ (begun f.tag)
      · unfold State.takeDown
        dsimp only
        split
        · exact served _ _ _
        · split
          · exact served _ _ _
          · exact decision f _ emptied
      · exact .refl s
    · exact .refl s

theorem State.takeRequest_framed_core (s : State) {p : Port} (own : linePort c = some p) (k : Kind)
    (body : Frame → State → State) (decision : ∀ f (t : State), t.CoreKept (body f t)) :
    s.Framed c (s.takeRequest p k body) := s.takeRequest_framed own k body (fun f t h => h.core (decision f t))

theorem State.Framed.beginTeardown {s t : State} (h : s.Framed c t) {p : Port}
    (ends : c = .close p ∨ c = .breakReport p ∨ c = .dropOrder p) (x : Cause) : s.Framed c (t.beginTeardown p x) := by
  have own : linePort c = some p := by rcases ends with rfl | rfl | rfl <;> rfl
  refine ((h.modLrx own _).modPu p (fun u => u.close x)
    (fun u => ⟨fun _ _ a b d => ?_, fun _ _ => ⟨rfl, rfl⟩, fun _ _ a b d => ?_⟩)).core
    ((State.CoreKept.refl _).reachExecuting p)
  all_goals exact (ends.elim a (fun e => e.elim b d)).elim

theorem State.Framed.openPort {s t : State} {p : Port} (h : s.Framed (.openSession p) t) (f : Frame) (m : NoticeMask) :
    s.Framed (.openSession p) (t.openPort p f m) :=
  (((h.modLrx rfl _).modLtx p _).modPu p (fun u => u.open m (f.payload.drop 3)) (fun _ =>
    ⟨fun _ _ _ _ _ => rfl, fun a _ => (a rfl).elim, fun a _ _ _ _ => (a rfl).elim⟩)).core
    ((State.CoreKept.refl _).answerDirect ..)

theorem State.Framed.decideOpen {s t : State} {p : Port} (h : s.Framed (.openSession p) t) (f : Frame) :
    s.Framed (.openSession p) (t.decideOpen p f) := by
  unfold State.decideOpen
  split
  · exact h.core ((State.CoreKept.refl _).answerDirect ..)
  · split
    · exact h.core ((State.CoreKept.refl _).answerDirect ..)
    · exact h.openPort f _

theorem State.Framed.finishTeardown {s t : State} {p : Port} (h : s.Framed (.sessionDown p) t) :
    s.Framed (.sessionDown p) (t.finishTeardown p) :=
  ((h.core ((State.CoreKept.refl _).answer ..)).modPu p PortUnit.toDown (fun _ =>
    ⟨fun _ _ _ _ _ => rfl, fun _ a => (a rfl).elim, fun _ a _ _ _ => (a rfl).elim⟩)).modLtx p _

/-- A window opened or closed, of WIN-OPEN and WIN-CLOSE. -/
theorem State.Framed.setWindow {s t : State} (h : s.Framed c t) {p : Port} (own : c = .winOpen p ∨ c = .winClose p)
    (i : Nat) (w : Option Window) : s.Framed c (t.modPu p (fun u => u.setWindow i w)) :=
  h.modPu p (fun u => u.setWindow i w)
    (fun _ => ⟨fun a b _ _ _ => (own.elim a b).elim, fun _ _ => ⟨rfl, rfl⟩, fun _ _ _ _ _ => ⟨rfl, rfl⟩⟩)

theorem State.Framed.decideWinOpen {s t : State} {p : Port} (h : s.Framed (.winOpen p) t) (f : Frame) :
    s.Framed (.winOpen p) (t.decideWinOpen p f) := by
  have refused : ∀ r, s.Framed (.winOpen p) (t.answer p r []) := fun r => h.core ((State.CoreKept.refl _).answer ..)
  unfold State.decideWinOpen
  dsimp only
  split
  · exact refused _
  · split
    · exact refused _
    · split
      · exact refused _
      · split
        · exact refused _
        · split
          · exact refused _
          · split
            · exact refused _
            · exact (h.setWindow (.inl rfl) _ _).core ((State.CoreKept.refl _).answer ..)

theorem State.Framed.decideWinClose {s t : State} {p : Port} (h : s.Framed (.winClose p) t) (f : Frame) :
    s.Framed (.winClose p) (t.decideWinClose p f) := by
  unfold State.decideWinClose
  dsimp only
  split
  · exact h.core ((State.CoreKept.refl _).answer ..)
  · split
    · exact h.core ((State.CoreKept.refl _).answer ..)
    · exact (h.setWindow (.inr rfl) _ _).core ((State.CoreKept.refl _).answer ..)

theorem State.Framed.readOn {s t : State} (h : s.Framed c t) (p : Port) (late : Bool) (g : Gather)
    (readings : List Reading) : s.Framed c (t.readOn p late g readings) := by
  have read : ∀ rs, s.Framed c (State.takeReadings rs t g.fields).1 :=
    fun rs => h.core ((State.CoreKept.refl _).takeReadings rs _)
  unfold State.readOn
  dsimp only
  split
  · exact (read _).modOther p _
  · have done := (read (readings.drop g.taken)).modOther p (fun u => { u with gather := none })
    split
    · exact done.core ((State.CoreKept.refl _).answerIn ..)
    · exact done.core ((State.CoreKept.refl _).answerDirect ..)
    · exact done.core ((State.CoreKept.refl _).answerDirect ..)

theorem State.status_framed (s : State) {p : Port} (own : linePort c = some p) (k : Kind) (late : Bool)
    (readings : List Reading) : s.Framed c (s.status p k late readings) := by
  unfold State.status
  split
  · split
    · exact (State.Framed.refl s).readOn p late _ readings
    · exact .refl s
  · exact s.takeRequest_framed own k _ (fun _ t h => h.readOn p late _ readings)

theorem State.Framed.takeBreak {s t : State} {p : Port} (h : s.Framed (.breakReport p) t) :
    s.Framed (.breakReport p) (t.takeBreak p) := by
  have flushed : s.Framed (.breakReport p) (t.orderFlush p) := (h.modLtx p _).modOther p _
  unfold State.takeBreak
  split
  · exact flushed.beginTeardown (.inr (.inl rfl)) _
  · exact flushed.modPu p (fun u => { u with cause := some .brk })
      (fun _ => ⟨fun _ _ _ _ _ => rfl, fun _ _ => ⟨rfl, rfl⟩, fun _ _ _ a _ => (a rfl).elim⟩)
  · exact flushed

theorem State.Framed.takeDropOrder {s t : State} {p : Port} (h : s.Framed (.dropOrder p) t) (waiting : Bool) :
    s.Framed (.dropOrder p) (t.takeDropOrder p waiting) := by
  unfold State.takeDropOrder
  split
  · split
    · exact (h.core ((State.CoreKept.refl _).offer ..)).beginTeardown (.inr (.inr rfl)) _
    · exact h.beginTeardown (.inr (.inr rfl)) _
  · exact h
  · exact h.modOther p _

theorem State.Framed.dropTarget {s t : State} (h : s.Framed c t) (p : Port) (late : Bool) (q : Port) :
    s.Framed c (t.dropTarget p late q) := by
  have cleared : s.Framed c (t.clearDownReports q) := h.modOther q _
  unfold State.dropTarget
  dsimp only
  split
  · exact cleared.core ((State.CoreKept.refl _).answer ..)
  · exact cleared.core ((State.CoreKept.refl _).setPhase ..)
  · split
    · exact (cleared.modOther q _).core ((State.CoreKept.refl _).setPhase ..)
    · exact ((cleared.core ((State.CoreKept.refl _).offer ..)).modOther q _).core ((State.CoreKept.refl _).setPhase ..)

theorem State.Framed.modSteps {s t : State} (h : s.Framed c t) (p : Port) (f : StepsDue → StepsDue) :
    s.Framed c (t.modSteps p f) := h.modOther p _

theorem State.line_framed (s : State) {p : Port} (own : linePort c = some p) (levels : List Bool) :
    s.Framed c (s.line p levels) := by
  have kept := s.line_kept p levels
  have own' : ∀ q, linePort c ≠ some q → q ≠ p := fun q a e => a (own.trans (congrArg some e.symm))
  refine ⟨kept.straps, kept.resetLine, kept.epoch, kept.resets, kept.pending, fun _ => kept.time, fun _ _ => kept.arbiter,
    fun _ => kept.store, fun q a => kept.lrx q (own' q a), fun q => ?_⟩
  by_cases e : q = p
  · subst e
    obtain ⟨n, unit⟩ := kept.unit
    rw [unit]
    exact .of_kept rfl rfl rfl rfl rfl
  · rw [kept.others q e]
    exact .refl q _

end

/-! ## The time base -/

/-- What the blocks' catching up leaves is of no command: here for the boundary. -/
theorem State.Framed.setTime {b : BoundaryTaker} {s t : State} (h : s.Framed (.msBoundary b) t) (x : TimeBase) :
    s.Framed (.msBoundary b) (t.setTime x) := { h with time := fun a => (a b rfl).elim }

section
variable {b : BoundaryTaker} {s t : State} (h : s.Framed (.msBoundary b) t)
include h

theorem State.Framed.leaseBoundary : s.Framed (.msBoundary b) t.leaseBoundary :=
  h.core ((State.CoreKept.refl t).expireLeases.modLease _)

theorem State.Framed.engineBoundary : s.Framed (.msBoundary b) t.engineBoundary :=
  h.core ((State.CoreKept.refl t).expireJobs.modEngine _)

theorem State.Framed.leaseCatchUp : s.Framed (.msBoundary b) t.leaseCatchUp := by
  unfold State.leaseCatchUp
  split
  · exact h.leaseBoundary.setTime _
  · exact h

theorem State.Framed.engineCatchUp : s.Framed (.msBoundary b) t.engineCatchUp := by
  unfold State.engineCatchUp
  split
  · exact h.engineBoundary.setTime _
  · exact h

theorem State.Framed.catchUp : s.Framed (.msBoundary b) t.catchUp :=
  h.leaseCatchUp.engineCatchUp.core (State.CoreKept.refl _).expireLeases.expireJobs

theorem State.Framed.boundary (x : BoundaryTaker) : s.Framed (.msBoundary b) (t.boundary x) := by
  have mark : s.Framed (.msBoundary b) t.markBoundary := h.catchUp.setTime _
  unfold State.boundary
  cases x with
  | both => exact mark.leaseBoundary.engineBoundary
  | leaseUnit =>
    dsimp only
    split
    · exact h.leaseCatchUp
    · exact (mark.setTime _).leaseBoundary
  | jobEngine =>
    dsimp only
    split
    · exact h.engineCatchUp
    · exact (mark.setTime _).engineBoundary

end

theorem State.catchUp_pending (s : State) : s.catchUp.pending = s.pending :=
  ((State.Framed.refl s).catchUp (b := .both)).pending

/-! ## Turns -/

theorem exec_turnEnd_idle {s : State} (h : s.arbiter.current = none) : exec .turnEnd s = .next s := by
  simp only [exec, execTurnEnd, h]

theorem exec_turnEnd {s : State} {r : Requester} {x : Turn} (h : s.arbiter.current = some (r, x)) :
    exec .turnEnd s = if x.inStore then .next (s.endTurn r x) else .fault .noStoreByte := by
  simp only [exec, execTurnEnd, h]

/-- A turn's end writes the turn's bytes, passes the grant on and reports to the requester. -/
theorem State.endTurn_kept (s : State) (r : Requester) (x : Turn) :
    ((s.writeTurn x).setArbiter s.arbiter.selectNext).CoreKept (s.endTurn r x) := by
  unfold State.endTurn
  cases r with
  | port p => exact (State.CoreKept.refl _).portTurnEnd p _
  | engine => exact (State.CoreKept.refl _).chunkEnd _

theorem State.endTurn_framed (s : State) (r : Requester) (x : Turn) : s.Framed .turnEnd (s.endTurn r x) := by
  have o := State.Framed.refl (c := .turnEnd) s
  have written : s.Framed .turnEnd ((s.writeTurn x).setArbiter s.arbiter.selectNext) :=
    { o with arbiter := fun a _ => (a rfl).elim, store := fun a => (a rfl).elim }
  exact written.core (s.endTurn_kept r x)

/-! ## Every command -/

theorem State.Framed.next {c : Instr} {s t u : State} (k : s.Framed c t)
    (h : (.next t : Host.Outcome State Fault Refusal) = .next u) : s.Framed c u := by
  obtain rfl := Host.Outcome.next.inj h
  exact k

/-- What the command leaves, whatever it does. -/
theorem exec_framed {c : Instr} {s t : State} (reset : ofReset c = false) (h : exec c s = .next t) : s.Framed c t := by
  have r := State.CoreKept.refl s
  have o := State.Framed.refl (c := c) s
  cases c with
  | openSession p => exact .next (s.takeRequest_framed rfl _ _ (fun f _ h => h.decideOpen f)) h
  | close p =>
    exact .next (s.takeRequest_framed rfl _ _ (fun _ _ h =>
      (h.core ((State.CoreKept.refl _).setPhase ..)).beginTeardown (.inl rfl) _)) h
  | portStatus p late => exact .next (s.status_framed rfl _ late _) h
  | devStatus p late => exact .next (s.status_framed rfl _ late _) h
  | winOpen p => exact .next (s.takeRequest_framed rfl _ _ (fun f _ h => h.decideWinOpen f)) h
  | winClose p => exact .next (s.takeRequest_framed rfl _ _ (fun f _ h => h.decideWinClose f)) h
  | winList p => exact .next (s.takeRequest_framed_core rfl _ _ (fun _ u => (State.CoreKept.refl u).answer ..)) h
  | read p => exact .next (s.takeRequest_framed_core rfl _ _ (fun _ u => (State.CoreKept.refl u).decideRead ..)) h
  | write p => exact .next (s.takeRequest_framed_core rfl _ _ (fun _ u => (State.CoreKept.refl u).decideWrite ..)) h
  | exchangeIf p =>
    exact .next (s.takeRequest_framed_core rfl _ _ (fun _ u => (State.CoreKept.refl u).decideExchangeIf ..)) h
  | lease p late =>
    refine .next ?_ h
    split
    · exact (r.atLeaseUnit _ (fun _ hu => hu.decideLease ..)).framed
    · exact s.takeRequest_framed_core rfl _ _ (fun _ u => (State.CoreKept.refl u).checkLease ..)
  | renew p late =>
    refine .next ?_ h
    split
    · exact (r.atLeaseUnit _ (fun _ hu => hu.decideRenew ..)).framed
    · refine s.takeRequest_framed_core rfl _ _ (fun _ u => ?_)
      dsimp only
      split
      · exact (State.CoreKept.refl u).answer ..
      · exact (State.CoreKept.refl u).handOver _ _ _ _ (fun _ hv => hv.atLeaseUnit _ (fun _ hw => hw.decideRenew ..))
  | release p late =>
    refine .next ?_ h
    split
    · exact (r.atLeaseUnit _ (fun _ hu => hu.decideRelease ..)).framed
    · refine s.takeRequest_framed_core rfl _ _ (fun _ u => ?_)
      dsimp only
      split
      · exact (State.CoreKept.refl u).answer ..
      · exact (State.CoreKept.refl u).handOver _ _ _ _ (fun _ hv => hv.atLeaseUnit _ (fun _ hw => hw.decideRelease ..))
  | withdraw p late =>
    refine .next ?_ h
    split
    · exact (r.atLeaseUnit _ (fun _ hu => hu.decideWithdraw ..)).framed
    · exact s.takeRequest_framed_core rfl _ _ (fun _ u =>
        (State.CoreKept.refl u).handOver _ _ _ _ (fun _ hv => hv.atLeaseUnit _ (fun _ hw => hw.decideWithdraw ..)))
  | leaseList p late =>
    refine .next ?_ h
    split
    · exact (r.atLeaseUnit _ (fun _ hu => hu.answer ..)).framed
    · exact s.takeRequest_framed_core rfl _ _ (fun _ u =>
        (State.CoreKept.refl u).handOver _ _ _ _ (fun _ hv => hv.atLeaseUnit _ (fun _ hw => hw.answer ..)))
  | jobCopy p late =>
    refine .next ?_ h
    split
    · exact (r.atEngine _ (fun _ hu => hu.submit ..)).framed
    · exact s.takeRequest_framed_core rfl _ _ (fun _ u => (State.CoreKept.refl u).checkCopy ..)
  | jobFill p late =>
    refine .next ?_ h
    split
    · exact (r.atEngine _ (fun _ hu => hu.submit ..)).framed
    · exact s.takeRequest_framed_core rfl _ _ (fun _ u => (State.CoreKept.refl u).checkFill ..)
  | jobSum p late =>
    refine .next ?_ h
    split
    · exact (r.atEngine _ (fun _ hu => hu.submit ..)).framed
    · exact s.takeRequest_framed_core rfl _ _ (fun _ u => (State.CoreKept.refl u).checkSum ..)
  | jobPause p late =>
    refine .next ?_ h
    split
    · exact (r.atEngine _ (fun _ hu => hu.decidePause ..)).framed
    · exact s.takeRequest_framed_core rfl _ _ (fun _ u =>
        (State.CoreKept.refl u).control _ _ _ _ _ (fun _ _ hu => hu.atEngine _ (fun _ hv => hv.decidePause ..)))
  | jobResume p late =>
    refine .next ?_ h
    split
    · exact (r.atEngine _ (fun _ hu => hu.decideResume ..)).framed
    · exact s.takeRequest_framed_core rfl _ _ (fun _ u =>
        (State.CoreKept.refl u).control _ _ _ _ _ (fun _ _ hu => hu.atEngine _ (fun _ hv => hv.decideResume ..)))
  | jobCancel p late =>
    refine .next ?_ h
    split
    · exact (r.atEngine _ (fun _ hu => hu.decideCancel ..)).framed
    · exact s.takeRequest_framed_core rfl _ _ (fun _ u =>
        (State.CoreKept.refl u).control _ _ _ _ _ (fun _ _ hu => hu.atEngine _ (fun _ hv => hv.decideCancel ..)))
  | jobQuery p late =>
    refine .next ?_ h
    split
    · exact (r.atEngine _ (fun _ hu => hu.decideQuery ..)).framed
    · exact s.takeRequest_framed_core rfl _ _ (fun _ u =>
        (State.CoreKept.refl u).control _ _ _ _ _ (fun _ _ hu => hu.atEngine _ (fun _ hv => hv.decideQuery ..)))
  | forceCancel p late =>
    refine .next ?_ h
    split
    · exact (r.atEngine _ (fun _ hu => hu.decideForceCancel ..)).framed
    · exact s.takeRequest_framed_core rfl _ _ (fun _ u =>
        (State.CoreKept.refl u).control _ _ _ _ _ (fun _ _ hu => hu.atEngine _ (fun _ hv => hv.decideForceCancel ..)))
  | forceRelease p late =>
    refine .next ?_ h
    split
    · exact (r.atLeaseUnit _ (fun _ hu => hu.decideForceRelease ..)).framed
    · exact s.takeRequest_framed_core rfl _ _ (fun _ u => (State.CoreKept.refl u).control _ _ _ _ _
        (fun _ _ hu => hu.atLeaseUnit _ (fun _ hv => hv.decideForceRelease ..)))
  | portDrop p late =>
    refine .next (s.takeRequest_framed rfl _ _ (fun f u hu => ?_)) h
    split
    · exact hu.core ((State.CoreKept.refl u).answer ..)
    · exact hu.dropTarget p late _
  | unknownKind p =>
    refine .next ?_ h
    split
    · exact o
    · split
      · exact o
      · exact (o.emptySlot rfl).core ((State.CoreKept.refl _).answerDirect ..)
  | frameComplete p idle char => exact .next (s.line_framed rfl _) h
  | lengthDiscard p idle char => exact .next (s.line_framed rfl _) h
  | cutDiscard p idle char => exact .next (s.line_framed rfl _) h
  | framingDiscard p idle char => exact .next (s.line_framed rfl _) h
  | assemblyBegins p idle char => exact .next (s.line_framed rfl _) h
  | characterAppended p idle char => exact .next (s.line_framed rfl _) h
  | lineBreak p bits => exact .next (s.line_framed rfl _) h
  | breakEnd p bits => exact .next (s.line_framed rfl _) h
  | breakReport p =>
    refine .next ?_ h
    split
    · exact o
    · exact (o.modOther p _).takeBreak
  | dropOrder p =>
    refine .next ?_ h
    split
    · exact o
    · split
      · exact o
      · exact (o.modOther p _).takeDropOrder _
  | teardownWaiterStep p late =>
    refine .next ?_ h
    split
    · exact ((o.core r.expireLeases).modSteps p _).core ((State.CoreKept.refl _).waiterStep ..)
    · exact o
  | teardownLeaseStep p =>
    refine .next ?_ h
    split
    · exact ((o.core r.expireLeases).modSteps p _).core ((State.CoreKept.refl _).leaseStep ..)
    · exact o
  | teardownJobStep p =>
    refine .next ?_ h
    split
    · exact ((o.core r.expireJobs).modSteps p _).core ((State.CoreKept.refl _).jobStep ..)
    · exact o
  | teardownHistoryStep p =>
    refine .next ?_ h
    split
    · exact (o.modSteps p _).core ((State.CoreKept.refl _).modEngine _)
    · exact o
  | sessionDown p =>
    refine .next ?_ h
    split
    · exact o.finishTeardown
    · exact o
  | downReport p =>
    refine .next ?_ h
    split
    · exact o
    · exact (o.modOther p _).core ((State.CoreKept.refl _).answerIn ..)
  | msBoundary b =>
    refine .next ?_ h
    split
    · exact o.boundary b
    · exact o
  | leaseLapse id => exact .next (r.takeLapse id).framed h
  | waitExpiry p tag => exact .next (r.takeWaitExpiry p tag).framed h
  | blockLimitExpiry id => exact .next (r.takeBlockLimit id).framed h
  | admissionRequest q late => exact .next (r.admission q late).framed h
  | admissionWithdrawal q late =>
    refine .next ?_ h
    split
    · exact (r.atLeaseUnit _ (fun _ hu => hu.takeWithdrawal q late)).framed
    · exact o
  | claimEnd q late =>
    refine .next ?_ h
    split
    · exact (r.atLeaseUnit _ (fun _ hu => (hu.modMail _ _).endClaim ..)).framed
    · exact o
  | turnRequest q =>
    refine .next ?_ h
    split
    · exact o
    · exact { o with arbiter := fun _ a => (a q rfl).elim }
  | turnEnd =>
    cases current : s.arbiter.current with
    | none => exact .next o ((exec_turnEnd_idle current).symm.trans h)
    | some x =>
      rw [exec_turnEnd current] at h
      split at h
      · exact .next (s.endTurn_framed _ _) h
      · cases h
  | leaseRemovalReport =>
    refine .next ?_ h
    split
    · exact (r.atEngine _ (fun _ hu => (hu.modEngine _).selectJob)).framed
    · exact o
  | frameSent p => exact .next (o.modLtx p _) h
  | powerOn => cases reset
  | resetAssert lowCycles => cases reset
  | resetRelease rate supv rx => cases reset

/-- The commands of reset leave the queue of commands. -/
theorem exec_reset_pending {c : Instr} {s t : State} (reset : ofReset c = true) (h : exec c s = .next t) :
    t.pending = s.pending := by
  cases c with
  | powerOn =>
    obtain rfl := Host.Outcome.next.inj h
    rfl
  | resetAssert lowCycles =>
    obtain rfl := Host.Outcome.next.inj h
    split <;> rfl
  | resetRelease rate supv rx =>
    obtain rfl := Host.Outcome.next.inj h
    split <;> rfl
  | _ => cases reset

/-- Settles O3. -/
theorem execLeavesTheCommandQueue : Obligations.ExecLeavesTheCommandQueue := by
  unfold Obligations.ExecLeavesTheCommandQueue
  intro c s t h
  by_cases reset : ofReset c = true
  · exact exec_reset_pending reset h
  · exact (exec_framed (Bool.eq_false_iff.2 reset) h).pending

/-! ## The bytes of the store -/

theorem State.storeByte_congr {s t : State} (store : t.store = s.store) (epoch : t.epoch = s.epoch) (a : Nat) :
    t.storeByte a = s.storeByte a := by
  simp only [State.storeByte, store, epoch]

theorem State.endTurn_storeByte (s : State) (r : Requester) (x : Turn) {a : Nat} (other : ∀ c ∈ x.written s, c.1 ≠ a) :
    (s.endTurn r x).storeByte a = s.storeByte a := by
  have kept := s.endTurn_kept r x
  calc (s.endTurn r x).storeByte a
      = ((s.writeTurn x).setArbiter s.arbiter.selectNext).storeByte a := State.storeByte_congr kept.store kept.epoch a
    _ = (s.writeTurn x).storeByte a := rfl
    _ = s.storeByte a := s.storeByte_writeTurn x other

/-- Settles O4. -/
theorem onlyWriteTurnsAndResetChangeStoreBytes : Obligations.OnlyWriteTurnsAndResetChangeStoreBytes := by
  unfold Obligations.OnlyWriteTurnsAndResetChangeStoreBytes
  refine ⟨fun c s t a turnEnd powerOn assert h => ?_, fun s t a h other => ?_⟩
  · by_cases reset : ofReset c = true
    · cases c with
      | powerOn => exact absurd rfl powerOn
      | resetAssert n => exact absurd rfl (assert n)
      | resetRelease rate supv rx =>
        obtain rfl := Host.Outcome.next.inj h
        split <;> rfl
      | _ => cases reset
    · have framed := exec_framed (Bool.eq_false_iff.2 reset) h
      exact State.storeByte_congr (framed.store turnEnd) framed.epoch a
  · cases current : s.arbiter.current with
    | none =>
      rw [exec_turnEnd_idle current] at h
      exact congrArg (State.storeByte · a) (Host.Outcome.next.inj h).symm
    | some x =>
      obtain ⟨r, x⟩ := x
      rw [exec_turnEnd current] at h
      by_cases fits : x.inStore = true
      · rw [if_pos fits] at h
        rw [← Host.Outcome.next.inj h]
        exact s.endTurn_storeByte r x (other r x current)
      · rw [if_neg fits] at h
        cases h


end Sys2Proof.Machine
end

section
/-! SUPPORT. A clock cycle with an empty command queue (R5, R124, R127). -/

namespace Sys2Proof.Machine

/-! ## The serializers -/

/-- Every serializer counts one clock cycle. -/
def State.sent (s : State) (character : Nat) : PerPort Transmitter :=
  { p0 := s.ltx.p0.tick character, p1 := s.ltx.p1.tick character, p2 := s.ltx.p2.tick character,
    p3 := s.ltx.p3.tick character }

theorem State.tickLines_eq (s : State) : s.tickLines = { s with ltx := s.sent (11 * s.straps.bitCycles) } := rfl

theorem State.sent_get (s : State) (n : Nat) (p : Port) : (s.sent n).get p = (s.ltx.get p).tick n := by
  cases p <;> rfl

theorem Straps.bitCycles_eq (x : Straps) : x.bitCycles =
    if x.lr1 then (if x.lr0 then 8 else 24) else if x.lr0 then 52 else 208 := by
  unfold Straps.bitCycles
  cases x.lr1 <;> cases x.lr0 <;> rfl

section
variable {t : Transmitter} {n i k : Nat}

theorem Transmitter.tick_idle (h : t.serializer = .idle) : t.tick n = t := by
  simp only [Transmitter.tick, h]

section
variable (h : t.serializer = .sending i k)
include h

theorem Transmitter.tick_sending_within (within : k + 1 < n) : t.tick n = { t with serializer := .sending i (k + 1) } := by
  simp only [Transmitter.tick, h, if_pos within]

theorem Transmitter.tick_sending_next {f : Frame} {rest : List Frame} (queue : t.queue = f :: rest) (over' : n ≤ k + 1)
    (more : i + 1 < f.payload.length + 6) : t.tick n = { t with serializer := .sending (i + 1) 0 } := by
  have below : i + 1 < t.frameLength := by
    simp only [Transmitter.frameLength, queue]
    omega
  simp only [Transmitter.tick, h, if_neg (Nat.not_lt.2 over'), if_pos below]

theorem Transmitter.tick_sending_last {f : Frame} {rest : List Frame} (queue : t.queue = f :: rest) (over' : n ≤ k + 1)
    (last : f.payload.length + 6 ≤ i + 1) : t.tick n = { t with
      queue := rest, serializer := if rest = [] then .idle else .sending 0 0 } := by
  have beyond : ¬ i + 1 < t.frameLength := by
    simp only [Transmitter.frameLength, queue]
    omega
  simp only [Transmitter.tick, h, if_neg (Nat.not_lt.2 over'), if_neg beyond, Transmitter.frameSent_inQueue (.inl h), queue,
    List.tail_cons]

end

section
variable (h : t.serializer = .cutting i k)
include h

theorem Transmitter.tick_cutting_within (within : k + 1 < n) : t.tick n = { t with serializer := .cutting i (k + 1) } := by
  simp only [Transmitter.tick, h, if_pos within]

theorem Transmitter.tick_cutting_last {f : Frame} {rest : List Frame} (queue : t.queue = f :: rest) (over' : n ≤ k + 1) :
    t.tick n = { t with queue := rest, serializer := if rest = [] then .idle else .sending 0 0 } := by
  simp only [Transmitter.tick, h, if_neg (Nat.not_lt.2 over'), Transmitter.frameSent_inQueue (.inr h), queue,
    List.tail_cons]

end

section
variable {c : Bool × Byte} (h : t.serializer = .finishing c k)
include h

theorem Transmitter.tick_finishing_within (within : k + 1 < n) :
    t.tick n = { t with serializer := .finishing c (k + 1) } := by
  simp only [Transmitter.tick, h, if_pos within]

theorem Transmitter.tick_finishing_last (over' : n ≤ k + 1) :
    t.tick n = { t with serializer := if t.queue = [] then .idle else .sending 0 0 } := by
  simp only [Transmitter.tick, h, if_neg (Nat.not_lt.2 over'), Transmitter.frameSent_finishing h]

end

end

/-! ## The millisecond counter -/

section
variable {s : State}

theorem State.tickDivider_below (below : s.time.divider + 1 < boundaryCycles) :
    s.tickDivider = s.setTime { s.time with divider := s.time.divider + 1 } := by
  simp only [State.tickDivider, if_neg (Nat.not_le.2 below)]

/-- Nothing due, the boundary resets the counter and lowers the timers. -/
theorem State.tickDivider_boundary (quiet : s.Quiet) (lease : s.time.leaseDue = false) (engine : s.time.engineDue = false)
    (reached : boundaryCycles ≤ s.time.divider + 1) : s.tickDivider =
      ((s.setTime { s.time with divider := 0 }).modLease LeaseUnit.lowerTimers).modEngine JobEngine.lowerTimers := by
  have mark := State.markBoundary_quiet quiet lease engine
  simp only [State.tickDivider, reached, if_true, State.boundary, mark]
  rw [State.leaseBoundary_quiet (by exact quiet.1), State.engineBoundary_quiet (by exact quiet.2)]

theorem step_idle (empty : s.pending = []) : step s = .next s.idleTick := by
  simp only [step, empty]

theorem State.idleTick_released (released : s.resetLine = .released) : s.idleTick = s.catchUp.tickLines.tickDivider := by
  simp only [State.idleTick, released, if_true]

end

/-! ## The pins -/

theorem levelAt_good (bit k : Nat) (mark : Bool) (c : Byte) :
    levelAt bit (mark, c) k = (goodLevels mark c).getD (k / bit) true := rfl

theorem Frame.characters_getD {f : Frame} {i : Nat} {c : Byte}
    (at' : (f.covered ++ fieldOf 2 (crc16 f.covered).toNat)[i]? = some c) :
    f.characters.getD i (false, 0) = (i == 0, c) := by
  simp only [Frame.characters, List.getD_eq_getElem?_getD, List.getElem?_map, List.getElem?_zipIdx, at']
  simp

theorem State.txd_idle {s : State} {p : Port} (h : s.resetLine ≠ .released ∨ (s.ltx.get p).serializer = .idle) :
    s.txd p = true := by
  by_cases held : s.resetLine = .released
  · simp only [State.txd, h.resolve_left (not_not_intro held), ite_self]
  · simp only [State.txd, if_pos held]

section
variable {s : State} {p : Port} (released : s.resetLine = .released)
include released

theorem State.txd_inQueue {f : Frame} {rest : List Frame} {i k : Nat} {c : Byte}
    (queue : (s.ltx.get p).queue = f :: rest)
    (sends : (s.ltx.get p).serializer = .sending i k ∨ (s.ltx.get p).serializer = .cutting i k)
    (at' : (f.covered ++ fieldOf 2 (crc16 f.covered).toNat)[i]? = some c) :
    s.txd p = (goodLevels (i == 0) c).getD (k / s.straps.bitCycles) true := by
  have character : (s.ltx.get p).characterAt i = (i == 0, c) := by
    simp only [Transmitter.characterAt, queue]
    exact Frame.characters_getD at'
  rcases sends with sending | cutting
  · simp only [State.txd, released, sending, character, ne_eq, not_true, if_false, levelAt_good]
  · simp only [State.txd, released, cutting, character, ne_eq, not_true, if_false, levelAt_good]

theorem State.txd_finishing {mark : Bool} {c : Byte} {k : Nat} (h : (s.ltx.get p).serializer = .finishing (mark, c) k) :
    s.txd p = (goodLevels mark c).getD (k / s.straps.bitCycles) true := by
  simp only [State.txd, released, h, ne_eq, not_true, if_false, levelAt_good]

end

/-- One port's line in a clock cycle. -/
theorem State.tickLines_serializer (s t : State) (sent : t.ltx = s.sent (11 * s.straps.bitCycles)) (p : Port) (n : Nat)
    (character : n = 11 * s.straps.bitCycles) :
    ((s.ltx.get p).serializer = .idle → t.ltx.get p = s.ltx.get p) ∧
    (∀ f rest i k, (s.ltx.get p).queue = f :: rest → (s.ltx.get p).serializer = .sending i k →
      (k + 1 < n → t.ltx.get p = { s.ltx.get p with serializer := .sending i (k + 1) }) ∧
      (n ≤ k + 1 → i + 1 < f.payload.length + 6 →
        t.ltx.get p = { s.ltx.get p with serializer := .sending (i + 1) 0 }) ∧
      (n ≤ k + 1 → f.payload.length + 6 ≤ i + 1 → t.ltx.get p = { s.ltx.get p with
        queue := rest, serializer := if rest = [] then .idle else .sending 0 0 })) ∧
    (∀ f rest i k, (s.ltx.get p).queue = f :: rest → (s.ltx.get p).serializer = .cutting i k →
      (k + 1 < n → t.ltx.get p = { s.ltx.get p with serializer := .cutting i (k + 1) }) ∧
      (n ≤ k + 1 → t.ltx.get p = { s.ltx.get p with
        queue := rest, serializer := if rest = [] then .idle else .sending 0 0 })) ∧
    (∀ c k, (s.ltx.get p).serializer = .finishing c k →
      (k + 1 < n → t.ltx.get p = { s.ltx.get p with serializer := .finishing c (k + 1) }) ∧
      (n ≤ k + 1 → t.ltx.get p = { s.ltx.get p with
        serializer := if (s.ltx.get p).queue = [] then .idle else .sending 0 0 })) := by
  rw [sent, ← character, State.sent_get]
  exact ⟨Transmitter.tick_idle,
    fun f rest i k queue sending => ⟨Transmitter.tick_sending_within sending,
      Transmitter.tick_sending_next sending queue, Transmitter.tick_sending_last sending queue⟩,
    fun f rest i k queue cutting => ⟨Transmitter.tick_cutting_within cutting,
      Transmitter.tick_cutting_last cutting queue⟩,
    fun c k finishing => ⟨Transmitter.tick_finishing_within finishing, Transmitter.tick_finishing_last finishing⟩⟩

/-- Settles O2. -/
theorem emptyQueueIsOneClockCycle : Obligations.EmptyQueueIsOneClockCycle := by
  unfold Obligations.EmptyQueueIsOneClockCycle
  refine ⟨fun s empty held => ?_, fun s empty released quiet lease engine => ?_, fun s empty released quiet _ _ => ?_,
    fun s p => State.txd_idle, fun s p f rest i k bit covered c released queue sends bits cover at' => ?_,
    fun s p mark c k bit released finishing bits => ?_⟩
  · rw [step_idle empty, State.idleTick, if_neg held]
  · have ticked : step s = .next ({ s with ltx := s.sent (11 * s.straps.bitCycles) } : State).tickDivider := by
      rw [step_idle empty, State.idleTick_released released, State.catchUp_quiet quiet lease engine, State.tickLines_eq]
    by_cases below : s.time.divider + 1 < boundaryCycles
    · rw [State.tickDivider_below (by exact below)] at ticked
      exact ⟨_, ticked, rfl, rfl, rfl, rfl, rfl, rfl, rfl, fun _ => ⟨rfl, rfl, rfl⟩,
        fun reached => absurd reached (Nat.ne_of_lt below),
        fun p n character => State.tickLines_serializer s _ rfl p n (by rw [character, Straps.bitCycles_eq])⟩
    · rw [State.tickDivider_boundary (by exact quiet) (by exact lease) (by exact engine) (by exact Nat.le_of_not_lt below)] at ticked
      exact ⟨_, ticked, rfl, rfl, rfl, rfl, rfl, rfl, rfl, fun below' => absurd below' below, fun _ => ⟨rfl, rfl, rfl⟩,
        fun p n character => State.tickLines_serializer s _ rfl p n (by rw [character, Straps.bitCycles_eq])⟩
  · rw [step_idle empty, State.idleTick_released released, step_idle (s.catchUp_pending.trans empty),
      State.idleTick_released (s.catchUp_resetLine.trans released), State.catchUp_again quiet]
  · rw [bits, ← Straps.bitCycles_eq]
    subst cover
    exact State.txd_inQueue released queue sends at'
  · rw [bits, ← Straps.bitCycles_eq]
    exact State.txd_finishing released finishing

end Sys2Proof.Machine
end

section
/-! SUPPORT. The end of a turn: what it writes, whom it grants next, and how a port's operation goes on (R62, R66, R88). -/

namespace Sys2Proof.Machine

/-! ## The bytes written -/

theorem Memory.lookup_writeAll_zip : ∀ (bs : List Nat) (data : List Byte) (m : List Host.Cell), bs.Nodup →
    bs.length = data.length → bs.map (Memory.lookup (Memory.writeAll m (bs.zip data))) = data.map some := by
  intro bs
  induction bs with
  | nil =>
    intro data m _ same
    rw [List.eq_nil_of_length_eq_zero same.symm]
    rfl
  | cons b bs ih =>
    intro data m distinct same
    cases data with
    | nil => cases same
    | cons d data =>
      obtain ⟨fresh, distinct⟩ := List.nodup_cons.1 distinct
      have later := ih data (Memory.write m b d) distinct (Nat.succ.inj same)
      have first : Memory.lookup (Memory.writeAll (Memory.write m b d) (bs.zip data)) b = some d := by
        rw [Memory.lookup_writeAll_of_notMem _ _ (fun c mem e => fresh (e.symm ▸ (List.of_mem_zip mem).1 :)),
          Memory.lookup_write_self]
      rw [List.zip_cons_cons, List.map_cons, List.map_cons]
      exact List.cons_eq_cons.2 ⟨first, later⟩

/-- Bytes written at addresses apart are read back. -/
theorem State.storeByte_writeAll {s : State} {bs : List Nat} {data : List Byte} (distinct : bs.Nodup)
    (same : bs.length = data.length) : bs.map (s.setStore (Memory.writeAll s.store (bs.zip data))).storeByte = data := by
  have found := Memory.lookup_writeAll_zip bs data s.store distinct same
  have value : ∀ a, (s.setStore (Memory.writeAll s.store (bs.zip data))).storeByte a =
      (Memory.lookup (Memory.writeAll s.store (bs.zip data)) a).getD (Config.powerOnByte s.epoch a) := by
    intro a
    simp only [State.storeByte, State.setStore]
    cases Memory.lookup (Memory.writeAll s.store (bs.zip data)) a <;> rfl
  refine List.ext_getElem (by simpa using same) (fun i here there => ?_)
  have at' := congrArg (·[i]?) found
  simp only [List.getElem?_map] at at'
  rw [List.getElem?_eq_getElem (by simpa using here), List.getElem?_eq_getElem there, Option.map_some, Option.map_some,
    Option.some.injEq] at at'
  rw [List.getElem_map, value, at', Option.getD_some]

/-- Settles O37. -/
theorem turnsMoveTheirBytes : Obligations.TurnsMoveTheirBytes := by
  unfold Obligations.TurnsMoveTheirBytes
  refine ⟨fun s bs => ⟨rfl, rfl⟩, fun s bs data => State.storeByte_writeAll,
    fun s bs expected new distinct same => ⟨rfl, fun equal => ?_, fun other => ?_⟩,
    fun s src dst distinct same => State.storeByte_writeAll distinct (by rw [List.length_map, same])⟩
  · rw [State.writeTurn, Turn.written, if_pos equal]
    exact State.storeByte_writeAll distinct same
  · rw [State.writeTurn, Turn.written, if_neg other]
    rfl

/-! ## The next grant -/

theorem orderAfter_eq (r : Requester) : orderAfter r = cyclicAfter r := by
  cases r with
  | port p => cases p <;> decide
  | engine => decide

theorem find?_of_mem_nodup {α β : Type} [DecidableEq α] {xs : List (α × β)} (distinct : (xs.map (fun x => x.1)).Nodup)
    {a : α} {b : β} (mem : (a, b) ∈ xs) : xs.find? (fun x => x.1 == a) = some (a, b) := by
  cases found : xs.find? (fun x => x.1 == a) with
  | none => exact absurd (beq_self_eq_true a) (List.find?_eq_none.1 found (a, b) mem)
  | some x =>
    have key : x.1 = a := by simpa using List.find?_some found
    rw [eq_of_nodup_keys distinct (List.mem_of_find?_eq_some found) mem key]

theorem Arbiter.selectNext_none {a : Arbiter} (h : a.pending = []) :
    a.selectNext = { current := none, pending := [], lastGranted := a.lastGranted } := by
  have none : a.firstPending (orderAfter a.lastGranted) = none := by
    rw [Arbiter.firstPending, List.findSome?_eq_none_iff]
    intro r _
    rw [h, List.find?_nil]
  simp only [Arbiter.selectNext, none, h]

/-- The first pending requester in the cyclic order after the one granted last. -/
theorem Arbiter.selectNext_first {a : Arbiter} {q : Requester} {u : Turn} (mem : (q, u) ∈ a.pending)
    (distinct : (a.pending.map (fun x => x.1)).Nodup) {before after : List Requester}
    (order : cyclicAfter a.lastGranted = before ++ q :: after) (none : ∀ b ∈ before, ∀ x ∈ a.pending, x.1 ≠ b) :
    a.selectNext = { current := some (q, u), pending := a.pending.filter (fun x => x.1 != q), lastGranted := q } := by
  have skipped : before.findSome? (fun r => a.pending.find? (fun x => x.1 == r)) = Option.none := by
    rw [List.findSome?_eq_none_iff]
    intro b hb
    rw [List.find?_eq_none]
    intro x hx
    simpa using none b hb x hx
  have first : a.firstPending (orderAfter a.lastGranted) = some (q, u) := by
    rw [Arbiter.firstPending, orderAfter_eq, order, List.findSome?_append, skipped, Option.none_or,
      List.findSome?_cons, find?_of_mem_nodup distinct mem]
  simp only [Arbiter.selectNext, first, Arbiter.grant]

/-- Settles O36. -/
theorem turnEndWritesAndSelects : Obligations.TurnEndWritesAndSelects := by
  unfold Obligations.TurnEndWritesAndSelects
  refine ⟨fun s => exec_turnEnd_idle, fun s r t current outside => ?_, fun s r t current inside => ?_⟩
  · rw [exec_turnEnd current, outside]
    rfl
  · have kept := s.endTurn_kept r t
    refine ⟨s.endTurn r t, by rw [exec_turnEnd current, if_pos inside], kept.store, fun none => ?_,
      fun q u mem distinct before after order first => ?_⟩
    · exact kept.arbiter.trans (Arbiter.selectNext_none none)
    · exact kept.arbiter.trans (Arbiter.selectNext_first mem distinct order first)

/-! ## A port's operation -/

/-- The store bytes of the operation's piece (R66). -/
def PortOperation.bytes (o : PortOperation) : List Nat :=
  (List.range' (64 * o.piece) (min 64 (o.count - 64 * o.piece))).map o.mapping.address

theorem PortOperation.bytes_length (o : PortOperation) : o.bytes.length = min 64 (o.count - 64 * o.piece) := by
  simp [PortOperation.bytes]

theorem PortOperation.bytes_getElem {o : PortOperation} {k a : Nat} (h : o.bytes[k]? = some a) :
    a = o.mapping.physical + (o.mapping.offset + (64 * o.piece + k)) % o.mapping.size := by
  rw [PortOperation.bytes, List.getElem?_map, Option.map_eq_some_iff] at h
  obtain ⟨i, found, rfl⟩ := h
  obtain ⟨_, rfl⟩ := List.getElem?_eq_some_iff.1 found
  rw [List.getElem_range', Nat.one_mul, Mapping.address]

theorem PortOperation.turn_eq (o : PortOperation) : (o.operation = .read → o.turn = .read o.bytes) ∧
    (∀ data, o.operation = .write data → o.turn = .write o.bytes ((data.drop (64 * o.piece)).take 64)) ∧
    (∀ e v, o.operation = .exchangeIf e v → o.turn = .compareAndWrite o.bytes e v) := by
  refine ⟨fun h => ?_, fun data h => ?_, fun e v h => ?_⟩
  all_goals
    simp only [PortOperation.turn, h]
    rfl

theorem PortOperation.reply_eq (o : PortOperation) (bytes : List Byte) :
    (o.operation = .read → o.reply bytes = (.ok, o.gathered ++ bytes)) ∧
    (∀ data, o.operation = .write data → o.reply bytes = (.ok, [])) ∧
    (∀ e v, o.operation = .exchangeIf e v → o.reply bytes =
      (if bytes = e then .ok else .mismatch, List.replicate (4 - bytes.length) 0 ++ bytes)) :=
  ⟨fun h => by simp only [PortOperation.reply, h], fun _ h => by simp only [PortOperation.reply, h],
    fun _ _ h => by simp only [PortOperation.reply, h]⟩

section
variable {s : State} {p : Port} {o : PortOperation} (operation : (s.pu.get p).operation = some o) (bytes : List Byte)
include operation

theorem State.portTurnEnd_abandoned (abandoned : o.abandoned = true) :
    s.portTurnEnd p bytes = (s.clearOperation p).reportClaimEnd (.port p) := by
  simp only [State.portTurnEnd, operation, abandoned, if_true]

theorem State.portTurnEnd_more (goesOn : o.abandoned = false) (more : 64 * (o.piece + 1) < o.count) :
    s.portTurnEnd p bytes = (s.modPu p (fun u => { u with
      operation := some { o with piece := o.piece + 1, gathered := o.gathered ++ bytes } })).askTurn (.port p)
      ({ o with piece := o.piece + 1, gathered := o.gathered ++ bytes } : PortOperation).turn := by
  have last : o.atLastPiece = false := decide_eq_false (Nat.not_le.2 more)
  simp only [State.portTurnEnd, operation, goesOn, last, Bool.false_eq_true, if_false]

theorem State.portTurnEnd_last (goesOn : o.abandoned = false) (last : o.count ≤ 64 * (o.piece + 1)) {x : Executing}
    (executing : (s.pu.get p).executing = some x) (access : x.phase = .access) (sends : (s.ltx.get p).discard = false)
    (reserved : 0 < (s.ltx.get p).reserved) : s.portTurnEnd p bytes =
      (((s.modLtx p (fun t => { t with
        queue := t.queue ++ [replyFrame x.kind.code x.tag (o.reply bytes).1 (o.reply bytes).2], reserved := t.reserved - 1,
        serializer := if t.serializer = .idle then .sending 0 0 else t.serializer })).modPu p
        (fun u => { u with executing := none })).clearOperation p).reportClaimEnd (.port p) := by
  have last : o.atLastPiece = true := decide_eq_true last
  have phase : s.phase p = some .access := by rw [State.phase, executing, Option.map_some, access]
  simp only [State.portTurnEnd, operation, goesOn, last, Bool.false_eq_true, if_false, if_true, State.answerIn, phase,
    State.answer_sends executing _ _ sends reserved]

end

/-- Settles O38. -/
theorem portTurnEndRepliesOrGoesOn : Obligations.PortTurnEndRepliesOrGoesOn := by
  unfold Obligations.PortTurnEndRepliesOrGoesOn
  refine ⟨fun o => ⟨o.bytes, o.bytes_length, fun k a => PortOperation.bytes_getElem, o.turn_eq⟩,
    fun s p t o current inside operation => ⟨s.endTurn (.port p) t, by rw [exec_turnEnd current, if_pos inside],
      fun abandoned => ?_, fun goesOn more => ?_, fun x goesOn last executing access sends reserved => ?_⟩⟩
  · rw [State.endTurn, State.reportTurnEnd, State.portTurnEnd_abandoned (by exact operation) _ abandoned]
    simp [State.clearOperation, State.reportClaimEnd, State.writeTurn]
  · rw [State.endTurn, State.reportTurnEnd, State.portTurnEnd_more (by exact operation) _ goesOn more]
    simp [State.askTurn, State.writeTurn]
  · obtain ⟨read, write, exchange⟩ := o.reply_eq (t.returned s)
    rw [State.endTurn, State.reportTurnEnd, State.portTurnEnd_last (by exact operation) _ goesOn last
      (by exact executing) access (by exact sends) (by exact reserved)]
    refine ⟨by simp [State.clearOperation, State.reportClaimEnd], by simp [State.clearOperation, State.reportClaimEnd],
      by simp [State.reportClaimEnd], by simp [State.clearOperation, State.reportClaimEnd, State.writeTurn], fun h => ?_,
      fun data h => ?_, fun e v h => ?_⟩
    · rw [read h]
      simp [State.clearOperation, State.reportClaimEnd, State.writeTurn]
    · rw [write data h]
      simp [State.clearOperation, State.reportClaimEnd, State.writeTurn]
    · rw [exchange e v h]
      simp [State.clearOperation, State.reportClaimEnd, State.writeTurn]

end Sys2Proof.Machine
end

section
/-! SUPPORT. The begin and the end of a session's teardown, breaks and ordered drops (R87 to R89, R114, R115, R155). -/

namespace Sys2Proof.Machine

/-! ## What a teardown does to the EXECUTING request (R88) -/

section
variable {s : State} {p : Port}

theorem State.reachExecuting_idle (h : (s.pu.get p).executing = none) : s.reachExecuting p = s := by
  simp only [State.reachExecuting, State.phase, h, Option.map_none]

section
variable {x : Executing} (executing : (s.pu.get p).executing = some x)
include executing

theorem State.reachExecuting_stands (h : x.phase = .settling ∨ x.phase = .atChunkEnd ∨ x.phase = .closing ∨
    ∃ y, x.phase = .handed y) : s.reachExecuting p = s := by
  rcases h with h | h | h | ⟨y, h⟩
  all_goals simp only [State.reachExecuting, State.phase, executing, Option.map_some, h]

theorem State.reachExecuting_untilDown {q : Port} (h : x.phase = .untilDown q) :
    s.reachExecuting p = s.dropExecuting p := by
  simp only [State.reachExecuting, State.phase, executing, Option.map_some, h]

variable (access : x.phase = .access)
include access

theorem State.reachExecuting_noOperation (h : (s.pu.get p).operation = none) :
    s.reachExecuting p = s.dropExecuting p := by
  simp only [State.reachExecuting, State.phase, executing, Option.map_some, access, h]

variable {o : PortOperation} (operation : (s.pu.get p).operation = some o)
include operation

theorem State.reachExecuting_inTurns (h : o.admitted = true) : s.reachExecuting p =
    (s.modPu p (fun u => { u with operation := some { o with abandoned := true } })).dropExecuting p := by
  simp only [State.reachExecuting, State.phase, executing, Option.map_some, access, operation, h, if_true]

theorem State.reachExecuting_asked (h : o.admitted = false) : s.reachExecuting p =
    ((s.withdrawAdmission (.port p)).clearOperation p).dropExecuting p := by
  simp only [State.reachExecuting, State.phase, executing, Option.map_some, access, operation, h, Bool.false_eq_true,
    if_false]

end

/-- A request to the lease unit is taken back where it still waits, and withdrawn where it was taken. -/
def Mail.withdrawn (m : Mail) : Mail :=
  if m.request.isSome then { m with request := none } else { m with withdrawal := true, decision := none }

theorem State.withdrawAdmission_port (s : State) (p : Port) :
    s.withdrawAdmission (.port p) = s.modMail (.port p) Mail.withdrawn := by
  unfold State.withdrawAdmission Mail.withdrawn
  cases asked : (s.mail.get (.port p)).request <;> simp [State.modMail, asked]

/-- What reaching the EXECUTING request can change: it, the operation, the port's mail and a reservation. -/
theorem State.reachExecuting_parts (s : State) (p : Port) : ∃ (m : Mail → Mail) (x : Option Executing) (o : Option PortOperation)
    (f : Transmitter → Transmitter), (f = id ∨ f = Transmitter.release) ∧ s.reachExecuting p =
      ((s.modMail (.port p) m).modLtx p f).modPu p (fun u => { u with executing := x, operation := o }) := by
  have unchanged : s = ((s.modMail (.port p) id).modLtx p id).modPu p
      (fun u => { u with executing := (s.pu.get p).executing, operation := (s.pu.get p).operation }) := by
    rw [State.modMail_id rfl, State.modLtx_id rfl, State.modPu_id rfl]
  have dropped : ∀ o, (s.modPu p (fun u => { u with operation := o })).dropExecuting p =
      ((s.modMail (.port p) id).modLtx p Transmitter.release).modPu p
        (fun u => { u with executing := none, operation := o }) := by
    simp [State.dropExecuting, State.modMail, State.modLtx, State.modPu, PerRequester.set_get]
  have dropped' : s.dropExecuting p =
      (s.modPu p (fun u => { u with operation := (s.pu.get p).operation })).dropExecuting p := by
    rw [State.modPu_id rfl]
  cases executing : (s.pu.get p).executing with
  | none => exact ⟨_, _, _, _, .inl rfl, (State.reachExecuting_idle executing).trans unchanged⟩
  | some x =>
    cases phase : x.phase with
    | deciding =>
      refine ⟨_, _, _, _, .inl rfl, Eq.trans ?_ unchanged⟩
      simp only [State.reachExecuting, State.phase, executing, Option.map_some, phase]
    | settling => exact ⟨_, _, _, _, .inl rfl, (State.reachExecuting_stands executing (.inl phase)).trans unchanged⟩
    | atChunkEnd =>
      exact ⟨_, _, _, _, .inl rfl, (State.reachExecuting_stands executing (.inr (.inl phase))).trans unchanged⟩
    | closing =>
      exact ⟨_, _, _, _, .inl rfl, (State.reachExecuting_stands executing (.inr (.inr (.inl phase)))).trans unchanged⟩
    | handed y =>
      exact ⟨_, _, _, _, .inl rfl, (State.reachExecuting_stands executing (.inr (.inr (.inr ⟨y, phase⟩)))).trans unchanged⟩
    | untilDown q =>
      exact ⟨_, _, _, _, .inr rfl, (State.reachExecuting_untilDown executing phase).trans (dropped'.trans (dropped _))⟩
    | access =>
      cases operation : (s.pu.get p).operation with
      | none =>
        exact ⟨_, _, _, _, .inr rfl,
          (State.reachExecuting_noOperation executing phase operation).trans (dropped'.trans (dropped _))⟩
      | some o =>
        cases admitted : o.admitted with
        | true =>
          exact ⟨_, _, _, _, .inr rfl, (State.reachExecuting_inTurns executing phase operation admitted).trans (dropped _)⟩
        | false =>
          rw [State.reachExecuting_asked executing phase operation admitted, State.withdrawAdmission_port]
          exact ⟨Mail.withdrawn, none, none, Transmitter.release, .inr rfl,
            by simp [State.clearOperation, State.dropExecuting, State.modMail, State.modLtx, State.modPu]⟩

theorem State.reachExecuting_access_ltx {x : Executing} (executing : (s.pu.get p).executing = some x)
    (access : x.phase = .access) : (s.reachExecuting p).ltx = (s.modLtx p Transmitter.release).ltx := by
  cases operation : (s.pu.get p).operation with
  | none => rw [State.reachExecuting_noOperation executing access operation, State.dropExecuting, State.modPu_ltx]
  | some o =>
    cases admitted : o.admitted with
    | true => rw [State.reachExecuting_inTurns executing access operation admitted]; rfl
    | false =>
      rw [State.reachExecuting_asked executing access operation admitted, State.withdrawAdmission_port]
      rfl

/-- R88 of a state whose EXECUTING request is that of `s`, but for its reservation. -/
theorem State.reachesExecuting {u : State} {reserved : Executing → Bool}
    (executing : (u.pu.get p).executing = (s.pu.get p).executing.map (fun x => { x with reserved := reserved x }))
    (operation : (u.pu.get p).operation = (s.pu.get p).operation) (mail : u.mail = s.mail) :
    s.ReachesExecuting (u.reachExecuting p) p := by
  have running : ∀ x, (s.pu.get p).executing = some x →
      (u.pu.get p).executing = some { x with reserved := reserved x } := fun x h => by
    rw [executing, h, Option.map_some]
  refine ⟨fun h => ?_, fun x h phase => ?_, fun x q h phase => ?_, fun x o h phase stands admitted => ?_,
    fun x o a h phase stands asked request => ?_, fun x o h phase stands asked taken => ?_⟩
  · have none : (u.pu.get p).executing = none := by rw [executing, h, Option.map_none]
    rw [State.reachExecuting_idle none]
    exact ⟨none, operation, mail⟩
  · rw [State.reachExecuting_stands (running x h) (by grind)]
    exact ⟨⟨_, running x h⟩, operation, mail⟩
  · rw [State.reachExecuting_untilDown (running x h) phase]
    simp [State.dropExecuting, operation, mail]
  · rw [State.reachExecuting_inTurns (running x h) phase (operation.trans stands) admitted]
    simp [State.dropExecuting, mail]
  · rw [State.reachExecuting_asked (running x h) phase (operation.trans stands) asked, State.withdrawAdmission_port]
    simp [State.dropExecuting, State.clearOperation, mail, Mail.withdrawn, request]
  · rw [State.reachExecuting_asked (running x h) phase (operation.trans stands) asked, State.withdrawAdmission_port]
    simp [State.dropExecuting, State.clearOperation, mail, Mail.withdrawn, taken]

end

/-! ## The begin of a teardown -/

theorem State.beginTeardown_parts (s : State) (p : Port) (c : Cause) : ∃ (m : Mail → Mail) (x : Option Executing)
    (o : Option PortOperation) (f : Transmitter → Transmitter), (f = id ∨ f = Transmitter.release) ∧
      s.beginTeardown p c = (((s.modLrx p (fun x => x.emptied c)).modMail (.port p) m).modLtx p f).modPu p
        (fun u => { u.close c with executing := x, operation := o }) := by
  obtain ⟨m, x, o, f, kind, same⟩ := ((s.modLrx p (fun x => x.emptied c)).modPu p (fun u => u.close c)).reachExecuting_parts p
  refine ⟨m, x, o, f, kind, same.trans ?_⟩
  simp [State.modPu, State.modLtx, State.modMail]

/-- The receiver of a teardown that a break did not begin, and of one whose break is over, hunts again. -/
theorem Receiver.emptied_emptied {x : Receiver} {c : Cause} (h : c = .brk → x.state ≠ .brk) : x.Emptied (x.emptied c) := by
  have other : ¬ (c = .brk ∧ x.state = .brk) := fun ⟨brk, state⟩ => h brk state
  rw [Receiver.Emptied, Receiver.emptied, if_neg other]
  rfl

theorem State.beginTeardown_ltx_idle {s : State} {p : Port} (h : (s.pu.get p).executing = none) (c : Cause) :
    (s.beginTeardown p c).ltx = s.ltx := by
  rw [State.beginTeardown, State.reachExecuting_idle (by simpa [PortUnit.close] using h)]
  rfl

section
variable {s : State} {p : Port} {x : Executing} (executing : (s.pu.get p).executing = some x) (c : Cause)
include executing

theorem State.beginTeardown_ltx_stands (h : x.phase = .settling ∨ x.phase = .atChunkEnd ∨ x.phase = .closing ∨
    ∃ y, x.phase = .handed y) : (s.beginTeardown p c).ltx = s.ltx := by
  rw [State.beginTeardown, State.reachExecuting_stands (x := x) (by simpa [PortUnit.close] using executing) h]
  rfl

theorem State.beginTeardown_ltx_drops (h : (∃ q, x.phase = .untilDown q) ∨ x.phase = .access) :
    (s.beginTeardown p c).ltx = (s.modLtx p Transmitter.release).ltx := by
  have running : (((s.modLrx p (fun x => x.emptied c)).modPu p (fun u => u.close c)).pu.get p).executing = some x := by
    simpa [PortUnit.close] using executing
  rcases h with ⟨q, phase⟩ | access
  · rw [State.beginTeardown, State.reachExecuting_untilDown running phase]
    rfl
  · rw [State.beginTeardown, State.reachExecuting_access_ltx running access]
    rfl

end

theorem StepsDue.all_eq : StepsDue.all = { waiter := true, lease := true, job := true, history := true } := rfl

/-- Settles O11. -/
theorem closeBeginsATeardown : Obligations.CloseBeginsATeardown := by
  unfold Obligations.CloseBeginsATeardown
  intro s p f takes
  have torn : exec (.close p) s = .next ((s.executingIn p .close f .closing).beginTeardown p .close) := by
    refine congrArg Host.Outcome.next ((takes.takeRequest _).trans ?_)
    rw [State.beginRequest_setPhase]
  have stands : (s.executingIn p .close f .closing).beginTeardown p .close =
      ((s.executingIn p .close f .closing).modLrx p (fun x => x.emptied .close)).modPu p (fun u => u.close .close) :=
    State.reachExecuting_stands (x := { tag := f.tag, kind := .close, reserved := true, phase := .closing })
      (by simp [State.executingIn, PortUnit.close]) (.inr (.inr (.inl rfl)))
  have emptied : (s.lrx.get p).Emptied (({ s.lrx.get p with held := none } : Receiver).emptied .close) :=
    Receiver.emptied_emptied (x := s.lrx.get p) (c := .close) Cause.noConfusion
  refine ⟨_, torn.trans (congrArg _ stands), ?_⟩
  simp [State.executingIn, State.emptySlot, PortUnit.close, StepsDue.all_eq, Transmitter.reserve, emptied]
  exact ⟨fun i => PortUnit.windowNamed_closed rfl i,
    fun q other => ⟨PerPort.get_set_ne _ _ other, PerPort.get_set_ne _ _ other⟩⟩

/-! ## Breaks (R114, R155) -/

theorem Transmitter.release_discards {t : Transmitter} (h : t.discard = true) : t.release = t := if_pos h

theorem Transmitter.release_sends {t : Transmitter} (h : t.discard = false) :
    t.release = { t with reserved := t.reserved - 1 } := if_neg (Bool.eq_false_iff.1 h)

theorem Transmitter.reached_flush {f : Transmitter → Transmitter} (h : f = id ∨ f = Transmitter.release) (t : Transmitter) :
    f (t.flush true) = t.flush true := by
  rcases h with rfl | rfl
  · rfl
  · exact Transmitter.release_discards rfl

theorem Receiver.emptied_brk {x : Receiver} (h : x.state = .brk) :
    x.emptied .brk = { x with held := none, buffer := [] } := if_pos ⟨rfl, h⟩

section
variable {s : State} {p : Port}

/-- What the flush of a break leaves, in every session. -/
theorem State.orderFlush_eq (s : State) (p : Port) : s.orderFlush p =
    (s.modLtx p (fun t => { t with
      queue := t.queue.take t.serializer.keeps, reserved := 0,
      discard := (s.pu.get p).session != .down || t.discard, serializer := t.serializer.cut })).modPu p
      PortUnit.clearReservations := rfl

/-- The break report taken. -/
def State.breakTaken (s : State) (p : Port) : State := s.modPu p (fun u => { u with breakReports := u.breakReports - 1 })

theorem State.exec_breakReport (reports : (s.pu.get p).breakReports ≠ 0) (gather : (s.pu.get p).gather = none) :
    exec (.breakReport p) s = .next ((s.breakTaken p).takeBreak p) := by
  simp only [exec, execBreakReport, reports, gather, ne_eq, not_true, or_self, if_false]
  rfl

@[simp] theorem State.breakTaken_unit (s : State) (p : Port) : (s.breakTaken p).pu.get p =
    { s.pu.get p with breakReports := (s.pu.get p).breakReports - 1 } := by simp [State.breakTaken]

theorem State.takeBreak_down (h : (s.pu.get p).session = .down) : s.takeBreak p = s.orderFlush p := by
  simp only [State.takeBreak, h]

theorem State.takeBreak_closing (h : (s.pu.get p).session = .closing) :
    s.takeBreak p = (s.orderFlush p).modPu p (fun u => { u with cause := some .brk }) := by
  simp only [State.takeBreak, h]

theorem State.takeBreak_up (h : (s.pu.get p).session = .up) :
    s.takeBreak p = (s.orderFlush p).beginTeardown p .brk := by
  simp only [State.takeBreak, h]

end

/-- Settles O12. -/
theorem breakReportFlushesAndTearsDown : Obligations.BreakReportFlushesAndTearsDown := by
  unfold Obligations.BreakReportFlushesAndTearsDown
  intro s p reports gather
  refine ⟨(s.breakTaken p).takeBreak p, State.exec_breakReport reports gather, ?_⟩
  cases session : (s.pu.get p).session with
  | down =>
    rw [State.takeBreak_down (by simp [session])]
    simp [State.orderFlush_eq, State.breakTaken, session, PortUnit.clearReservations]
    exact fun q other => ⟨PerPort.get_set_ne _ _ other, PerPort.get_set_ne _ _ other⟩
  | closing =>
    rw [State.takeBreak_closing (by simp [session])]
    simp [State.orderFlush_eq, State.breakTaken, session, PortUnit.clearReservations]
    exact fun q other => ⟨PerPort.get_set_ne _ _ other, PerPort.get_set_ne _ _ other⟩
  | up =>
    have reaches : s.ReachesExecuting (((s.breakTaken p).orderFlush p).beginTeardown p .brk) p :=
      State.reachesExecuting (reserved := fun _ => false)
        (by simp [State.orderFlush_eq, PortUnit.clearReservations, PortUnit.close])
        (by simp [State.orderFlush_eq, PortUnit.clearReservations, PortUnit.close]) rfl
    obtain ⟨m, x, o, f, kind, torn⟩ := ((s.breakTaken p).orderFlush p).beginTeardown_parts p .brk
    have ask : (Session.up != Session.down) = true := rfl
    have flushed : f (((s.breakTaken p).orderFlush p).ltx.get p) = ((s.breakTaken p).orderFlush p).ltx.get p := by
      simpa [State.orderFlush, session, ask] using Transmitter.reached_flush kind _
    rw [State.takeBreak_up (by simp [session])]
    rw [torn, State.modLtx_id (by exact flushed)] at reaches ⊢
    simp [State.orderFlush_eq, State.breakTaken, session, PortUnit.clearReservations, PortUnit.close, StepsDue.all_eq,
      ask] at reaches ⊢
    refine ⟨⟨Receiver.emptied_brk, fun other => Receiver.emptied_emptied (fun _ => other),
      fun i => PortUnit.windowNamed_closed rfl i, reaches⟩,
      fun q other => ⟨PerPort.get_set_ne _ _ other, PerPort.get_set_ne _ _ other, PerPort.get_set_ne _ _ other⟩⟩

/-! ## The end of a teardown (R22, R89) -/

theorem StepsDue.none_eq : StepsDue.none = { waiter := false, lease := false, job := false, history := false } := rfl

theorem Transmitter.discardOff_sends {t : Transmitter} (h : t.discard = false) : t.discardOff = t :=
  if_neg (Bool.eq_false_iff.1 h)

theorem Transmitter.discardOff_discard (t : Transmitter) : t.discardOff.discard = false := by
  cases discards : t.discard <;> simp [Transmitter.discardOff, discards]

theorem Transmitter.discardOff_dropped (t : Transmitter) : t.discardOff.dropped = t.dropped := by
  cases discards : t.discard <;> simp [Transmitter.discardOff, discards]

theorem Transmitter.discardOff_empties {t : Transmitter} (h : t.discard = true) :
    t.discardOff.queue = [] ∧ t.discardOff.reserved = 0 := by
  simp [Transmitter.discardOff, h]

theorem Transmitter.start_dropped (t : Transmitter) : t.start.dropped = t.dropped := by
  rw [Transmitter.start_eq]

theorem Transmitter.queueReply_dropped (t : Transmitter) (f : Frame) : (t.queueReply f).dropped = t.dropped := by
  unfold Transmitter.queueReply
  split
  · rfl
  · exact Transmitter.start_dropped _

section
variable (s : State) (p : Port) (r : Result) (fields : List Byte)

theorem State.answer_dropped : ((s.answer p r fields).ltx.get p).dropped = (s.ltx.get p).dropped := by
  cases executing : (s.pu.get p).executing with
  | none => rw [State.answer_free executing]
  | some x =>
    rw [State.answer_executing executing]
    simp [Transmitter.queueReply_dropped]

theorem State.answer_leaves_none : ((s.answer p r fields).pu.get p).executing = none := by
  cases executing : (s.pu.get p).executing with
  | none => rw [State.answer_free executing, executing]
  | some x =>
    rw [State.answer_executing executing]
    simp

end

/-- Settles O13. -/
theorem sessionReachesDown : Obligations.SessionReachesDown := by
  unfold Obligations.SessionReachesDown
  refine ⟨fun s p => ?_, fun s p orderly ends => ?_, fun s p closing work => ?_, fun s p early => ?_⟩
  · rw [State.workDone_iff, StepsDue.none_eq, JobEngine.jobsOf]
    simp
  · have torn : (s.pu.get p).session ≠ .up ∧ (s.pu.get p).stepsDue = .none := by
      rcases ends with ⟨closing, work⟩ | down
      · exact ⟨by simp [closing], ((s.workDone_iff p).1 work).1⟩
      · exact ⟨by simp [down], (orderly.down p down).1⟩
    obtain ⟨notUp, steps⟩ := torn
    obtain ⟨waiters, settling, -⟩ := orderly.waiters p notUp (by rw [steps, StepsDue.none_eq])
    exact ⟨waiters, settling, orderly.leases p notUp (by rw [steps, StepsDue.none_eq]), orderly.windows p notUp⟩
  · have kept := (State.CoreKept.refl s).answer p .ok []
    have sends := fun (x : Executing) (executing : (s.pu.get p).executing = some x) =>
      State.answer_sends executing .ok []
    refine ⟨s.finishTeardown p, by simp only [exec, execSessionDown, closing, work, and_self, if_true], ?_, ?_, ?_, ?_, ?_, ?_,
      ?_, fun discards => ?_, fun sending free => ?_, fun x executing sending reserved => ?_, ?_, kept.lrx, ?_, ?_, kept.store⟩
    · simp [State.finishTeardown, PortUnit.toDown]
    · simp [State.finishTeardown, PortUnit.toDown]
    · simp [State.finishTeardown, PortUnit.toDown]
    · simp [State.finishTeardown, PortUnit.toDown, NoticeMask.empty]
    · simp [State.finishTeardown, PortUnit.toDown, State.answer_leaves_none]
    · simp [State.finishTeardown, PortUnit.toDown, (kept.unit p).downReports]
    · simp [State.finishTeardown, Transmitter.discardOff_discard]
    · have off : ((s.answer p .ok []).ltx.get p).discard = true := by
        cases executing : (s.pu.get p).executing with
        | none => rw [State.answer_free executing, discards]
        | some x => rw [State.answer_discards executing _ _ discards, State.modPu_ltx, discards]
      simpa [State.finishTeardown] using Transmitter.discardOff_empties off
    · rw [State.finishTeardown, State.answer_free free, State.modLtx_id (by exact Transmitter.discardOff_sends sending),
        State.modPu_ltx]
    · rw [State.finishTeardown, sends x executing sending reserved,
        State.modLtx_id (by exact Transmitter.discardOff_sends (by simpa using sending))]
      simp
    · simp [State.finishTeardown, Transmitter.discardOff_dropped, State.answer_dropped]
    · exact s.answer_leaseUnit p .ok []
    · exact s.answer_engine p .ok []
  · have none : ¬ ((s.pu.get p).session = .closing ∧ s.workDone p = true) := fun ⟨closing, work⟩ =>
      early.elim (· closing) (fun idle => Bool.noConfusion (idle.symm.trans work))
    simp only [exec, execSessionDown, if_neg none]

/-! ## Drops ordered by the supervisor (R115) -/

theorem dropTargetOf_none {n : Nat} (h : n = 0 ∨ 3 < n) : dropTargetOf n = none := by
  rcases h with rfl | beyond
  · rfl
  · match n, beyond with
    | n + 4, _ => rfl

theorem dropTargetOf_portNumber {q : Port} (h : q ≠ .p0) : dropTargetOf (portNumber q) = some q := by
  cases q with
  | p0 => exact absurd rfl h
  | _ => rfl

theorem PerPort.set_comm {α : Type} (v : PerPort α) {p q : Port} (a b : α) (h : p ≠ q) :
    (v.set p a).set q b = (v.set q b).set p a := by
  cases p <;> cases q <;> simp [PerPort.set] at h ⊢

section
variable {s : State} {p q : Port} (other : q ≠ p)
include other

theorem State.modPu_modPu_ne (f g : PortUnit → PortUnit) : (s.modPu q g).modPu p f = (s.modPu p f).modPu q g := by
  simp only [State.modPu, PerPort.get_set_ne _ _ other, PerPort.get_set_ne _ _ other.symm, PerPort.set_comm _ _ _ other]

theorem State.answer_modPu_ne (g : PortUnit → PortUnit) (r : Result) (fields : List Byte) :
    (s.modPu q g).answer p r fields = (s.answer p r fields).modPu q g := by
  have unit : ((s.modPu q g).pu.get p).executing = (s.pu.get p).executing := by
    rw [State.modPu_pu, PerPort.get_set_ne _ _ other.symm]
  cases executing : (s.pu.get p).executing with
  | none => rw [State.answer_free (unit.trans executing), State.answer_free executing]
  | some x =>
    rw [State.answer_executing (unit.trans executing), State.answer_executing executing, ← State.modPu_modPu_ne other]
    rfl

end

theorem State.offer_modPu (s : State) (p q : Port) (g : PortUnit → PortUnit) (n : NoticeKind) (fields : List Byte)
    (session : ∀ u, (g u).session = u.session := by exact fun _ => rfl)
    (mask : ∀ u, (g u).mask = u.mask := by exact fun _ => rfl) :
    (s.modPu p g).offer q n fields = (s.offer q n fields).modPu p g := by
  by_cases same : q = p
  · subst same
    simp only [State.offer, State.modPu_pu, PerPort.get_set_self, session, mask]
    rfl
  · simp only [State.offer, State.modPu_pu, PerPort.get_set_ne _ _ same]
    rfl

theorem State.clearDownReports_offer (s : State) (q : Port) (n : NoticeKind) (fields : List Byte) :
    (s.clearDownReports q).offer q n fields = (s.offer q n fields).clearDownReports q := s.offer_modPu q q _ n fields

theorem State.setPhase_offer (s : State) (p q : Port) (x : Phase) (n : NoticeKind) (fields : List Byte) :
    (s.setPhase p x).offer q n fields = (s.offer q n fields).setPhase p x := s.offer_modPu p q _ n fields

theorem State.beginRequest_session {s : State} {p q : Port} (other : q ≠ p) (k : Kind) (tag : Byte) :
    (((s.beginRequest p k tag).clearDownReports q).pu.get q).session = (s.pu.get q).session := by
  simp [State.clearDownReports, State.beginRequest, PerPort.get_set_ne _ _ other, State.emptySlot]

section
variable {s : State} {p : Port} {f : Frame} (h : s.Takes p .portDrop f) (late : Bool)
include h

theorem State.Takes.portDrop_noTarget (target : dropTargetOf (fieldAt f.payload 0 1) = none) :
    exec (.portDrop p late) s = .next (s.served p (f.reply .portDrop .badField [])) := by
  simp only [exec, execPortDrop, h.takeRequest, namedId, target, h.answer]

theorem State.Takes.portDrop_target {q : Port} (target : dropTargetOf (fieldAt f.payload 0 1) = some q) :
    exec (.portDrop p late) s = .next ((s.beginRequest p .portDrop f.tag).dropTarget p late q) := by
  simp only [exec, execPortDrop, h.takeRequest, namedId, target]

variable {q : Port} (other : q ≠ p)
include other

theorem State.Takes.dropTarget_down (session : (s.pu.get q).session = .down) :
    (s.beginRequest p .portDrop f.tag).dropTarget p late q =
      (s.served p (f.reply .portDrop .wrongState [])).modPu q (fun u => { u with downReports := 0 }) := by
  simp only [State.dropTarget, State.beginRequest_session other, session]
  rw [State.clearDownReports, State.answer_modPu_ne other, h.answer]

omit h in
theorem State.dropTarget_closing (session : (s.pu.get q).session = .closing) :
    (s.beginRequest p .portDrop f.tag).dropTarget p late q =
      (s.executingIn p .portDrop f (.untilDown q)).modPu q (fun u => { u with downReports := 0 }) := by
  simp only [State.dropTarget, State.beginRequest_session other, session]
  rw [State.clearDownReports, State.setPhase, State.modPu_modPu_ne other, ← State.beginRequest_setPhase, State.setPhase]

omit h in
theorem State.dropTarget_up (session : (s.pu.get q).session = .up) :
    (s.beginRequest p .portDrop f.tag).dropTarget p late q =
      (if late then s.executingIn p .portDrop f (.untilDown q)
        else (s.executingIn p .portDrop f (.untilDown q)).offer q .sessionEnded []).modPu q
        (fun u => { u with downReports := 0, dropOrders := u.dropOrders ++ [late] }) := by
  simp only [State.dropTarget, State.beginRequest_session other, session]
  rw [State.setPhase, State.modPu_modPu_ne other, ← State.beginRequest_setPhase]
  cases late with
  | true =>
    simp only [if_true, State.clearDownReports, State.setPhase, State.modPu_modPu_ne other, State.modPu_modPu]
  | false =>
    simp only [Bool.false_eq_true, if_false, State.clearDownReports_offer, State.setPhase_offer]
    simp only [State.clearDownReports, State.setPhase, State.modPu_modPu_ne other, State.modPu_modPu]

end

/-- Settles O14. -/
theorem portDropByTargetState : Obligations.PortDropByTargetState := by
  unfold Obligations.PortDropByTargetState
  intro s p f late takes supervisor
  refine ⟨fun outside => takes.portDrop_noTarget late (dropTargetOf_none outside), fun q notSelf target => ?_⟩
  have other : q ≠ p := supervisor ▸ notSelf
  have dropped := takes.portDrop_target late (target ▸ dropTargetOf_portNumber notSelf)
  exact ⟨fun down => dropped.trans (congrArg _ (takes.dropTarget_down late other down)),
    fun closing => dropped.trans (congrArg _ (State.dropTarget_closing late other closing)),
    fun up => dropped.trans (congrArg _ (State.dropTarget_up late other up))⟩

/-! ### The order taken, and its report -/

theorem Transmitter.offer_reserved (t : Transmitter) (session : Session) (m : NoticeMask) (n : NoticeKind)
    (fields : List Byte) : (t.offer session m n fields).reserved = t.reserved ∧
      (t.offer session m n fields).discard = t.discard := by
  unfold Transmitter.offer
  split
  · exact ⟨rfl, rfl⟩
  · split
    · exact ⟨rfl, rfl⟩
    · split
      · exact ⟨rfl, rfl⟩
      · exact ⟨t.append_reserved _, t.append_discard _⟩

/-- The state in which a drop order begins the teardown: the order is taken, and a notice that waited for it is offered. -/
def State.orderTaken (s : State) (p : Port) (rest : List Bool) (waiting : Bool) : State :=
  if waiting then (s.modPu p (fun u => { u with dropOrders := rest })).offer p .sessionEnded []
  else s.modPu p (fun u => { u with dropOrders := rest })

section
variable (s : State) (p : Port) (rest : List Bool) (waiting : Bool)

theorem State.orderTaken_eq : s.orderTaken p rest waiting =
    (s.modPu p (fun u => { u with dropOrders := rest })).modLtx p (fun t =>
      if waiting then t.offer (s.pu.get p).session (s.pu.get p).mask .sessionEnded [] else t) := by
  cases waiting with
  | true => simp [State.orderTaken, State.offer]
  | false => exact (State.modLtx_id rfl).symm

variable {s p rest waiting} (orders : (s.pu.get p).dropOrders = waiting :: rest) (gather : (s.pu.get p).gather = none)
include orders gather

theorem State.exec_dropOrder : exec (.dropOrder p) s =
    .next ((s.modPu p (fun u => { u with dropOrders := rest })).takeDropOrder p waiting) := by
  simp only [exec, execDropOrder, orders, gather, ne_eq, not_true, if_false]

theorem State.exec_dropOrder_up (up : (s.pu.get p).session = .up) : exec (.dropOrder p) s =
    .next ((s.orderTaken p rest waiting).beginTeardown p .portDrop) := by
  rw [State.exec_dropOrder orders gather]
  simp only [State.takeDropOrder, State.modPu_pu, PerPort.get_set_self, up]
  rfl

end

theorem Transmitter.reached_queue {f : Transmitter → Transmitter} (h : f = id ∨ f = Transmitter.release)
    (t : Transmitter) : (f t).queue = t.queue := by
  rcases h with rfl | rfl
  · rfl
  · unfold Transmitter.release
    split <;> rfl

section
variable (s : State) (p : Port) (rest : List Bool) (waiting : Bool)

@[simp] theorem State.orderTaken_unit : (s.orderTaken p rest waiting).pu.get p = { s.pu.get p with dropOrders := rest } := by
  simp [State.orderTaken_eq]

theorem State.orderTaken_reserved : ((s.orderTaken p rest waiting).ltx.get p).reserved = (s.ltx.get p).reserved ∧
    ((s.orderTaken p rest waiting).ltx.get p).discard = (s.ltx.get p).discard := by
  cases waiting with
  | true => simpa [State.orderTaken_eq] using Transmitter.offer_reserved (s.ltx.get p) _ _ _ _
  | false => simp [State.orderTaken_eq]

end

/-- A down report taken. -/
def State.reportTaken (s : State) (q : Port) : State := s.modPu q (fun u => { u with downReports := u.downReports - 1 })

theorem State.reportTaken_executing (s : State) (q p : Port) :
    ((s.reportTaken q).pu.get p).executing = (s.pu.get p).executing := by
  by_cases same : p = q
  · subst same
    simp [State.reportTaken]
  · simp [State.reportTaken, PerPort.get_set_ne _ _ same]

theorem State.exec_downReport {s : State} {q : Port} (reports : (s.pu.get q).downReports ≠ 0)
    (gather : (s.pu.get .p0).gather = none) : exec (.downReport q) s = .next ((s.reportTaken q).takeDownReport q) := by
  simp only [exec, execDownReport, reports, gather, ne_eq, not_true, or_self, if_false]
  rfl

/-- Settles O15. -/
theorem dropOrderAndDownReport : Obligations.DropOrderAndDownReport := by
  unfold Obligations.DropOrderAndDownReport
  refine ⟨fun s p w rest orders gather => ?_, fun s q x reports gather executing phase sends reserved => ?_,
    fun s q reports gather other => ?_⟩
  · refine ⟨(s.modPu p (fun u => { u with dropOrders := rest })).takeDropOrder p w, State.exec_dropOrder orders gather,
      fun up => ?_, fun closing => ?_, fun down => ?_⟩
    · have torn : (s.modPu p (fun u => { u with dropOrders := rest })).takeDropOrder p w =
          (s.orderTaken p rest w).beginTeardown p .portDrop := by
        simp only [State.takeDropOrder, State.modPu_pu, PerPort.get_set_self, up]
        rfl
      have reaches : s.ReachesExecuting ((s.orderTaken p rest w).beginTeardown p .portDrop) p :=
        State.reachesExecuting (reserved := Executing.reserved) (by simp [PortUnit.close]) (by simp [PortUnit.close])
          (by simp [State.orderTaken_eq])
      obtain ⟨sameReserved, sameDiscard⟩ := s.orderTaken_reserved p rest w
      obtain ⟨m, x, o, f, kind, parts⟩ := (s.orderTaken p rest w).beginTeardown_parts p .portDrop
      have queue : (((s.orderTaken p rest w).beginTeardown p .portDrop).ltx.get p).queue =
          ((s.orderTaken p rest w).ltx.get p).queue := by
        rw [parts]
        simp [Transmitter.reached_queue kind]
      rw [torn]
      refine ⟨?_, ?_, ?_, ?_, ?_, ?_, reaches, fun off => ?_, fun on => ?_, fun sends free => ?_, fun x sends executing =>
        ⟨fun stands => ?_, fun drops => ?_⟩, ?_, ?_, ?_, ?_⟩
      · simp [parts, PortUnit.close]
      · simp [parts, PortUnit.close]
      · rw [parts]
        exact fun i => PortUnit.windowNamed_closed (by simp [PortUnit.close]) i
      · rw [parts, State.orderTaken_eq]
        simpa using Receiver.emptied_emptied (x := s.lrx.get p) (c := .portDrop) Cause.noConfusion
      · simp [parts, PortUnit.close, StepsDue.all_eq]
      · simp [parts, PortUnit.close]
      · rw [queue, off, State.orderTaken_eq]
        simp
      · rw [queue, on, State.orderTaken_eq]
        simp [State.offer]
      · rw [State.beginTeardown_ltx_idle (by simpa using free), sameReserved]
      · rw [State.beginTeardown_ltx_stands (x := x) (by simpa using executing) _ (by grind), sameReserved]
      · rw [State.beginTeardown_ltx_drops (x := x) (by simpa using executing) _ drops, State.modLtx_ltx,
          PerPort.get_set_self, Transmitter.release_sends (sameDiscard.trans sends), sameReserved]
      all_goals
        rw [parts, State.orderTaken_eq]
        rfl
    · simp only [State.takeDropOrder, State.modPu_pu, PerPort.get_set_self, closing]
    · simp only [State.takeDropOrder, State.modPu_pu, PerPort.get_set_self, down, State.modPu_modPu]
  · have running : ((s.reportTaken q).pu.get .p0).executing = some x := by rw [State.reportTaken_executing, executing]
    have answered : exec (.downReport q) s = .next ((s.reportTaken q).answer .p0 .ok (fieldOf 1 (portNumber q))) := by
      rw [State.exec_downReport reports gather, State.takeDownReport, State.answerIn, if_pos]
      rw [State.phase, running, Option.map_some, phase]
    rw [State.answer_sends running _ _ (by exact sends) (by exact reserved)] at answered
    refine ⟨_, answered, by simp [State.reportTaken], by simp [State.reportTaken], by simp, ?_⟩
    by_cases own : q = .p0
    · subst own
      simp [State.reportTaken]
    · simp [State.reportTaken, PerPort.get_set_ne _ _ own]
  · rw [State.exec_downReport reports gather, State.takeDownReport, State.answerIn, if_neg]
    · rfl
    · rwa [State.phase, State.reportTaken_executing]

end Sys2Proof.Machine
end

section
/-! SUPPORT. Characters on a port's line (R100 to R106). -/

namespace Sys2Proof.Machine

/-! ## A character after an idle line -/

theorem State.classify_takeCharacter (s : State) (p : Port) (mark : Bool) (b : Byte) (stop : Bool) :
    s.classify p mark b stop = s.takeCharacter p (false :: ((List.range 8).map (fun i => b.getLsbD i) ++ [mark])) stop := by
  have byte : byteOfBits (((false :: ((List.range 8).map (fun i => b.getLsbD i) ++ [mark])).drop 1).take 8) = b :=
    byteOfBits_levels b
  unfold State.takeCharacter State.classify
  rw [byte]
  rfl

theorem State.setRun_classify (s : State) (p : Port) (r : LineRun) (mark : Bool) (b : Byte) (stop : Bool) :
    (s.setRun p r).classify p mark b stop = (s.classify p mark b stop).setRun p r := by
  rw [State.classify_takeCharacter, State.setRun_takeCharacter, State.classify_takeCharacter]

theorem State.setRun_setRun (s : State) (p : Port) (r t : LineRun) : (s.setRun p r).setRun p t = s.setRun p t := by
  simp [State.setRun, State.modLrx]

/-- The run of space a character leaves. -/
def runAfter (levels : List Bool) : LineRun := if endingSpace levels = 0 then .none else .space (endingSpace levels)

section
variable {s : State} {p : Port} {idle : Nat}

theorem State.Listens.classified (h : s.Listens p idle) (mark : Bool) (b : Byte) (stop : Bool) :
    s.character p idle (mark, b) stop =
      (s.classify p mark b stop).setRun p (runAfter (characterLevels (mark, b) stop)) := by
  rw [h.character, State.setRun_classify, State.setRun_setRun, LineRun.foldl_next, runAfter]

/-- The receiver when a break is over. -/
def State.breakOver (s : State) (p : Port) : State :=
  s.modLrx p (fun x => { x with state := .hunting, run := .none, character := [] })

theorem State.BreakOver.classified (h : s.BreakOver p idle) (mark : Bool) (b : Byte) (stop : Bool) :
    s.character p idle (mark, b) stop =
      ((s.breakOver p).classify p mark b stop).setRun p (runAfter (characterLevels (mark, b) stop)) := by
  rw [State.character, State.line_append, h.line]
  have here : ((s.breakOver p).lrx.get p) = { s.lrx.get p with state := .hunting, run := .none, character := [] } := by
    simp [State.breakOver]
  rw [runAfter, ← LineRun.foldl_next]
  exact State.line_character (s := s.breakOver p) h.1 (by simp [here]) (by simp [here]) (by simp [here, LineRun.atSpace])
    mark b stop

theorem runAfter_good (mark : Bool) (b : Byte) : runAfter (characterLevels (mark, b) true) = .none := by
  rw [characterLevels_good, runAfter, if_pos]
  simp [endingSpace, goodLevels]

theorem State.character_held (h : s.resetLine ≠ .released) (c : Bool × Byte) (stop : Bool) :
    s.character p idle c stop = s := State.line_held h p _

theorem State.character_after (s : State) (p : Port) (idle : Nat) (mark : Bool) (b : Byte) (stop : Bool) :
    s.character p idle (mark, b) stop = s.after (lineCommands p idle (characterLevels (mark, b) stop)) :=
  (lineCommands_after p idle _ s).symm

/-! ## Characters with the mark bit set: an assembly begins (R103) -/

theorem State.classify_marked (h : (s.lrx.get p).state ≠ .assembling) (c : Byte) :
    s.classify p true c true = s.modLrx p (Receiver.begin c) := by
  simp only [State.classify, if_true, State.takeMarked]
  cases state : (s.lrx.get p).state with
  | assembling => exact absurd state h
  | hunting => rfl
  | brk => rfl

theorem State.classify_marked_assembling (h : (s.lrx.get p).state = .assembling) (c : Byte) :
    s.classify p true c true = (s.discardFrame p .cut).modLrx p (Receiver.begin c) := by
  simp only [State.classify, if_true, State.takeMarked, h]

end

theorem exec_marked {p : Port} {idle : Nat} {c : Byte} {i : Instr}
    (h : i = .assemblyBegins p idle c ∨ i = .cutDiscard p idle c) (s : State) :
    exec i s = .next (s.character p idle (true, c) true) := by
  rcases h with rfl | rfl <;> rfl

/-- Settles O47. -/
theorem markedCharacterBeginsAnAssembly : Obligations.MarkedCharacterBeginsAnAssembly := by
  unfold Obligations.MarkedCharacterBeginsAnAssembly
  intro s p idle c i marked
  rw [exec_marked marked]
  refine ⟨congrArg _ (s.character_after p idle true c true), fun held => congrArg _ (State.character_held held _ _),
    fun listens hunting => congrArg _ ?_, fun listens assembling => congrArg _ ?_, fun ends => congrArg _ ?_⟩
  · rw [listens.classified, runAfter_good, State.classify_marked (by simp [hunting])]
    simp [State.setRun, State.modLrx, Receiver.begin]
  · rw [listens.classified, runAfter_good, State.classify_marked_assembling assembling]
    simp [State.setRun, State.modLrx, State.discardFrame, State.offer, State.modLtx, Receiver.begin, Receiver.hunt,
      Receiver.countDiscard, assembling, DiscardReason.code]
    rfl
  · rw [ends.classified, runAfter_good, State.classify_marked (by simp [State.breakOver])]
    simp [State.setRun, State.modLrx, State.breakOver, Receiver.begin]

/-! ## Characters without the mark bit: the assembly goes on (R104 to R106) -/

theorem exec_unmarked {p : Port} {idle : Nat} {c : Byte} {i : Instr}
    (h : i = .characterAppended p idle c ∨ i = .lengthDiscard p idle c ∨ i = .frameComplete p idle c) (s : State) :
    exec i s = .next (s.character p idle (false, c) true) := by
  rcases h with rfl | rfl | rfl <;> rfl

section
variable {s : State} {p : Port}

theorem State.classify_unmarked (h : (s.lrx.get p).state ≠ .assembling) (c : Byte) : s.classify p false c true = s := by
  simp only [State.classify, if_true, Bool.false_eq_true, if_false, State.takeUnmarked]
  cases state : (s.lrx.get p).state with
  | assembling => exact absurd state h
  | hunting => rfl
  | brk => rfl

theorem State.classify_unmarked_assembling (h : (s.lrx.get p).state = .assembling) (c : Byte) :
    s.classify p false c true = s.assemble p ((s.lrx.get p).buffer ++ [c]) := by
  simp only [State.classify, if_true, Bool.false_eq_true, if_false, State.takeUnmarked, h]

variable {b : List Byte}

theorem State.assemble_more
    (h : b.length < 4 ∨ 4 < b.length ∧ b.length ≠ lengthField b + 6 ∨ b.length = 4 ∧ lengthField b ≤ 1040) :
    s.assemble p b = s.modLrx p (fun x => { x with buffer := b }) := by
  have long : ¬ (b.length = 4 ∧ maxPayload < lengthField b) := by
    rw [maxPayload]
    omega
  rw [State.assemble, if_neg long, if_neg (by omega)]

theorem State.assemble_tooLong (four : b.length = 4) (long : 1040 < lengthField b) :
    s.assemble p b = s.discardFrame p .length := if_pos ⟨four, long⟩

section
variable (whole : b.length = lengthField b + 6)
include whole

theorem State.assemble_whole : s.assemble p b = s.completeFrame p b := by
  rw [State.assemble, if_neg (by omega), if_pos (by omega)]

theorem checkGood_iff : checkGood b = true ↔
    (crc16 (b.take (b.length - 2))).toNat = fieldAt b (b.length - 2) 2 := by
  have place : b.length - 2 = 4 + lengthField b := by omega
  rw [checkGood, decide_eq_true_iff, place, eq_comm]

theorem State.assemble_bad (bad : (crc16 (b.take (b.length - 2))).toNat ≠ fieldAt b (b.length - 2) 2) :
    s.assemble p b = s.discardFrame p .check := by
  rw [State.assemble_whole whole, State.completeFrame, if_neg (fun good => bad ((checkGood_iff whole).1 good))]

theorem State.assemble_good (good : (crc16 (b.take (b.length - 2))).toNat = fieldAt b (b.length - 2) 2) :
    s.assemble p b = (s.modLrx p Receiver.hunt).placeFrame p (assembled b) := by
  rw [State.assemble_whole whole, State.completeFrame, if_pos ((checkGood_iff whole).2 good)]

end

section
variable (f : Frame)

theorem State.placeFrame_closing (h : (s.pu.get p).session = .closing) : s.placeFrame p f = s := if_pos h

theorem State.placeFrame_free (h : (s.pu.get p).session ≠ .closing) (free : (s.lrx.get p).held = none) :
    s.placeFrame p f = s.modLrx p (fun x => { x with held := some f }) := by
  simp only [State.placeFrame, h, if_false, free]

theorem State.placeFrame_overrun (h : (s.pu.get p).session ≠ .closing) (held : (s.lrx.get p).held ≠ none) :
    s.placeFrame p f =
      (s.modLrx p (fun x => { x with overruns := countUp x.overruns })).offer p .overrun [f.kind, f.tag] := by
  obtain ⟨g, held⟩ := Option.ne_none_iff_exists'.1 held
  simp only [State.placeFrame, h, if_false, held]

end

end

theorem assembled_eq (b : List Byte) : assembled b =
    { kind := b.getD 0 0, tag := b.getD 1 0, payload := (b.drop 4).take (lengthField b) } := by
  rw [assembled, List.headD_eq_head?_getD, List.head?_eq_getElem?, List.getD_eq_getElem?_getD]
  rfl

theorem lengthField_eq (b : List Byte) :
    lengthField b = (b.getD 2 0).toNat * 256 + (b.getD 3 0).toNat ∨ b.length < 4 := by
  match b with
  | [] | [_] | [_, _] | [_, _, _] => exact .inr (by simp)
  | _ :: _ :: _ :: _ :: _ => exact .inl (by simp [lengthField, fieldAt, slice, numberOf])

theorem crcShift_eq (r : Word16) : crcShift r = if r.getLsbD 15 then (r <<< 1) ^^^ 0x1021#16 else r <<< 1 := by
  rw [crcShift, BitVec.msb_eq_getLsbD_last]

/-- Settles O48. -/
theorem unmarkedCharacterGoesOnWithTheAssembly : Obligations.UnmarkedCharacterGoesOnWithTheAssembly := by
  unfold Obligations.UnmarkedCharacterGoesOnWithTheAssembly
  refine ⟨fun s p idle c i b unmarked whole => ?_, lengthField_eq, rfl, fun bs b => ?_, fun shift r b shifts => ?_⟩
  · rw [exec_unmarked unmarked]
    refine ⟨congrArg _ (s.character_after p idle false c true), fun held => congrArg _ (State.character_held held _ _),
      fun ends => congrArg _ ?_, fun listens => ⟨fun hunting => congrArg _ ?_, fun assembling => ?_⟩⟩
    · rw [ends.classified, runAfter_good, State.classify_unmarked (by simp [State.breakOver])]
      simp [State.setRun, State.modLrx, State.breakOver]
    · rw [listens.classified, runAfter_good, State.classify_unmarked (by simp [hunting])]
      rfl
    · have taken : s.character p idle (false, c) true = (s.assemble p b).setRun p .none := by
        rw [listens.classified, runAfter_good, State.classify_unmarked_assembling assembling, whole]
      rw [taken]
      refine ⟨fun more => congrArg _ ?_, fun four long => congrArg _ ?_, fun entire =>
        ⟨fun bad => congrArg _ ?_, fun good => ⟨fun closing => congrArg _ ?_, fun up free => congrArg _ ?_,
          fun up held => congrArg _ ?_⟩⟩⟩
      · rw [State.assemble_more more]
        simp [State.setRun, State.modLrx]
      · rw [State.assemble_tooLong four long]
        simp [State.setRun, State.modLrx, State.discardFrame, State.offer, State.modLtx, Receiver.hunt,
          Receiver.countDiscard, DiscardReason.code]
        rfl
      · rw [State.assemble_bad entire bad]
        simp [State.setRun, State.modLrx, State.discardFrame, State.offer, State.modLtx, Receiver.hunt,
          Receiver.countDiscard, DiscardReason.code]
        rfl
      · rw [State.assemble_good entire good, State.placeFrame_closing _ (by exact closing)]
        simp [State.setRun, State.modLrx, Receiver.hunt]
      · rw [State.assemble_good entire good, State.placeFrame_free _ (by exact up) (by simpa [Receiver.hunt] using free),
          assembled_eq]
        simp [State.setRun, State.modLrx, Receiver.hunt]
      · rw [State.assemble_good entire good, State.placeFrame_overrun _ (by exact up)
          (by simpa [Receiver.hunt] using held), assembled_eq]
        simp [State.setRun, State.modLrx, State.offer, State.modLtx, Receiver.hunt]
        rfl
  · rw [crc16, crcFold, List.foldl_append, crc16, crcFold]
    rfl
  · obtain rfl : shift = crcShift := funext (fun x => (shifts x).trans (crcShift_eq x).symm)
    rfl

end Sys2Proof.Machine
end

section
/-! SUPPORT. Stop-bit errors and breaks on a port's line (R101, R102, R107 to R110, R151). -/

namespace Sys2Proof.Machine

/-! ## One bit -/

section
variable {s : State} {p : Port}

theorem exec_lineBreak (n : Nat) : exec (.lineBreak p n) s = .next (s.line p (List.replicate n false)) := rfl

theorem exec_breakEnd (n : Nat) : exec (.breakEnd p n) s = .next (s.line p (List.replicate n true)) := rfl

theorem exec_lineBreak_one (h : s.resetLine = .released) : exec (.lineBreak p 1) s = .next (s.lineBit p false) :=
  congrArg _ (State.line_bit h p false)

theorem exec_breakEnd_one (h : s.resetLine = .released) : exec (.breakEnd p 1) s = .next (s.lineBit p true) :=
  congrArg _ (State.line_bit h p true)

theorem LineRun.spaces_eq {r : LineRun} {n : Nat} (h : r = .space n ∨ n = 0 ∧ ∀ k, r ≠ .space k) : r.spaces = n := by
  rcases h with rfl | ⟨rfl, other⟩
  · rfl
  · cases r with
    | space k => exact absurd rfl (other k)
    | none => rfl
    | mark k => rfl

theorem LineRun.marks_eq {r : LineRun} {n : Nat} (h : r = .mark n ∨ n = 0 ∧ ∀ k, r ≠ .mark k) : r.marks = n := by
  rcases h with rfl | ⟨rfl, other⟩
  · rfl
  · cases r with
    | mark k => exact absurd rfl (other k)
    | none => rfl
    | space k => rfl

theorem LineRun.atSpace_eq_false {r : LineRun} (h : ∀ k, r ≠ .space k) : r.atSpace = false := by
  cases r with
  | space k => exact absurd rfl (h k)
  | none => rfl
  | mark k => rfl

theorem LineRun.next_mark (r : LineRun) : (r.next true).spaces < breakBits := show 0 < 22 by decide

theorem Receiver.inCharacter_begun {x : Receiver} (h : x.character ≠ []) (level : Bool) : x.inCharacter level = true := by
  simp [Receiver.inCharacter, h]

/-! ### A bit at space -/

section
variable (st : (s.lrx.get p).state ≠ .brk) (few : (s.lrx.get p).run.spaces + 1 < 22)
include st few

theorem State.lineBit_space_idle {m : Nat} (none : (s.lrx.get p).character = []) (run : (s.lrx.get p).run = .space m) :
    s.lineBit p false = s.modLrx p (fun x => { x with run := .space (m + 1) }) := by
  rw [State.lineBit_idle (level := false) st (by simp [Receiver.inCharacter, none, run, LineRun.atSpace]) few]
  exact State.modLrx_congr (by simp [Receiver.countRun, run, LineRun.spaces])

theorem State.lineBit_space_starts (none : (s.lrx.get p).character = []) (mark : ∀ k, (s.lrx.get p).run ≠ .space k) :
    s.lineBit p false = s.modLrx p (fun x => { x with run := .space 1, character := [false] }) := by
  have spaces := LineRun.spaces_eq (n := 0) (.inr ⟨rfl, mark⟩)
  rw [State.lineBit_more (level := false) st (by simp [Receiver.inCharacter, none, LineRun.atSpace_eq_false mark]) (by simp [none]) few]
  exact State.modLrx_congr (by simp [none, LineRun.next, spaces])

theorem State.lineBit_space_more (begun : (s.lrx.get p).character ≠ []) (more : (s.lrx.get p).character.length < 10) :
    s.lineBit p false = s.modLrx p (fun x => { x with
      run := .space ((s.lrx.get p).run.spaces + 1), character := x.character ++ [false] }) :=
  (State.lineBit_more (level := false) st (Receiver.inCharacter_begun begun _) more few).trans (State.modLrx_congr rfl)

theorem State.lineBit_space_stop (ten : (s.lrx.get p).character.length = 10) :
    s.lineBit p false = ((s.modLrx p (fun x => { x with character := [] })).discardAssembly p).setRun p
      (.space ((s.lrx.get p).run.spaces + 1)) := by
  rw [State.lineBit_stop st false (by omega) few]
  have discards : ∀ (t : State) (levels : List Bool), t.takeCharacter p levels false = t.discardAssembly p := fun _ _ => rfl
  have run := (State.takeCharacter_run (s.modLrx p (fun x => { x with character := [] })) p (s.lrx.get p).character
    false).1
  rw [discards] at run ⊢
  refine State.modLrx_congr ?_
  simp [Receiver.countRun, run]

end

/-! ### A bit at mark -/

section
variable (st : (s.lrx.get p).state ≠ .brk)
include st

theorem State.lineBit_mark_idle (none : (s.lrx.get p).character = []) : s.lineBit p true = s.setRun p .none :=
  State.lineBit_idle st (by simp [Receiver.inCharacter, none]) (LineRun.next_mark _)

theorem State.lineBit_mark_more (begun : (s.lrx.get p).character ≠ []) (more : (s.lrx.get p).character.length < 10) :
    s.lineBit p true = s.modLrx p (fun x => { x with run := .none, character := x.character ++ [true] }) :=
  State.lineBit_more st (Receiver.inCharacter_begun begun _) more (LineRun.next_mark _)

theorem State.lineBit_mark_stop {mark : Bool} {c : Byte} (levels : (s.lrx.get p).character = (goodLevels mark c).take 10) :
    s.lineBit p true = ((s.modLrx p (fun x => { x with run := .none, character := [] })).classify p mark c true).setRun p
      .none := by
  have taken : (s.modLrx p (fun x => { x with run := .none, character := [] })) =
      (s.modLrx p (fun x => { x with character := [] })).setRun p .none := by
    simp [State.setRun, State.modLrx]
  rw [State.lineBit_stop st true (by simp [levels, goodLevels]) (LineRun.next_mark _), levels, taken, State.setRun_classify,
    State.setRun_setRun, State.classify_takeCharacter]
  rfl

end

end

/-! ## Runs of space -/

theorem LineRun.foldl_space (m n : Nat) : (List.replicate n false).foldl LineRun.next (.space m) = .space (m + n) := by
  induction n generalizing m with
  | zero => rfl
  | succ n ih => rw [List.replicate_succ, List.foldl_cons, LineRun.next, if_neg Bool.false_ne_true, LineRun.spaces, ih,
      Nat.add_assoc, Nat.add_comm 1]

/-- A break found: the receiver in BREAK with `n` levels at space counted, and the port unit told. -/
def State.breakFound (s : State) (p : Port) (n : Nat) : State :=
  (s.modLrx p (fun x => { x with state := .brk, buffer := [], held := none, run := .space n, character := [] })).modPu p
    (fun u => { u with breakReports := u.breakReports + 1 })

section
variable {s : State} {p : Port}

theorem State.discardAssembly_run (s : State) (p : Port) :
    ((s.discardAssembly p).lrx.get p).run = (s.lrx.get p).run ∧
      ((s.discardAssembly p).lrx.get p).character = (s.lrx.get p).character :=
  State.takeCharacter_run s p [] false

theorem State.discardAssembly_hunts (st : (s.lrx.get p).state ≠ .brk) :
    ((s.discardAssembly p).lrx.get p).state = .hunting := by
  cases state : (s.lrx.get p).state with
  | hunting => rw [State.discardAssembly_other (by simp [state]), state]
  | assembling =>
    rw [State.discardAssembly_assembling state]
    simp [State.offer]
  | brk => exact absurd state st

theorem State.discardAssembly_again (st : (s.lrx.get p).state ≠ .brk) (r : LineRun) :
    ((s.discardAssembly p).setRun p r).discardAssembly p = (s.discardAssembly p).setRun p r := by
  refine State.discardAssembly_other ?_
  rw [State.setRun_lrx, State.discardAssembly_hunts st]
  exact RxState.noConfusion

theorem State.setRun_discardAssembly (s : State) (p : Port) (r : LineRun) :
    (s.setRun p r).discardAssembly p = (s.discardAssembly p).setRun p r := s.setRun_takeCharacter p r [] false

theorem State.breakFound_setRun (s : State) (p : Port) (r : LineRun) (n : Nat) :
    (s.setRun p r).breakFound p n = s.breakFound p n := by
  simp [State.breakFound, State.setRun, State.modLrx]

theorem State.lineBit_breakFound (st : (s.lrx.get p).state ≠ .brk) (many : 22 ≤ (s.lrx.get p).run.spaces + 1) :
    s.lineBit p false = (s.discardAssembly p).breakFound p ((s.lrx.get p).run.spaces + 1) := by
  rw [State.lineBit_break st many, ← (s.discardAssembly_run p).1]
  rfl

theorem State.breakFound_goesOn (released : s.resetLine = .released) (m n : Nat) :
    (s.breakFound p m).line p (List.replicate n false) = s.breakFound p (m + n) := by
  cases n with
  | zero => rw [List.replicate_zero, State.line_nil, Nat.add_zero]
  | succ n =>
    rw [State.line_space_brk (by exact released) (by simp [State.breakFound])]
    simp [State.breakFound, State.setRun, LineRun.spaces, State.modLrx]
    rfl

section
variable (released : s.resetLine = .released) (st : (s.lrx.get p).state ≠ .brk) (idle : (s.lrx.get p).character = [])
include released st idle

/-- A run of space from before goes on to a break. -/
theorem State.line_space_breaks {m : Nat} (run : (s.lrx.get p).run = .space m) {bits : Nat} (some : 1 ≤ bits)
    (many : 22 ≤ m + bits) :
    s.line p (List.replicate bits false) = (s.discardAssembly p).breakFound p (m + bits) := by
  obtain ⟨j, rest, bits, at'⟩ : ∃ j rest, bits = j + 1 + rest ∧ (j = 0 ∧ 21 ≤ m ∨ m + j = 21) := by
    by_cases late : 21 ≤ m
    · exact ⟨0, bits - 1, by omega, .inl ⟨rfl, late⟩⟩
    · exact ⟨21 - m, m + bits - 22, by omega, .inr (by omega)⟩
  have before : s.line p (List.replicate j false) = s.setRun p (.space (m + j)) := by
    rcases at' with ⟨rfl, -⟩ | at'
    · rw [List.replicate_zero, State.line_nil, Nat.add_zero, ← run]
      exact (State.modLrx_id rfl).symm
    · exact State.line_space_idle released st idle run j (by rw [at']; decide)
  have found : (s.setRun p (.space (m + j))).line p [false] = (s.discardAssembly p).breakFound p (m + j + 1) := by
    rw [State.line_bit (by exact released), State.lineBit_breakFound (by rw [State.setRun_lrx]; exact st)
      (by rw [State.setRun_lrx]; dsimp only [LineRun.spaces]; omega), State.setRun_discardAssembly,
      State.breakFound_setRun, State.setRun_lrx]
    rfl
  have kept : (s.discardAssembly p).resetLine = .released :=
    ((State.LineKept.refl p s).discardAssembly.resetLine).trans released
  rw [bits, State.line_replicate_add, State.line_replicate_add, before]
  exact (congrArg (fun t : State => t.line p (List.replicate rest false)) found).trans
    ((State.breakFound_goesOn kept _ _).trans (by rw [Nat.add_assoc m, Nat.add_assoc m]))

variable (mark : ∀ k, (s.lrx.get p).run ≠ .space k)
include mark

/-- Eleven levels at space are a character without its stop bit. -/
theorem State.line_space_character :
    s.line p (List.replicate 11 false) = (s.discardAssembly p).setRun p (.space 11) :=
  State.line_character released st idle (LineRun.atSpace_eq_false mark) false 0 false

theorem State.line_space_inside {bits : Nat} (some : 1 ≤ bits) (few : bits < 11) : s.line p (List.replicate bits false) =
    s.modLrx p (fun x => { x with run := .space bits, character := List.replicate bits false }) := by
  obtain ⟨n, rfl⟩ := Nat.exists_eq_add_of_le' some
  have spaces := LineRun.spaces_eq (n := 0) (.inr ⟨rfl, mark⟩)
  have first : s.line p [false] = s.modLrx p (fun x => { x with run := .space 1, character := [false] }) := by
    rw [State.line_bit released, State.lineBit_space_starts st (by omega) idle mark]
  obtain ⟨rest, -⟩ := State.line_inside (List.replicate n false)
    (s := s.modLrx p (fun x => { x with run := .space 1, character := [false] })) (p := p) (by exact released)
    (by simpa using st) (by simp) (by simp; omega) (by simp [LineRun.spaces])
  rw [List.replicate_succ, State.line_cons, first, rest, State.modLrx_modLrx]
  refine State.modLrx_congr ?_
  simp [LineRun.foldl_space, Nat.add_comm]

/-- More than a character, and less than a break. -/
theorem State.line_space_beyond {bits : Nat} (some : 11 ≤ bits) (few : bits < 22) :
    s.line p (List.replicate bits false) = (s.discardAssembly p).setRun p (.space bits) := by
  obtain ⟨rest, rfl⟩ := Nat.exists_eq_add_of_le some
  have kept : (s.discardAssembly p).resetLine = .released :=
    ((State.LineKept.refl p s).discardAssembly.resetLine).trans released
  obtain ⟨-, character⟩ := s.discardAssembly_run p
  rw [State.line_replicate_add, State.line_space_character released st idle mark,
    State.line_space_idle (m := 11) (by exact kept) (by rw [State.setRun_lrx, State.discardAssembly_hunts st]; exact RxState.noConfusion)
      (by rw [State.setRun_lrx]; exact character.trans idle) (by rw [State.setRun_lrx]) _ few, State.setRun_setRun]

/-- A break from an idle line. -/
theorem State.line_space_breaks_fresh {bits : Nat} (many : 22 ≤ bits) :
    s.line p (List.replicate bits false) = (s.discardAssembly p).breakFound p bits := by
  obtain ⟨rest, rfl⟩ := Nat.exists_eq_add_of_le (show 11 ≤ bits by omega)
  have kept : (s.discardAssembly p).resetLine = .released :=
    ((State.LineKept.refl p s).discardAssembly.resetLine).trans released
  obtain ⟨-, character⟩ := s.discardAssembly_run p
  rw [State.line_replicate_add, State.line_space_character released st idle mark,
    State.line_space_breaks (m := 11) (by exact kept) (by rw [State.setRun_lrx, State.discardAssembly_hunts st]; exact RxState.noConfusion)
      (by rw [State.setRun_lrx]; exact character.trans idle) (by rw [State.setRun_lrx]) (by omega) many,
    State.discardAssembly_again st, State.breakFound_setRun]

end

end

/-! ## A character without its stop bit -/

theorem runAfter_error (mark : Bool) (c : Byte) :
    runAfter (characterLevels (mark, c) false) = .space (endingSpace (errorLevels mark c)) := by
  rw [characterLevels_error, runAfter, if_neg]
  simp [endingSpace, errorLevels]

theorem State.classify_error (s : State) (p : Port) (mark : Bool) (c : Byte) :
    s.classify p mark c false = s.discardAssembly p := rfl

section
variable {s : State} {p : Port}

theorem State.discardAssembly_setRun_hunting (h : (s.lrx.get p).state = .hunting) (r : LineRun) :
    (s.discardAssembly p).setRun p r = s.modLrx p (fun x => { x with run := r }) := by
  rw [State.discardAssembly_other (by simp [h])]
  rfl

/-- The framing discard is counted and noticed. -/
theorem State.discardAssembly_setRun_assembling (h : (s.lrx.get p).state = .assembling) (r : LineRun) :
    (s.discardAssembly p).setRun p r = (s.modLrx p (fun x => { x with
      state := .hunting, buffer := [], run := r,
      framingDiscards := min (x.framingDiscards + 1) 65535 })).offer p .frameDiscarded [3] := by
  rw [State.discardAssembly_assembling h, ← State.setRun_offer]
  simp [State.setRun, State.modLrx]
  rfl

theorem State.breakFound_hunting (h : (s.lrx.get p).state = .hunting) (n : Nat) :
    (s.discardAssembly p).breakFound p n = (s.modLrx p (fun x => { x with
      state := .brk, buffer := [], held := none, run := .space n, character := [] })).modPu p
      (fun u => { u with breakReports := u.breakReports + 1 }) := by
  rw [State.discardAssembly_other (by simp [h])]
  rfl

theorem State.breakFound_assembling (h : (s.lrx.get p).state = .assembling) (n : Nat) :
    (s.discardAssembly p).breakFound p n = ((s.modLrx p (fun x => { x with
      state := .brk, buffer := [], held := none, run := .space n, character := [],
      framingDiscards := min (x.framingDiscards + 1) 65535 })).offer p .frameDiscarded [3]).modPu p
      (fun u => { u with breakReports := u.breakReports + 1 }) := by
  rw [State.discardAssembly_assembling h]
  simp [State.breakFound, State.offer, State.modLrx, State.modLtx, State.modPu]
  rfl

theorem exec_framingDiscard (idle : Nat) (mark : Bool) (c : Byte) :
    exec (.framingDiscard p idle (mark, c)) s = .next (s.character p idle (mark, c) false) := rfl

/-- A break out of an idle line or out of a run of space, no character begun. -/
theorem State.line_break (released : s.resetLine = .released) (st : (s.lrx.get p).state ≠ .brk)
    (idle : (s.lrx.get p).character = []) {before bits : Nat}
    (run : (s.lrx.get p).run = .space before ∨ before = 0 ∧ ∀ k, (s.lrx.get p).run ≠ .space k) (some : 1 ≤ bits)
    (many : 22 ≤ before + bits) :
    s.line p (List.replicate bits false) = (s.discardAssembly p).breakFound p (before + bits) := by
  rcases run with space | ⟨rfl, mark⟩
  · exact State.line_space_breaks released st idle space some many
  · rw [Nat.zero_add] at many ⊢
    exact State.line_space_breaks_fresh released st idle mark many

end

/-- Settles O49. -/
theorem stopBitErrorsAndBreaks : Obligations.StopBitErrorsAndBreaks := by
  unfold Obligations.StopBitErrorsAndBreaks
  refine ⟨fun s p n idle c m held => ⟨?_, ?_, ?_⟩, fun s p m n => ⟨?_, ?_, ?_, ?_⟩,
    fun s p before n released st run count => ?_, fun s p released st => ⟨fun none => ?_, fun begun more => ?_,
      fun mark c levels => ?_⟩, fun s p idle c m k ending => ⟨?_, fun listens hunting => ?_, fun listens assembling => ?_,
      fun ends => ?_⟩, fun s p bits before n released some run count => ?_,
    fun s p bits before released some run => ⟨fun brk long => ?_, fun brk short => ?_, fun st none => ?_⟩⟩
  · exact congrArg _ (State.line_held held p _)
  · exact congrArg _ (State.line_held held p _)
  · exact congrArg _ (State.line_held held p _)
  · exact congrArg _ (s.line_nil p)
  · exact congrArg _ (s.line_nil p)
  · exact congrArg _ (s.line_replicate_add p false m n)
  · exact congrArg _ (s.line_replicate_add p true m n)
  · have spaces := LineRun.spaces_eq run
    rw [exec_lineBreak_one released]
    refine ⟨fun few none at' => congrArg _ ?_, fun none mark => congrArg _ ?_, fun few begun more => congrArg _ ?_,
      fun few ten hunting => congrArg _ ?_, fun few ten assembling => congrArg _ ?_, fun many hunting => congrArg _ ?_,
      fun many assembling => congrArg _ ?_⟩
    · rw [State.lineBit_space_idle st (by omega) none at', count]
    · have zero := LineRun.spaces_eq (n := 0) (.inr ⟨rfl, mark⟩)
      obtain rfl : n = 1 := by omega
      rw [State.lineBit_space_starts st (by omega) none mark]
    · rw [State.lineBit_space_more st (by omega) begun more, spaces, count]
    · rw [State.lineBit_space_stop st (by omega) ten, State.discardAssembly_setRun_hunting (by simp [hunting]), spaces, count]
      simp [State.modLrx]
    · rw [State.lineBit_space_stop st (by omega) ten, State.discardAssembly_setRun_assembling (by simp [assembling]), spaces,
        count]
      simp [State.modLrx]
    · rw [State.lineBit_breakFound st (by omega), State.breakFound_hunting hunting, spaces, count]
    · rw [State.lineBit_breakFound st (by omega), State.breakFound_assembling assembling, spaces, count]
  · rw [exec_breakEnd_one released, State.lineBit_mark_idle st none]
    rfl
  · rw [exec_breakEnd_one released, State.lineBit_mark_more st begun more]
  · rw [exec_breakEnd_one released, State.lineBit_mark_stop st levels]
    have listens : (s.modLrx p (fun x => { x with run := .none, character := [] })).Listens p 0 :=
      ⟨released, by simpa using st, by simp, fun k run => by simp at run⟩
    have taken := listens.classified mark c true
    rw [runAfter_good] at taken
    rw [← taken]
    cases mark <;> rfl
  · exact congrArg _ (s.character_after p idle m c false)
  · subst ending
    rw [exec_framingDiscard, listens.classified, runAfter_error, State.classify_error, State.discardAssembly_setRun_hunting hunting]
  · subst ending
    rw [exec_framingDiscard, listens.classified, runAfter_error, State.classify_error, State.discardAssembly_setRun_assembling assembling]
  · subst ending
    rw [exec_framingDiscard, ends.classified, runAfter_error, State.classify_error,
      State.discardAssembly_setRun_hunting (by simp [State.breakOver])]
    simp [State.breakOver, State.modLrx]
  · subst count
    rw [exec_lineBreak]
    refine ⟨fun brk => congrArg _ ?_, fun st none => ⟨fun few at' => congrArg _ ?_, fun few mark => congrArg _ ?_,
      fun long few mark hunting => congrArg _ ?_, fun long few mark assembling => congrArg _ ?_,
      fun many hunting => congrArg _ ?_, fun many assembling => congrArg _ ?_⟩⟩
    · rw [← LineRun.spaces_eq run]
      obtain ⟨n, rfl⟩ := Nat.exists_eq_add_of_le' some
      exact State.line_space_brk released brk n
    · exact State.line_space_idle released st none at' bits few
    · obtain rfl : before = 0 := (LineRun.spaces_eq run).symm.trans (LineRun.spaces_eq (.inr ⟨rfl, mark⟩))
      rw [Nat.zero_add] at few ⊢
      exact State.line_space_inside released st none mark some few
    · obtain rfl : before = 0 := (LineRun.spaces_eq run).symm.trans (LineRun.spaces_eq (.inr ⟨rfl, mark⟩))
      rw [Nat.zero_add] at long few ⊢
      rw [State.line_space_beyond released st none mark long few, State.discardAssembly_setRun_hunting hunting]
    · obtain rfl : before = 0 := (LineRun.spaces_eq run).symm.trans (LineRun.spaces_eq (.inr ⟨rfl, mark⟩))
      rw [Nat.zero_add] at long few ⊢
      rw [State.line_space_beyond released st none mark long few, State.discardAssembly_setRun_assembling assembling]
    · rw [State.line_break released st none run some many, State.breakFound_hunting hunting]
      simp [State.modLrx, none]
    · rw [State.line_break released st none run some many, State.breakFound_assembling assembling]
      simp [State.modLrx, State.offer, none]
  · obtain ⟨n, rfl⟩ := Nat.exists_eq_add_of_le' some
    exact congrArg _ (State.line_mark_ends_brk released brk n (by rw [LineRun.marks_eq run]; exact long))
  · obtain ⟨n, rfl⟩ := Nat.exists_eq_add_of_le' some
    rw [← LineRun.marks_eq run]
    exact congrArg _ (State.line_mark_brk released brk n (by rw [LineRun.marks_eq run]; exact short))
  · obtain ⟨n, rfl⟩ := Nat.exists_eq_add_of_le' some
    exact congrArg _ (State.line_mark_idle released st none n)

end Sys2Proof.Machine
end

section
/-! SUPPORT. The end of a chunk: the job goes on, is paused, or ends (R130, R134, R139, R144). -/

namespace Sys2Proof.Machine

/-! ## Replies to the requests that wait for the chunk's end -/

/-- A reply depends on the port unit and the transmitter alone. -/
theorem State.answer_congr {u v : State} (pu : u.pu = v.pu) (ltx : u.ltx = v.ltx) (p : Port) (r : Result)
    (fields : List Byte) :
    (u.answer p r fields).pu = (v.answer p r fields).pu ∧ (u.answer p r fields).ltx = (v.answer p r fields).ltx := by
  cases executing : (v.pu.get p).executing with
  | none =>
    rw [State.answer_free executing, State.answer_free (by rw [pu, executing])]
    exact ⟨pu, ltx⟩
  | some x =>
    rw [State.answer_executing executing, State.answer_executing (by rw [pu, executing])]
    simp [State.modLtx, State.modPu, pu, ltx]

theorem State.offer_congr {u v : State} (pu : u.pu = v.pu) (ltx : u.ltx = v.ltx) (p : Port) (n : NoticeKind)
    (fields : List Byte) : (u.offer p n fields).ltx = (v.offer p n fields).ltx := by
  simp [State.offer, pu, ltx]

theorem State.answer_phase_ne (s : State) {p q : Port} (other : q ≠ p) (r : Result) (fields : List Byte) :
    (s.answer p r fields).phase q = s.phase q := by
  cases executing : (s.pu.get p).executing with
  | none => rw [State.answer_free executing]
  | some x =>
    rw [State.answer_executing executing, State.phase_modPu_ne _ _ other]
    rfl

/-- Requests of different ports that all wait are answered one after another. -/
theorem State.answers_waiting (result : StopWaiter → Result) (fields : StopWaiter → List Byte) :
    ∀ (ws : List StopWaiter) (u v : State), u.pu = v.pu → u.ltx = v.ltx →
      (∀ w ∈ ws, u.phase w.port = some .atChunkEnd) → (ws.map (fun w => w.port)).Nodup →
      (u.each ws (fun t w => t.answerIn w.port .atChunkEnd (result w) (fields w))).pu =
        (ws.foldl (fun t w => t.answer w.port (result w) (fields w)) v).pu ∧
      (u.each ws (fun t w => t.answerIn w.port .atChunkEnd (result w) (fields w))).ltx =
        (ws.foldl (fun t w => t.answer w.port (result w) (fields w)) v).ltx := by
  intro ws
  induction ws with
  | nil => exact fun u v pu ltx _ _ => ⟨pu, ltx⟩
  | cons w ws ih =>
    intro u v pu ltx waits distinct
    obtain ⟨fresh, distinct⟩ := List.nodup_cons.1 distinct
    have answered : u.answerIn w.port .atChunkEnd (result w) (fields w) = u.answer w.port (result w) (fields w) :=
      if_pos (waits w List.mem_cons_self)
    obtain ⟨samePu, sameLtx⟩ := State.answer_congr pu ltx w.port (result w) (fields w)
    refine ih (u.answerIn w.port .atChunkEnd (result w) (fields w)) (v.answer w.port (result w) (fields w)) ?_ ?_
      (fun x hx => ?_) distinct
    · rw [answered, samePu]
    · rw [answered, sameLtx]
    · rw [answered, State.answer_phase_ne _ (fun same => fresh (List.mem_map.2 ⟨x, hx, same⟩))]
      exact waits x (List.mem_cons_of_mem _ hx)

theorem State.each_mail {α : Type} (s : State) (xs : List α) (f : State → α → State)
    (h : ∀ t x, (f t x).mail = t.mail) : (s.each xs f).mail = s.mail := by
  induction xs generalizing s with
  | nil => rfl
  | cons x xs ih => exact (ih (f s x)).trans (h s x)

theorem State.answerIn_mail (s : State) (p : Port) (f : Phase) (r : Result) (fields : List Byte) :
    (s.answerIn p f r fields).mail = s.mail := by
  unfold State.answerIn State.answer
  split
  · split <;> rfl
  · rfl

/-- What a request waiting for the chunk's end is answered when the job has ended. -/
def StopWaiter.endResult (w : StopWaiter) : Result := if w.kind = .jobPause then .wrongState else .ok

def StopWaiter.endFields (fields : List Byte) (w : StopWaiter) : List Byte := if w.kind = .jobPause then [] else fields

theorem State.answerEnded_eq (s : State) (j : Job) : s.answerEnded j = s.each j.stopWaiters (fun t w =>
    t.answerIn w.port .atChunkEnd w.endResult (w.endFields j.stopFields)) := by
  unfold State.answerEnded
  congr 1
  funext t w
  unfold StopWaiter.endResult StopWaiter.endFields
  split <;> rfl

theorem State.answerEnded_mail (s : State) (j : Job) : (s.answerEnded j).mail = s.mail := by
  rw [State.answerEnded_eq]
  exact s.each_mail _ _ (fun t _ => t.answerIn_mail ..)

theorem State.answerPaused_mail (s : State) (j : Job) : (s.answerPaused j).mail = s.mail :=
  s.each_mail _ _ (fun t _ => t.answerIn_mail ..)

/-! ## What selecting a job leaves -/

theorem JobEngine.find_modJob {x : Nat} {f : Job → Job} (kept : ∀ k, k.id = x → (f k).id = k.id) (e : JobEngine) (id : Nat) :
    (e.modJob x f).find id = (e.find id).map (fun k => if k.id = x then f k else k) := by
  have ids : ∀ k : Job, (if k.id = x then f k else k).id = k.id := fun k => by
    by_cases own : k.id = x
    · rw [if_pos own, kept k own]
    · rw [if_neg own]
  simp only [JobEngine.find, JobEngine.modJob, List.find?_map, Function.comp_def, ids]

theorem JobEngine.find_modJob_ne {x id : Nat} (other : id ≠ x) {f : Job → Job} (kept : ∀ k, k.id = x → (f k).id = k.id)
    (e : JobEngine) : (e.modJob x f).find id = e.find id := by
  rw [JobEngine.find_modJob kept]
  cases found : e.find id with
  | none => rfl
  | some k => rw [Option.map_some, if_neg (fun own => other ((JobEngine.find_id found).symm.trans own))]

section
variable (s : State)

theorem State.selectJob_cases : s.selectJob = s ∨ ∃ j ∈ s.engine.jobs, j.state = .queued ∧ s.selectJob =
    (s.modEngine (fun e => e.modJob j.id (fun k => { k with state := .running }))).askChunk j := by
  cases running : s.engine.running with
  | some r => exact .inl (State.selectJob_busy (by simp [running]))
  | none =>
    cases found : s.engine.jobs.find? (fun j => j.state == .queued) with
    | none => exact .inl (by simp only [State.selectJob, running, found])
    | some j =>
      exact .inr ⟨j, List.mem_of_find?_eq_some found, by simpa using List.find?_some found,
        by simp only [State.selectJob, running, found]⟩

theorem State.selectJob_ltx : s.selectJob.ltx = s.ltx := by
  rcases s.selectJob_cases with same | ⟨j, -, -, asked⟩
  · rw [same]
  · rw [asked]
    rfl

theorem State.selectJob_histories : s.selectJob.engine.histories = s.engine.histories := by
  rcases s.selectJob_cases with same | ⟨j, -, -, asked⟩
  · rw [same]
  · rw [asked]
    rfl

theorem State.selectJob_claimEnd : (s.selectJob.mail.get .engine).claimEnd = (s.mail.get .engine).claimEnd := by
  rcases s.selectJob_cases with same | ⟨j, -, -, asked⟩
  · rw [same]
  · rw [asked]
    simp [State.askChunk, State.askAdmission, Job.access, Access.requester]

theorem State.selectJob_find {id : Nat} (h : ∀ k ∈ s.engine.jobs, k.state = .queued → k.id ≠ id) :
    s.selectJob.engine.find id = s.engine.find id := by
  rcases s.selectJob_cases with same | ⟨j, mem, queued, asked⟩
  · rw [same]
  · rw [asked]
    exact JobEngine.find_modJob_ne (f := fun k => { k with state := .running }) (h j mem queued).symm (fun _ _ => rfl) _

end

/-! ## The chunk's end -/

/-- The job after its chunk: the bytes counted and taken into the sum. -/
def Job.advanced (j : Job) (r : RunningJob) (bytes : List Byte) : Job :=
  { j with done := j.done + r.chunk.size, work := j.work.fold bytes }

/-- The state in which the engine takes up what the job's stop asks for. -/
def State.chunkDone (s : State) (j a : Job) : State :=
  (s.reportClaimEnd .engine).modEngine (fun e => e.modJob j.id (fun _ => a))

section
variable {s : State} {r : RunningJob} {j : Job} (running : s.engine.running = some r)
  (found : s.engine.find r.job = some j)
include running found

theorem State.chunkEnd_resolves (bytes : List Byte) :
    s.chunkEnd bytes = (s.chunkDone j (j.advanced r bytes)).resolveChunk (j.advanced r bytes) := by
  simp only [State.chunkEnd, running, found]
  rfl

theorem State.chunkDone_running (a : Job) : (s.chunkDone j a).engine.isRunning j.id = true := by
  have named := JobEngine.find_id found
  simp [State.chunkDone, JobEngine.modJob, JobEngine.isRunning, State.reportClaimEnd, running, named]

omit running in
theorem State.chunkDone_find {a : Job} (same : a.id = j.id) : (s.chunkDone j a).engine.find j.id = some a := by
  have here : s.engine.find j.id = some j := JobEngine.find_id found ▸ found
  refine (JobEngine.find_modJob (f := fun _ => a) (fun k own => same.trans own.symm) s.engine j.id).trans ?_
  rw [here, Option.map_some, if_pos rfl]

end

section
variable {s : State} {j a : Job}

theorem State.chunkDone_mail (s : State) (j a : Job) :
    (s.chunkDone j a).mail = s.mail.set .engine { s.mail.get .engine with claimEnd := true } := rfl

/-- The other jobs stand. -/
theorem JobEngine.filter_modJob (e : JobEngine) (same : a.id = j.id) :
    (e.modJob j.id (fun _ => a)).jobs.filter (fun k => k.id != j.id) = e.jobs.filter (fun k => k.id != j.id) := by
  simp only [JobEngine.modJob]
  induction e.jobs with
  | nil => rfl
  | cons k ks ih =>
    by_cases own : k.id = j.id
    · simp [own, same] at ih ⊢
      exact ih
    · simp [own] at ih ⊢
      exact ih

/-- The job as it is paused. -/
def Job.pausedNow (a : Job) : Job := { a with state := .paused, stop := .none, stopWaiters := [] }

theorem JobEngine.modJob_twice (e : JobEngine) (same : a.id = j.id) :
    ((e.modJob j.id (fun _ => a)).modJob a.id Job.pausedNow).jobs =
      e.jobs.map (fun k => if k.id = j.id then a.pausedNow else k) := by
  simp only [JobEngine.modJob, List.map_map]
  refine List.map_congr_left (fun k _ => ?_)
  by_cases own : k.id = j.id
  · simp [own, same]
  · simp [own, same]

end

/-! ### What the job's stop asks for -/

/-- The state after the replies of a pause, before the engine selects a job. -/
def State.pausedAtChunk (s : State) (a : Job) : State :=
  (s.modEngine (fun e => (e.modJob a.id Job.pausedNow).leave)).answerPaused a

/-- So of the end of the job, noted with this record. -/
def State.endedAtChunk (s : State) (a : Job) (o : EndOutcome) (r : EndReason) : State :=
  s.endJob a o r (fun t => t.answerEnded a)

def State.tornAtChunk (s : State) (a : Job) : State := s.endJobTorn a (fun t => t.answerEnded a)

section
variable (s : State) {a : Job}

theorem State.resolveChunk_more (stop : a.stop = .none) (more : a.done ≠ a.length) : s.resolveChunk a = s.askChunk a := by
  simp only [State.resolveChunk, stop, more, if_false]

theorem State.resolveChunk_pause (stop : a.stop = .pause) (more : a.done ≠ a.length) :
    s.resolveChunk a = (s.pausedAtChunk a).selectJob := by
  simp only [State.resolveChunk, stop, more, if_false]
  rfl

theorem State.resolveChunk_done (stop : a.stop = .none ∨ a.stop = .pause) (done : a.done = a.length) :
    s.resolveChunk a = (s.endedAtChunk a .done .complete).selectJob := by
  rcases stop with stop | stop
  · simp only [State.resolveChunk, stop, done, if_true]
    rfl
  · simp only [State.resolveChunk, stop, done, if_true]
    rfl

theorem State.resolveChunk_cancel {c : CancelReason} (stop : a.stop = .cancel c) (owned : c ≠ .teardown) :
    s.resolveChunk a = (s.endedAtChunk a .cancelled c.recorded).selectJob := by
  simp only [State.resolveChunk, stop, State.endCancelled_eq s a owned]
  rfl

theorem State.resolveChunk_torn (stop : a.stop = .cancel .teardown) :
    s.resolveChunk a = (s.tornAtChunk a).selectJob := by
  simp only [State.resolveChunk, stop, State.endCancelled]
  rfl

end

/-! ### The engine, the mail and the replies then -/

section
variable {s : State} {r : RunningJob} {j a : Job} (running : s.engine.running = some r)
  (found : s.engine.find r.job = some j) (same : a.id = j.id)

theorem State.pausedAtChunk_engine (same : a.id = j.id) : ((s.chunkDone j a).pausedAtChunk a).engine = { s.engine with
    running := none, jobs := s.engine.jobs.map (fun k => if k.id = j.id then a.pausedNow else k) } := by
  rw [State.pausedAtChunk, State.answerPaused_engine, ← JobEngine.modJob_twice s.engine same]
  rfl

include running found same

theorem State.endedAtChunk_engine (o : EndOutcome) (e : EndReason) :
    ((s.chunkDone j a).endedAtChunk a o e).engine = { s.engine with
      running := none, jobs := s.engine.jobs.filter (fun k => k.id != j.id),
      histories := s.engine.histories.set a.port ((a.endRecord o e :: s.engine.histories.get a.port).take 4) } := by
  have runs : (s.chunkDone j a).engine.isRunning a.id = true := same ▸ State.chunkDone_running running found a
  rw [State.endedAtChunk, State.endJob_engine _ _ _ _ _ (fun u => u.answerEnded_engine a),
    JobEngine.remove_record_running runs, same, ← JobEngine.filter_modJob s.engine same]
  rfl

theorem State.tornAtChunk_engine : ((s.chunkDone j a).tornAtChunk a).engine = { s.engine with
    running := none, jobs := s.engine.jobs.filter (fun k => k.id != j.id) } := by
  have runs : (s.chunkDone j a).engine.isRunning a.id = true := same ▸ State.chunkDone_running running found a
  rw [State.tornAtChunk, State.endJobTorn, State.answerEnded_engine, State.modEngine_engine, JobEngine.remove, if_pos runs, same,
    ← JobEngine.filter_modJob s.engine same]
  rfl

end

section
variable {s : State} {a : Job}

theorem State.pausedAtChunk_mail : (s.pausedAtChunk a).mail = s.mail := State.answerPaused_mail _ a

theorem State.endedAtChunk_mail (o : EndOutcome) (e : EndReason) : (s.endedAtChunk a o e).mail = s.mail :=
  State.answerEnded_mail _ a

theorem State.tornAtChunk_mail : (s.tornAtChunk a).mail = s.mail := State.answerEnded_mail _ a

end

section
variable {s v : State} {a : Job} (pu : s.pu = v.pu) (ltx : s.ltx = v.ltx)
  (waits : ∀ w ∈ a.stopWaiters, v.phase w.port = some .atChunkEnd) (distinct : (a.stopWaiters.map (fun w => w.port)).Nodup)
include pu ltx waits distinct

omit ltx distinct in
theorem State.waits_congr : ∀ w ∈ a.stopWaiters, s.phase w.port = some .atChunkEnd := fun w hw => by
  rw [State.phase, pu]
  exact waits w hw

theorem State.pausedAtChunk_replies :
    (s.pausedAtChunk a).pu = (a.stopWaiters.foldl (fun u w => u.answer w.port .ok a.stopFields) v).pu ∧
    (s.pausedAtChunk a).ltx = (a.stopWaiters.foldl (fun u w => u.answer w.port .ok a.stopFields) v).ltx :=
  State.answers_waiting (fun _ => .ok) (fun _ => a.stopFields) a.stopWaiters _ v pu ltx
    (State.waits_congr pu waits) distinct

/-- The replies when the job has ended. -/
theorem State.answerEnded_replies (f : JobEngine → JobEngine) :
    ((s.modEngine f).answerEnded a).pu = (a.stopWaiters.foldl (fun u w => if w.kind = .jobPause then
      u.answer w.port .wrongState [] else u.answer w.port .ok a.stopFields) v).pu ∧
    ((s.modEngine f).answerEnded a).ltx = (a.stopWaiters.foldl (fun u w => if w.kind = .jobPause then
      u.answer w.port .wrongState [] else u.answer w.port .ok a.stopFields) v).ltx := by
  have reply : (fun (u : State) (w : StopWaiter) => if w.kind = .jobPause then u.answer w.port .wrongState []
      else u.answer w.port .ok a.stopFields) =
      fun u w => u.answer w.port w.endResult (w.endFields a.stopFields) := by
    funext u w
    unfold StopWaiter.endResult StopWaiter.endFields
    split <;> rfl
  rw [State.answerEnded_eq, reply]
  exact State.answers_waiting StopWaiter.endResult (StopWaiter.endFields a.stopFields) a.stopWaiters _ v pu ltx
    (State.waits_congr pu waits) distinct

theorem State.endedAtChunk_replies (o : EndOutcome) (e : EndReason) {ended : State}
    (replies : ended = a.stopWaiters.foldl (fun u w => if w.kind = .jobPause then
      u.answer w.port .wrongState [] else u.answer w.port .ok a.stopFields) v) :
    (s.endedAtChunk a o e).pu = ended.pu ∧
    (s.endedAtChunk a o e).ltx = (ended.offer a.port .jobEnd (a.endRecord o e).fields).ltx := by
  obtain ⟨samePu, sameLtx⟩ := State.answerEnded_replies pu ltx waits distinct
    (fun g => (g.remove a.id).record a.port (a.endRecord o e))
  subst replies
  exact ⟨samePu, State.offer_congr samePu sameLtx ..⟩

end

theorem State.resolveChunk_claimEnd (s : State) (a : Job) :
    ((s.resolveChunk a).mail.get .engine).claimEnd = (s.mail.get .engine).claimEnd := by
  cases stop : a.stop with
  | none =>
    by_cases done : a.done = a.length
    · rw [State.resolveChunk_done s (.inl stop) done, State.selectJob_claimEnd, State.endedAtChunk_mail]
    · rw [State.resolveChunk_more s stop done]
      simp [State.askChunk, State.askAdmission, Job.access, Access.requester]
  | pause =>
    by_cases done : a.done = a.length
    · rw [State.resolveChunk_done s (.inr stop) done, State.selectJob_claimEnd, State.endedAtChunk_mail]
    · rw [State.resolveChunk_pause s stop done, State.selectJob_claimEnd, State.pausedAtChunk_mail]
  | cancel c =>
    by_cases owned : c = .teardown
    · rw [State.resolveChunk_torn s (owned ▸ stop), State.selectJob_claimEnd, State.tornAtChunk_mail]
    · rw [State.resolveChunk_cancel s stop owned, State.selectJob_claimEnd, State.endedAtChunk_mail]

/-- A job taken out of the table is not found after the selection. -/
theorem State.selectJob_find_removed {m : State} {jobs : List Job} {id : Nat}
    (removed : m.engine.jobs = jobs.filter (fun k => k.id != id)) : m.selectJob.engine.find id = none := by
  have gone : ∀ k ∈ m.engine.jobs, k.id ≠ id := fun k hk => by
    rw [removed] at hk
    simpa using (List.mem_filter.1 hk).2
  rw [State.selectJob_find m (fun k hk _ => gone k hk), JobEngine.find, List.find?_eq_none]
  exact fun k hk => by simpa using gone k hk

section
variable {s : State} {r : RunningJob} {j a : Job} (running : s.engine.running = some r)
  (found : s.engine.find r.job = some j) (same : a.id = j.id)

/-- The engine asks for the job's next chunk. -/
theorem State.chunkDone_askChunk (found : s.engine.find r.job = some j) (same : a.id = j.id) :
    let n := (s.chunkDone j a).askChunk a
    n.ltx = s.ltx ∧ n.pu = s.pu ∧ n.engine.find j.id = some a ∧
      n.engine.running = some { job := j.id, inChunk := false, chunk := a.nextChunk } ∧
      n.mail = s.mail.set .engine { ({ s.mail.get .engine with claimEnd := true } : Mail) with
        request := some (a.access a.nextChunk) } := by
  refine ⟨rfl, rfl, State.chunkDone_find found same, ?_, ?_⟩
  · simp [State.askChunk, State.askAdmission, same]
  · simp [State.askChunk, State.askAdmission, State.chunkDone, State.reportClaimEnd, Job.access, Access.requester,
      PerRequester.set_set]

theorem State.chunkDone_paused (found : s.engine.find r.job = some j) (same : a.id = j.id) :
    let n := ((s.chunkDone j a).pausedAtChunk a).selectJob
    n.engine.find j.id = some a.pausedNow ∧ n.engine.histories = s.engine.histories := by
  have engine := State.pausedAtChunk_engine (s := s) same
  have here : s.engine.find j.id = some j := JobEngine.find_id found ▸ found
  refine ⟨?_, ?_⟩
  · rw [State.selectJob_find, engine]
    · refine (JobEngine.find_modJob (f := fun _ => a.pausedNow) (fun k own => same.trans own.symm) s.engine j.id).trans ?_
      rw [here, Option.map_some, if_pos rfl]
    · intro k hk queued own
      rw [engine] at hk
      obtain ⟨i, -, rfl⟩ := List.mem_map.1 hk
      by_cases named : i.id = j.id
      · rw [if_pos named] at queued
        cases queued
      · rw [if_neg named] at own
        exact named own
  · rw [State.selectJob_histories, engine]

include running found same

theorem State.chunkDone_ended (o : EndOutcome) (e : EndReason) :
    let n := ((s.chunkDone j a).endedAtChunk a o e).selectJob
    n.engine.find j.id = none ∧
      n.engine.histories = s.engine.histories.set a.port ((a.endRecord o e :: s.engine.histories.get a.port).take 4) := by
  have engine := State.endedAtChunk_engine running found same o e
  exact ⟨State.selectJob_find_removed (congrArg JobEngine.jobs engine :), by rw [State.selectJob_histories, engine]⟩

theorem State.chunkDone_torn :
    let n := ((s.chunkDone j a).tornAtChunk a).selectJob
    n.engine.find j.id = none ∧ n.engine.histories = s.engine.histories := by
  have engine := State.tornAtChunk_engine running found same
  exact ⟨State.selectJob_find_removed (congrArg JobEngine.jobs engine :), by rw [State.selectJob_histories, engine]⟩

end

/-- The state at the chunk's end: the turn written, the claim reported ended, the job's progress counted. -/
def State.atChunkEnd (s : State) (t : Turn) (j a : Job) : State :=
  ((s.writeTurn t).setArbiter s.arbiter.selectNext).chunkDone j a

theorem exec_chunkEnd {s : State} {t : Turn} {r : RunningJob} {j : Job} (current : s.arbiter.current = some (.engine, t))
    (inside : t.inStore = true) (running : s.engine.running = some r) (found : s.engine.find r.job = some j) :
    exec .turnEnd s = .next ((s.atChunkEnd t j (j.advanced r (t.returned s))).resolveChunk
      (j.advanced r (t.returned s))) := by
  rw [exec_turnEnd current, if_pos inside, State.endTurn, State.reportTurnEnd]
  exact congrArg _ (State.chunkEnd_resolves (by exact running) (by exact found) _)

theorem Job.endRecord_sum (j : Job) (o : EndOutcome) (e : EndReason) :
    (∀ a r, j.work = .sum a r → o = .done → (j.endRecord o e).sum = r) ∧
    ((∀ a r, j.work ≠ .sum a r) ∨ o ≠ .done → (j.endRecord o e).sum = 0) := by
  refine ⟨fun a r work done => ?_, fun other => ?_⟩
  · simp only [Job.endRecord, Job.reportedSum, work, done]
  · cases work : j.work with
    | sum a r =>
      cases o with
      | done => exact (other.elim (fun h => h a r work) (fun h => h rfl)).elim
      | _ => simp only [Job.endRecord, Job.reportedSum, work]
    | _ => simp only [Job.endRecord, Job.reportedSum, work]

/-- Settles O39. -/
theorem chunkEndGoesOnOrEnds : Obligations.ChunkEndGoesOnOrEnds := by
  unfold Obligations.ChunkEndGoesOnOrEnds
  refine ⟨fun s t r j a fields sent _ mail current inside running found advanced stopFields => ?_,
    fun a acc r bytes pattern d => ⟨rfl, rfl, rfl⟩,
    fun j o e => ⟨rfl, rfl, rfl, rfl, rfl, j.endRecord_sum o e⟩, EndRecord.fields_eq⟩
  have ended := exec_chunkEnd current inside running found
  have same : a.id = j.id := by rw [advanced]
  have stop : a.stop = j.stop := by rw [advanced]
  have port : a.port = j.port := by rw [advanced]
  have stopWaiters : a.stopWaiters = j.stopWaiters := by rw [advanced]
  have fields' : a.stopFields = fields := by rw [Job.stopFields, same, stopFields]
  have running' : ((s.writeTurn t).setArbiter s.arbiter.selectNext).engine.running = some r := running
  have found' : ((s.writeTurn t).setArbiter s.arbiter.selectNext).engine.find r.job = some j := found
  have leaves : ∀ o e, ((s.atChunkEnd t j a).endedAtChunk a o e).engine = { s.engine with
      running := none, jobs := s.engine.jobs.filter (fun k => k.id != j.id),
      histories := (((s.atChunkEnd t j a).endedAtChunk a o e).selectJob).engine.histories } := fun o e => by
    rw [State.selectJob_histories, State.atChunkEnd, State.endedAtChunk_engine running' found' same]
    rfl
  rw [show j.advanced r (t.returned s) = a from advanced.symm] at ended
  refine ⟨_, ended, (State.resolveChunk_claimEnd _ a).trans ?_, fun none more => ?_, fun pause more => ?_,
    fun ends => ?_, fun kind done => ?_, fun cancel => ?_, fun cancel => ?_, fun cancel => ?_,
    fun paused gone waits distinct pausedIs goneIs =>
      ⟨fun pause more => ?_, fun kind done => ?_, fun cancel => ?_, fun cancel => ?_, fun cancel => ?_⟩⟩
  · simp [State.atChunkEnd, State.chunkDone, State.reportClaimEnd, State.writeTurn]
  · rw [State.resolveChunk_more _ (stop.trans none) (Nat.ne_of_lt more), mail]
    obtain ⟨ltx, pu, here, runs, asked⟩ := State.chunkDone_askChunk found' same
    exact ⟨ltx, pu, here, runs, asked, by rw [Job.access, same, port]⟩
  · rw [State.resolveChunk_pause _ (stop.trans pause) (Nat.ne_of_lt more), mail]
    obtain ⟨here, histories⟩ := State.chunkDone_paused found' same
    exact ⟨here, histories, _, rfl, State.pausedAtChunk_mail, State.pausedAtChunk_engine same⟩
  · rw [mail]
    rcases ends with ⟨kind, done⟩ | ⟨c, cancel⟩
    · rw [State.resolveChunk_done _ (stop ▸ kind) done]
      exact ⟨_, rfl, State.endedAtChunk_mail .., leaves _ _⟩
    · by_cases owned : c = .teardown
      · rw [State.resolveChunk_torn _ (stop.trans (owned ▸ cancel))]
        refine ⟨_, rfl, State.tornAtChunk_mail .., ?_⟩
        rw [State.selectJob_histories, State.atChunkEnd, State.tornAtChunk_engine running' found' same]
        rfl
      · rw [State.resolveChunk_cancel _ (stop.trans cancel) owned]
        exact ⟨_, rfl, State.endedAtChunk_mail .., leaves _ _⟩
  · rw [State.resolveChunk_done _ (stop ▸ kind) done, ← port]
    exact State.chunkDone_ended running' found' same _ _
  · rw [State.resolveChunk_cancel _ (stop.trans cancel) CancelReason.noConfusion, ← port]
    exact State.chunkDone_ended running' found' same _ _
  · rw [State.resolveChunk_cancel _ (stop.trans cancel) CancelReason.noConfusion, ← port]
    exact State.chunkDone_ended running' found' same _ _
  · rw [State.resolveChunk_torn _ (stop.trans cancel)]
    exact State.chunkDone_torn running' found' same
  all_goals
    rw [← stopWaiters] at waits distinct pausedIs goneIs
    rw [← fields'] at pausedIs goneIs
  · obtain ⟨pu, ltx⟩ := State.pausedAtChunk_replies (s := s.atChunkEnd t j a) (v := s) rfl rfl waits distinct
    rw [State.resolveChunk_pause _ (stop.trans pause) (Nat.ne_of_lt more), State.selectJob_pu, State.selectJob_ltx, pausedIs]
    exact ⟨ltx, pu⟩
  · have replies := State.endedAtChunk_replies (s := s.atChunkEnd t j a) (v := s) rfl rfl waits distinct
      .done .complete goneIs
    rw [State.resolveChunk_done _ (stop ▸ kind) done, State.selectJob_pu, State.selectJob_ltx, ← port]
    exact replies
  · have replies := State.endedAtChunk_replies (s := s.atChunkEnd t j a) (v := s) rfl rfl waits distinct
      .cancelled .owner goneIs
    rw [State.resolveChunk_cancel _ (stop.trans cancel) CancelReason.noConfusion, State.selectJob_pu, State.selectJob_ltx,
      ← port]
    exact replies
  · have replies := State.endedAtChunk_replies (s := s.atChunkEnd t j a) (v := s) rfl rfl waits distinct
      .cancelled .supervisor goneIs
    rw [State.resolveChunk_cancel _ (stop.trans cancel) CancelReason.noConfusion, State.selectJob_pu, State.selectJob_ltx,
      ← port]
    exact replies
  · obtain ⟨pu, ltx⟩ := State.answerEnded_replies (s := s.atChunkEnd t j a) (v := s) rfl rfl waits distinct
      (fun e => e.remove a.id)
    rw [State.resolveChunk_torn _ (stop.trans cancel), State.selectJob_pu, State.selectJob_ltx, goneIs]
    exact ⟨pu, ltx⟩

end Sys2Proof.Machine
end

section
/-! SUPPORT. The teardown steps at the job engine (R90, R91, R103, R155). -/

namespace Sys2Proof.Machine

/-! ## The EXECUTING request a step discards -/

section
variable {s : State} {p : Port} {x : Executing} (executing : (s.pu.get p).executing = some x)
include executing

theorem State.discardHanded_discards {h : Handed} (phase : x.phase = .handed h) :
    s.discardHanded p h.discardedBy = s.dropExecuting p := by
  simp only [State.discardHanded, State.handed_of_executing executing phase, if_true]

theorem State.discardHanded_keeps {b : TakenBy} (phase : ∀ h, x.phase = .handed h → h.discardedBy ≠ b) :
    s.discardHanded p b = s := by
  cases standing : x.phase with
  | handed h => simp only [State.discardHanded, State.handed_of_executing executing standing, if_neg (phase h standing)]
  | _ => simp only [State.discardHanded, State.handed, State.phase, executing, Option.map_some, standing]

theorem State.dropInPhase_drops {f : Phase} (phase : x.phase = f) : s.dropInPhase p f = s.dropExecuting p := by
  rw [State.dropInPhase, if_pos (by rw [State.phase, executing, Option.map_some, phase])]

theorem State.dropInPhase_keeps {f : Phase} (phase : x.phase ≠ f) : s.dropInPhase p f = s := by
  rw [State.dropInPhase, if_neg]
  rw [State.phase, executing, Option.map_some, Option.some.injEq]
  exact phase

end

theorem State.discardHanded_free {s : State} {p : Port} (h : (s.pu.get p).executing = none) (b : TakenBy) :
    s.discardHanded p b = s := by
  simp only [State.discardHanded, State.handed_of_free h]

theorem State.dropInPhase_free {s : State} {p : Port} (h : (s.pu.get p).executing = none) (f : Phase) :
    s.dropInPhase p f = s := by
  rw [State.dropInPhase, if_neg]
  simp [State.phase, h]

theorem State.dropExecuting_free (s : State) (p : Port) : ((s.dropExecuting p).pu.get p).executing = none := by
  simp [State.dropExecuting]

theorem State.dropExecuting_reserved {s : State} {p : Port} (sends : (s.ltx.get p).discard = false) :
    ((s.dropExecuting p).ltx.get p).reserved = (s.ltx.get p).reserved - 1 := by
  simp [State.dropExecuting, Transmitter.release_sends sends]

/-! ## One job of the port -/

section
variable (s : State) (j : Job)

theorem State.tearJob_outside : (s.tearJob j).pu = s.pu ∧ (s.tearJob j).ltx = s.ltx ∧
    (s.tearJob j).leaseUnit = s.leaseUnit ∧ (s.tearJob j).engine.histories = s.engine.histories := by
  have withdrawn : (s.withdrawAdmission .engine).pu = s.pu ∧ (s.withdrawAdmission .engine).ltx = s.ltx ∧
      (s.withdrawAdmission .engine).leaseUnit = s.leaseUnit ∧
      (s.withdrawAdmission .engine).engine.histories = s.engine.histories := by
    unfold State.withdrawAdmission
    split <;> exact ⟨rfl, rfl, rfl, rfl⟩
  unfold State.tearJob
  split
  · split
    · exact ⟨rfl, rfl, rfl, rfl⟩
    · exact withdrawn
  · exact ⟨rfl, rfl, rfl, rfl⟩

/-- A job whose chunk is in the arbiter is stopped for teardown; any other leaves the table. -/
theorem State.tearJob_engine :
    (s.engine.inChunk j.id = true ∧ (s.tearJob j).engine.running = s.engine.running ∧
      (s.tearJob j).engine.jobs = s.engine.jobs.map
        (fun k => if k.id = j.id then { k with stop := .cancel .teardown } else k)) ∨
    ((s.tearJob j).engine.running = (if s.engine.isRunning j.id then none else s.engine.running) ∧
      (s.tearJob j).engine.jobs = s.engine.jobs.filter (fun k => k.id != j.id)) := by
  have stop : ∀ k : StopKind, k.afterCancel .teardown = .cancel .teardown := fun k => by cases k <;> rfl
  unfold State.tearJob
  split
  · split
    · rename_i chunk
      refine .inl ⟨chunk, rfl, ?_⟩
      simp only [State.modEngine_engine, JobEngine.modJob, stop]
    · have runs := JobEngine.isRunning_congr (s.withdrawAdmission_running .engine) j.id
      refine .inr ⟨?_, ?_⟩
      · rw [State.endJobTorn, State.modEngine_engine, JobEngine.remove, runs, s.withdrawAdmission_running]
      · rw [State.endJobTorn, State.modEngine_engine, JobEngine.remove, s.withdrawAdmission_jobs]
  · exact .inr ⟨rfl, rfl⟩

end

/-! ## The port's jobs one after another -/

/-- The engine while the step tears port `p`'s jobs down: those named are to come. -/
structure JobEngine.Torn (first : List Job) (p : Port) (rest : List Job) (e : JobEngine) : Prop where
  own : ∀ k ∈ e.jobs, k.port = p → (∃ j ∈ rest, j.id = k.id) ∨ e.inChunk k.id = true ∧ k.stop = .cancel .teardown
  waiters : ∀ k ∈ e.jobs, ∀ w ∈ k.stopWaiters, w.port ≠ p
  others : ∀ i ∈ first, i.port ≠ p → i ∈ e.jobs

theorem State.tearJob_torn {s : State} {first : List Job} {p : Port} {j : Job} {rest : List Job}
    (distinct : (first.map Job.id).Nodup) (mem : j ∈ first) (own : j.port = p)
    (h : s.engine.Torn first p (j :: rest)) : (s.tearJob j).engine.Torn first p rest := by
  obtain ⟨torn, waiters, others⟩ := h
  have apart : ∀ i ∈ first, i.port ≠ p → i.id ≠ j.id := fun i hi other same =>
    other (own ▸ congrArg Job.port (eq_of_nodup_keys distinct hi mem same))
  rcases s.tearJob_engine j with ⟨chunk, running, jobs⟩ | ⟨running, jobs⟩
  · have inChunk : ∀ id, (s.tearJob j).engine.inChunk id = s.engine.inChunk id := fun id => by
      simp only [JobEngine.inChunk, running]
    refine ⟨fun k hk port => ?_, fun k hk => ?_, fun i hi other => ?_⟩
    · rw [jobs] at hk
      obtain ⟨k, old, rfl⟩ := List.mem_map.1 hk
      rw [inChunk]
      by_cases named : k.id = j.id
      · rw [if_pos named]
        exact .inr ⟨named ▸ chunk, rfl⟩
      · rw [if_neg named] at port ⊢
        refine (torn k old port).imp_left (fun ⟨i, hi, same⟩ => ⟨i, (List.mem_cons.1 hi).resolve_left ?_, same⟩)
        rintro rfl
        exact named same.symm
    · rw [jobs] at hk
      obtain ⟨k, old, rfl⟩ := List.mem_map.1 hk
      have kept := waiters k old
      split
      · exact kept
      · exact kept
    · rw [jobs]
      exact List.mem_map.2 ⟨i, others i hi other, if_neg (apart i hi other)⟩
  · refine ⟨fun k hk port => ?_, fun k hk => ?_, fun i hi other => ?_⟩
    · rw [jobs] at hk
      obtain ⟨old, gone⟩ := List.mem_filter.1 hk
      have named : k.id ≠ j.id := by simpa using gone
      rcases torn k old port with ⟨i, hi, same⟩ | ⟨chunk, stop⟩
      · refine .inl ⟨i, (List.mem_cons.1 hi).resolve_left ?_, same⟩
        rintro rfl
        exact named same.symm
      · refine .inr ⟨?_, stop⟩
        have other : s.engine.isRunning j.id = false := by
          cases runs : s.engine.running with
          | none => simp [JobEngine.isRunning, runs]
          | some r =>
            have same : r.job = k.id ∧ r.inChunk = true := by simpa [JobEngine.inChunk, runs] using chunk
            simpa [JobEngine.isRunning, runs, same.1] using named
        rw [other, if_neg Bool.false_ne_true] at running
        rwa [JobEngine.inChunk, running]
    · rw [jobs] at hk
      exact waiters k (List.mem_filter.1 hk).1
    · rw [jobs]
      exact List.mem_filter.2 ⟨others i hi other, by simpa using apart i hi other⟩

theorem State.tearJobs_torn {first : List Job} {p : Port} (distinct : (first.map Job.id).Nodup) :
    ∀ (js : List Job) (s : State), (∀ j ∈ js, j ∈ first ∧ j.port = p) → s.engine.Torn first p js →
      (s.each js State.tearJob).engine.Torn first p [] := by
  intro js
  induction js with
  | nil => exact fun _ _ h => h
  | cons j js ih =>
    intro s own h
    obtain ⟨mem, port⟩ := own j List.mem_cons_self
    exact ih (s.tearJob j) (fun i hi => own i (List.mem_cons_of_mem _ hi)) (State.tearJob_torn distinct mem port h)

/-! ## The selection after them -/

/-- Selecting a job: at most one queued job runs. -/
theorem JobEngine.Tidy.select_job {s : State} (tidy : s.engine.Tidy) {i : Job} (mem : i ∈ s.engine.jobs) :
    ∃ j ∈ s.selectJob.engine.jobs, j = { i with state := j.state } ∧
      (j.state = i.state ∨ i.state = .queued ∧ j.state = .running) := by
  rcases s.selectJob_cases with same | ⟨k, hk, queued, asked⟩
  · rw [same]
    exact ⟨i, mem, rfl, .inl rfl⟩
  · rw [asked]
    by_cases named : i.id = k.id
    · obtain rfl := tidy.eq_of_id mem hk named
      exact ⟨{ i with state := .running }, List.mem_map.2 ⟨i, mem, if_pos rfl⟩, rfl, .inr ⟨queued, rfl⟩⟩
    · exact ⟨i, List.mem_map.2 ⟨i, mem, if_neg named⟩, rfl, .inl rfl⟩

/-- What the selection leaves of every job of the table. -/
theorem State.selectJob_from (s : State) : ∀ j ∈ s.selectJob.engine.jobs, ∃ k ∈ s.engine.jobs,
    k.port = j.port ∧ k.id = j.id ∧ k.stopWaiters = j.stopWaiters ∧ k.stop = j.stop := by
  intro j hj
  rcases s.selectJob_cases with same | ⟨k, -, -, asked⟩
  · rw [same] at hj
    exact ⟨j, hj, rfl, rfl, rfl, rfl⟩
  · rw [asked] at hj
    obtain ⟨i, mem, rfl⟩ := List.mem_map.1 hj
    refine ⟨i, mem, ?_⟩
    split <;> exact ⟨rfl, rfl, rfl, rfl⟩

theorem JobEngine.inChunk_runs {e : JobEngine} {id : Nat} (h : e.inChunk id = true) : e.running ≠ none := by
  intro idle
  simp [JobEngine.inChunk, idle] at h

theorem State.selectJob_inChunk {s : State} {id : Nat} (h : s.engine.inChunk id = true) :
    s.selectJob.engine.inChunk id = true := by
  rw [State.selectJob_busy (JobEngine.inChunk_runs h), h]

/-! ## The job step -/

/-- The state when the step comes to the jobs: the port's waiting requests at the engine are dropped. -/
def State.requestsDropped (s : State) (p : Port) : State :=
  (((s.modSteps p (fun d => { d with job := false })).discardHanded p .jobStep).modEngine
    (fun e => e.dropStopWaiters p)).dropInPhase p .atChunkEnd

section
variable (s : State) (p : Port)

theorem State.requestsDropped_engine : (s.requestsDropped p).engine = s.engine.dropStopWaiters p := by
  rw [State.requestsDropped, State.dropInPhase_engine, State.modEngine_engine, State.discardHanded_engine]
  rfl

theorem State.requestsDropped_leaseUnit : (s.requestsDropped p).leaseUnit = s.leaseUnit := by
  rw [State.requestsDropped, State.dropInPhase_leaseUnit, State.modEngine_leaseUnit, State.discardHanded_leaseUnit]
  rfl

theorem State.requestsDropped_kept :
    (s.modSteps p (fun d => { d with job := false })).CoreKept (s.requestsDropped p) :=
  (((State.CoreKept.refl _).discardHanded p .jobStep).modEngine _).dropInPhase p .atChunkEnd

theorem State.jobStep_eq : (s.modSteps p (fun d => { d with job := false })).jobStep p =
    ((s.requestsDropped p).each ((s.requestsDropped p).engine.jobsOf p) State.tearJob).selectJob := rfl

theorem State.tearJobs_outside (js : List Job) : (s.each js State.tearJob).pu = s.pu ∧
    (s.each js State.tearJob).ltx = s.ltx ∧ (s.each js State.tearJob).leaseUnit = s.leaseUnit ∧
    (s.each js State.tearJob).engine.histories = s.engine.histories := by
  induction js generalizing s with
  | nil => exact ⟨rfl, rfl, rfl, rfl⟩
  | cons j js ih =>
    obtain ⟨pu, ltx, leaseUnit, histories⟩ := ih (s.tearJob j)
    obtain ⟨pu', ltx', leaseUnit', histories'⟩ := s.tearJob_outside j
    exact ⟨pu.trans pu', ltx.trans ltx', leaseUnit.trans leaseUnit', histories.trans histories'⟩

end

section
variable {s : State} {p : Port} {x : Executing} (executing : (s.pu.get p).executing = some x)
include executing

theorem State.stepped_executing : ((s.modSteps p (fun d => { d with job := false })).pu.get p).executing = some x := by
  simpa [State.modSteps] using executing

/-- A request the engine was to decide, or that waits for a chunk's end, is dropped. -/
theorem State.requestsDropped_drops
    (phase : x.phase = .atChunkEnd ∨ ∃ h, x.phase = .handed h ∧ h.discardedBy = .jobStep) :
    ((s.requestsDropped p).pu.get p).executing = none ∧
    ((s.ltx.get p).discard = false → ((s.requestsDropped p).ltx.get p).reserved = (s.ltx.get p).reserved - 1) := by
  have standing := State.stepped_executing executing
  rcases phase with chunkEnd | ⟨h, handed, own⟩
  · have kept : (s.modSteps p (fun d => { d with job := false })).discardHanded p .jobStep =
        s.modSteps p (fun d => { d with job := false }) :=
      State.discardHanded_keeps standing (fun h e => by rw [chunkEnd] at e; cases e)
    rw [State.requestsDropped, kept, State.dropInPhase_drops (x := x) (by exact standing) chunkEnd]
    exact ⟨State.dropExecuting_free _ p, fun sends => State.dropExecuting_reserved (by exact sends)⟩
  · have dropped := State.discardHanded_discards standing handed
    rw [own] at dropped
    rw [State.requestsDropped, dropped, State.dropInPhase_free (by exact State.dropExecuting_free _ p)]
    exact ⟨State.dropExecuting_free _ p, fun sends =>
      State.dropExecuting_reserved (s := s.modSteps p (fun d => { d with job := false })) (by exact sends)⟩

theorem State.requestsDropped_keeps (phase : x.phase = .closing ∨ x.phase = .settling) :
    ((s.requestsDropped p).pu.get p).executing = some x ∧ (s.requestsDropped p).ltx = s.ltx := by
  have standing := State.stepped_executing executing
  have kept : (s.modSteps p (fun d => { d with job := false })).discardHanded p .jobStep =
      s.modSteps p (fun d => { d with job := false }) :=
    State.discardHanded_keeps standing (fun h e => by rcases phase with k | k <;> rw [k] at e <;> cases e)
  rw [State.requestsDropped, kept, State.dropInPhase_keeps (x := x) (by exact standing)
    (by rcases phase with k | k <;> rw [k] <;> exact Phase.noConfusion)]
  exact ⟨standing, rfl⟩

end

/-- Settles O17. -/
theorem teardownStepsAtTheJobEngine : Obligations.TeardownStepsAtTheJobEngine := by
  unfold Obligations.TeardownStepsAtTheJobEngine
  refine ⟨fun s p orderly quiet due => ?_, fun s p due done => ?_⟩
  · have tidy : (s.requestsDropped p).engine.Tidy := by
      rw [State.requestsDropped_engine]
      exact (s.engineOrderly_iff.1 orderly).1.toTidy.map _ rfl rfl (fun _ => rfl) (fun _ => rfl) (fun _ => ⟨rfl, rfl⟩)
        (fun _ _ => Iff.rfl) (fun _ => rfl)
    have noWaiter : ∀ k ∈ (s.requestsDropped p).engine.jobs, ∀ w ∈ k.stopWaiters, w.port ≠ p := by
      intro k hk w hw
      rw [State.requestsDropped_engine] at hk
      obtain ⟨i, -, rfl⟩ := List.mem_map.1 hk
      simpa using (List.mem_filter.1 hw).2
    have torn := State.tearJobs_torn tidy.ids ((s.requestsDropped p).engine.jobsOf p) (s.requestsDropped p)
      (fun j hj => ⟨(List.mem_filter.1 hj).1, by simpa using (List.mem_filter.1 hj).2⟩)
      ⟨fun k hk own => .inl ⟨k, List.mem_filter.2 ⟨hk, by simpa using own⟩, rfl⟩, noWaiter, fun i hi _ => hi⟩
    have tidy' : ((s.requestsDropped p).each ((s.requestsDropped p).engine.jobsOf p) State.tearJob).engine.Tidy :=
      State.each_induct (fun t => t.engine.Tidy) State.tearJob _ (fun t j _ ht => ht.tear j) _ tidy
    obtain ⟨pu, ltx, leaseUnit, histories⟩ :=
      (s.requestsDropped p).tearJobs_outside ((s.requestsDropped p).engine.jobsOf p)
    have done : exec (.teardownJobStep p) s = .next
        ((s.requestsDropped p).each ((s.requestsDropped p).engine.jobsOf p) State.tearJob).selectJob := by
      simp only [exec, execTeardownJobStep, due, if_true, State.atEngine_quiet quiet, State.jobStep_eq]
    refine ⟨_, done, ?_, fun j hj own => ?_, fun j hj w hw => ?_, fun i hi other => ?_, ?_, ?_, ?_, fun x executing =>
      ⟨fun phase => ?_, fun phase => ?_⟩⟩
    · rw [State.selectJob_pu, pu, ((s.requestsDropped_kept p).unit p).stepsDue]
      simp [State.modSteps]
    · obtain ⟨k, hk, port, id, -, stop⟩ := State.selectJob_from _ j hj
      obtain ⟨i, none, -⟩ | ⟨chunk, torn⟩ := torn.own k hk (port.trans own)
      · cases none
      · exact ⟨State.selectJob_inChunk (id ▸ chunk), stop ▸ torn⟩
    · obtain ⟨k, hk, -, -, waiters, -⟩ := State.selectJob_from _ j hj
      exact torn.waiters k hk w (waiters ▸ hw)
    · have stays : { i with stopWaiters := i.stopWaiters.filter (fun w => w.port != p) } ∈
          (s.requestsDropped p).engine.jobs := by
        rw [State.requestsDropped_engine]
        exact List.mem_map.2 ⟨i, hi, rfl⟩
      exact tidy'.select_job (torn.others _ stays other)
    · rw [State.selectJob_histories, histories, State.requestsDropped_engine]
      rfl
    · have kept := (s.requestsDropped_kept p).each ((s.requestsDropped p).engine.jobsOf p) State.tearJob
        (fun t j h => h.tearJob j)
      exact kept.selectJob.store
    · rw [State.selectJob_leaseUnit, leaseUnit, State.requestsDropped_leaseUnit]
    · rw [State.selectJob_pu, State.selectJob_ltx, pu, ltx]
      refine State.requestsDropped_drops executing (phase.imp_right ?_)
      rintro (⟨w, n, m, h⟩ | ⟨i, h⟩ | ⟨i, h⟩ | ⟨i, h⟩ | ⟨i, h⟩ | ⟨i, h⟩)
      all_goals exact ⟨_, h, rfl⟩
    · rw [State.selectJob_pu, State.selectJob_ltx, pu, ltx]
      exact State.requestsDropped_keeps executing phase
  · simp only [exec, execTeardownHistoryStep, due, done, and_self, if_true]
    rfl

end Sys2Proof.Machine
end

section
/-! SUPPORT. Withdrawals and the ends of claims: what they free at the lease unit (R42-R47, R55). -/

namespace Sys2Proof.Machine

/-! ## The settling set -/

theorem LeaseUnit.emptied_eq (u : LeaseUnit) :
    u.emptied = allPorts.filter (fun p => (u.settling.get p).any (fun x => x.recorded.isEmpty)) := by
  unfold LeaseUnit.emptied LeaseUnit.settlingExecuting
  induction allPorts with
  | nil => rfl
  | cons p ps ih =>
    cases settling : u.settling.get p with
    | none => simpa [settling] using ih
    | some x => by_cases empty : x.recorded.isEmpty = true <;> simpa [settling, empty] using ih

theorem LeaseUnit.mem_settlingRanges (u : LeaseUnit) (r : Range) : r ∈ u.settlingRanges ↔
    (∃ q x, u.settling.get q = some x ∧ x.request.range = r) ∨
    (∃ w ∈ u.queue, w.settling ≠ none ∧ w.request.range = r) := by
  simp only [LeaseUnit.settlingRanges, List.mem_append, List.mem_map, Prod.exists, LeaseUnit.mem_settlingExecuting,
    LeaseUnit.mem_settlingWaiters, and_assoc]

theorem LeaseUnit.settlingRanges_none {u : LeaseUnit} (queue : u.queue = []) (settling : ∀ q, u.settling.get q = none) :
    u.settlingRanges = [] := by
  refine List.eq_nil_iff_forall_not_mem.2 (fun r member => ?_)
  rcases (u.mem_settlingRanges r).1 member with ⟨q, x, some', -⟩ | ⟨w, waits, -⟩
  · rw [settling q] at some'
    cases some'
  · rw [queue] at waits
    cases waits

theorem PerPort.eq_of_get {α : Type} {v w : PerPort α} (same : ∀ q, v.get q = w.get q) : v = w := by
  obtain ⟨a, b, c, d⟩ := v
  obtain ⟨a', b', c', d'⟩ := w
  obtain rfl : a = a' := same .p0
  obtain rfl : b = b' := same .p1
  obtain rfl : c = c' := same .p2
  obtain rfl : d = d' := same .p3
  rfl

/-- With nothing settling, the end of a claim takes away the claim alone. -/
theorem LeaseUnit.removeClaim_unsettled {u : LeaseUnit} (queue : u.queue = []) (settling : ∀ q, u.settling.get q = none)
    (r : Requester) : u.removeClaim r = { u with claims := u.claims.filter (fun c => c.requester != r) } := by
  have same : (u.removeClaim r).settling = u.settling :=
    PerPort.eq_of_get (fun q => by rw [LeaseUnit.removeClaim_settling, settling q]; rfl)
  have waits : (u.removeClaim r).queue = u.queue := by rw [LeaseUnit.removeClaim, queue]; rfl
  calc u.removeClaim r
      = { u with claims := u.claims.filter (fun c => c.requester != r), queue := (u.removeClaim r).queue,
                 settling := (u.removeClaim r).settling } := rfl
    _ = _ := by rw [same, waits]

theorem LeaseUnit.emptied_unsettled {u : LeaseUnit} (settling : ∀ q, u.settling.get q = none) : u.emptied = [] := by
  simp [LeaseUnit.emptied_eq, settling]

/-- One port's request in the settling set, with an empty recorded set: it alone is to be granted. -/
theorem LeaseUnit.emptied_one {u : LeaseUnit} {p : Port} {x : LeaseRequest}
    (settling : u.settling.get p = some { request := x, recorded := [] }) (others : ∀ q, q ≠ p → u.settling.get q = none) :
    u.emptied = [p] := by
  have only : (fun q => (u.settling.get q).any (fun y => y.recorded.isEmpty)) = fun q => q == p := by
    funext q
    by_cases same : q = p
    · simp [same, settling]
    · simp [same, others q same]
  rw [LeaseUnit.emptied_eq, only]
  cases p <;> rfl

/-! ## A claim's end -/

theorem State.scan_empty {s : State} (queue : s.leaseUnit.queue = []) (late : Bool) : s.scan late = s := by
  rw [State.scan, queue, State.scanFrom]

theorem State.retry_idle {s : State} (held : s.leaseUnit.held = []) (late : Bool) (r : Range) : s.retry late r = s := by
  rw [State.retry, held]
  rfl

theorem State.retry_one {s : State} {a : Access} {r : Range} (held : s.leaseUnit.held = [a]) (meets : a.meets r = true)
    (late : Bool) : s.retry late r = State.retryOne late s a := by
  have asked : [a].filter (fun b => b.meets r) = [a] := by simp [meets]
  rw [State.retry, held, asked]
  rfl

theorem State.endClaim_unsettled {s : State} (queue : s.leaseUnit.queue = [])
    (settling : ∀ q, s.leaseUnit.settling.get q = none) (late : Bool) (r : Requester) :
    s.endClaim late r = s.modLease (fun u => { u with claims := u.claims.filter (fun c => c.requester != r) }) := by
  have cut : s.modLease (fun u => u.removeClaim r) =
      s.modLease (fun u => { u with claims := u.claims.filter (fun c => c.requester != r) }) :=
    congrArg (fun u => { s with leaseUnit := u }) (LeaseUnit.removeClaim_unsettled queue settling r)
  unfold State.endClaim
  dsimp only
  rw [cut, LeaseUnit.emptied_unsettled (by exact settling)]
  exact State.scan_empty (by exact queue) late

/-- The lease unit with a request's lease entered. -/
def State.entered (s : State) (p : Port) (x : LeaseRequest) : State :=
  s.modLease (fun u => { u with settling := u.settling.set p none }.grant p x)

theorem State.grantSettling_some {s : State} {p : Port} {x : Settling} (settling : s.leaseUnit.settling.get p = some x)
    (late : Bool) : State.grantSettling late s p =
      ((s.entered p x.request).answerIn p .settling .ok (x.request.grantFields s.leaseUnit.nextLeaseId)).retry late
        x.request.range := by
  simp only [State.grantSettling, settling, State.entered]

section
variable {s : State} {r : Requester} {p : Port} {x : LeaseRequest}
  (queue : s.leaseUnit.queue = [])
  (settling : s.leaseUnit.settling.get p = some { request := x, recorded := [r] })
  (others : ∀ q, q ≠ p → s.leaseUnit.settling.get q = none)
include queue settling others

theorem LeaseUnit.removeClaim_settled :
    (s.leaseUnit.removeClaim r).settling.get p = some { request := x, recorded := [] } ∧
    (∀ q, q ≠ p → (s.leaseUnit.removeClaim r).settling.get q = none) ∧ (s.leaseUnit.removeClaim r).queue = [] := by
  refine ⟨?_, fun q other => ?_, ?_⟩
  · rw [LeaseUnit.removeClaim_settling, settling]
    simp [dropClaim]
  · rw [LeaseUnit.removeClaim_settling, others q other]
    rfl
  · rw [LeaseUnit.removeClaim, queue]
    rfl

/-- The last claim a settling request waits for ends, and nothing else waits: the request is granted. -/
theorem State.endClaim_grants (late : Bool) : s.endClaim late r =
    (((s.modLease (fun u => u.removeClaim r)).entered p x).answerIn p .settling .ok
      (x.grantFields s.leaseUnit.nextLeaseId)).retry late x.range := by
  obtain ⟨empty, gone, waits⟩ := LeaseUnit.removeClaim_settled queue settling others
  have granted := State.grantSettling_some (s := s.modLease (fun u => u.removeClaim r)) (by exact empty) late
  unfold State.endClaim
  dsimp only
  rw [LeaseUnit.emptied_one (by exact empty) (by exact gone)]
  refine (congrArg (fun v : State => v.scan late) granted).trans (State.scan_empty ?_ late)
  rw [(State.retry_tables _ late _).queue, State.answerIn_leaseUnit]
  exact waits

end

/-! ## What a grant from the settling set changes -/

theorem State.answerIn_pu_ne (s : State) {p q : Port} (other : q ≠ p) (f : Phase) (r : Result) (fields : List Byte) :
    (s.answerIn p f r fields).pu.get q = s.pu.get q := by
  unfold State.answerIn State.answer
  split
  · split
    · rfl
    · exact PerPort.get_set_ne _ _ other
  · rfl

theorem State.answerIn_answers {s : State} {p : Port} {f : Phase} {x : Executing}
    (executing : (s.pu.get p).executing = some x) (phase : x.phase = f) (r : Result) (fields : List Byte) :
    s.answerIn p f r fields = s.answer p r fields := by
  refine if_pos ?_
  rw [State.phase, executing, Option.map_some, phase]

/-- The lease entered for a request that is granted. -/
def LeaseRequest.lease (x : LeaseRequest) (p : Port) (id : Nat) : Lease :=
  { id := id, port := p, kind := x.kind, range := x.range, logical := x.logical, window := x.window, life := x.life }

section
variable {s : State} {r : Requester} {p : Port} {x : LeaseRequest}
  (queue : s.leaseUnit.queue = [])
  (settling : s.leaseUnit.settling.get p = some { request := x, recorded := [r] })
  (others : ∀ q, q ≠ p → s.leaseUnit.settling.get q = none)
include queue settling others

/-- The settling request is granted and answered where no access is held. -/
theorem State.endClaim_answers {e : Executing} (held : s.leaseUnit.held = [])
    (executing : (s.pu.get p).executing = some e) (phase : e.phase = .settling) (sends : (s.ltx.get p).discard = false)
    (reserved : 0 < (s.ltx.get p).reserved) (late : Bool) :
    (s.endClaim late r).leaseUnit.settling.get p = none ∧
    (s.endClaim late r).leaseUnit.leases = s.leaseUnit.leases ++ [x.lease p s.leaseUnit.nextLeaseId] ∧
    ((s.endClaim late r).ltx.get p).queue = (s.ltx.get p).queue ++ [replyFrame e.kind.code e.tag .ok
      (x.grantFields s.leaseUnit.nextLeaseId)] ∧
    ((s.endClaim late r).pu.get p).executing = none := by
  rw [State.endClaim_grants queue settling others, State.retry_idle (by rw [State.answerIn_leaseUnit]; exact held),
    State.answerIn_answers (by exact executing) phase,
    State.answer_sends (by exact executing) _ _ (by exact sends) (by exact reserved)]
  exact ⟨PerPort.get_set_self .., rfl, congrArg Transmitter.queue (PerPort.get_set_self ..),
    congrArg PortUnit.executing (PerPort.get_set_self ..)⟩

/-- The one access held for the settling request is retried after the grant and admitted (R44). -/
theorem State.endClaim_admits {q : Port} {a : Access} {o : PortOperation} (held : s.leaseUnit.held = [a])
    (meets : a.meets x.range = true) (other : q ≠ p) (requester : a.requester = .port q)
    (operation : (s.pu.get q).operation = some o) (stands : (s.mail.get (.port q)).withdrawal = false)
    (free : ∀ m ∈ s.leaseUnit.leases ++ [x.lease p s.leaseUnit.nextLeaseId], m.forbids a = false) :
    (s.endClaim false r).leaseUnit.held = [] ∧
    (s.endClaim false r).leaseUnit.claims = s.leaseUnit.claims.filter (fun c => c.requester != r) ++ [a] ∧
    (s.endClaim false r).leaseUnit.leases = s.leaseUnit.leases ++ [x.lease p s.leaseUnit.nextLeaseId] ∧
    ((s.endClaim false r).pu.get q).operation = some { o with admitted := true } ∧
    ((s.endClaim false r).mail.get (.port q)).turn = some o.turn := by
  obtain ⟨-, gone, waits⟩ := LeaseUnit.removeClaim_settled queue settling others
  have settled : ∀ q', ((s.leaseUnit.removeClaim r).settling.set p none).get q' = none := by
    intro q'
    by_cases same : q' = p
    · rw [same, PerPort.get_set_self]
    · rw [PerPort.get_set_ne _ _ same]
      exact gone q' same
  rw [State.endClaim_grants queue settling others, State.retry_one (by rw [State.answerIn_leaseUnit]; exact held) meets]
  generalize granted : (((s.modLease (fun u => u.removeClaim r)).entered p x).answerIn p .settling .ok
      (x.grantFields s.leaseUnit.nextLeaseId)) = t
  have unit : t.leaseUnit = ((s.modLease (fun u => u.removeClaim r)).entered p x).leaseUnit := by
    rw [← granted, State.answerIn_leaseUnit]
  have ports : t.pu.get q = s.pu.get q := by
    rw [← granted, State.answerIn_pu_ne _ other]
    rfl
  have mails : t.mail = s.mail := by
    rw [← granted, State.answerIn_mail]
    rfl
  have ranges : t.leaseUnit.settlingRanges = [] := by
    rw [unit]
    exact LeaseUnit.settlingRanges_none waits settled
  rw [State.retryOne_admits false (by rw [unit]; exact free) (by rw [ranges]; exact fun _ c => by cases c), requester,
    State.deliver_port_admitted (o := o) (by exact (congrArg (fun v => (v.get (.port q)).withdrawal) mails).trans stands)
      (by exact (congrArg PortUnit.operation ports).trans operation)]
  refine ⟨?_, ?_, ?_, congrArg PortUnit.operation (PerPort.get_set_self ..), ?_⟩
  · show t.leaseUnit.held.filter _ = []
    rw [unit]
    show s.leaseUnit.held.filter _ = []
    rw [held]
    simp [requester]
  · show t.leaseUnit.claims ++ [a] = _
    rw [unit]
    rfl
  · show t.leaseUnit.leases = _
    rw [unit]
    rfl
  · rw [State.modMail_mail, PerRequester.get_set_self]

end

/-! ## A waiter whose last recorded claim ends -/

theorem State.scan_grants {s : State} {w : Waiter} (queue : s.leaseUnit.queue = [w]) (settling : w.settling = some [])
    (late : Bool) : s.scan late = (s.setQueue []).grantWaiter late w := by
  have verdict : s.leaseUnit.verdict [] w = .grant := by simp [LeaseUnit.verdict, settling]
  rw [State.scan, queue, State.scanFrom, verdict]
  rfl

theorem State.endClaim_grantsWaiter {s : State} {r : Requester} {w : Waiter} (queue : s.leaseUnit.queue = [w])
    (settling : w.settling = some [r]) (others : ∀ q, s.leaseUnit.settling.get q = none) (held : s.leaseUnit.held = [])
    (late : Bool) : s.endClaim late r =
      (((s.modLease (fun u => u.removeClaim r)).setQueue []).modLease (fun u => u.grant w.port w.request)).answerWaiter
        w.port w.tag .ok (w.request.grantFields s.leaseUnit.nextLeaseId) := by
  have cut : (s.leaseUnit.removeClaim r).queue = [{ w with settling := some [] }] := by
    simp [LeaseUnit.removeClaim, queue, settling, dropClaim]
  have settled : ∀ q, (s.leaseUnit.removeClaim r).settling.get q = none := by
    intro q
    rw [LeaseUnit.removeClaim_settling, others q]
    rfl
  unfold State.endClaim
  dsimp only
  rw [LeaseUnit.emptied_unsettled (by exact settled)]
  refine (State.scan_grants (s := s.modLease (fun u => u.removeClaim r)) (by exact cut) rfl late).trans ?_
  exact State.retry_idle (by exact held) late _

/-! ## The withdrawal of an admission, taken by the lease unit (R42) -/

section
variable {s : State} {r : Requester} (late : Bool)

theorem State.takeWithdrawal_held (held : ∃ a ∈ s.leaseUnit.held, a.requester = r) :
    s.takeWithdrawal r late = (s.modMail r (fun m => { m with withdrawal := false })).modLease
      (fun u => { u with held := u.held.filter (fun a => a.requester != r) }) := by
  obtain ⟨a, mem, rfl⟩ := held
  exact if_pos (List.any_eq_true.2 ⟨a, mem, beq_self_eq_true a.requester⟩)

variable (free : ∀ a ∈ s.leaseUnit.held, a.requester ≠ r)
include free

theorem State.takeWithdrawal_unheld : s.takeWithdrawal r late =
    if s.leaseUnit.claims.any (fun c => c.requester == r) then
      (s.modMail r (fun m => { m with withdrawal := false })).endClaim late r
    else s.modMail r (fun m => { m with withdrawal := false }) := by
  refine if_neg ?_
  simpa using free

theorem State.takeWithdrawal_claimed (claimed : ∃ c ∈ s.leaseUnit.claims, c.requester = r) :
    s.takeWithdrawal r late = (s.modMail r (fun m => { m with withdrawal := false })).endClaim late r := by
  rw [State.takeWithdrawal_unheld late free, if_pos (by simpa using claimed)]

theorem State.takeWithdrawal_unknown (unclaimed : ∀ c ∈ s.leaseUnit.claims, c.requester ≠ r) :
    s.takeWithdrawal r late = s.modMail r (fun m => { m with withdrawal := false }) := by
  rw [State.takeWithdrawal_unheld late free, if_neg (by simpa using unclaimed)]

end

theorem exec_withdrawal {s : State} {r : Requester} (quiet : s.leaseUnit.due = false)
    (withdrawn : (s.mail.get r).withdrawal = true) (ended : (s.mail.get r).claimEnd = false) (late : Bool) :
    exec (.admissionWithdrawal r late) s = .next (s.takeWithdrawal r late) := by
  refine congrArg Host.Outcome.next ((if_pos ⟨withdrawn, ended⟩).trans ?_)
  exact State.atLeaseUnit_quiet quiet _

theorem exec_claimEnd {s : State} {r : Requester} (quiet : s.leaseUnit.due = false)
    (ended : (s.mail.get r).claimEnd = true) (late : Bool) :
    exec (.claimEnd r late) s = .next ((s.modMail r (fun m => { m with claimEnd := false })).endClaim late r) := by
  refine congrArg Host.Outcome.next ((if_pos ended).trans ?_)
  exact State.atLeaseUnit_quiet quiet _

/-- The end of a claim: the requests and waiters whose last recorded claim it was are granted, then the queue is scanned. -/
theorem State.endClaim_eq (s : State) (late : Bool) (r : Requester) : s.endClaim late r =
    ((allPorts.filter (fun p => (((s.leaseUnit.removeClaim r).settling.get p).any (fun x => x.recorded.isEmpty)))).foldl
      (State.grantSettling late) (s.modLease (fun u => u.removeClaim r))).scan late := by
  rw [← LeaseUnit.emptied_eq]
  rfl

/-- Settles O34. -/
theorem withdrawalAndClaimEnd : Obligations.WithdrawalAndClaimEnd := by
  unfold Obligations.WithdrawalAndClaimEnd
  refine ⟨fun s r late quiet withdrawn ended => ?_, fun s r late quiet ended => exec_claimEnd quiet ended late,
    fun s t r late cut cuts gone => ?_, fun s p x late settling => ?_, fun s late r => rfl, LeaseUnit.mem_settlingRanges,
    fun s a late => ?_, fun s r late d withdrawn => State.deliver_withdrawn withdrawn late d,
    fun s q d stands => ?_, fun s d stands => ?_, fun s r late queue settling => ?_,
    fun s r late p x e queue held settling others executing phase sends reserved => ?_,
    fun s t r p q x l a o queue settling others held meets other requester operation stands lease free done => ?_,
    fun s t r late w queue settling others held sends reserved done => ?_⟩
  · rw [exec_withdrawal quiet withdrawn ended]
    exact ⟨fun held => congrArg _ (State.takeWithdrawal_held late held),
      fun free unclaimed => congrArg _ (State.takeWithdrawal_unknown late free unclaimed),
      fun free claimed => congrArg _ (State.takeWithdrawal_claimed late free claimed)⟩
  · obtain rfl : cut = fun x => x.map (fun y => { y with recorded := y.recorded.filter (fun c => c != r) }) := funext cuts
    have same : t = s.modLease (fun u => u.removeClaim r) := gone
    rw [State.endClaim_eq, same]
    refine congrArg (fun ps : List Port => (ps.foldl (State.grantSettling late) _).scan late)
      (List.filter_congr (fun p _ => ?_))
    cases settling : (s.modLease (fun u => u.removeClaim r)).leaseUnit.settling.get p with
    | none => exact congrArg (fun y : Option Settling => y.any (fun x => x.recorded.isEmpty)) settling
    | some x => exact congrArg (fun y : Option Settling => y.any (fun x => x.recorded.isEmpty)) settling
  · exact State.grantSettling_some settling late
  · exact ⟨fun l mem forbids least => ⟨State.decideAdmission_refused late mem forbids least,
        State.retryOne_refused late mem forbids least⟩,
      fun free => ⟨fun settling => ⟨State.decideAdmission_held late free settling, State.retryOne_held late free settling⟩,
        fun settling => ⟨State.decideAdmission_admits late free settling, State.retryOne_admits late free settling⟩⟩⟩
  · exact ⟨State.deliver_port_late stands d, fun o operation => State.deliver_port_admitted stands operation,
      fun o x id holder operation executing phase => State.deliver_port_refused stands operation executing phase id holder⟩
  · refine ⟨State.deliver_engine_late stands d, fun x rest inbox => State.deliver_engine_waits stands inbox d,
      fun ru j inbox running found => ⟨fun admitted => ?_, fun id holder refused => ?_⟩⟩
    · rw [admitted, State.deliver_engine_now stands inbox, State.engineDecision_admitted running found]
    · rw [refused, State.deliver_engine_now stands inbox, State.engineDecision_refused running found]
      rfl
  · exact State.endClaim_unsettled queue settling late r
  · exact State.endClaim_answers queue settling others held executing phase sends reserved late
  · subst lease done
    exact State.endClaim_admits queue settling others held meets other requester operation stands free
  · subst done
    rw [State.endClaim_grantsWaiter queue settling others held,
      State.answerWaiter_sends (by exact sends) (by exact reserved)]
    exact ⟨rfl, rfl, congrArg Transmitter.queue (PerPort.get_set_self ..),
      congrArg Transmitter.reserved (PerPort.get_set_self ..), congrArg PortUnit.waiting (PerPort.get_set_self ..)⟩

end Sys2Proof.Machine
end

section
/-! SUPPORT. The teardown steps at the lease unit: what they leave of the port (R21, R38, R91, R140). -/

namespace Sys2Proof.Machine

/-! ## A port beside the lease unit's decisions -/

/-- What the lease unit's decisions on other requests leave of port `p`: its WAITING set, and all of its in-flight state
where no access of it is executing. -/
structure State.PortStands (p : Port) (s t : State) : Prop where
  waiting : (t.pu.get p).waiting = (s.pu.get p).waiting
  discard : (t.ltx.get p).discard = (s.ltx.get p).discard
  standing : s.phase p ≠ some .access →
    (t.pu.get p).executing = (s.pu.get p).executing ∧ (t.ltx.get p).reserved = (s.ltx.get p).reserved
  discarding : (s.ltx.get p).discard = true → (t.ltx.get p).reserved = (s.ltx.get p).reserved

theorem Transmitter.queueReply_discard (t : Transmitter) (f : Frame) : (t.queueReply f).discard = t.discard := by
  unfold Transmitter.queueReply
  split
  · rfl
  · exact Transmitter.append_discard _ f

theorem State.answer_ltx_ne (s : State) {p q : Port} (other : p ≠ q) (r : Result) (fields : List Byte) :
    (s.answer q r fields).ltx.get p = s.ltx.get p := by
  unfold State.answer
  split
  · rfl
  · exact PerPort.get_set_ne _ _ other

theorem State.phase_congr {s t : State} {p : Port} (same : (t.pu.get p).executing = (s.pu.get p).executing) :
    t.phase p = s.phase p := congrArg (Option.map Executing.phase) same

section
variable {p : Port} {s t u : State}

theorem State.PortStands.refl (p : Port) (s : State) : State.PortStands p s s :=
  ⟨rfl, rfl, fun _ => ⟨rfl, rfl⟩, fun _ => rfl⟩

theorem State.PortStands.trans (h : State.PortStands p s t) (k : State.PortStands p t u) : State.PortStands p s u := by
  refine ⟨k.waiting.trans h.waiting, k.discard.trans h.discard, fun other => ?_, fun discards => ?_⟩
  · obtain ⟨executing, reserved⟩ := h.standing other
    obtain ⟨executing', reserved'⟩ := k.standing (State.phase_congr executing ▸ other)
    exact ⟨executing'.trans executing, reserved'.trans reserved⟩
  · exact (k.discarding (h.discard.trans discards)).trans (h.discarding discards)

theorem State.PortStands.outside (h : State.PortStands p s t) (pu : u.pu.get p = t.pu.get p)
    (ltx : u.ltx.get p = t.ltx.get p) : State.PortStands p s u := by
  refine h.trans ⟨?_, ?_, fun _ => ⟨?_, ?_⟩, fun _ => ?_⟩
  · rw [pu]
  · rw [ltx]
  · rw [pu]
  · rw [ltx]
  · rw [ltx]

theorem State.PortStands.modEngine (h : State.PortStands p s t) (f : JobEngine → JobEngine) :
    State.PortStands p s (t.modEngine f) := h.outside rfl rfl

theorem State.PortStands.modLease (h : State.PortStands p s t) (f : LeaseUnit → LeaseUnit) :
    State.PortStands p s (t.modLease f) := h.outside rfl rfl

theorem State.PortStands.modMail (h : State.PortStands p s t) (r : Requester) (f : Mail → Mail) :
    State.PortStands p s (t.modMail r f) := h.outside rfl rfl

theorem State.PortStands.offer (h : State.PortStands p s t) (q : Port) (n : NoticeKind) (fields : List Byte) :
    State.PortStands p s (t.offer q n fields) := by
  by_cases same : q = p
  · subst same
    obtain ⟨reserved, discard⟩ := Transmitter.offer_reserved (t.ltx.get q) (t.pu.get q).session (t.pu.get q).mask n fields
    have sent : (t.offer q n fields).ltx.get q = (t.ltx.get q).offer (t.pu.get q).session (t.pu.get q).mask n fields :=
      PerPort.get_set_self ..
    rw [← sent] at reserved discard
    exact h.trans ⟨rfl, discard, fun _ => ⟨rfl, reserved⟩, fun _ => reserved⟩
  · exact h.outside rfl (PerPort.get_set_ne _ _ (Ne.symm same))

/-! ### The job engine's side -/

theorem State.PortStands.selectJob (h : State.PortStands p s t) : State.PortStands p s t.selectJob :=
  h.outside (by rw [State.selectJob_pu]) (by rw [State.selectJob_ltx])

theorem State.PortStands.blockJob (h : State.PortStands p s t) (j : Job) (id : Nat) (holder : Port) :
    State.PortStands p s (t.blockJob j id holder) := by
  unfold State.blockJob
  exact ((h.modEngine _).offer ..).selectJob

theorem State.PortStands.engineDecision (h : State.PortStands p s t) (d : Decision) :
    State.PortStands p s (t.engineDecision d) := by
  unfold State.engineDecision
  split
  · exact h
  · split
    · exact h
    · split
      · exact h.blockJob ..
      · exact (h.modEngine _).modMail ..

theorem State.PortStands.takeEngineDecision (h : State.PortStands p s t) :
    State.PortStands p s t.takeEngineDecision := by
  unfold State.takeEngineDecision
  split
  · exact (h.modEngine _).engineDecision _
  · exact h

/-! ### The port's side -/

/-- Only an access of the port is answered by a decision on it. -/
theorem State.PortStands.answerAccess (h : State.PortStands p s t) (q : Port) (r : Result) (fields : List Byte) :
    State.PortStands p s (t.answerIn q .access r fields) := by
  by_cases access : t.phase q = some .access
  · rw [State.answerIn, if_pos access]
    by_cases same : p = q
    · subst same
      cases executing : (t.pu.get p).executing with
      | none =>
        rw [State.answer_free executing]
        exact h
      | some x =>
        rw [State.answer_executing executing]
        refine h.trans ⟨?_, ?_, fun other => absurd access other, fun discards => ?_⟩
        · simp
        · simpa using Transmitter.queueReply_discard _ _
        · simp [Transmitter.queueReply_discards discards]
    · exact h.outside (by rw [← State.answerIn_pu_ne t same .access r fields, State.answerIn, if_pos access])
        (State.answer_ltx_ne t same r fields)
  · rw [State.answerIn, if_neg access]
    exact h

theorem State.PortStands.operation (h : State.PortStands p s t) (q : Port) (f : PortUnit → PortUnit)
    (waiting : ∀ u, (f u).waiting = u.waiting := by exact fun _ => rfl)
    (executing : ∀ u, (f u).executing = u.executing := by exact fun _ => rfl) : State.PortStands p s (t.modPu q f) := by
  by_cases same : p = q
  · subst same
    refine h.trans ⟨?_, rfl, fun _ => ⟨?_, rfl⟩, fun _ => rfl⟩
    · rw [State.modPu_pu, PerPort.get_set_self, waiting]
    · rw [State.modPu_pu, PerPort.get_set_self, executing]
  · exact h.outside (PerPort.get_set_ne _ _ same) rfl

theorem State.PortStands.portDecision (h : State.PortStands p s t) (q : Port) (d : Decision) :
    State.PortStands p s (t.portDecision q d) := by
  unfold State.portDecision
  split
  · exact h
  · split
    · exact (h.answerAccess ..).operation ..
    · exact (h.operation q _).modMail ..

theorem State.PortStands.deliver (h : State.PortStands p s t) (late : Bool) (r : Requester) (d : Decision) :
    State.PortStands p s (t.deliver late r d) := by
  unfold State.deliver
  split
  · exact h
  · split
    · split
      · exact h.modMail ..
      · exact h.portDecision _ d
    · dsimp only
      split
      · exact h.modEngine _
      · exact (h.modEngine _).takeEngineDecision

theorem State.PortStands.concludeAdmission (h : State.PortStands p s t) (late : Bool) (a : Access) (d : Decision) :
    State.PortStands p s (t.concludeAdmission late a d) := by
  unfold State.concludeAdmission
  split
  · exact h.deliver ..
  · exact (h.modLease _).deliver ..

theorem State.PortStands.retry (h : State.PortStands p s t) (late : Bool) (r : Range) :
    State.PortStands p s (t.retry late r) := by
  refine State.each_induct (State.PortStands p s) _ _ (fun u a _ hu => ?_) t h
  unfold State.retryOne
  split
  · exact hu
  · exact (hu.modLease _).concludeAdmission ..

/-! ### Grants to other ports -/

theorem State.PortStands.grantWaiter (h : State.PortStands p s t) (late : Bool) {w : Waiter} (other : w.port ≠ p) :
    State.PortStands p s (t.grantWaiter late w) := by
  have granted : State.PortStands p s ((t.modLease (fun u => u.grant w.port w.request)).answerWaiter w.port w.tag .ok
      (w.request.grantFields t.leaseUnit.nextLeaseId)) :=
    h.outside (PerPort.get_set_ne _ _ other.symm) (PerPort.get_set_ne _ _ other.symm)
  unfold State.grantWaiter
  dsimp only
  split
  · exact granted
  · exact granted.retry ..

theorem State.PortStands.scanFrom (late : Bool) : ∀ (rest older : List Waiter) (t : State), (∀ w ∈ rest, w.port ≠ p) →
    State.PortStands p s t → State.PortStands p s (State.scanFrom late rest older t) := by
  intro rest
  induction rest with
  | nil => exact fun _ _ _ h => h
  | cons w rest ih =>
    intro older t others h
    have later : ∀ w ∈ rest, w.port ≠ p := fun v hv => others v (List.mem_cons_of_mem _ hv)
    unfold State.scanFrom
    split
    · exact ih _ _ later h
    · exact ih _ _ later (h.modLease _)
    · exact ih _ _ later ((h.modLease _).grantWaiter late (others w List.mem_cons_self))

theorem State.PortStands.scan (h : State.PortStands p s t) (late : Bool) (none' : t.leaseUnit.waitersOf p = []) :
    State.PortStands p s (t.scan late) := by
  refine State.PortStands.scanFrom late _ _ t (fun w hw own => ?_) h
  have mem : w ∈ t.leaseUnit.waitersOf p := List.mem_filter.2 ⟨hw, by simpa using own⟩
  rw [none'] at mem
  cases mem

end

/-! ## What leaves the port at the waiter step -/

/-- Everything beside port `p`'s own part and the lease unit stands. -/
structure State.OwnPart (p : Port) (s t : State) : Prop where
  engine : t.engine = s.engine
  mail : t.mail = s.mail
  arbiter : t.arbiter = s.arbiter
  lrx : t.lrx = s.lrx
  others : ∀ q, q ≠ p → t.pu.get q = s.pu.get q ∧ t.ltx.get q = s.ltx.get q

theorem State.OwnPart.refl (p : Port) (s : State) : State.OwnPart p s s := ⟨rfl, rfl, rfl, rfl, fun _ _ => ⟨rfl, rfl⟩⟩

theorem State.OwnPart.trans {p : Port} {s t u : State} (h : State.OwnPart p s t) (k : State.OwnPart p t u) :
    State.OwnPart p s u :=
  ⟨k.engine.trans h.engine, k.mail.trans h.mail, k.arbiter.trans h.arbiter, k.lrx.trans h.lrx, fun q other =>
    ⟨(k.others q other).1.trans (h.others q other).1, (k.others q other).2.trans (h.others q other).2⟩⟩

theorem Transmitter.releases_eq (n : Nat) (t : Transmitter) : (Transmitter.releases n t).discard = t.discard ∧
    (Transmitter.releases n t).reserved = if t.discard = true then t.reserved else t.reserved - n := by
  induction n generalizing t with
  | zero => simp [Transmitter.releases]
  | succ n ih =>
    obtain ⟨discard, reserved⟩ := ih t.release
    rw [Transmitter.releases, discard, reserved]
    cases sends : t.discard with
    | true => simp [Transmitter.release_discards sends, sends]
    | false =>
      rw [Transmitter.release_sends sends]
      simp only [sends, Bool.false_eq_true, if_false, true_and]
      omega

section
variable (s : State) (p : Port)

theorem State.discardHanded_cases (b : TakenBy) : s.discardHanded p b = s ∨ s.discardHanded p b = s.dropExecuting p := by
  unfold State.discardHanded
  split
  · exact .inl rfl
  · split
    · exact .inr rfl
    · exact .inl rfl

theorem State.dropInPhase_cases (f : Phase) : s.dropInPhase p f = s ∨ s.dropInPhase p f = s.dropExecuting p := by
  unfold State.dropInPhase
  split
  · exact .inr rfl
  · exact .inl rfl

theorem State.OwnPart.dropExecuting : State.OwnPart p s (s.dropExecuting p) :=
  ⟨rfl, rfl, rfl, rfl, fun _ other => ⟨PerPort.get_set_ne _ _ other, PerPort.get_set_ne _ _ other⟩⟩

theorem State.OwnPart.discardHanded (b : TakenBy) : State.OwnPart p s (s.discardHanded p b) := by
  rcases s.discardHanded_cases p b with same | dropped
  · rw [same]
    exact .refl p s
  · rw [dropped]
    exact .dropExecuting s p

theorem State.OwnPart.dropInPhase (f : Phase) : State.OwnPart p s (s.dropInPhase p f) := by
  rcases s.dropInPhase_cases p f with same | dropped
  · rw [same]
    exact .refl p s
  · rw [dropped]
    exact .dropExecuting s p

theorem State.OwnPart.waitersLeave : State.OwnPart p s (s.waitersLeave p) :=
  ⟨rfl, rfl, rfl, rfl, fun _ other => ⟨PerPort.get_set_ne _ _ other, PerPort.get_set_ne _ _ other⟩⟩

theorem State.OwnPart.modSteps (f : StepsDue → StepsDue) : State.OwnPart p s (s.modSteps p f) :=
  ⟨rfl, rfl, rfl, rfl, fun _ other => ⟨PerPort.get_set_ne _ _ other, rfl⟩⟩

theorem State.OwnPart.waitersGone : State.OwnPart p s (s.waitersGone p) := by
  rw [State.waitersGone_eq]
  exact ((State.OwnPart.discardHanded s p _).trans (.waitersLeave _ p)).trans (.dropInPhase _ p _)

/-- The request executing leaves no trace in the WAITING set, nor any where the port discards. -/
theorem State.dropExecuting_leaves : ((s.dropExecuting p).pu.get p).waiting = (s.pu.get p).waiting ∧
    ((s.dropExecuting p).ltx.get p).discard = (s.ltx.get p).discard ∧
    ((s.ltx.get p).discard = true → ((s.dropExecuting p).ltx.get p).reserved = (s.ltx.get p).reserved) := by
  have released : (s.dropExecuting p).ltx.get p = (s.ltx.get p).release := PerPort.get_set_self ..
  obtain ⟨discard, reserved⟩ := Transmitter.releases_eq 1 (s.ltx.get p)
  rw [released]
  exact ⟨by simp [State.dropExecuting], discard, fun discards => reserved.trans (if_pos discards)⟩

theorem State.waitersLeave_leaves :
    ((s.waitersLeave p).pu.get p).waiting = (s.pu.get p).waiting.filter (fun e =>
      (s.leaseUnit.waitersOf p).all (fun w => w.tag != e.tag)) ∧
    ((s.waitersLeave p).pu.get p).executing = (s.pu.get p).executing ∧
    ((s.waitersLeave p).ltx.get p).discard = (s.ltx.get p).discard ∧
    ((s.waitersLeave p).ltx.get p).reserved = if (s.ltx.get p).discard = true then (s.ltx.get p).reserved else
      (s.ltx.get p).reserved - (s.leaseUnit.waitersOf p).length := by
  have released : (s.waitersLeave p).ltx.get p =
      Transmitter.releases (s.leaseUnit.waitersOf p).length (s.ltx.get p) := PerPort.get_set_self ..
  obtain ⟨discard, reserved⟩ := Transmitter.releases_eq (s.leaseUnit.waitersOf p).length (s.ltx.get p)
  rw [released]
  exact ⟨by simp [State.waitersLeave], by simp [State.waitersLeave], discard, reserved⟩

theorem State.discardHanded_leaves (b : TakenBy) : ((s.discardHanded p b).pu.get p).waiting = (s.pu.get p).waiting ∧
    ((s.discardHanded p b).ltx.get p).discard = (s.ltx.get p).discard ∧
    ((s.ltx.get p).discard = true → ((s.discardHanded p b).ltx.get p).reserved = (s.ltx.get p).reserved) := by
  rcases s.discardHanded_cases p b with same | dropped
  · rw [same]
    exact ⟨rfl, rfl, fun _ => rfl⟩
  · rw [dropped]
    exact s.dropExecuting_leaves p

theorem State.dropInPhase_leaves (f : Phase) : ((s.dropInPhase p f).pu.get p).waiting = (s.pu.get p).waiting ∧
    ((s.dropInPhase p f).ltx.get p).discard = (s.ltx.get p).discard ∧
    ((s.ltx.get p).discard = true → ((s.dropInPhase p f).ltx.get p).reserved = (s.ltx.get p).reserved) := by
  rcases s.dropInPhase_cases p f with same | dropped
  · rw [same]
    exact ⟨rfl, rfl, fun _ => rfl⟩
  · rw [dropped]
    exact s.dropExecuting_leaves p

theorem State.waitersGone_leaves :
    ((s.waitersGone p).pu.get p).waiting = (s.pu.get p).waiting.filter (fun e =>
      (s.leaseUnit.waitersOf p).all (fun w => w.tag != e.tag)) ∧
    ((s.waitersGone p).ltx.get p).discard = (s.ltx.get p).discard ∧
    ((s.ltx.get p).discard = true → ((s.waitersGone p).ltx.get p).reserved = (s.ltx.get p).reserved) := by
  obtain ⟨waiting, discard, reserved⟩ := s.discardHanded_leaves p .waiterStep
  obtain ⟨left, -, discard', reserved'⟩ := (s.discardHanded p .waiterStep).waitersLeave_leaves p
  obtain ⟨waiting'', discard'', reserved''⟩ := ((s.discardHanded p .waiterStep).waitersLeave p).dropInPhase_leaves p .settling
  rw [State.discardHanded_leaseUnit] at left
  rw [State.waitersGone_eq]
  refine ⟨waiting''.trans (left.trans (by rw [waiting])), discard''.trans (discard'.trans discard), fun discards => ?_⟩
  rw [reserved'' (by rw [discard', discard, discards]), reserved', if_pos (by rw [discard, discards]), reserved discards]

end

section
variable {s : State} {p : Port} {x : Executing}

/-- A request that is settling, or stands handed to the lease unit, leaves with the port's waiters. -/
theorem State.waitersGone_drops (executing : (s.pu.get p).executing = some x)
    (phase : x.phase = .settling ∨ ∃ h, x.phase = .handed h ∧ h.discardedBy = .waiterStep) :
    ((s.waitersGone p).pu.get p).executing = none ∧ ((s.ltx.get p).discard = false →
      ((s.waitersGone p).ltx.get p).reserved = (s.ltx.get p).reserved - (s.leaseUnit.waitersOf p).length - 1) := by
  rw [State.waitersGone_eq]
  rcases phase with settling | ⟨h, handed, taken⟩
  · rw [State.discardHanded_keeps executing (fun h handed => by rw [settling] at handed; cases handed)]
    obtain ⟨-, executing', discard, reserved⟩ := s.waitersLeave_leaves p
    rw [State.dropInPhase_drops (executing'.trans executing) settling]
    refine ⟨State.dropExecuting_free _ p, fun sends => ?_⟩
    rw [State.dropExecuting_reserved (discard.trans sends), reserved, sends, if_neg Bool.false_ne_true]
  · rw [← taken, State.discardHanded_discards executing handed]
    obtain ⟨-, executing', discard, reserved⟩ := (s.dropExecuting p).waitersLeave_leaves p
    obtain ⟨-, kept, -⟩ := s.dropExecuting_leaves p
    have free := executing'.trans (State.dropExecuting_free s p)
    rw [State.dropInPhase_free free]
    refine ⟨free, fun sends => ?_⟩
    rw [reserved, kept, sends, if_neg Bool.false_ne_true, State.dropExecuting_reserved sends]
    exact Nat.sub_right_comm ..

/-- Any other state of the port's executing request stands. -/
theorem State.waitersGone_keeps (keeps : s.discardHanded p .waiterStep = s) (other : s.phase p ≠ some .settling) :
    ((s.waitersGone p).pu.get p).executing = (s.pu.get p).executing ∧ ((s.ltx.get p).discard = false →
      ((s.waitersGone p).ltx.get p).reserved = (s.ltx.get p).reserved - (s.leaseUnit.waitersOf p).length) := by
  obtain ⟨-, executing, -, reserved⟩ := s.waitersLeave_leaves p
  rw [State.waitersGone_eq, keeps, State.dropInPhase, if_neg (State.phase_congr executing ▸ other)]
  exact ⟨executing, fun sends => by rw [reserved, sends, if_neg Bool.false_ne_true]⟩

end

/-! ## The two steps taken -/

theorem LeaseUnit.waitersOf_of_sublist {u v : LeaseUnit} {p : Port}
    (h : (v.queue.map Waiter.unmarked).Sublist (u.queue.map Waiter.unmarked)) (none' : u.waitersOf p = []) :
    v.waitersOf p = [] := by
  rw [LeaseUnit.waitersOf_eq_nil] at none' ⊢
  intro w hw
  obtain ⟨m, old, same⟩ := List.mem_map.1 (h.subset (List.mem_map_of_mem hw))
  have port : w.unmarked.port = m.unmarked.port := congrArg Waiter.port same.symm
  exact fun own => none' m old (port.symm.trans own)

theorem State.each_retry_tables (s : State) (late : Bool) (ranges : List Range) :
    s.leaseUnit.TablesKept (s.each ranges (fun t r => t.retry late r)).leaseUnit :=
  State.each_induct (fun t => s.leaseUnit.TablesKept t.leaseUnit) _ ranges
    (fun t r _ h => by
      obtain ⟨leases, settling, queue, lastId⟩ := t.retry_tables late r
      exact ⟨leases.trans h.leases, settling.trans h.settling, queue.trans h.queue, lastId.trans h.lastId⟩) s
    ⟨rfl, rfl, rfl, rfl⟩

/-- The waiter step with the step handed out taken: the port's waiters are gone, no retry nor scan has run. -/
def State.waiterStepTaken (s : State) (p : Port) : State := (s.waitersGone p).modSteps p (fun d => { d with waiter := false })

/-- The waiter step once its turn has come. -/
def State.waiterRun (s : State) (p : Port) (late : Bool) : State :=
  ((s.waiterStepTaken p).each (s.leaseUnit.settlingRangesOf p) (fun t r => t.retry late r)).scan late

section
variable (s : State) (p : Port)

theorem State.waiterStepTaken_leaseUnit : (s.waiterStepTaken p).leaseUnit = s.leaseUnit.removeWaiting p :=
  s.waitersGone_leaseUnit p

theorem State.OwnPart.waiterStepTaken : State.OwnPart p s (s.waiterStepTaken p) :=
  (State.OwnPart.waitersGone s p).trans (.modSteps _ p _)

theorem State.waiterStepTaken_port : (s.waiterStepTaken p).pu.get p = { (s.waitersGone p).pu.get p with
    stepsDue := { ((s.waitersGone p).pu.get p).stepsDue with waiter := false } } := PerPort.get_set_self ..

theorem State.waiterRun_stands (late : Bool) : State.PortStands p (s.waiterStepTaken p) (s.waiterRun p late) := by
  refine State.PortStands.scan (State.each_induct (State.PortStands p (s.waiterStepTaken p)) _ _
    (fun t r _ h => h.retry late r) _ (.refl p _)) late ?_
  rw [LeaseUnit.waitersOf, (State.each_retry_tables ..).queue, State.waiterStepTaken_leaseUnit]
  exact LeaseUnit.waitersOf_removeWaiting ..

theorem State.waiterRun_grants (late : Bool) : (s.waiterStepTaken p).leaseUnit.OnlyGrants (s.waiterRun p late).leaseUnit :=
  State.scan_onlyGrants ..

theorem State.waiterRun_unit (late : Bool) : (s.waiterRun p late).leaseUnit.waitersOf p = [] ∧
    (s.waiterRun p late).leaseUnit.settling.get p = none := by
  have grants := s.waiterRun_grants p late
  have unit := s.waiterStepTaken_leaseUnit p
  refine ⟨LeaseUnit.waitersOf_of_sublist grants.queue ?_, ?_⟩
  · rw [unit]
    exact LeaseUnit.waitersOf_removeWaiting ..
  · rw [grants.settling, unit]
    exact PerPort.get_set_self ..

theorem State.waiterRun_kept (late : Bool) : ((s.waiterRun p late).pu.get p).stepsDue.waiter = false ∧
    (s.waiterRun p late).store = s.store := by
  have kept := (State.CoreKept.refl (s.modSteps p (fun d => { d with waiter := false }))).waiterStep p late
  rw [State.waiterStep_modSteps] at kept
  refine ⟨?_, kept.store⟩
  have taken : ((s.modSteps p (fun d => { d with waiter := false })).pu.get p).stepsDue.waiter = false := by
    simp [State.modSteps]
  exact (congrArg StepsDue.waiter (kept.unit p).stepsDue).trans taken

/-- The port after the step is as it was when its waiters left, where no access of it is executing. -/
theorem State.waiterRun_port (late : Bool) :
    ((s.waiterRun p late).pu.get p).waiting = (s.pu.get p).waiting.filter (fun e =>
      (s.leaseUnit.waitersOf p).all (fun w => w.tag != e.tag)) ∧
    (((s.waitersGone p).pu.get p).executing.map Executing.phase ≠ some .access →
      ((s.waiterRun p late).pu.get p).executing = ((s.waitersGone p).pu.get p).executing ∧
      ((s.waiterRun p late).ltx.get p).reserved = ((s.waitersGone p).ltx.get p).reserved) ∧
    ((s.ltx.get p).discard = true → ((s.waiterRun p late).ltx.get p).reserved = (s.ltx.get p).reserved) := by
  have stands := s.waiterRun_stands p late
  have own := s.waiterStepTaken_port p
  obtain ⟨waiting, discard, reserved⟩ := s.waitersGone_leaves p
  refine ⟨?_, fun other => ?_, fun discards => ?_⟩
  · rw [stands.waiting, own, waiting]
  · obtain ⟨executing, reserved'⟩ := stands.standing (by rw [State.phase, own]; exact other)
    rw [executing, own]
    exact ⟨rfl, reserved'⟩
  · exact (stands.discarding (discard.trans discards)).trans (reserved discards)

end

theorem exec_teardownWaiterStep {s : State} {p : Port} (due : (s.pu.get p).stepsDue.waiter = true) (late : Bool) :
    exec (.teardownWaiterStep p late) s = .next (s.expireLeases.waiterRun p late) := by
  refine congrArg Host.Outcome.next ((if_pos due).trans ?_)
  exact State.waiterStep_modSteps s.expireLeases p late _

/-! ### The lease step -/

theorem State.scan_waitersOf {s : State} {p : Port} (none' : s.leaseUnit.waitersOf p = []) (late : Bool) :
    (s.scan late).leaseUnit.waitersOf p = [] :=
  LeaseUnit.waitersOf_of_sublist (State.scan_onlyGrants s false late []).queue none'

/-- No expiry brings a waiter. -/
theorem State.expireLeases_waitersOf {s : State} {p : Port} (none' : s.leaseUnit.waitersOf p = []) :
    s.expireLeases.leaseUnit.waitersOf p = [] := by
  refine State.each_induct (fun t => t.leaseUnit.waitersOf p = []) _ _ (fun t w _ h => ?_) _
    (State.each_induct (fun t => t.leaseUnit.waitersOf p = []) _ _ (fun t id _ h => ?_) s none')
  · unfold State.takeWaitExpiry
    split
    · exact h
    · split
      · refine State.scan_waitersOf ?_ false
        rw [LeaseUnit.waitersOf_eq_nil] at h ⊢
        exact fun v hv => h v (List.mem_filter.1 hv).1
      · exact h
  · unfold State.takeLapse
    split
    · exact h
    · unfold State.lapse State.afterRemoval
      exact State.scan_waitersOf (by exact h) false

theorem State.each_reportRemoval (s : State) (ls : List Lease) : s.each ls (fun t l => t.reportRemoval l.id) =
    s.modEngine (fun e => { e with inbox := e.inbox ++ ls.map (fun l => .removed l.id) }) := by
  induction ls generalizing s with
  | nil =>
    rw [List.map_nil]
    simp only [List.append_nil]
    rfl
  | cons l ls ih =>
    refine (ih (s.reportRemoval l.id)).trans ?_
    simp only [State.reportRemoval, State.modEngine_modEngine, List.append_assoc, List.map_cons, List.singleton_append]

/-- With no access held, grants to waiters do not reach the job engine. -/
theorem State.scanFrom_engine (late : Bool) : ∀ (rest older : List Waiter) (s : State), s.leaseUnit.held = [] →
    (State.scanFrom late rest older s).engine = s.engine := by
  intro rest
  induction rest with
  | nil => exact fun _ _ _ => rfl
  | cons w rest ih =>
    intro older s held
    have granted : ((s.setQueue (older ++ rest)).grantWaiter late w).leaseUnit.held = [] ∧
        ((s.setQueue (older ++ rest)).grantWaiter late w).engine = s.engine := by
      unfold State.grantWaiter
      dsimp only
      split
      · exact ⟨held, rfl⟩
      · rw [State.retry_idle (by exact held)]
        exact ⟨held, rfl⟩
    unfold State.scanFrom
    split
    · exact ih _ _ held
    · exact ih _ (s.setQueue _) held
    · exact (ih _ _ granted.1).trans granted.2

/-- The lease step with the step handed out taken: the port's leases are gone, no scan has run. -/
def State.leaseStepTaken (s : State) (p : Port) : State := (s.leasesGone p).modSteps p (fun d => { d with lease := false })

section
variable {s : State} {p : Port}

theorem State.leaseStepTaken_leaseUnit (s : State) (p : Port) : (s.leaseStepTaken p).leaseUnit =
    { s.leaseUnit with leases := s.leaseUnit.leases.filter (fun l => l.port != p) } :=
  congrArg (fun u : LeaseUnit => { u with leases := u.leases.filter (fun l => l.port != p) })
    (s.discardHanded_leaseUnit p .leaseStep)

theorem State.OwnPart.leaseStepTaken (s : State) (p : Port) : State.OwnPart p s (s.leaseStepTaken p) :=
  have gone : State.OwnPart p s (s.leasesGone p) :=
    (State.OwnPart.discardHanded s p .leaseStep).trans ⟨rfl, rfl, rfl, rfl, fun _ _ => ⟨rfl, rfl⟩⟩
  gone.trans (.modSteps (s.leasesGone p) p _)

theorem exec_teardownLeaseStep (lease : (s.pu.get p).stepsDue.lease = true)
    (waiter : (s.pu.get p).stepsDue.waiter = false) : exec (.teardownLeaseStep p) s =
      .next (((s.expireLeases.leaseStepTaken p).scan false).modEngine (fun e => { e with
        inbox := e.inbox ++ (sortById (s.expireLeases.leaseUnit.leasesOf p)).map (fun l => .removed l.id) })) := by
  refine congrArg Host.Outcome.next ((if_pos ⟨lease, waiter⟩).trans ?_)
  exact (State.leaseStep_modSteps s.expireLeases p _).trans (State.each_reportRemoval ..)

theorem State.leaseStepTaken_kept (s : State) (p : Port) :
    (((s.leaseStepTaken p).scan false).pu.get p).stepsDue.lease = false ∧ ((s.leaseStepTaken p).scan false).store = s.store := by
  have kept := ((((State.CoreKept.refl (s.modSteps p (fun d => { d with lease := false }))).discardHanded p
    .leaseStep).modLease (fun u => { u with leases := u.leases.filter (fun l => l.port != p) })).scan false)
  rw [State.discardHanded_modSteps] at kept
  have taken : ((s.modSteps p (fun d => { d with lease := false })).pu.get p).stepsDue.lease = false := by
    simp [State.modSteps]
  exact ⟨(congrArg StepsDue.lease (kept.unit p).stepsDue).trans taken, kept.store⟩

/-- After the step no lease of the port is left: none of its waiters was there to be granted one. -/
theorem State.leaseStepTaken_leases (none' : s.leaseUnit.waitersOf p = []) :
    ((s.leaseStepTaken p).scan false).leaseUnit.leasesOf p = [] := by
  obtain ⟨granted, leases, asked⟩ := (State.scan_onlyGrants (s.leaseStepTaken p) false false []).leases
  have others := (LeaseUnit.waitersOf_eq_nil ..).1 none'
  have all : ∀ l ∈ ((s.leaseStepTaken p).scan false).leaseUnit.leases, l.port ≠ p := by
    intro l hl
    rw [show ((s.leaseStepTaken p).scan false).leaseUnit.leases = _ from leases, State.leaseStepTaken_leaseUnit] at hl
    rcases List.mem_append.1 hl with old | new
    · simpa using (List.mem_filter.1 old).2
    · obtain ⟨w, hw, same⟩ := asked l new
      rw [State.leaseStepTaken_leaseUnit] at hw
      rw [same]
      exact others w hw
  exact List.filter_eq_nil_iff.2 (fun l hl => by simpa using all l hl)

theorem State.leaseStepTaken_stands (none' : s.leaseUnit.waitersOf p = []) :
    State.PortStands p (s.leaseStepTaken p) ((s.leaseStepTaken p).scan false) := by
  refine (State.PortStands.refl p _).scan false ?_
  rw [State.leaseStepTaken_leaseUnit]
  exact none'

/-- A FORCE_RELEASE standing handed over is dropped without a reply. -/
theorem State.leaseStepTaken_drops {x : Executing} {i : Nat} (none' : s.leaseUnit.waitersOf p = [])
    (executing : (s.pu.get p).executing = some x) (phase : x.phase = .handed (.forceRelease i)) :
    (((s.leaseStepTaken p).scan false).pu.get p).executing = none ∧ ((s.ltx.get p).discard = false →
      (((s.leaseStepTaken p).scan false).ltx.get p).reserved = (s.ltx.get p).reserved - 1) := by
  have dropped : s.discardHanded p .leaseStep = s.dropExecuting p := State.discardHanded_discards executing phase
  have free : ((s.leaseStepTaken p).pu.get p).executing = none := by
    simp [State.leaseStepTaken, State.leasesGone, State.modSteps, dropped, State.dropExecuting_free]
  obtain ⟨executing', reserved⟩ := (State.leaseStepTaken_stands none').standing (by simp [State.phase, free])
  refine ⟨executing'.trans free, fun sends => reserved.trans ?_⟩
  have released : (s.leaseStepTaken p).ltx = (s.dropExecuting p).ltx := by
    rw [← dropped]
    rfl
  rw [released, State.dropExecuting_reserved sends]

end

/-- Settles O16. -/
theorem teardownStepsAtTheLeaseUnit : Obligations.TeardownStepsAtTheLeaseUnit := by
  unfold Obligations.TeardownStepsAtTheLeaseUnit
  refine ⟨fun s p late due => ?_, fun s p lease waiter none' => ?_, fun s p late taken => ?_, fun s p idle => ?_⟩
  · obtain ⟨taken, store⟩ := s.expireLeases.waiterRun_kept p late
    obtain ⟨waiters, settling⟩ := s.expireLeases.waiterRun_unit p late
    refine ⟨_, exec_teardownWaiterStep due late, taken, waiters, settling,
      store.trans (State.CoreKept.refl s).expireLeases.store, fun quiet => ?_⟩
    rw [State.expireLeases_quiet quiet]
    obtain ⟨engine, mail, arbiter, lrx, others⟩ := State.OwnPart.waiterStepTaken s p
    obtain ⟨waiting, standing, discarding⟩ := s.waiterRun_port p late
    refine ⟨⟨s.waiterStepTaken p, rfl, s.waiterStepTaken_leaseUnit p, engine, mail, arbiter, lrx, others,
      s.waiterRun_grants p late⟩, waiting, fun x executing =>
        ⟨fun phase => ?_, fun phase => ?_⟩, fun free => ?_, discarding⟩
    · obtain ⟨gone, reserved⟩ := State.waitersGone_drops executing (phase.imp_right (by
        rintro (⟨_, h⟩ | ⟨_, _, h⟩ | ⟨_, h⟩ | ⟨_, h⟩ | h) <;> exact ⟨_, h, rfl⟩))
      obtain ⟨executing', reserved'⟩ := standing (by simp [gone])
      exact ⟨executing'.trans gone, fun sends => reserved'.trans (reserved sends)⟩
    · have other : x.phase ≠ .settling ∧ x.phase ≠ .access ∧
          ∀ h, x.phase = .handed h → h.discardedBy ≠ .waiterStep := by
        rcases phase with h | h | ⟨_, h⟩ | ⟨_, _, _, h⟩ | ⟨_, h⟩ | ⟨_, h⟩ | ⟨_, h⟩ | ⟨_, h⟩ | ⟨_, h⟩
        all_goals simp [h, Handed.discardedBy]
      obtain ⟨settling', access, handed⟩ := other
      obtain ⟨kept, reserved⟩ := State.waitersGone_keeps (State.discardHanded_keeps executing handed)
        (by simpa [State.phase, executing] using settling')
      obtain ⟨executing', reserved'⟩ := standing (by simpa [kept, executing] using access)
      exact ⟨executing'.trans (kept.trans executing), fun sends => reserved'.trans (reserved sends)⟩
    · obtain ⟨kept, reserved⟩ := State.waitersGone_keeps (State.discardHanded_free free _) (by simp [State.phase, free])
      obtain ⟨executing', reserved'⟩ := standing (by simp [kept, free])
      exact ⟨executing'.trans (kept.trans free), fun sends => reserved'.trans (reserved sends)⟩
  · obtain ⟨taken, store⟩ := s.expireLeases.leaseStepTaken_kept p
    refine ⟨_, exec_teardownLeaseStep lease waiter, taken,
      State.leaseStepTaken_leases (State.expireLeases_waitersOf none'),
      store.trans (State.CoreKept.refl s).expireLeases.store, fun quiet => ?_, fun quiet held => ?_,
      fun quiet x i executing phase => ?_⟩
    all_goals rw [State.expireLeases_quiet quiet]
    · obtain ⟨engine, mail, arbiter, lrx, others⟩ := State.OwnPart.leaseStepTaken s p
      exact ⟨s.leaseStepTaken p, _, rfl, rfl, s.leaseStepTaken_leaseUnit p, engine, mail, arbiter, lrx, others,
        State.scan_onlyGrants (s.leaseStepTaken p) false false []⟩
    · have engine : ((s.leaseStepTaken p).scan false).engine = s.engine :=
        (State.scanFrom_engine false _ [] (s.leaseStepTaken p) (by rw [State.leaseStepTaken_leaseUnit]; exact held)).trans
          (State.OwnPart.leaseStepTaken s p).engine
      rw [State.modEngine_engine, engine]
    · exact State.leaseStepTaken_drops none' executing phase
  · exact congrArg Host.Outcome.next (if_neg (by simp [taken]))
  · refine congrArg Host.Outcome.next (if_neg ?_)
    rintro ⟨lease, waiter⟩
    rcases idle with h | h
    · rw [lease] at h
      cases h
    · rw [waiter] at h
      cases h

end Sys2Proof.Machine
end

section
/-! SUPPORT. The job engine's operations leave the lease unit (R127-R155). -/

namespace Sys2Proof.Machine

/-! ## Replies, ends and selections -/

section
variable (s : State)

theorem State.withdrawAdmission_leaseUnit (r : Requester) : (s.withdrawAdmission r).leaseUnit = s.leaseUnit := by
  unfold State.withdrawAdmission
  split
  · rfl
  · cases r <;> rfl

theorem State.each_leaseUnit {α : Type} (xs : List α) (f : State → α → State)
    (kept : ∀ t x, (f t x).leaseUnit = t.leaseUnit) : (s.each xs f).leaseUnit = s.leaseUnit :=
  State.each_induct (fun t => t.leaseUnit = s.leaseUnit) f xs (fun t x _ h => (kept t x).trans h) s rfl

theorem State.answerEnded_leaseUnit (j : Job) : (s.answerEnded j).leaseUnit = s.leaseUnit := by
  refine s.each_leaseUnit _ _ (fun t w => ?_)
  split <;> exact t.answerIn_leaseUnit ..

theorem State.answerPaused_leaseUnit (j : Job) : (s.answerPaused j).leaseUnit = s.leaseUnit :=
  s.each_leaseUnit _ _ (fun t _ => t.answerIn_leaseUnit ..)

theorem State.endCancelled_leaseUnit (j : Job) (reason : CancelReason) (replies : State → State)
    (kept : ∀ t, (replies t).leaseUnit = t.leaseUnit) : (s.endCancelled j reason replies).leaseUnit = s.leaseUnit := by
  cases reason <;> exact kept _

theorem State.deferStop_leaseUnit (p : Port) (j : Job) (stop : StopKind) :
    (s.deferStop p j stop).leaseUnit = s.leaseUnit := by
  unfold State.deferStop
  split <;> rfl

theorem State.resolveChunk_leaseUnit (j : Job) : (s.resolveChunk j).leaseUnit = s.leaseUnit := by
  have done : (s.endJob j .done .complete (fun t => t.answerEnded j)).selectJob.leaseUnit = s.leaseUnit :=
    (State.selectJob_leaseUnit _).trans (State.answerEnded_leaseUnit _ j)
  unfold State.resolveChunk
  split
  · rw [State.selectJob_leaseUnit]
    exact s.endCancelled_leaseUnit j _ _ (fun t => t.answerEnded_leaseUnit j)
  · split
    · exact done
    · rw [State.selectJob_leaseUnit]
      exact State.answerPaused_leaseUnit _ j
  · split
    · exact done
    · rfl

theorem State.chunkEnd_leaseUnit (bytes : List Byte) : (s.chunkEnd bytes).leaseUnit = s.leaseUnit := by
  unfold State.chunkEnd
  split
  · rfl
  · split
    · rfl
    · exact State.resolveChunk_leaseUnit _ _

theorem State.portTurnEnd_leaseUnit (p : Port) (bytes : List Byte) : (s.portTurnEnd p bytes).leaseUnit = s.leaseUnit := by
  unfold State.portTurnEnd
  split
  · rfl
  · split
    · rfl
    · split
      · exact s.answerIn_leaseUnit ..
      · rfl

theorem State.endTurn_leaseUnit (r : Requester) (x : Turn) : (s.endTurn r x).leaseUnit = s.leaseUnit := by
  unfold State.endTurn
  cases r with
  | port p => exact State.portTurnEnd_leaseUnit _ p _
  | engine => exact State.chunkEnd_leaseUnit _ _

end

/-! ## Requests decided by the engine -/

section
variable (s : State) (p : Port)

theorem State.submit_leaseUnit (w : Submission) (length limit : Nat) :
    (s.submit p w length limit).leaseUnit = s.leaseUnit := by
  unfold State.submit
  split
  · exact s.answer_leaseUnit ..
  · exact (State.selectJob_leaseUnit _).trans (State.answer_leaseUnit ..)

theorem State.cancelJob_leaseUnit (j : Job) (reason : CancelReason) : (s.cancelJob p j reason).leaseUnit = s.leaseUnit := by
  have reply : ∀ t : State, (t.answer p .ok j.stopFields).leaseUnit = t.leaseUnit := fun t => t.answer_leaseUnit ..
  unfold State.cancelJob
  dsimp only
  split
  · split
    · exact s.deferStop_leaseUnit ..
    · rw [State.selectJob_leaseUnit, State.endCancelled_leaseUnit _ _ _ _ reply, State.withdrawAdmission_leaseUnit]
  · exact s.endCancelled_leaseUnit j reason _ reply

theorem State.decidePause_leaseUnit (id : Nat) : (s.decidePause p id).leaseUnit = s.leaseUnit := by
  unfold State.decidePause
  split
  · exact s.answer_leaseUnit ..
  · split
    · exact State.answer_leaseUnit ..
    · exact State.answer_leaseUnit ..
    · split
      · exact s.deferStop_leaseUnit ..
      · rw [State.selectJob_leaseUnit, State.answer_leaseUnit]
        exact s.withdrawAdmission_leaseUnit .engine
    · exact s.answer_leaseUnit ..

theorem State.decideResume_leaseUnit (id : Nat) : (s.decideResume p id).leaseUnit = s.leaseUnit := by
  unfold State.decideResume
  split
  · exact s.answer_leaseUnit ..
  · split
    · exact (State.selectJob_leaseUnit _).trans (State.answer_leaseUnit ..)
    all_goals exact s.answer_leaseUnit ..

theorem State.decideCancel_leaseUnit (id : Nat) : (s.decideCancel p id).leaseUnit = s.leaseUnit := by
  unfold State.decideCancel
  split
  · exact s.answer_leaseUnit ..
  · exact s.cancelJob_leaseUnit ..

theorem State.decideForceCancel_leaseUnit (id : Nat) : (s.decideForceCancel p id).leaseUnit = s.leaseUnit := by
  unfold State.decideForceCancel
  split
  · exact s.answer_leaseUnit ..
  · exact s.cancelJob_leaseUnit ..

theorem State.decideQuery_leaseUnit (id : Nat) : (s.decideQuery p id).leaseUnit = s.leaseUnit := by
  unfold State.decideQuery
  split
  · exact s.answer_leaseUnit ..
  · split
    · exact s.answer_leaseUnit ..
    · exact s.answer_leaseUnit ..

end

/-! ## Taking a frame -/

/-- What the checks and the decision on a taken frame keep, the command keeps. -/
theorem State.takeRequest_induct (P : State → Prop) {s : State} {p : Port} {k : Kind} {body : Frame → State → State}
    (stands : P s) (begun : ∀ tag, P (s.beginRequest p k tag)) (emptied : P (s.emptySlot p))
    (answered : ∀ t r, P t → P (t.answer p r [])) (served : ∀ t kind tag r, P t → P (t.answerDirect p kind tag r []))
    (decided : ∀ f t, P t → P (body f t)) : P (s.takeRequest p k body) := by
  unfold State.takeRequest
  split
  · exact stands
  · rename_i f _
    split
    · split
      · unfold State.takeUp
        dsimp only
        split
        · exact answered _ _ (begun f.tag)
        · split
          · exact answered _ _ (begun f.tag)
          · split
            · exact answered _ _ (begun f.tag)
            · split
              · exact answered _ _ (begun f.tag)
              · exact decided f _ (begun f.tag)
      · unfold State.takeDown
        dsimp only
        split
        · exact served _ _ _ _ emptied
        · split
          · exact served _ _ _ _ emptied
          · exact decided f _ emptied
      · exact stands
    · exact stands

section
variable {s : State} {p : Port} {k : Kind} {late : Bool}

theorem State.takeRequest_leaseUnit {body : Frame → State → State}
    (decided : ∀ f t, t.leaseUnit = s.leaseUnit → (body f t).leaseUnit = s.leaseUnit) :
    (s.takeRequest p k body).leaseUnit = s.leaseUnit :=
  State.takeRequest_induct (fun t => t.leaseUnit = s.leaseUnit) rfl (fun _ => rfl) rfl
    (fun t r h => (t.answer_leaseUnit p r []).trans h) (fun _ _ _ _ h => h) decided

theorem State.atEngine_leaseUnit {f : State → State} (kept : ∀ t, (f t).leaseUnit = t.leaseUnit) (s : State) :
    (s.atEngine f).leaseUnit = s.leaseUnit := (kept _).trans s.expireJobs_leaseUnit

theorem State.handEngine_leaseUnit (s : State) (h : Handed) {f : State → State}
    (kept : ∀ t, (f t).leaseUnit = t.leaseUnit) :
    (s.handOver p late h (fun t => t.atEngine f)).leaseUnit = s.leaseUnit := by
  unfold State.handOver
  split
  · rfl
  · exact State.atEngine_leaseUnit kept _

theorem State.controlEngine_leaseUnit (s : State) (x : Frame) (h : Nat → Handed) {f : Nat → State → State}
    (kept : ∀ id t, (f id t).leaseUnit = t.leaseUnit) :
    (s.control p late x h (fun id t => t.atEngine (f id))).leaseUnit = s.leaseUnit := by
  unfold State.control
  split
  · exact s.answer_leaseUnit ..
  · exact s.handEngine_leaseUnit _ (kept _)

theorem State.handSubmission_leaseUnit (s : State) (w : Submission) (length limit : Nat) :
    (s.handSubmission p late w length limit).leaseUnit = s.leaseUnit :=
  s.handEngine_leaseUnit _ (fun t => t.submit_leaseUnit ..)

theorem State.checkCopy_leaseUnit (s : State) (f : Frame) : (s.checkCopy p late f).leaseUnit = s.leaseUnit := by
  unfold State.checkCopy
  dsimp only
  split
  · exact s.answer_leaseUnit ..
  · split
    · exact s.answer_leaseUnit ..
    · split
      · exact s.answer_leaseUnit ..
      · split
        · exact s.answer_leaseUnit ..
        · split
          · exact s.answer_leaseUnit ..
          · exact s.handSubmission_leaseUnit ..

theorem State.checkFill_leaseUnit (s : State) (f : Frame) : (s.checkFill p late f).leaseUnit = s.leaseUnit := by
  unfold State.checkFill
  dsimp only
  split
  · exact s.answer_leaseUnit ..
  · split
    · exact s.answer_leaseUnit ..
    · split
      · exact s.answer_leaseUnit ..
      · exact s.handSubmission_leaseUnit ..

theorem State.checkSum_leaseUnit (s : State) (f : Frame) : (s.checkSum p late f).leaseUnit = s.leaseUnit := by
  unfold State.checkSum
  dsimp only
  split
  · exact s.answer_leaseUnit ..
  · split
    · exact s.answer_leaseUnit ..
    · split
      · exact s.answer_leaseUnit ..
      · exact s.handSubmission_leaseUnit ..

end

/-! ## Readings of the blocks -/

theorem State.takeReadings_leaseUnit {s : State} (quiet : s.leaseUnit.due = false) (rs : List Reading) (fields : List Byte) :
    (State.takeReadings rs s fields).1.leaseUnit = s.leaseUnit := by
  induction rs generalizing s fields with
  | nil => rfl
  | cons r rs ih =>
    have settled : (s.settle r.owner).leaseUnit = s.leaseUnit := by
      unfold State.settle
      split
      · rfl
      · rw [State.expireLeases_quiet quiet]
      · exact s.expireJobs_leaseUnit
    exact (ih (by rw [settled, quiet]) _).trans settled

theorem State.readOn_leaseUnit {s : State} (quiet : s.leaseUnit.due = false) (p : Port) (late : Bool) (g : Gather)
    (readings : List Reading) : (s.readOn p late g readings).leaseUnit = s.leaseUnit := by
  unfold State.readOn
  dsimp only
  split
  · exact State.takeReadings_leaseUnit quiet _ _
  · split
    · exact (State.answerIn_leaseUnit ..).trans (State.takeReadings_leaseUnit quiet _ _)
    all_goals exact State.takeReadings_leaseUnit quiet _ _

theorem State.status_leaseUnit {s : State} (quiet : s.leaseUnit.due = false) (p : Port) (k : Kind) (late : Bool)
    (readings : List Reading) : (s.status p k late readings).leaseUnit = s.leaseUnit := by
  unfold State.status
  split
  · split
    · exact State.readOn_leaseUnit quiet ..
    · rfl
  · exact State.takeRequest_leaseUnit (fun f t same =>
      (State.readOn_leaseUnit (by rw [same, quiet]) p late _ readings).trans same)

/-! ## The other port of PORT-DROP -/

theorem State.dropTarget_blocks (s : State) (p : Port) (late : Bool) (q : Port) :
    (s.dropTarget p late q).leaseUnit = s.leaseUnit ∧ (s.dropTarget p late q).engine = s.engine := by
  unfold State.dropTarget
  dsimp only
  split
  · exact ⟨State.answer_leaseUnit .., State.answer_engine ..⟩
  · exact ⟨rfl, rfl⟩
  · split <;> exact ⟨rfl, rfl⟩

theorem exec_portDrop_blocks {s t : State} {p : Port} {late : Bool} (h : exec (.portDrop p late) s = .next t) :
    t.leaseUnit = s.leaseUnit ∧ t.engine = s.engine := by
  obtain rfl := Host.Outcome.next.inj h
  refine State.takeRequest_induct (fun t => t.leaseUnit = s.leaseUnit ∧ t.engine = s.engine) ⟨rfl, rfl⟩
    (fun _ => ⟨rfl, rfl⟩) ⟨rfl, rfl⟩
    (fun t r same => ⟨(t.answer_leaseUnit p r []).trans same.1, (t.answer_engine p r []).trans same.2⟩)
    (fun _ _ _ _ same => same) (fun f t same => ?_)
  split
  · exact ⟨(t.answer_leaseUnit ..).trans same.1, (t.answer_engine ..).trans same.2⟩
  · obtain ⟨leaseUnit, engine⟩ := t.dropTarget_blocks p late _
    exact ⟨leaseUnit.trans same.1, engine.trans same.2⟩

theorem exec_downReport_blocks {s t : State} {p : Port} (h : exec (.downReport p) s = .next t) :
    t.leaseUnit = s.leaseUnit ∧ t.engine = s.engine := by
  obtain rfl := Host.Outcome.next.inj h
  split
  · exact ⟨rfl, rfl⟩
  · exact ⟨State.answerIn_leaseUnit .., State.answerIn_engine ..⟩

theorem exec_turnRequest_blocks {s t : State} {r : Requester} (h : exec (.turnRequest r) s = .next t) :
    t.leaseUnit = s.leaseUnit ∧ t.engine = s.engine := by
  obtain rfl := Host.Outcome.next.inj h
  split <;> exact ⟨rfl, rfl⟩

/-! ## The commands the engine takes -/

section
variable {c : Instr} {s t : State}

theorem State.tearJob_leaseUnit (s : State) (j : Job) : (s.tearJob j).leaseUnit = s.leaseUnit := by
  obtain ⟨-, -, leaseUnit, -⟩ := s.tearJob_outside j
  exact leaseUnit

theorem State.jobStep_leaseUnit (s : State) (p : Port) : (s.jobStep p).leaseUnit = s.leaseUnit := by
  unfold State.jobStep
  dsimp only
  rw [State.selectJob_leaseUnit, State.each_leaseUnit _ _ _ State.tearJob_leaseUnit,
    State.dropInPhase_leaseUnit]
  exact s.discardHanded_leaseUnit p .jobStep

/-- What the job engine takes up leaves the lease unit. -/
theorem exec_engine_leaseUnit (engine : reachesEngine c = true) (h : exec c s = .next t) : t.leaseUnit = s.leaseUnit := by
  cases c with
  | jobCopy p late =>
    obtain rfl := Host.Outcome.next.inj h
    split
    · exact State.atEngine_leaseUnit (fun t => t.submit_leaseUnit ..) s
    · exact State.takeRequest_leaseUnit (fun f t same => (t.checkCopy_leaseUnit f).trans same)
  | jobFill p late =>
    obtain rfl := Host.Outcome.next.inj h
    split
    · exact State.atEngine_leaseUnit (fun t => t.submit_leaseUnit ..) s
    · exact State.takeRequest_leaseUnit (fun f t same => (t.checkFill_leaseUnit f).trans same)
  | jobSum p late =>
    obtain rfl := Host.Outcome.next.inj h
    split
    · exact State.atEngine_leaseUnit (fun t => t.submit_leaseUnit ..) s
    · exact State.takeRequest_leaseUnit (fun f t same => (t.checkSum_leaseUnit f).trans same)
  | jobPause p late =>
    obtain rfl := Host.Outcome.next.inj h
    split
    · exact State.atEngine_leaseUnit (fun t => t.decidePause_leaseUnit ..) s
    · exact State.takeRequest_leaseUnit (fun f t same =>
        (t.controlEngine_leaseUnit f _ (fun id u => u.decidePause_leaseUnit p id)).trans same)
  | jobResume p late =>
    obtain rfl := Host.Outcome.next.inj h
    split
    · exact State.atEngine_leaseUnit (fun t => t.decideResume_leaseUnit ..) s
    · exact State.takeRequest_leaseUnit (fun f t same =>
        (t.controlEngine_leaseUnit f _ (fun id u => u.decideResume_leaseUnit p id)).trans same)
  | jobCancel p late =>
    obtain rfl := Host.Outcome.next.inj h
    split
    · exact State.atEngine_leaseUnit (fun t => t.decideCancel_leaseUnit ..) s
    · exact State.takeRequest_leaseUnit (fun f t same =>
        (t.controlEngine_leaseUnit f _ (fun id u => u.decideCancel_leaseUnit p id)).trans same)
  | forceCancel p late =>
    obtain rfl := Host.Outcome.next.inj h
    split
    · exact State.atEngine_leaseUnit (fun t => t.decideForceCancel_leaseUnit ..) s
    · exact State.takeRequest_leaseUnit (fun f t same =>
        (t.controlEngine_leaseUnit f _ (fun id u => u.decideForceCancel_leaseUnit p id)).trans same)
  | turnEnd =>
    cases current : s.arbiter.current with
    | none =>
      obtain rfl := Host.Outcome.next.inj ((exec_turnEnd_idle current).symm.trans h)
      rfl
    | some x =>
      rw [exec_turnEnd current] at h
      split at h
      · obtain rfl := Host.Outcome.next.inj h
        exact s.endTurn_leaseUnit ..
      · cases h
  | leaseRemovalReport =>
    obtain rfl := Host.Outcome.next.inj h
    split
    · refine State.atEngine_leaseUnit (fun t => ?_) s
      exact State.selectJob_leaseUnit _
    · rfl
  | blockLimitExpiry id =>
    obtain rfl := Host.Outcome.next.inj h
    exact s.takeBlockLimit_leaseUnit id
  | teardownJobStep p =>
    obtain rfl := Host.Outcome.next.inj h
    split
    · exact State.atEngine_leaseUnit (fun t => (t.modSteps p _).jobStep_leaseUnit p) s
    · rfl
  | teardownHistoryStep p =>
    obtain rfl := Host.Outcome.next.inj h
    split <;> rfl
  | _ => cases engine

/-- Commands that only ask the blocks leave a lease unit with nothing due. -/
theorem exec_asks_leaseUnit (asks : asksBlocks c = true) (quiet : s.leaseUnit.due = false) (h : exec c s = .next t) :
    t.leaseUnit = s.leaseUnit := by
  cases c with
  | portStatus p late =>
    obtain rfl := Host.Outcome.next.inj h
    exact State.status_leaseUnit quiet ..
  | devStatus p late =>
    obtain rfl := Host.Outcome.next.inj h
    exact State.status_leaseUnit quiet ..
  | leaseList p late =>
    obtain rfl := Host.Outcome.next.inj h
    split
    · rw [State.atLeaseUnit_quiet quiet]
      exact s.answer_leaseUnit ..
    · refine State.takeRequest_leaseUnit (fun f t same => ?_)
      unfold State.handOver
      split
      · exact same
      · dsimp only
        rw [State.atLeaseUnit_quiet (by exact (congrArg LeaseUnit.due same).trans quiet)]
        exact (State.answer_leaseUnit ..).trans same
  | jobQuery p late =>
    obtain rfl := Host.Outcome.next.inj h
    split
    · exact State.atEngine_leaseUnit (fun t => t.decideQuery_leaseUnit ..) s
    · exact State.takeRequest_leaseUnit (fun f t same =>
        (t.controlEngine_leaseUnit f _ (fun id u => u.decideQuery_leaseUnit p id)).trans same)
  | _ => cases asks

end

end Sys2Proof.Machine
end

section
/-! SUPPORT. Commands of one port leave the blocks and the other ports (R26, R31). -/

namespace Sys2Proof.Machine

/-! ## What one port's commands leave -/

/-- The blocks and the other ports stand while port `p` does its own work. -/
structure State.Apart (p : Port) (s t : State) : Prop where
  leaseUnit : t.leaseUnit = s.leaseUnit
  engine : t.engine = s.engine
  engineMail : t.mail.get .engine = s.mail.get .engine
  others : ∀ q, q ≠ p → t.ltx.get q = s.ltx.get q ∧ t.pu.get q = s.pu.get q ∧
    t.mail.get (.port q) = s.mail.get (.port q)

section
variable {p : Port} {s t : State}

theorem State.Apart.refl (p : Port) (s : State) : State.Apart p s s := ⟨rfl, rfl, rfl, fun _ _ => ⟨rfl, rfl, rfl⟩⟩

theorem State.Apart.quiet (h : State.Apart p s t) (quiet : s.Quiet) : t.Quiet := by
  obtain ⟨lease, engine⟩ := quiet
  exact ⟨(congrArg LeaseUnit.due h.leaseUnit).trans lease, (congrArg JobEngine.due h.engine).trans engine⟩

theorem State.Apart.modLrx (h : State.Apart p s t) (q : Port) (f : Receiver → Receiver) :
    State.Apart p s (t.modLrx q f) := ⟨h.leaseUnit, h.engine, h.engineMail, h.others⟩

theorem State.Apart.modLtx (h : State.Apart p s t) (f : Transmitter → Transmitter) : State.Apart p s (t.modLtx p f) :=
  { h with others := fun q other => ⟨(PerPort.get_set_ne _ _ other).trans (h.others q other).1, (h.others q other).2⟩ }

theorem State.Apart.modPu (h : State.Apart p s t) (f : PortUnit → PortUnit) : State.Apart p s (t.modPu p f) := by
  refine { h with others := fun q other => ?_ }
  obtain ⟨ltx, pu, mail⟩ := h.others q other
  exact ⟨ltx, (PerPort.get_set_ne _ _ other).trans pu, mail⟩

theorem State.Apart.modMail (h : State.Apart p s t) (f : Mail → Mail) : State.Apart p s (t.modMail (.port p) f) := by
  refine ⟨h.leaseUnit, h.engine, h.engineMail, fun q other => ?_⟩
  obtain ⟨ltx, pu, mail⟩ := h.others q other
  exact ⟨ltx, pu, (PerPort.get_set_ne _ _ other).trans mail⟩

/-! ## Replies and notices -/

theorem State.Apart.answer (h : State.Apart p s t) (r : Result) (fields : List Byte) :
    State.Apart p s (t.answer p r fields) := by
  unfold State.answer
  split
  · exact h
  · exact (h.modLtx _).modPu _

theorem State.Apart.answerIn (h : State.Apart p s t) (f : Phase) (r : Result) (fields : List Byte) :
    State.Apart p s (t.answerIn p f r fields) := by
  unfold State.answerIn
  split
  · exact h.answer ..
  · exact h

theorem State.Apart.answerDirect (h : State.Apart p s t) (kind tag : Byte) (r : Result) (fields : List Byte) :
    State.Apart p s (t.answerDirect p kind tag r fields) := h.modLtx _

theorem State.Apart.setPhase (h : State.Apart p s t) (f : Phase) : State.Apart p s (t.setPhase p f) := h.modPu _

theorem State.Apart.takeRequest (p : Port) (s : State) (k : Kind) {body : Frame → State → State}
    (decided : ∀ f t, State.Apart p s t → State.Apart p s (body f t)) : State.Apart p s (s.takeRequest p k body) :=
  State.takeRequest_induct (State.Apart p s) (.refl p s) (fun _ => (((State.Apart.refl p s).modLrx p _).modLtx _).modPu _)
    ((State.Apart.refl p s).modLrx p _) (fun _ r h => h.answer r []) (fun _ kind tag r h => h.answerDirect kind tag r [])
    decided

/-! ## The port's own decisions -/

theorem State.Apart.decideOpen (h : State.Apart p s t) (f : Frame) : State.Apart p s (t.decideOpen p f) := by
  unfold State.decideOpen
  split
  · exact h.answerDirect ..
  · split
    · exact h.answerDirect ..
    · exact (((h.modLrx p _).modLtx _).modPu _).answerDirect ..

theorem State.Apart.decideWinOpen (h : State.Apart p s t) (f : Frame) : State.Apart p s (t.decideWinOpen p f) := by
  unfold State.decideWinOpen
  dsimp only
  split
  · exact h.answer ..
  · split
    · exact h.answer ..
    · split
      · exact h.answer ..
      · split
        · exact h.answer ..
        · split
          · exact h.answer ..
          · split
            · exact h.answer ..
            · exact (h.modPu _).answer ..

theorem State.Apart.decideWinClose (h : State.Apart p s t) (f : Frame) : State.Apart p s (t.decideWinClose p f) := by
  unfold State.decideWinClose
  dsimp only
  split
  · exact h.answer ..
  · split
    · exact h.answer ..
    · exact (h.modPu _).answer ..

/-- An access is asked for in the port's own name. -/
theorem State.Apart.beginAccess (h : State.Apart p s t) (o : PortOperation) {a : Access} (own : a.requester = .port p) :
    State.Apart p s (t.beginAccess p o a) := by
  unfold State.beginAccess State.askAdmission
  rw [own]
  exact ((h.modPu _).setPhase _).modMail _

theorem State.Apart.decideRead (h : State.Apart p s t) (f : Frame) : State.Apart p s (t.decideRead p f) := by
  unfold State.decideRead
  dsimp only
  split
  · exact h.answer ..
  · split
    · exact h.answer ..
    · split
      · exact h.answer ..
      · exact h.beginAccess _ rfl

theorem State.Apart.decideWrite (h : State.Apart p s t) (f : Frame) : State.Apart p s (t.decideWrite p f) := by
  unfold State.decideWrite
  dsimp only
  split
  · exact h.answer ..
  · split
    · exact h.answer ..
    · split
      · exact h.answer ..
      · exact h.beginAccess _ rfl

theorem State.Apart.decideExchangeIf (h : State.Apart p s t) (f : Frame) : State.Apart p s (t.decideExchangeIf p f) := by
  unfold State.decideExchangeIf
  dsimp only
  split
  · exact h.answer ..
  · split
    · exact h.answer ..
    · split
      · exact h.answer ..
      · split
        · exact h.answer ..
        · exact h.beginAccess _ rfl

/-! ## Readings, when nothing is due at the blocks -/

theorem State.Apart.readOn (h : State.Apart p s t) (quiet : s.Quiet) (late : Bool) (g : Gather) (readings : List Reading) :
    State.Apart p s (t.readOn p late g readings) := by
  obtain ⟨lease, engine⟩ := h.quiet quiet
  unfold State.readOn
  simp only [State.takeReadings_quiet lease engine]
  split
  · exact h.modPu _
  · split
    · exact (h.modPu _).answerIn ..
    · exact (h.modPu _).answerDirect ..
    · exact (h.modPu _).answerDirect ..

theorem State.Apart.status (quiet : s.Quiet) (k : Kind) (late : Bool) (readings : List Reading) :
    State.Apart p s (s.status p k late readings) := by
  unfold State.status
  split
  · split
    · exact (State.Apart.refl p s).readOn quiet late _ readings
    · exact .refl p s
  · exact .takeRequest p s k (fun _ _ h => h.readOn quiet late _ readings)

theorem State.Apart.decideQuery (h : State.Apart p s t) (id : Nat) : State.Apart p s (t.decideQuery p id) := by
  unfold State.decideQuery
  split
  · exact h.answer ..
  · split
    · exact h.answer ..
    · exact h.answer ..

theorem State.Apart.handOver (h : State.Apart p s t) (late : Bool) (x : Handed) {decide : State → State}
    (decided : ∀ u, State.Apart p s u → State.Apart p s (decide u)) : State.Apart p s (t.handOver p late x decide) := by
  unfold State.handOver
  split
  · exact h.setPhase _
  · exact decided _ (h.setPhase _)

/-! ## Teardown -/

theorem State.Apart.beginTeardown (h : State.Apart p s t) (c : Cause) : State.Apart p s (t.beginTeardown p c) := by
  obtain ⟨m, x, o, f, -, parts⟩ := t.beginTeardown_parts p c
  rw [parts]
  exact (((h.modLrx p _).modMail _).modLtx _).modPu _

theorem State.Apart.takeBreak (h : State.Apart p s t) : State.Apart p s (t.takeBreak p) := by
  have flushed : State.Apart p s (t.orderFlush p) := (h.modLtx _).modPu _
  unfold State.takeBreak
  split
  · exact flushed.beginTeardown _
  · exact flushed.modPu _
  · exact flushed

theorem State.Apart.takeDropOrder (h : State.Apart p s t) (waiting : Bool) : State.Apart p s (t.takeDropOrder p waiting) := by
  unfold State.takeDropOrder
  split
  · split
    · exact State.Apart.beginTeardown (h.modLtx _) _
    · exact h.beginTeardown _
  · exact h
  · exact h.modPu _

theorem State.Apart.of_line (kept : State.LineKept p s t) : State.Apart p s t :=
  ⟨kept.leaseUnit, kept.engine, congrArg (fun m => m.get .engine) kept.mail, fun q other =>
    ⟨kept.ltx q other, kept.others q other, congrArg (fun m => m.get (.port q)) kept.mail⟩⟩

theorem State.Apart.next {u : State} (k : State.Apart p s t)
    (h : (.next t : Host.Outcome State Fault Refusal) = .next u) : State.Apart p s u := by
  obtain rfl := Host.Outcome.next.inj h
  exact k

end

/-! ## Every command of one port -/

theorem exec_apart {c : Instr} {p : Port} {s t : State} (own : onePort c = some p) (quiet : asksBlocks c = true → s.Quiet)
    (h : exec c s = .next t) : State.Apart p s t := by
  have o := State.Apart.refl p s
  cases c with
  | openSession q =>
    cases own
    exact .next (.takeRequest p s _ (fun f _ h => h.decideOpen f)) h
  | close q =>
    cases own
    exact .next (.takeRequest p s _ (fun _ _ h => (h.setPhase _).beginTeardown _)) h
  | portStatus q late =>
    cases own
    exact .next (.status (quiet rfl) _ late _) h
  | devStatus q late =>
    cases own
    exact .next (.status (quiet rfl) _ late _) h
  | winOpen q =>
    cases own
    exact .next (.takeRequest p s _ (fun f _ h => h.decideWinOpen f)) h
  | winClose q =>
    cases own
    exact .next (.takeRequest p s _ (fun f _ h => h.decideWinClose f)) h
  | winList q =>
    cases own
    exact .next (.takeRequest p s _ (fun _ _ h => h.answer ..)) h
  | read q =>
    cases own
    exact .next (.takeRequest p s _ (fun f _ h => h.decideRead f)) h
  | write q =>
    cases own
    exact .next (.takeRequest p s _ (fun f _ h => h.decideWrite f)) h
  | exchangeIf q =>
    cases own
    exact .next (.takeRequest p s _ (fun f _ h => h.decideExchangeIf f)) h
  | leaseList q late =>
    cases own
    refine .next ?_ h
    split
    · rw [State.atLeaseUnit_quiet (quiet rfl).1]
      exact o.answer ..
    · refine .takeRequest p s _ (fun _ _ h => h.handOver late _ (fun u k => ?_))
      rw [State.atLeaseUnit_quiet (k.quiet (quiet rfl)).1]
      exact k.answer ..
  | jobQuery q late =>
    cases own
    refine .next ?_ h
    split
    · rw [State.atEngine_quiet (quiet rfl).2]
      exact o.decideQuery _
    · refine .takeRequest p s _ (fun f _ h => ?_)
      unfold State.control
      split
      · exact h.answer ..
      · refine h.handOver late _ (fun u k => ?_)
        dsimp only
        rw [State.atEngine_quiet (k.quiet (quiet rfl)).2]
        exact k.decideQuery _
  | unknownKind q =>
    cases own
    refine .next ?_ h
    split
    · exact o
    · split
      · exact o
      · exact (o.modLrx p _).answerDirect ..
  | breakReport q =>
    cases own
    refine .next ?_ h
    split
    · exact o
    · exact (o.modPu _).takeBreak
  | dropOrder q =>
    cases own
    refine .next ?_ h
    split
    · exact o
    · split
      · exact o
      · exact (o.modPu _).takeDropOrder _
  | sessionDown q =>
    cases own
    refine .next ?_ h
    split
    · exact ((o.answer ..).modPu _).modLtx _
    · exact o
  | frameSent q =>
    cases own
    exact .next (o.modLtx _) h
  | frameComplete q idle char | lengthDiscard q idle char | cutDiscard q idle char | framingDiscard q idle char
  | assemblyBegins q idle char | characterAppended q idle char | lineBreak q bits | breakEnd q bits =>
    cases own
    exact .next (.of_line (s.line_kept p _)) h
  | _ => cases own

/-! ## The blocks -/

section
variable {c : Instr} {s t : State}

theorem exec_keeps_leaseUnit (reset : ofReset c = false) (unreached : reachesLeaseUnit c = false)
    (quiet : asksBlocks c = true → s.leaseUnit.due = false) (h : exec c s = .next t) : t.leaseUnit = s.leaseUnit := by
  by_cases asks : asksBlocks c = true
  · exact exec_asks_leaseUnit asks (quiet asks) h
  · by_cases engine : reachesEngine c = true
    · exact exec_engine_leaseUnit engine h
    · cases one : onePort c with
      | some p => exact (exec_apart one (fun k => absurd k asks) h).leaseUnit
      | none =>
        cases c with
        | portDrop p late => exact (exec_portDrop_blocks h).1
        | downReport p => exact (exec_downReport_blocks h).1
        | turnRequest r => exact (exec_turnRequest_blocks h).1
        | _ => simp_all [ofReset, onePort, reachesLeaseUnit, reachesEngine]

theorem exec_keeps_engine (reset : ofReset c = false) (unreached : reachesLeaseUnit c = false)
    (unreached' : reachesEngine c = false) (quiet : asksBlocks c = true → s.Quiet) (h : exec c s = .next t) :
    t.engine = s.engine := by
  cases one : onePort c with
  | some p => exact (exec_apart one quiet h).engine
  | none =>
    cases c with
    | portDrop p late => exact (exec_portDrop_blocks h).2
    | downReport p => exact (exec_downReport_blocks h).2
    | turnRequest r => exact (exec_turnRequest_blocks h).2
    | _ => simp_all [ofReset, onePort, reachesLeaseUnit, reachesEngine]

end

/-- Settles O5. -/
theorem commandsLeaveWhatIsNotTheirs : Obligations.CommandsLeaveWhatIsNotTheirs := by
  unfold Obligations.CommandsLeaveWhatIsNotTheirs
  intro c s t reset h
  obtain ⟨straps, resetLine, epoch, resets, -, time, arbiter, -, lrx, unit⟩ := exec_framed reset h
  refine ⟨straps, resetLine, epoch, resets, time, arbiter, lrx, fun q => (unit q).windows, fun q openSession down => ?_,
    fun unreached quiet => exec_keeps_leaseUnit reset unreached quiet h,
    fun unreached unreached' quiet => exec_keeps_engine reset unreached unreached' quiet h, fun p own quiet => ?_⟩
  · obtain ⟨mask, label⟩ := (unit q).names openSession down
    exact ⟨mask, label, (unit q).session openSession down⟩
  · have apart := exec_apart own quiet h
    exact ⟨apart.engineMail, apart.others⟩

end Sys2Proof.Machine
end
